-- ==== Sys2Proof/Word.lean ====
section
/-! DEFINITION. The word types of the Spexis 940 (R4, R9, R15, R80). -/
namespace Sys2Proof

/-- One byte of memory or of scratchpad (R4). -/
abbrev Byte := BitVec 8

/-- An instruction word, a lane register or a tile element (R9, R80). -/
abbrev W32 := BitVec 32

/-- A scalar register, a mask, an address or a literal (R15). -/
abbrev W64 := BitVec 64

/-- A sparse store of values under number keys: keys strictly rising, no entry equal to the value an
unlisted key reads as. The operations and the canonical form stand in Machine/Ops.lean. -/
abbrev SMap (α : Type) := List (Nat × α)

end Sys2Proof
end

