-- ==== Sys2Proof/Config.lean ====
section
/-! DEFINITION. What the module fixes (R3, R71, R244) and the values the manual leaves open. -/
namespace Sys2Proof.Config

/-- Cores of the module: 128 per Bexene die (R1, R3). -/
def cores : Nat := 256
/-- Cores per die (R1). -/
def coresPerDie : Nat := 128
/-- Pool granules of one core that can be allotted: 1 to 1,535 (R71). -/
def poolGranules : Nat := 1535
/-- Named barrier objects per core (R3, R72). -/
def barrierObjects : Nat := 48
/-- Teams resident per core (R3, R310). -/
def teamsPerCore : Nat := 16
/-- Groups resident per slot (R37). -/
def groupsPerSlot : Nat := 16
/-- Leased L1 lines per core (R196). -/
def leaseBudget : Nat := 1792
/-- Ways of an L1 set (R190). -/
def l1Ways : Nat := 16
/-- Sets of the L1 (R190). -/
def l1Sets : Nat := 128
/-- Entries of the victim-tag array (R200). -/
def victimTags : Nat := 1024
/-- Entries of the quench buffer (R212). -/
def quenchEntries : Nat := 16
/-- Entries of a core's L1 TLB (R368). -/
def coreTlb : Nat := 128
/-- Entries of a die's L2 TLB (R368). -/
def dieTlb : Nat := 16384
/-- Lines of one L2 set (R204). -/
def l2Ways : Nat := 16
/-- Words of a core's instruction cache of 64 KiB (R3). -/
def icacheWords : Nat := 16384
/-- Cycles of a lease window (R198). -/
def leaseWindow : Nat := 65536
/-- Launches a queue may hold (R302, R308). -/
def queueDepth : Nat := 256
/-- Cycles of one microsecond at 4 GHz (R3). -/
def cyclesPerMicro : Nat := 4000
/-- Sequences of the module (R332). -/
def maxSequences : Nat := 1048576
/-- Attention blocks of one Gelrad die (R337). -/
def dieBlocks : Nat := 4194304
/-- Overflow entries of one Gelrad die (R338). -/
def dieOverflow : Nat := 65536
/-- Arena pages of the module (R371). -/
def maxArenaPages : Nat := 1048576

/-- FREE VALUE: which of several agents that may act next does so (R39, R352, R401: the manual fixes no order
between them). Applied to Chip.fresh. -/
opaque arbiter : Nat → Nat
/-- FREE VALUE: how far past acceptance + 64 a promised cycle lies (R250). Applied to Chip.fresh. -/
opaque promiseSlack : Nat → Nat
/-- FREE VALUE: which bytes of a failing copy were moved, and which failure it met first (R257, R269).
Applied to Chip.fresh and the byte's number. -/
opaque partialCopy : Nat → Nat → Bool
/-- FREE VALUE: the order in which the bytes of a copy or the units of a gather that meet each other are moved (R257,
R259). Applied to Chip.fresh and the number of the byte or unit. -/
opaque moveOrder : Nat → Nat → Nat
/-- FREE VALUE: whether a byte of a copy that overlaps itself was read before the copy wrote its source (R257).
Applied to Chip.fresh and the byte's number. -/
opaque readsEarly : Nat → Nat → Bool
/-- FREE VALUE: the status, of those its bytes met, that a failing copy ends with (R257). Applied to Chip.fresh. -/
opaque firstFailure : Nat → Nat
/-- FREE VALUE: the bytes the device writes at CTXSAVE (R374: the layout is private). Chip.fresh at the suspension,
offset. -/
opaque saveArea : Nat → Nat → BitVec 8
/-- FREE VALUE: the counter records that a resume restores from a changed save area (R374). Chip.fresh, counter number,
record word. -/
opaque restored : Nat → Nat → Nat → BitVec 64
/-- FREE VALUE: the queue contents that a resume restores from a changed save area (R374): queue numbers and
descriptors. Chip.fresh. -/
opaque restoredQueue : Nat → List (Nat × List (BitVec 64))
/-- FREE VALUE: whether an engine operation of a discarded team is dropped (R269). Chip.fresh. -/
opaque dropsOperation : Nat → Bool
/-- FREE VALUE: BOOTCNT as fused at manufacture and counted up to the first reset of a run (R386). -/
opaque bootCount : BitVec 32
/-- FREE VALUE: the serial number (R387). -/
opaque serial : BitVec 64
/-- FREE VALUE: whether the Ed448 signature of start-up image k verifies (R386: the key is fused). -/
opaque imageSigned : Nat → Bool
/-- FREE VALUE: the 64-byte digest of start-up image k (R386: the images are not in the manual). -/
opaque imageDigest : Nat → BitVec 512
/-- FREE VALUE: the digest of the configuration data with which the loader extends MREG k, 5 to 7 (R386). -/
opaque loaderDigest : Nat → BitVec 512
/-- FREE VALUE: whether the loader extends MREG 5 to 7 before image k has been verified (R386 gives no moment). -/
opaque loaderEarly : Nat → Bool
/-- FREE VALUE: the Ed448 signature of a report's digest (R387: the identity key derives from a fused secret). Byte i
of 114. -/
opaque reportSignature : List (BitVec 8) → Nat → BitVec 8
/-- FREE VALUE: the payloads of the flits that carry a transfer (R383 gives no layout of a transfer's bytes). Applied to
Chip.fresh. -/
opaque transferFlits : Nat → List (List (BitVec 8))
/-- FREE VALUE: the module's power in the microsecond just ended, in W (R389). Applied to Chip.fresh. -/
opaque powerReading : Nat → Nat
/-- FREE VALUE: whether a throttled slot is withheld an issue cycle (R389). Applied to Chip.fresh. -/
opaque withheld : Nat → Bool
/-- FREE VALUE: a token that names a parked unit (R260); made distinct by the counter it is applied to. -/
opaque tokenSalt : BitVec 64
/-- FREE VALUE: the value of a pending load of a changing word is fixed elsewhere; this one is the order in which
distinct addresses of one atom take effect (R235). Applied to Chip.fresh. -/
opaque addressOrder : Nat → Nat
/-- FREE VALUE: the entry a full TLB gives up (R368 states capacities and no replacement). Applied to Chip.fresh. -/
opaque tlbVictim : Nat → Nat
/-- FREE VALUE: the word a full instruction cache gives up (R3, R34 state a capacity and no replacement). Applied to
Chip.fresh. -/
opaque icacheVictim : Nat → Nat
/-- FREE VALUE: the set of its home slice, of 1,024, that holds a line (R204 gives the slice alone). Applied to the
line's address over 128. -/
opaque l2Set : Nat → Nat
/-- FREE VALUE: whether a fetch of a word that has changed since the core fetched it returns the value before the change
(R34). Applied to the cycle, the core and the word's address. -/
opaque staleFetch : Nat → Nat → Nat → Bool
/-- FREE VALUE: whether the hash unit sees an ordinary scratchpad store late, or ordinary accesses a write of the hash unit (R286).
Applied to Chip.fresh and the address written over 8. -/
opaque hashLags : Nat → Nat → Bool
/-- FREE VALUE: the port a hash of (source, destination, SET, TAG) picks among a route's ports (R384). -/
opaque routeHash : Nat → Nat → Nat → Nat → Nat

end Sys2Proof.Config
end

