-- ==== Sys2Proof/Syntax.lean ====
section
/-! DEFINITION. The instruction set as data: one constructor of Instr for each row of spec/opcode_table.json. -/
namespace Sys2Proof

/-- Operand types (R11). -/
inductive Ty where
  | s32 | z32 | f32 | f16 | bf16 | s64 | z64 | lg6
  deriving DecidableEq, Repr

/-- Rounding modes (R11, R100): nearest even, toward zero, toward minus infinity, toward plus infinity. -/
inductive Rnd where
  | rn | rz | rm | rp
  deriving DecidableEq, Repr

/-- The forms an instruction with an E form may take (R9); a literal is part of the form. -/
inductive Form where
  | e
  | el (lit : W64)
  | bl (lit : W64)
  deriving DecidableEq, Repr

/-- The fields of an E, E+L or B+L instruction (R9, R10). In a two-address B+L form `a` holds the destination
number and `b` the source, as the equivalent E form has them (R19). -/
structure Enc where
  form  : Form
  q     : BitVec 4
  stall : BitVec 3
  d     : BitVec 8
  a     : BitVec 8
  b     : BitVec 8
  c     : BitVec 8
  as_   : Bool
  bs    : Bool
  sat   : Bool
  rnd   : Rnd
  ty    : Ty
  imm   : W32
  deriving DecidableEq, Repr

/-- The fields of a one-word B instruction (R9, R19). -/
structure BEnc where
  q     : BitVec 4
  stall : BitVec 3
  d     : BitVec 8
  a     : BitVec 8
  deriving DecidableEq, Repr

/-- The fields of a P instruction (R25). -/
structure PEnc where
  q     : BitVec 4
  stall : BitVec 3
  d1    : BitVec 8
  a1    : BitVec 8
  b1    : BitVec 8
  p1    : BitVec 6
  d2    : BitVec 8
  a2    : BitVec 8
  b2    : BitVec 8
  p2    : BitVec 6
  deriving DecidableEq, Repr

/-- Integer relations of cmp (R117). -/
inductive Rel where
  | eq | ne | lt | le | gt | ge
  deriving DecidableEq, Repr

/-- Relations of fcmp (R121, R124). -/
inductive FRel where
  | eq | ne | lt | le | gt | ge | unord | ord
  deriving DecidableEq, Repr

/-- Relations of scmp (R137). -/
inductive SRel where
  | eq | ne | lt | le | gt | ge | ltz | lez | gtz | gez
  deriving DecidableEq, Repr

/-- Conversion pairs of cvt, destination first (R128). -/
inductive CvtPair where
  | f16F32 | bf16F32 | f32F16 | f32Bf16 | bf16F16 | f16Bf16
  | s32F32 | z32F32 | s64F32 | z64F32 | s32F16 | s32Bf16
  | f32S32 | f32Z32 | f32S64 | f32Z64 | f16S32 | bf16S32
  | s64S32 | z64Z32 | s32S64 | z32Z64
  deriving DecidableEq, Repr

/-- The 16-bit format a pack or unpk names (R130). -/
inductive Half where
  | bf16 | f16
  deriving DecidableEq, Repr

/-- Signed or unsigned bytes of pack and unpk (R130). -/
inductive Sign where
  | s | z
  deriving DecidableEq, Repr

/-- Widths of match (R66). -/
inductive MatchSize where
  | s32 | s64
  deriving DecidableEq, Repr

/-- Operations of rdc (R67). -/
inductive RdcOp where
  | addS32 | addF32 | minS32 | maxS32 | minF32 | maxF32 | and | or | xor
  deriving DecidableEq, Repr

/-- Operations of scan (R68). -/
inductive ScanOp where
  | s32Inc | s32Exc | f32Inc | f32Exc
  deriving DecidableEq, Repr

/-- Operations of topk (R69). -/
inductive TopkOp where
  | f32 | s32 | f32Nz | s32Nz
  deriving DecidableEq, Repr

/-- Load types of lds and ldg (R89, R217). -/
inductive LdType where
  | s8 | z8 | s16 | z16 | w32 | w64 | w128
  deriving DecidableEq, Repr

/-- Store widths of sts and stg (R89, R217). -/
inductive StWidth where
  | w8 | w16 | w32 | w64 | w128
  deriving DecidableEq, Repr

/-- The 32-bit accumulate operations of hop (R279). -/
inductive HopAcc where
  | addS32 | addF32 | minS32 | maxS32 | minF32 | maxF32
  deriving DecidableEq, Repr

/-- Operations of atom (R234). -/
inductive AtomOp where
  | addS32 | addF32 | addBf16x2 | minS32 | maxS32 | minZ32 | maxZ32 | and | or | xor | swap | addS64 | swapS64
  deriving DecidableEq, Repr

/-- Classes of outstanding operations (R247). -/
inductive EngClass where
  | copy | index | drain | blend | attn | coll
  deriving DecidableEq, Repr

/-- What the other members of a device set bring to a collective command (R262): their bytes in ascending rank
(this module's own place is passed over), and whether the links carried them. -/
structure CollPeers where
  data   : List (List Byte)
  linkOk : Bool
  /-- TAG of the other side's command (R262) -/
  tag    : Nat := 0
  deriving DecidableEq, Repr

/-- A word of a team's pool granules that an instruction may read (R160): a scratchpad word by its address, an element
of a tile by its index, or a lane's register by the group's grpidx. -/
inductive PoolWord where
  | sp (addr : Nat)
  | tile (t element : Nat)
  | reg (grpidx n lane : Nat)
  deriving DecidableEq, Repr

/-- Where a storage error is detected (R375, R376). -/
inductive EccSite where
  | pool (word : PoolWord) (byte : Nat)
  | barrier (team barrier : Nat)
  | mailbox (core index : Nat)
  | l1 (core pa : Nat)
  | l2 (pa : Nat)
  | memory (pa : Nat)
  | instructionCache (core : Nat)
  | tlb (core : Nat)
  | gelradBlock (owner logical : Nat)
  /-- a link's retry has failed during an engine operation, or while a store to a word was under way (R388) -/
  | link (op : Nat)
  | storeLink (pa : Nat)
  deriving DecidableEq, Repr

/-- A memory-mapped or configuration register that a write names (R378, R382, R371). -/
inductive MmReg where
  | bar0 (offset : Nat)
  | doorbell (context offset : Nat)
  | config (number : W64)
  deriving DecidableEq, Repr

/-- What a Lysob flit carries beside its TYPE and its CRC (R383). -/
structure Flit where
  seq     : BitVec 12
  cred    : BitVec 16
  payload : List Byte
  deriving DecidableEq, Repr

/-- What an event acts on or brings: numbers of a group, team, operation, context or port, a register value, the
bytes of a host access, of a nonce or of a flit. The event rows of Instr have no fields of their own; State.event holds
these for the event being taken. -/
structure EvArg where
  a     : Nat := 0
  b     : Nat := 0
  w     : W64 := 0#64
  yes   : Bool := false
  bytes : List Byte := []
  peers : CollPeers := { data := [], linkOk := true }
  site  : EccSite := .memory 0
  reg   : MmReg := .bar0 0
  deriving DecidableEq, Repr

/-- The instructions and the events of the machine: one constructor for each row of spec/opcode_table.json.
Instructions carry their fields; what an event acts on stands in State.event (EvArg). -/
inductive Instr where
  | nop (e : Enc)
  | nopB (b : BEnc)
  | br (e : Enc)
  | jmp (e : Enc)
  | call (e : Enc)
  | ret (e : Enc)
  | retB (b : BEnc)
  | jsetM (e : Enc)
  | jsetAct (e : Enc)
  | jclr (e : Enc)
  | jwait (e : Enc)
  | exit (e : Enc)
  | exitB (b : BEnc)
  | exitc (e : Enc)
  | seg (e : Enc)
  | segB (b : BEnc)
  | sleepUntil (e : Enc)
  | sleepCyc (e : Enc)
  | sleepPrm (e : Enc)
  | gsr (e : Enc)
  | ssr (e : Enc)
  | add (e : Enc)
  | addB (b : BEnc)
  | sub (e : Enc)
  | subB (b : BEnc)
  | mul (e : Enc)
  | mulB (b : BEnc)
  | mulh (e : Enc)
  | mad (e : Enc)
  | min (e : Enc)
  | minB (b : BEnc)
  | max (e : Enc)
  | maxB (b : BEnc)
  | abs (e : Enc)
  | and (e : Enc)
  | andB (b : BEnc)
  | or (e : Enc)
  | orB (b : BEnc)
  | xor (e : Enc)
  | xorB (b : BEnc)
  | not (e : Enc)
  | notB (b : BEnc)
  | shl (e : Enc)
  | shlB (b : BEnc)
  | shr (e : Enc)
  | shrB (b : BEnc)
  | sar (e : Enc)
  | sarB (b : BEnc)
  | fsh (e : Enc)
  | bfx (e : Enc)
  | bfi (e : Enc)
  | popc (e : Enc)
  | clz (e : Enc)
  | brev (e : Enc)
  | perm (e : Enc)
  | cmp (rel : Rel) (e : Enc)
  | sel (e : Enc)
  | mov (e : Enc)
  | movB (b : BEnc)
  | lea (e : Enc)
  | sad (e : Enc)
  | fadd (e : Enc)
  | faddB (b : BEnc)
  | fsub (e : Enc)
  | fsubB (b : BEnc)
  | fmul (e : Enc)
  | fmulB (b : BEnc)
  | fma (e : Enc)
  | fmin (e : Enc)
  | fminB (b : BEnc)
  | fmax (e : Enc)
  | fmaxB (b : BEnc)
  | fneg (e : Enc)
  | fabs (e : Enc)
  | fcopysign (e : Enc)
  | fcmp (rel : FRel) (e : Enc)
  | fdot2 (e : Enc)
  | fclass (e : Enc)
  | frnd (e : Enc)
  | fscale (e : Enc)
  | cvt (pair : CvtPair) (e : Enc)
  | pack16 (half : Half) (e : Enc)
  | pack8 (sg : Sign) (e : Enc)
  | unpk16 (half : Half) (e : Enc)
  | unpk8 (sg : Sign) (e : Enc)
  | sfuRcp (e : Enc)
  | sfuRsqrt (e : Enc)
  | sfuSqrt (e : Enc)
  | sfuExp2 (e : Enc)
  | sfuLog2 (e : Enc)
  | lgqCode (e : Enc)
  | lgqPairs (e : Enc)
  | lgx (e : Enc)
  | lgpkPack (e : Enc)
  | lgpkUnpack (e : Enc)
  | voteAny (e : Enc)
  | voteAll (e : Enc)
  | voteBallot (e : Enc)
  | voteCount (e : Enc)
  | lxGet (e : Enc)
  | lxRise (e : Enc)
  | lxFall (e : Enc)
  | lxFlip (e : Enc)
  | lxTurn (e : Enc)
  | matchLanes (sz : MatchSize) (e : Enc)
  | rdc (rop : RdcOp) (e : Enc)
  | scan (sop : ScanOp) (e : Enc)
  | topk (top : TopkOp) (e : Enc)
  | rank (e : Enc)
  | elect (e : Enc)
  | saluAdd (e : Enc)
  | saluSub (e : Enc)
  | saluMul (e : Enc)
  | saluAnd (e : Enc)
  | saluOr (e : Enc)
  | saluXor (e : Enc)
  | saluShl (e : Enc)
  | saluShr (e : Enc)
  | saluSar (e : Enc)
  | saluMinS (e : Enc)
  | saluMaxS (e : Enc)
  | saluMinZ (e : Enc)
  | saluMaxZ (e : Enc)
  | saluMov (e : Enc)
  | saluLea (e : Enc)
  | saluNot (e : Enc)
  | scmp (rel : SRel) (e : Enc)
  | sbrNz (e : Enc)
  | sbrZ (e : Enc)
  | bcast (e : Enc)
  | pick (e : Enc)
  | mmovAnd (e : Enc)
  | mmovOr (e : Enc)
  | mmovXor (e : Enc)
  | mmovAndn (e : Enc)
  | mmovNot (e : Enc)
  | mmovFroms (e : Enc)
  | mmovTos (e : Enc)
  | mmovPopc (e : Enc)
  | pair (p : PEnc)
  | illegal (ws : List W32)
  | lds (ld : LdType) (e : Enc)
  | sts (st : StWidth) (e : Enc)
  | ldsv (e : Enc)
  | stsv (e : Enc)
  | movx (e : Enc)
  | ldh (e : Enc)
  | mmaBf16 (e : Enc)
  | mmaF16 (e : Enc)
  | mmaS8 (e : Enc)
  | mmaZ8 (e : Enc)
  | mmaLg6 (e : Enc)
  | tzero (e : Enc)
  | tld (e : Enc)
  | tst (e : Enc)
  | tcvt (e : Enc)
  | tdrain (e : Enc)
  | tdrainAdd (e : Enc)
  | tadd (e : Enc)
  | ksetFroms (e : Enc)
  | ksetNonzero (e : Enc)
  | ksetAnd (e : Enc)
  | ksetOr (e : Enc)
  | ksetNot (e : Enc)
  | sldFwd (e : Enc)
  | sldBwd (e : Enc)
  | sstBlend (e : Enc)
  | sstWrite (e : Enc)
  | sstAdd (e : Enc)
  | sstBwd (e : Enc)
  | hardIdx (e : Enc)
  | hardOnehot (e : Enc)
  | sinit (e : Enc)
  | sinitRel (e : Enc)
  | sfence (e : Enc)
  | stape (e : Enc)
  | sseq (e : Enc)
  | hclaim (e : Enc)
  | hrel (e : Enc)
  | hclr (e : Enc)
  | hopIns (e : Enc)
  | hopProbe (e : Enc)
  | hopDel (e : Enc)
  | hopAcc (acc : HopAcc) (e : Enc)
  | hopIns64 (e : Enc)
  | hopProbe64 (e : Enc)
  | hopDel64 (e : Enc)
  | hopAcc64 (e : Enc)
  | hdrainKeep (e : Enc)
  | hdrainClear (e : Enc)
  | hstat (e : Enc)
  | ldg (ld : LdType) (e : Enc)
  | stg (st : StWidth) (e : Enc)
  | ldsc (e : Enc)
  | stsc (e : Enc)
  | leaseSet (e : Enc)
  | leaseGet (e : Enc)
  | leaseMode (e : Enc)
  | leasePref (e : Enc)
  | atom (aop : AtomOp) (e : Enc)
  | fenceAcq (e : Enc)
  | fenceRel (e : Enc)
  | fenceAr (e : Enc)
  | ldac (e : Enc)
  | strl (e : Enc)
  | pushCopy (e : Enc)
  | pushIndex (e : Enc)
  | pushAttn (e : Enc)
  | pushColl (e : Enc)
  | wcnt (cls : EngClass) (e : Enc)
  | barInit (e : Enc)
  | barArrive (e : Enc)
  | barWait (e : Enc)
  | barSync (e : Enc)
  | barExpect (e : Enc)
  | barQuery (e : Enc)
  | mbxSend (e : Enc)
  | mbxRecv (e : Enc)
  | mbxPeek (e : Enc)
  | spawn (e : Enc)
  | fw (e : Enc)
  | rgnEnter (e : Enc)
  | jobCwait (e : Enc)
  | jobCadd (e : Enc)
  | jobCaddInit (e : Enc)
  | jobCancel (e : Enc)
  | jobFork (e : Enc)
  | trap (e : Enc)
  | brk (e : Enc)
  | rft (e : Enc)
  | sysTlbinvLeaf (e : Enc)
  | sysTlbinvContext (e : Enc)
  | sysTlbinvAll (e : Enc)
  | sysCfgrd (e : Enc)
  | sysCfgwr (e : Enc)
  | sysFqreplayRetry (e : Enc)
  | sysFqreplayDiscard (e : Enc)
  | sysHaltEnable (e : Enc)
  | sysHaltSuspend (e : Enc)
  | sysHaltResume (e : Enc)
  | sysHaltTeardown (e : Enc)
  | joinTimeout
  | sleepWake
  | divergenceStarvation
  | drainRowApply
  | storageErrorReport
  | softOpApply
  | hashStep
  | leaseWindowEnd
  | quenchEntryTimeout
  | atomApply
  | cpLin
  | cp2d
  | cpFill
  | gaRows
  | gaElems
  | scElems
  | clAllred
  | clAllgat
  | clSend
  | clRecv
  | collectiveTimeout
  | fwReply
  | teamPlace
  | teamRetire
  | agingStep
  | preemptRequest
  | regionOverrun
  | kvNew
  | kvAppend
  | kvFork
  | kvRelease
  | kvCompact
  | kvAttn
  | kvRead
  | kvCancelRelease
  | arenaAdd
  | eccError
  | poolGranuleClear
  | doorbellSubmit
  | doorbellCancel
  | doorbellNotify
  | cfgcmdRead
  | cfgcmdWrite
  | cfgcmdHalt
  | hostWindowRead
  | hostWindowWrite
  | attgo
  | attestationPeerRequest
  | registerWrite
  | lysobDataFlit
  | lysobAck
  | lysobNak
  | lysobCredit
  | lysobIdle
  | lysobPortTrained
  | powerAverageStep
  | thermalLimit
  | fundamentalReset
  | lysobCrcError
  | hostAtomicopCompletion
  deriving DecidableEq, Repr

end Sys2Proof
end

