-- ==== Sys2Proof/Machine/Encoding.lean ====
section
/-! DEFINITION. The encoding tables of the manual: field codes (R11, R29), operand classes (R14, R15), and for each
instruction row its opcode, function code, forms and the reading of every field. Written from the encoding tables of
the chapters that own the instructions; decoding and encoding are read off these rows. -/
namespace Sys2Proof

/-- The three bits of a type (R11). -/
def Ty.bits : Ty → BitVec 3
  | .s32 => 0 | .z32 => 1 | .f32 => 2 | .f16 => 3 | .bf16 => 4 | .s64 => 5 | .z64 => 6 | .lg6 => 7

/-- The type of three bits (R11). -/
def Ty.ofBits (b : BitVec 3) : Ty :=
  match b.toNat with
  | 0 => .s32 | 1 => .z32 | 2 => .f32 | 3 => .f16 | 4 => .bf16 | 5 => .s64 | 6 => .z64 | _ => .lg6

/-- Whether a type is 64 bits wide (R14). -/
def Ty.is64 : Ty → Bool
  | .s64 | .z64 => true
  | _ => false

/-- Whether a type reads integers as signed (R97). -/
def Ty.signed : Ty → Bool
  | .s32 | .s64 => true
  | _ => false

/-- The two bits of a rounding mode (R11). -/
def Rnd.bits : Rnd → BitVec 2
  | .rn => 0 | .rz => 1 | .rm => 2 | .rp => 3

/-- The rounding mode of two bits (R11). -/
def Rnd.ofBits (b : BitVec 2) : Rnd :=
  match b.toNat with
  | 0 => .rn | 1 => .rz | 2 => .rm | _ => .rp

/-- F of cmp (R117). -/
def Rel.code : Rel → Nat
  | .eq => 0
  | .ne => 1
  | .lt => 2
  | .le => 3
  | .gt => 4
  | .ge => 5

/-- The inverse of Rel.code; none beyond the codes listed (R29). -/
def Rel.ofCode : Nat → Option Rel
  | 0 => some .eq
  | 1 => some .ne
  | 2 => some .lt
  | 3 => some .le
  | 4 => some .gt
  | 5 => some .ge
  | _ => none

/-- F of fcmp (R121). -/
def FRel.code : FRel → Nat
  | .eq => 0
  | .ne => 1
  | .lt => 2
  | .le => 3
  | .gt => 4
  | .ge => 5
  | .unord => 6
  | .ord => 7

/-- The inverse of FRel.code; none beyond the codes listed (R29). -/
def FRel.ofCode : Nat → Option FRel
  | 0 => some .eq
  | 1 => some .ne
  | 2 => some .lt
  | 3 => some .le
  | 4 => some .gt
  | 5 => some .ge
  | 6 => some .unord
  | 7 => some .ord
  | _ => none

/-- F of scmp (R137). -/
def SRel.code : SRel → Nat
  | .eq => 0
  | .ne => 1
  | .lt => 2
  | .le => 3
  | .gt => 4
  | .ge => 5
  | .ltz => 6
  | .lez => 7
  | .gtz => 8
  | .gez => 9

/-- The inverse of SRel.code; none beyond the codes listed (R29). -/
def SRel.ofCode : Nat → Option SRel
  | 0 => some .eq
  | 1 => some .ne
  | 2 => some .lt
  | 3 => some .le
  | 4 => some .gt
  | 5 => some .ge
  | 6 => some .ltz
  | 7 => some .lez
  | 8 => some .gtz
  | 9 => some .gez
  | _ => none

/-- F of cvt (R128). -/
def CvtPair.code : CvtPair → Nat
  | .f16F32 => 0
  | .bf16F32 => 1
  | .f32F16 => 2
  | .f32Bf16 => 3
  | .bf16F16 => 4
  | .f16Bf16 => 5
  | .s32F32 => 6
  | .z32F32 => 7
  | .s64F32 => 8
  | .z64F32 => 9
  | .s32F16 => 10
  | .s32Bf16 => 11
  | .f32S32 => 12
  | .f32Z32 => 13
  | .f32S64 => 14
  | .f32Z64 => 15
  | .f16S32 => 16
  | .bf16S32 => 17
  | .s64S32 => 18
  | .z64Z32 => 19
  | .s32S64 => 20
  | .z32Z64 => 21

/-- The inverse of CvtPair.code; none beyond the codes listed (R29). -/
def CvtPair.ofCode : Nat → Option CvtPair
  | 0 => some .f16F32
  | 1 => some .bf16F32
  | 2 => some .f32F16
  | 3 => some .f32Bf16
  | 4 => some .bf16F16
  | 5 => some .f16Bf16
  | 6 => some .s32F32
  | 7 => some .z32F32
  | 8 => some .s64F32
  | 9 => some .z64F32
  | 10 => some .s32F16
  | 11 => some .s32Bf16
  | 12 => some .f32S32
  | 13 => some .f32Z32
  | 14 => some .f32S64
  | 15 => some .f32Z64
  | 16 => some .f16S32
  | 17 => some .bf16S32
  | 18 => some .s64S32
  | 19 => some .z64Z32
  | 20 => some .s32S64
  | 21 => some .z32Z64
  | _ => none

/-- F of the 16-bit pack and unpk (R130). -/
def Half.code : Half → Nat
  | .bf16 => 0
  | .f16 => 1

/-- The inverse of Half.code; none beyond the codes listed (R29). -/
def Half.ofCode : Nat → Option Half
  | 0 => some .bf16
  | 1 => some .f16
  | _ => none

/-- F − 2 of the 8-bit pack and unpk (R130). -/
def Sign.code : Sign → Nat
  | .s => 0
  | .z => 1

/-- The inverse of Sign.code; none beyond the codes listed (R29). -/
def Sign.ofCode : Nat → Option Sign
  | 0 => some .s
  | 1 => some .z
  | _ => none

/-- F of match (R63). -/
def MatchSize.code : MatchSize → Nat
  | .s32 => 0
  | .s64 => 1

/-- The inverse of MatchSize.code; none beyond the codes listed (R29). -/
def MatchSize.ofCode : Nat → Option MatchSize
  | 0 => some .s32
  | 1 => some .s64
  | _ => none

/-- F of rdc (R67). -/
def RdcOp.code : RdcOp → Nat
  | .addS32 => 0
  | .addF32 => 1
  | .minS32 => 2
  | .maxS32 => 3
  | .minF32 => 4
  | .maxF32 => 5
  | .and => 6
  | .or => 7
  | .xor => 8

/-- The inverse of RdcOp.code; none beyond the codes listed (R29). -/
def RdcOp.ofCode : Nat → Option RdcOp
  | 0 => some .addS32
  | 1 => some .addF32
  | 2 => some .minS32
  | 3 => some .maxS32
  | 4 => some .minF32
  | 5 => some .maxF32
  | 6 => some .and
  | 7 => some .or
  | 8 => some .xor
  | _ => none

/-- F of scan (R68). -/
def ScanOp.code : ScanOp → Nat
  | .s32Inc => 0
  | .s32Exc => 1
  | .f32Inc => 2
  | .f32Exc => 3

/-- The inverse of ScanOp.code; none beyond the codes listed (R29). -/
def ScanOp.ofCode : Nat → Option ScanOp
  | 0 => some .s32Inc
  | 1 => some .s32Exc
  | 2 => some .f32Inc
  | 3 => some .f32Exc
  | _ => none

/-- F of topk (R29, R69). -/
def TopkOp.code : TopkOp → Nat
  | .f32 => 0
  | .s32 => 1
  | .f32Nz => 2
  | .s32Nz => 3

/-- The inverse of TopkOp.code; none beyond the codes listed (R29). -/
def TopkOp.ofCode : Nat → Option TopkOp
  | 0 => some .f32
  | 1 => some .s32
  | 2 => some .f32Nz
  | 3 => some .s32Nz
  | _ => none

/-- F of lds and ldg (R89, R217). -/
def LdType.code : LdType → Nat
  | .s8 => 0
  | .z8 => 1
  | .s16 => 2
  | .z16 => 3
  | .w32 => 4
  | .w64 => 5
  | .w128 => 6

/-- The inverse of LdType.code; none beyond the codes listed (R29). -/
def LdType.ofCode : Nat → Option LdType
  | 0 => some .s8
  | 1 => some .z8
  | 2 => some .s16
  | 3 => some .z16
  | 4 => some .w32
  | 5 => some .w64
  | 6 => some .w128
  | _ => none

/-- F of sts and stg (R89, R217). -/
def StWidth.code : StWidth → Nat
  | .w8 => 0
  | .w16 => 1
  | .w32 => 2
  | .w64 => 3
  | .w128 => 4

/-- The inverse of StWidth.code; none beyond the codes listed (R29). -/
def StWidth.ofCode : Nat → Option StWidth
  | 0 => some .w8
  | 1 => some .w16
  | 2 => some .w32
  | 3 => some .w64
  | 4 => some .w128
  | _ => none

/-- F − 3 of the 32-bit hop accumulates (R279). -/
def HopAcc.code : HopAcc → Nat
  | .addS32 => 0
  | .addF32 => 1
  | .minS32 => 2
  | .maxS32 => 3
  | .minF32 => 4
  | .maxF32 => 5

/-- The inverse of HopAcc.code; none beyond the codes listed (R29). -/
def HopAcc.ofCode : Nat → Option HopAcc
  | 0 => some .addS32
  | 1 => some .addF32
  | 2 => some .minS32
  | 3 => some .maxS32
  | 4 => some .minF32
  | 5 => some .maxF32
  | _ => none

/-- F of atom (R234). -/
def AtomOp.code : AtomOp → Nat
  | .addS32 => 0
  | .addF32 => 1
  | .addBf16x2 => 2
  | .minS32 => 3
  | .maxS32 => 4
  | .minZ32 => 5
  | .maxZ32 => 6
  | .and => 7
  | .or => 8
  | .xor => 9
  | .swap => 10
  | .addS64 => 11
  | .swapS64 => 12

/-- The inverse of AtomOp.code; none beyond the codes listed (R29). -/
def AtomOp.ofCode : Nat → Option AtomOp
  | 0 => some .addS32
  | 1 => some .addF32
  | 2 => some .addBf16x2
  | 3 => some .minS32
  | 4 => some .maxS32
  | 5 => some .minZ32
  | 6 => some .maxZ32
  | 7 => some .and
  | 8 => some .or
  | 9 => some .xor
  | 10 => some .swap
  | 11 => some .addS64
  | 12 => some .swapS64
  | _ => none

/-- Class numbers (R247). -/
def EngClass.code : EngClass → Nat
  | .copy => 0
  | .index => 1
  | .drain => 2
  | .blend => 3
  | .attn => 4
  | .coll => 5

/-- The inverse of EngClass.code; none beyond the codes listed (R29). -/
def EngClass.ofCode : Nat → Option EngClass
  | 0 => some .copy
  | 1 => some .index
  | 2 => some .drain
  | 3 => some .blend
  | 4 => some .attn
  | 5 => some .coll
  | _ => none

/-- Registers of a load's destination (R89). -/
def LdType.regs : LdType → Nat
  | .w64 => 2 | .w128 => 4 | _ => 1

/-- Bytes of a load (R90). -/
def LdType.bytes : LdType → Nat
  | .s8 | .z8 => 1 | .s16 | .z16 => 2 | .w32 => 4 | .w64 => 8 | .w128 => 16

/-- Registers of a store's data (R89). -/
def StWidth.regs : StWidth → Nat
  | .w64 => 2 | .w128 => 4 | _ => 1

/-- Bytes of a store (R90). -/
def StWidth.bytes : StWidth → Nat
  | .w8 => 1 | .w16 => 2 | .w32 => 4 | .w64 => 8 | .w128 => 16

/-- Registers of an atom's data and result (R234). -/
def AtomOp.regs : AtomOp → Nat
  | .addS64 | .swapS64 => 2 | _ => 1

/-- Registers of a match source (R63). -/
def MatchSize.regs : MatchSize → Nat
  | .s32 => 1 | .s64 => 2

/-- Whether a scan rounds (R68). -/
def ScanOp.isFloat : ScanOp → Bool
  | .f32Inc | .f32Exc => true
  | _ => false

/-- Whether a conversion pair uses RND (R128). -/
def CvtPair.rounds : CvtPair → Bool
  | .f32F16 | .f32Bf16 | .s64S32 | .z64Z32 | .s32S64 | .z32Z64 => false
  | _ => true

/-- Whether a conversion pair uses SAT (R128). -/
def CvtPair.saturates : CvtPair → Bool
  | .s32S64 | .z32Z64 => true
  | _ => false

/-- Registers of a conversion's destination (R128). -/
def CvtPair.dstRegs : CvtPair → Nat
  | .s64F32 | .z64F32 | .s64S32 | .z64Z32 => 2
  | _ => 1

/-- Registers of a conversion's source (R128). -/
def CvtPair.srcRegs : CvtPair → Nat
  | .f32S64 | .f32Z64 | .s32S64 | .z32Z64 => 2
  | _ => 1

/-- The literal of a form, if it has one (R9). -/
def Form.lit : Form → Option W64
  | .e => none
  | .el l => some l
  | .bl l => some l

/-- Bits [26:24] of word 1, read as a scope and a width by the opcodes of R12. -/
def Enc.tyBits (e : Enc) : BitVec 3 := e.ty.bits

/-- Registers of an ldac or strl: bit 26 selects 64 bits (R12, R239). -/
def Enc.acRegs (e : Enc) : Nat := bif e.tyBits.getLsbD 2 then 2 else 1

namespace Machine

/-- What a team and a group fix for decoding (R14, R73, R76, R61). -/
structure Limits where
  nRegs : Nat
  tiles : Nat
  bars  : Nat
  hc    : Bool
  width : Nat
  deriving DecidableEq, Repr

/-- The widest limits a launch may declare (R74). -/
def Limits.top : Limits := { nRegs := 256, tiles := 64, bars := 48, hc := true, width := 64 }

/-- Classes of scalar-field values (R15). -/
inductive Cls where
  | s | m | m1 | j | k | k1 | tile | bar
  deriving DecidableEq, Repr

/-- How a row reads an operand field. `n` counts registers and `al` is the multiple the number must be. -/
inductive Fld where
  /-- not used: reserved (R13) -/
  | no
  /-- vector source or destination; 0xFF reads the literal or zero, or discards (R14) -/
  | vs (n al : Nat)
  | vd (n al : Nat)
  /-- a block of vector registers in which 0xFF names nothing (R146) -/
  | vblk (n al : Nat)
  /-- A or B of a lane instruction: AS or BS chooses s0 to s63 or 0xFF (R113) -/
  | lane (n : Nat)
  /-- scalar source or destination of the classes listed; `ff` admits 0xFF (R15) -/
  | ss (cls : List Cls) (ff : Bool) (n al : Nat)
  | sd (cls : List Cls) (ff : Bool) (n al : Nat)
  /-- a scalar register both read and written (R288) -/
  | sdr (cls : List Cls)
  /-- a plain number, checked by the row -/
  | num
  /-- bits outside the mask are reserved -/
  | bits (mask : BitVec 8)
  /-- scale code in [2:0], at most 4; [7:3] reserved (R89, R117) -/
  | scale
  /-- tile predicate in [7:5]; [4:1] reserved, and [0] too unless `sel` (R146, R153) -/
  | pred (sel : Bool)
  deriving DecidableEq, Repr

/-- How a row reads IMM32 in an E form (R13, R17). -/
inductive ImmUse where
  | no
  | full
  | mask (m : W32)
  /-- used only when A, or B, is 0xFF -/
  | ifA
  | ifB
  deriving DecidableEq, Repr

/-- One row of the encoding tables. `ill` and `res` are the row's own checks for the illegal-instruction and the
reserved-field trap. -/
structure Row where
  op    : Nat
  f     : Nat
  el    : Bool := false
  bl    : Bool := false
  /-- the B+L form is a two-address form (R19) -/
  two   : Bool := false
  tys   : List Ty := [.s32]
  rnd   : Bool := false
  sat   : Bool := false
  q     : Bool := true
  asOk  : Bool := false
  bsOk  : Bool := false
  d     : Fld := .no
  a     : Fld := .no
  b     : Fld := .no
  c     : Fld := .no
  imm   : ImmUse := .no
  /-- the words of an E+L literal are reserved (R47, R50, R63) -/
  litZ  : Bool := false
  /-- the words of a B+L literal are reserved (R47, R55, R61) -/
  blZ   : Bool := false
  ill   : Limits → Bool := fun _ => false
  res   : Bool := false

/-- Every value of bits [26:24] (R12). -/
def allTys : List Ty := [.s32, .z32, .f32, .f16, .bf16, .s64, .z64, .lg6]
/-- "int" of R117. -/
def intTys : List Ty := [.s32, .z32, .s64, .z64]
/-- "fp" of R121. -/
def fpTys : List Ty := [.f32, .f16, .bf16]

/-- Registers of an operand at the instruction's type (R14). -/
def wTy (e : Enc) : Nat := bif e.ty.is64 then 2 else 1

/-- A legal segment size for a width (R60, R61). -/
def segOk (s width : Nat) : Bool := [2, 4, 8, 16, 32, 64].contains s && decide (s ≤ width)

/-- The special registers ssr may write (R83). -/
def ssrWritable (n : Nat) : Bool := [0x6C, 0x6D, 0x70, 0x71, 0x72, 0x73, 0x74].contains n

/-- The bits of IMM32 an mma uses (R146). -/
def mmaImm (lg : Bool) (e : Enc) : ImmUse :=
  .mask ((bif lg then 0x0000FFFF#32 else 0#32) ||| (bif e.as_ then 0x00FF0000#32 else 0#32)
    ||| (bif e.bs then 0xFF000000#32 else 0#32))

/-- The scale registers of mma.lg6 lie within R, or are 0xFF (R146). -/
def lgScaleOk (e : Enc) (l : Limits) : Bool :=
  let ok := fun (n : Nat) => decide (n = 0xFF) || decide (n < l.nRegs)
  ok (e.imm.toNat % 256) && ok (e.imm.toNat / 256 % 256)

/-- Registers of a block of n elements over gw lanes (R165). -/
def blockRegs (n gw : Nat) : Nat := (n + gw - 1) / gw

/-- A hard instruction's N and blocks (R166, R180). -/
def hardOk (e : Enc) (l : Limits) (dst : Bool) : Bool :=
  let n := e.imm.toNat
  let fits := fun (r : BitVec 8) => decide (r.toNat = 0xFF) || decide (r.toNat + blockRegs n l.width ≤ l.nRegs)
  decide (2 ≤ n ∧ n ≤ 256) && fits e.a && (!dst || fits e.d)

/-- The row of an instruction; none for a B, P or illegal word and for an event. Where a row leaves a class or a literal
open the choice is the model's: seg with AS = 1 accepts s0 to s63 alone (log 77), multi-register sources accept
0xFF (logs 27 and 78), and ldsv of several registers accepts a destination of 0xFF, which discards (log 129). -/
def rowOf : Instr → Option Row
  | .nop _ => some { op := 0x00, f := 0x00, bl := true, blZ := true }
  | .nopB _ => none
  | .br _ => some { op := 0x01, f := 0x00, el := true, imm := .full }
  | .jmp e => some
      { op := 0x02, f := 0x00, el := !e.as_, asOk := true, a := bif e.as_ then .ss [.s] false 1 1 else .no, imm := bif e.as_ then .no else .full }
  | .call e => some
      { op := 0x03, f := 0x00, el := !e.as_, asOk := true, d := .sd [.s] false 1 1, a := bif e.as_ then .ss [.s] false 1 1 else .no, imm := bif e.as_ then .no else .full, ill := fun _ => !e.as_ && decide (0x40 ≤ e.a.toNat) }
  | .ret _ => some { op := 0x04, f := 0x00, bl := true, a := .ss [.s] false 1 1, blZ := true }
  | .retB _ => none
  | .jsetM e => some
      { op := 0x05, f := 0x00, el := true, d := .sd [.j] false 1 1, a := .ss [.m, .s, .j] true 1 1, litZ := e.a != 0xFF#8 }
  | .jsetAct _ => some { op := 0x05, f := 0x01, el := true, d := .sd [.j] false 1 1, litZ := true }
  | .jclr _ => some { op := 0x05, f := 0x02, el := true, d := .sd [.j] false 1 1, litZ := true }
  | .jwait _ => some
      { op := 0x06, f := 0x00, el := true, a := .ss [.j] false 1 1, b := .sd [.m1] true 1 1, imm := .full }
  | .joinTimeout => none
  | .exit _ => some { op := 0x07, f := 0x00, bl := true, blZ := true }
  | .exitB _ => none
  | .exitc e => some
      { op := 0x08, f := 0x00, el := !e.as_, asOk := true, a := bif e.as_ then .ss [.s] false 1 1 else .no, imm := bif e.as_ then .no else .full }
  | .seg e => some
      { op := 0x09, f := 0x00, bl := true, asOk := true, a := bif e.as_ then .ss [.s] false 1 1 else .num, blZ := true, ill := fun l => !e.as_ && !segOk e.a.toNat l.width }
  | .segB _ => none
  | .sleepUntil _ => some
      { op := 0x0A, f := 0x00, el := true, a := .ss [.s] true 1 1, c := .bits 0x1F#8, imm := .ifA }
  | .sleepCyc _ => some { op := 0x0A, f := 0x01, el := true, a := .ss [.s] true 1 1, c := .bits 0x1F#8, imm := .ifA }
  | .sleepPrm e => some
      { op := 0x0A, f := 0x02, a := .ss [.s] false 1 1, b := .num, c := .bits 0x1F#8, imm := .mask 0x3F#32, ill := fun _ => decide (e.b.toNat > 5) }
  | .sleepWake => none
  | .gsr e => some
      { op := 0x0B, f := 0x00, d := bif e.a == 0x60#8 then .vd 1 1 else bif e.a == 0x6B#8 then .vd 2 2 else .sd [.s] false 1 1, a := .num, ill := fun _ => !(decide (0x60 ≤ e.a.toNat ∧ e.a.toNat ≤ 0x75)) }
  | .ssr e => some
      { op := 0x0B, f := 0x01, el := true, d := .num, a := .ss [.s] true 1 1, ill := fun _ => !ssrWritable e.d.toNat }
  | .divergenceStarvation => none
  | .add e => some
      { op := 0x10, f := 0x00, el := true, bl := true, two := true, tys := intTys, sat := true, asOk := true, bsOk := true, d := .vd (wTy e) (wTy e), a := .lane (wTy e), b := .lane (wTy e) }
  | .addB _ => none
  | .sub e => some
      { op := 0x11, f := 0x00, el := true, bl := true, two := true, tys := intTys, sat := true, asOk := true, bsOk := true, d := .vd (wTy e) (wTy e), a := .lane (wTy e), b := .lane (wTy e) }
  | .subB _ => none
  | .mul e => some
      { op := 0x12, f := 0x00, el := true, bl := true, two := true, tys := intTys, sat := true, asOk := true, bsOk := true, d := .vd (wTy e) (wTy e), a := .lane (wTy e), b := .lane (wTy e) }
  | .mulB _ => none
  | .mulh e => some
      { op := 0x13, f := 0x00, el := true, tys := intTys, asOk := true, bsOk := true, d := .vd (wTy e) (wTy e), a := .lane (wTy e), b := .lane (wTy e) }
  | .mad e => some
      { op := 0x14, f := 0x00, el := true, tys := intTys, sat := true, asOk := true, bsOk := true, d := .vd (wTy e) (wTy e), a := .lane (wTy e), b := .lane (wTy e), c := .vs (wTy e) (wTy e) }
  | .min e => some
      { op := 0x15, f := 0x00, el := true, bl := true, two := true, tys := intTys, asOk := true, bsOk := true, d := .vd (wTy e) (wTy e), a := .lane (wTy e), b := .lane (wTy e) }
  | .minB _ => none
  | .max e => some
      { op := 0x16, f := 0x00, el := true, bl := true, two := true, tys := intTys, asOk := true, bsOk := true, d := .vd (wTy e) (wTy e), a := .lane (wTy e), b := .lane (wTy e) }
  | .maxB _ => none
  | .abs e => some
      { op := 0x17, f := 0x00, el := true, tys := [.s32, .s64], sat := true, asOk := true, d := .vd (wTy e) (wTy e), a := .lane (wTy e) }
  | .and e => some
      { op := 0x18, f := 0x00, el := true, bl := true, two := true, tys := intTys, asOk := true, bsOk := true, d := .vd (wTy e) (wTy e), a := .lane (wTy e), b := .lane (wTy e) }
  | .andB _ => none
  | .or e => some
      { op := 0x19, f := 0x00, el := true, bl := true, two := true, tys := intTys, asOk := true, bsOk := true, d := .vd (wTy e) (wTy e), a := .lane (wTy e), b := .lane (wTy e) }
  | .orB _ => none
  | .xor e => some
      { op := 0x1A, f := 0x00, el := true, bl := true, two := true, tys := intTys, asOk := true, bsOk := true, d := .vd (wTy e) (wTy e), a := .lane (wTy e), b := .lane (wTy e) }
  | .xorB _ => none
  | .not e => some
      { op := 0x1B, f := 0x00, el := true, bl := true, tys := intTys, asOk := true, d := .vd (wTy e) (wTy e), a := .lane (wTy e) }
  | .notB _ => none
  | .shl e => some
      { op := 0x1C, f := 0x00, el := true, bl := true, two := true, tys := intTys, sat := true, asOk := true, bsOk := true, d := .vd (wTy e) (wTy e), a := .lane (wTy e), b := .lane (wTy e) }
  | .shlB _ => none
  | .shr e => some
      { op := 0x1D, f := 0x00, el := true, bl := true, two := true, tys := intTys, asOk := true, bsOk := true, d := .vd (wTy e) (wTy e), a := .lane (wTy e), b := .lane (wTy e) }
  | .shrB _ => none
  | .sar e => some
      { op := 0x1E, f := 0x00, el := true, bl := true, two := true, tys := intTys, asOk := true, bsOk := true, d := .vd (wTy e) (wTy e), a := .lane (wTy e), b := .lane (wTy e) }
  | .sarB _ => none
  | .fsh _ => some
      { op := 0x1F, f := 0x00, tys := [.s32, .z32], asOk := true, bsOk := true, d := .vd 1 1, a := .lane 1, b := .lane 1, c := .vs 1 1, imm := .full }
  | .bfx _ => some
      { op := 0x20, f := 0x00, tys := [.s32, .z32], asOk := true, d := .vd 1 1, a := .lane 1, c := .vs 1 1, imm := .mask 0xFFFF#32 }
  | .bfi _ => some
      { op := 0x21, f := 0x00, tys := [.s32, .z32], asOk := true, bsOk := true, d := .vd 1 1, a := .lane 1, b := .lane 1, c := .vs 1 1, imm := .mask 0xFFFF#32 }
  | .popc e => some
      { op := 0x22, f := 0x00, el := true, tys := intTys, asOk := true, d := .vd 1 1, a := .lane (wTy e) }
  | .clz e => some
      { op := 0x23, f := 0x00, el := true, tys := intTys, asOk := true, d := .vd (wTy e) (wTy e), a := .lane (wTy e) }
  | .brev e => some
      { op := 0x24, f := 0x00, el := true, tys := intTys, asOk := true, d := .vd (wTy e) (wTy e), a := .lane (wTy e) }
  | .perm e => some
      { op := 0x25, f := 0x00, tys := [.s32, .z32], asOk := true, bsOk := true, d := .vd 1 1, a := .lane 1, b := .lane 1, c := .vs 1 1, imm := bif e.c == 0xFF#8 then .mask 0xFFFF#32 else .no }
  | .cmp rel e => some
      { op := 0x26, f := rel.code, el := true, tys := intTys, asOk := true, bsOk := true, d := .sd [.m1] false 1 1, a := .lane (wTy e), b := .lane (wTy e) }
  | .sel e => some
      { op := 0x27, f := 0x00, el := true, tys := intTys, asOk := true, bsOk := true, d := .vd (wTy e) (wTy e), a := .lane (wTy e), b := .lane (wTy e), c := .ss [.m] false 1 1 }
  | .mov e => some
      { op := 0x28, f := 0x00, el := true, bl := true, tys := intTys, asOk := true, d := .vd (wTy e) (wTy e), a := .lane (wTy e) }
  | .movB _ => none
  | .lea _ => some
      { op := 0x29, f := 0x00, el := true, tys := [.s64, .z64], asOk := true, bsOk := true, d := .vd 2 2, a := .lane 2, b := .lane 1, c := .scale, imm := .full }
  | .sad _ => some
      { op := 0x2A, f := 0x00, el := true, tys := [.z32], sat := true, asOk := true, bsOk := true, d := .vd 1 1, a := .lane 1, b := .lane 1, c := .vs 1 1 }
  | .fadd _ => some
      { op := 0x30, f := 0x00, el := true, bl := true, two := true, tys := fpTys, rnd := true, asOk := true, bsOk := true, d := .vd 1 1, a := .lane 1, b := .lane 1 }
  | .faddB _ => none
  | .fsub _ => some
      { op := 0x31, f := 0x00, el := true, bl := true, two := true, tys := fpTys, rnd := true, asOk := true, bsOk := true, d := .vd 1 1, a := .lane 1, b := .lane 1 }
  | .fsubB _ => none
  | .fmul _ => some
      { op := 0x32, f := 0x00, el := true, bl := true, two := true, tys := fpTys, rnd := true, asOk := true, bsOk := true, d := .vd 1 1, a := .lane 1, b := .lane 1 }
  | .fmulB _ => none
  | .fma _ => some
      { op := 0x33, f := 0x00, el := true, tys := fpTys, rnd := true, asOk := true, bsOk := true, d := .vd 1 1, a := .lane 1, b := .lane 1, c := .vs 1 1 }
  | .fmin _ => some
      { op := 0x34, f := 0x00, el := true, bl := true, two := true, tys := fpTys, asOk := true, bsOk := true, d := .vd 1 1, a := .lane 1, b := .lane 1 }
  | .fminB _ => none
  | .fmax _ => some
      { op := 0x35, f := 0x00, el := true, bl := true, two := true, tys := fpTys, asOk := true, bsOk := true, d := .vd 1 1, a := .lane 1, b := .lane 1 }
  | .fmaxB _ => none
  | .fneg _ => some { op := 0x36, f := 0x00, el := true, tys := fpTys, asOk := true, d := .vd 1 1, a := .lane 1 }
  | .fabs _ => some { op := 0x36, f := 0x01, el := true, tys := fpTys, asOk := true, d := .vd 1 1, a := .lane 1 }
  | .fcopysign _ => some
      { op := 0x36, f := 0x02, el := true, tys := fpTys, asOk := true, bsOk := true, d := .vd 1 1, a := .lane 1, b := .lane 1 }
  | .fcmp rel _ => some
      { op := 0x37, f := rel.code, el := true, tys := fpTys, asOk := true, bsOk := true, d := .sd [.m1] false 1 1, a := .lane 1, b := .lane 1 }
  | .fdot2 _ => some
      { op := 0x38, f := 0x00, el := true, tys := [.f16, .bf16], rnd := true, asOk := true, bsOk := true, d := .vd 1 1, a := .lane 1, b := .lane 1, c := .vs 1 1 }
  | .fclass _ => some { op := 0x39, f := 0x00, el := true, tys := fpTys, asOk := true, d := .vd 1 1, a := .lane 1 }
  | .frnd _ => some
      { op := 0x3A, f := 0x00, el := true, tys := fpTys, rnd := true, asOk := true, d := .vd 1 1, a := .lane 1 }
  | .fscale _ => some
      { op := 0x3B, f := 0x00, el := true, tys := fpTys, rnd := true, asOk := true, bsOk := true, d := .vd 1 1, a := .lane 1, b := .lane 1 }
  | .cvt pair _ => some
      { op := 0x40, f := pair.code, el := true, rnd := pair.rounds, sat := pair.saturates, asOk := true, d := .vd pair.dstRegs pair.dstRegs, a := .lane pair.srcRegs }
  | .pack16 half _ => some
      { op := 0x41, f := half.code, el := true, asOk := true, bsOk := true, d := .vd 1 1, a := .lane 1, b := .lane 1 }
  | .pack8 sg _ => some { op := 0x41, f := 2 + sg.code, el := true, sat := true, d := .vd 1 1, a := .vs 4 4 }
  | .unpk16 half _ => some { op := 0x42, f := half.code, el := true, asOk := true, d := .vd 2 2, a := .lane 1 }
  | .unpk8 sg _ => some { op := 0x42, f := 2 + sg.code, el := true, asOk := true, d := .vd 4 4, a := .lane 1 }
  | .sfuRcp _ => some { op := 0x43, f := 0x00, el := true, tys := [.f32], asOk := true, d := .vd 1 1, a := .lane 1 }
  | .sfuRsqrt _ => some { op := 0x43, f := 0x01, el := true, tys := [.f32], asOk := true, d := .vd 1 1, a := .lane 1 }
  | .sfuSqrt _ => some { op := 0x43, f := 0x02, el := true, tys := [.f32], asOk := true, d := .vd 1 1, a := .lane 1 }
  | .sfuExp2 _ => some { op := 0x43, f := 0x03, el := true, tys := [.f32], asOk := true, d := .vd 1 1, a := .lane 1 }
  | .sfuLog2 _ => some { op := 0x43, f := 0x04, el := true, tys := [.f32], asOk := true, d := .vd 1 1, a := .lane 1 }
  | .lgqCode _ => some
      { op := 0x44, f := 0x00, el := true, asOk := true, bsOk := true, d := .vd 1 1, a := .lane 1, b := .lane 1 }
  | .lgqPairs _ => some { op := 0x44, f := 0x01, el := true, bsOk := true, d := .vd 1 1, a := .vs 2 2, b := .lane 1 }
  | .lgx _ => some
      { op := 0x45, f := 0x00, el := true, asOk := true, bsOk := true, d := .vd 1 1, a := .lane 1, b := .lane 1 }
  | .lgpkPack _ => some { op := 0x46, f := 0x00, el := true, d := .vd 3 4, a := .vs 4 4 }
  | .lgpkUnpack _ => some { op := 0x46, f := 0x01, el := true, d := .vd 4 4, a := .vs 3 4 }
  | .voteAny e => some
      { op := 0x48, f := 0x00, el := true, asOk := true, d := .vd 1 1, a := bif e.as_ then .ss [.m, .s] false 1 1 else .vs 1 1, litZ := e.as_ || e.a != 0xFF#8 }
  | .voteAll e => some
      { op := 0x48, f := 0x01, el := true, asOk := true, d := .vd 1 1, a := bif e.as_ then .ss [.m, .s] false 1 1 else .vs 1 1, litZ := e.as_ || e.a != 0xFF#8 }
  | .voteBallot e => some
      { op := 0x48, f := 0x02, el := true, asOk := true, d := .sd [.m1, .s] false 1 1, a := bif e.as_ then .ss [.m, .s] false 1 1 else .vs 1 1, litZ := e.as_ || e.a != 0xFF#8 }
  | .voteCount e => some
      { op := 0x48, f := 0x03, el := true, asOk := true, d := .vd 1 1, a := bif e.as_ then .ss [.m, .s] false 1 1 else .vs 1 1, litZ := e.as_ || e.a != 0xFF#8 }
  | .lxGet e => some
      { op := 0x49, f := 0x00, el := true, tys := [.s32, .z32, .f32, .s64, .z64], bsOk := true, d := .vd (wTy e) (wTy e), a := .vs (wTy e) (wTy e), b := .lane 1, c := .vs (wTy e) (wTy e), imm := .full }
  | .lxRise e => some
      { op := 0x49, f := 0x01, el := true, tys := [.s32, .z32, .f32, .s64, .z64], bsOk := true, d := .vd (wTy e) (wTy e), a := .vs (wTy e) (wTy e), b := .lane 1, c := .vs (wTy e) (wTy e), imm := .full }
  | .lxFall e => some
      { op := 0x49, f := 0x02, el := true, tys := [.s32, .z32, .f32, .s64, .z64], bsOk := true, d := .vd (wTy e) (wTy e), a := .vs (wTy e) (wTy e), b := .lane 1, c := .vs (wTy e) (wTy e), imm := .full }
  | .lxFlip e => some
      { op := 0x49, f := 0x03, el := true, tys := [.s32, .z32, .f32, .s64, .z64], bsOk := true, d := .vd (wTy e) (wTy e), a := .vs (wTy e) (wTy e), b := .lane 1, c := .vs (wTy e) (wTy e), imm := .full }
  | .lxTurn e => some
      { op := 0x49, f := 0x04, el := true, tys := [.s32, .z32, .f32, .s64, .z64], bsOk := true, d := .vd (wTy e) (wTy e), a := .vs (wTy e) (wTy e), b := .lane 1, c := .vs (wTy e) (wTy e), imm := .full }
  | .matchLanes sz e => some
      { op := 0x4A, f := sz.code, el := true, d := .vd 2 2, a := .vs sz.regs sz.regs, litZ := e.a != 0xFF#8 }
  | .rdc rop e => some
      { op := 0x4B, f := rop.code, el := true, rnd := rop == .addF32, sat := rop == .addF32, asOk := true, d := bif e.as_ then .vd 1 1 else .sd [.s] false 1 1, a := .vs 1 1, litZ := e.a != 0xFF#8 }
  | .scan sop e => some
      { op := 0x4C, f := sop.code, el := true, rnd := sop.isFloat, d := .vd 1 1, a := .vs 1 1, litZ := e.a != 0xFF#8 }
  | .topk top _ => some
      { op := 0x4D, f := top.code, el := true, d := .sd [.m1] false 1 1, a := .vs 1 1, c := .vd 1 1, imm := .full }
  | .rank _ => some { op := 0x4E, f := 0x00, el := true, d := .vd 1 1, litZ := true }
  | .elect _ => some { op := 0x4E, f := 0x01, el := true, d := .sd [.m1] false 1 1, litZ := true }
  | .saluAdd _ => some
      { op := 0x50, f := 0x00, el := true, q := false, d := .sd [.s, .m1] false 1 1, a := .ss [.s, .m, .j, .k] true 1 1, b := .ss [.s, .m, .j, .k] true 1 1, imm := .ifB }
  | .saluSub _ => some
      { op := 0x50, f := 0x01, el := true, q := false, d := .sd [.s, .m1] false 1 1, a := .ss [.s, .m, .j, .k] true 1 1, b := .ss [.s, .m, .j, .k] true 1 1, imm := .ifB }
  | .saluMul _ => some
      { op := 0x50, f := 0x02, el := true, q := false, d := .sd [.s, .m1] false 1 1, a := .ss [.s, .m, .j, .k] true 1 1, b := .ss [.s, .m, .j, .k] true 1 1, imm := .ifB }
  | .saluAnd _ => some
      { op := 0x50, f := 0x03, el := true, q := false, d := .sd [.s, .m1] false 1 1, a := .ss [.s, .m, .j, .k] true 1 1, b := .ss [.s, .m, .j, .k] true 1 1, imm := .ifB }
  | .saluOr _ => some
      { op := 0x50, f := 0x04, el := true, q := false, d := .sd [.s, .m1] false 1 1, a := .ss [.s, .m, .j, .k] true 1 1, b := .ss [.s, .m, .j, .k] true 1 1, imm := .ifB }
  | .saluXor _ => some
      { op := 0x50, f := 0x05, el := true, q := false, d := .sd [.s, .m1] false 1 1, a := .ss [.s, .m, .j, .k] true 1 1, b := .ss [.s, .m, .j, .k] true 1 1, imm := .ifB }
  | .saluShl _ => some
      { op := 0x50, f := 0x06, el := true, q := false, d := .sd [.s, .m1] false 1 1, a := .ss [.s, .m, .j, .k] true 1 1, b := .ss [.s, .m, .j, .k] true 1 1, imm := .ifB }
  | .saluShr _ => some
      { op := 0x50, f := 0x07, el := true, q := false, d := .sd [.s, .m1] false 1 1, a := .ss [.s, .m, .j, .k] true 1 1, b := .ss [.s, .m, .j, .k] true 1 1, imm := .ifB }
  | .saluSar _ => some
      { op := 0x50, f := 0x08, el := true, q := false, d := .sd [.s, .m1] false 1 1, a := .ss [.s, .m, .j, .k] true 1 1, b := .ss [.s, .m, .j, .k] true 1 1, imm := .ifB }
  | .saluMinS _ => some
      { op := 0x50, f := 0x09, el := true, q := false, d := .sd [.s, .m1] false 1 1, a := .ss [.s, .m, .j, .k] true 1 1, b := .ss [.s, .m, .j, .k] true 1 1, imm := .ifB }
  | .saluMaxS _ => some
      { op := 0x50, f := 0x0A, el := true, q := false, d := .sd [.s, .m1] false 1 1, a := .ss [.s, .m, .j, .k] true 1 1, b := .ss [.s, .m, .j, .k] true 1 1, imm := .ifB }
  | .saluMinZ _ => some
      { op := 0x50, f := 0x0B, el := true, q := false, d := .sd [.s, .m1] false 1 1, a := .ss [.s, .m, .j, .k] true 1 1, b := .ss [.s, .m, .j, .k] true 1 1, imm := .ifB }
  | .saluMaxZ _ => some
      { op := 0x50, f := 0x0C, el := true, q := false, d := .sd [.s, .m1] false 1 1, a := .ss [.s, .m, .j, .k] true 1 1, b := .ss [.s, .m, .j, .k] true 1 1, imm := .ifB }
  | .saluMov _ => some
      { op := 0x50, f := 0x0D, el := true, q := false, d := .sd [.s, .m1] false 1 1, b := .ss [.s, .m, .j, .k] true 1 1, imm := .ifB }
  | .saluLea _ => some
      { op := 0x50, f := 0x0E, el := true, q := false, d := .sd [.s, .m1] false 1 1, a := .ss [.s, .m, .j, .k] true 1 1, b := .ss [.s] false 1 1, c := .scale, imm := .full }
  | .saluNot _ => some
      { op := 0x50, f := 0x0F, el := true, q := false, d := .sd [.s, .m1] false 1 1, a := .ss [.s, .m, .j, .k] true 1 1 }
  | .scmp rel _ => some
      { op := 0x51, f := rel.code, el := true, q := false, d := .sd [.s] false 1 1, a := .ss [.s, .m, .j, .k] true 1 1, b := .ss [.s, .m, .j, .k] true 1 1, imm := .ifB }
  | .sbrNz _ => some
      { op := 0x52, f := 0x00, el := true, q := false, a := .ss [.s, .m, .j, .k] true 1 1, imm := .full }
  | .sbrZ _ => some
      { op := 0x52, f := 0x01, el := true, q := false, a := .ss [.s, .m, .j, .k] true 1 1, imm := .full }
  | .bcast e => some
      { op := 0x53, f := 0x00, el := true, tys := intTys, d := .vd (wTy e) (wTy e), a := .ss [.s, .m, .j, .k] true 1 1 }
  | .pick e => some
      { op := 0x54, f := 0x00, el := true, tys := intTys, q := false, d := .sd [.s] false 1 1, a := .vs (wTy e) (wTy e), b := .ss [.s, .m, .j, .k] true 1 1, imm := .ifB }
  | .mmovAnd _ => some
      { op := 0x55, f := 0x00, el := true, q := false, d := .sd [.m1] false 1 1, a := .ss [.m] false 1 1, b := .ss [.m] false 1 1 }
  | .mmovOr _ => some
      { op := 0x55, f := 0x01, el := true, q := false, d := .sd [.m1] false 1 1, a := .ss [.m] false 1 1, b := .ss [.m] false 1 1 }
  | .mmovXor _ => some
      { op := 0x55, f := 0x02, el := true, q := false, d := .sd [.m1] false 1 1, a := .ss [.m] false 1 1, b := .ss [.m] false 1 1 }
  | .mmovAndn _ => some
      { op := 0x55, f := 0x03, el := true, q := false, d := .sd [.m1] false 1 1, a := .ss [.m] false 1 1, b := .ss [.m] false 1 1 }
  | .mmovNot _ => some
      { op := 0x55, f := 0x04, el := true, q := false, d := .sd [.m1] false 1 1, a := .ss [.m] false 1 1 }
  | .mmovFroms _ => some
      { op := 0x55, f := 0x05, el := true, q := false, d := .sd [.m1] false 1 1, a := .ss [.s] false 1 1 }
  | .mmovTos _ => some
      { op := 0x55, f := 0x06, el := true, q := false, d := .sd [.s] false 1 1, a := .ss [.m, .j, .k] false 1 1 }
  | .mmovPopc _ => some
      { op := 0x55, f := 0x07, el := true, q := false, d := .sd [.s] false 1 1, a := .ss [.m, .j] false 1 1 }
  | .pair _ => none
  | .illegal _ => none
  | .lds ld e => some
      { op := 0x58, f := ld.code, asOk := true, d := .vd ld.regs ld.regs, a := bif e.as_ then .ss [.s] true 1 1 else .vs 1 1, b := .vs 1 1, c := .scale, imm := .full }
  | .sts st e => some
      { op := 0x59, f := st.code, asOk := true, d := .vs st.regs st.regs, a := bif e.as_ then .ss [.s] true 1 1 else .vs 1 1, b := .vs 1 1, c := .scale, imm := .full }
  | .ldsv e => some
      { op := 0x5A, f := 0x00, d := .vd e.c.toNat e.c.toNat, a := .ss [.s] true 1 1, c := .num, imm := .full, ill := fun _ => !([1, 2, 4, 8].contains e.c.toNat) }
  | .stsv e => some
      { op := 0x5B, f := 0x00, d := .vs e.c.toNat e.c.toNat, a := .ss [.s] true 1 1, c := .num, imm := .full, ill := fun _ => !([1, 2, 4, 8].contains e.c.toNat) }
  | .movx e => some
      { op := 0x5C, f := 0x00, d := .vs 1 1, a := .vs 1 1, c := .num, imm := .full, ill := fun _ => !([1, 2, 4].contains e.c.toNat) }
  | .ldh _ => some { op := 0x5D, f := 0x00, d := .sd [.s] false 2 2, a := .ss [.s] true 1 1, imm := .full }
  | .mmaBf16 e => some
      { op := 0x60, f := 0x00, rnd := true, asOk := true, bsOk := true, d := .sd [.tile] false 1 1, a := bif e.as_ then .ss [.s] false 2 2 else .vblk 8 4, b := bif e.bs then .ss [.s] false 2 2 else .vblk 8 4, c := .pred false, imm := mmaImm false e }
  | .mmaF16 e => some
      { op := 0x60, f := 0x01, rnd := true, asOk := true, bsOk := true, d := .sd [.tile] false 1 1, a := bif e.as_ then .ss [.s] false 2 2 else .vblk 8 4, b := bif e.bs then .ss [.s] false 2 2 else .vblk 8 4, c := .pred false, imm := mmaImm false e }
  | .mmaS8 e => some
      { op := 0x60, f := 0x02, sat := true, asOk := true, bsOk := true, d := .sd [.tile] false 1 1, a := bif e.as_ then .ss [.s] false 2 2 else .vblk 8 4, b := bif e.bs then .ss [.s] false 2 2 else .vblk 8 4, c := .pred false, imm := mmaImm false e }
  | .mmaZ8 e => some
      { op := 0x60, f := 0x03, sat := true, asOk := true, bsOk := true, d := .sd [.tile] false 1 1, a := bif e.as_ then .ss [.s] false 2 2 else .vblk 8 4, b := bif e.bs then .ss [.s] false 2 2 else .vblk 8 4, c := .pred false, imm := mmaImm false e }
  | .mmaLg6 e => some
      { op := 0x60, f := 0x04, rnd := true, asOk := true, bsOk := true, d := .sd [.tile] false 1 1, a := bif e.as_ then .ss [.s] false 2 2 else .vblk 12 4, b := bif e.bs then .ss [.s] false 2 2 else .vblk 12 4, c := .pred true, imm := mmaImm true e, ill := fun l => !lgScaleOk e l }
  | .tzero _ => some { op := 0x61, f := 0x00, d := .sd [.tile] false 1 1, c := .pred false }
  | .tld _ => some
      { op := 0x61, f := 0x01, d := .sd [.tile] false 1 1, a := .ss [.s] false 2 2, c := .pred false, imm := .mask 0xFF#32 }
  | .tst _ => some
      { op := 0x61, f := 0x02, d := .ss [.tile] false 1 1, a := .ss [.s] false 2 2, c := .pred false, imm := .mask 0xFF#32 }
  | .tcvt _ => some
      { op := 0x61, f := 0x03, tys := [.bf16, .f16, .f32, .s32], rnd := true, d := .ss [.tile] false 1 1, a := .ss [.s] false 2 2, c := .pred false, imm := .mask 0xFF#32 }
  | .tdrain _ => some
      { op := 0x61, f := 0x04, d := .ss [.tile] false 1 1, a := .ss [.s] false 1 1, b := .ss [.s] false 1 1, c := .pred false, imm := .full }
  | .tdrainAdd _ => some
      { op := 0x61, f := 0x05, tys := [.f32, .s32], d := .ss [.tile] false 1 1, a := .ss [.s] false 1 1, b := .ss [.s] false 1 1, c := .pred false, imm := .full }
  | .drainRowApply => none
  | .tadd e => some
      { op := 0x61, f := 0x06, tys := [.f32, .s32], rnd := e.ty == .f32, sat := e.ty == .s32, d := .sd [.tile] false 1 1, a := .ss [.tile] false 1 1, c := .pred false }
  | .ksetFroms _ => some { op := 0x62, f := 0x00, q := false, d := .sd [.k1] false 1 1, a := .ss [.s] true 1 1 }
  | .ksetNonzero _ => some
      { op := 0x62, f := 0x01, tys := [.f32, .s32], q := false, d := .sd [.k1] false 1 1, a := .ss [.tile] false 1 1 }
  | .ksetAnd _ => some
      { op := 0x62, f := 0x02, q := false, d := .sd [.k1] false 1 1, a := .ss [.k] false 1 1, b := .ss [.k] false 1 1 }
  | .ksetOr _ => some
      { op := 0x62, f := 0x03, q := false, d := .sd [.k1] false 1 1, a := .ss [.k] false 1 1, b := .ss [.k] false 1 1 }
  | .ksetNot _ => some { op := 0x62, f := 0x04, q := false, d := .sd [.k1] false 1 1, a := .ss [.k] false 1 1 }
  | .storageErrorReport => none
  | .sldFwd _ => some
      { op := 0x64, f := 0x00, rnd := true, d := .vd 1 1, a := .ss [.s] false 2 2, b := .vs 1 1, imm := .full }
  | .sldBwd _ => some
      { op := 0x64, f := 0x01, rnd := true, d := .vd 1 1, a := .ss [.s] false 2 2, b := .vs 1 1, c := .vs 1 1, imm := .full }
  | .sstBlend _ => some
      { op := 0x65, f := 0x00, rnd := true, sat := true, d := .vs 1 1, a := .ss [.s] false 2 2, b := .vs 1 1, c := .vs 1 1, imm := .full }
  | .sstWrite _ => some
      { op := 0x65, f := 0x01, rnd := true, sat := true, d := .vs 1 1, a := .ss [.s] false 2 2, b := .vs 1 1, imm := .full }
  | .sstAdd _ => some
      { op := 0x65, f := 0x02, rnd := true, sat := true, d := .vs 1 1, a := .ss [.s] false 2 2, b := .vs 1 1, imm := .full }
  | .sstBwd _ => some
      { op := 0x65, f := 0x03, rnd := true, d := .vd 1 1, a := .ss [.s] false 2 2, b := .vs 1 1, c := .vs 1 1, imm := .full }
  | .softOpApply => none
  | .hardIdx e => some
      { op := 0x66, f := 0x00, d := .sd [.s] false 1 1, a := .vs 1 1, imm := .full, ill := fun l => !hardOk e l false }
  | .hardOnehot e => some
      { op := 0x66, f := 0x01, d := .vd 1 1, a := .vs 1 1, imm := .full, ill := fun l => !hardOk e l true }
  | .sinit _ => some { op := 0x67, f := 0x00, d := .sd [.s] true 1 1, a := .ss [.s] false 1 1, c := .bits 0x01#8 }
  | .sinitRel _ => some { op := 0x67, f := 0x00, d := .sd [.s] true 1 1, a := .ss [.s] false 1 1, c := .bits 0x01#8 }
  | .sfence _ => some
      { op := 0x67, f := 0x01, d := .sd [.s] true 1 1, a := .ss [.s] false 1 1, b := .ss [.s] true 1 1 }
  | .stape _ => some
      { op := 0x67, f := 0x02, d := .sd [.s] true 1 1, a := .ss [.s] false 1 1, b := .ss [.s] true 1 1 }
  | .sseq _ => some
      { op := 0x67, f := 0x03, d := .sd [.s] true 1 1, a := .ss [.s] false 1 1, b := .ss [.s] true 1 1, imm := .full }
  | .hclaim _ => some
      { op := 0x68, f := 0x00, q := false, d := .sd [.s] true 1 1, a := .ss [.s] false 1 1, imm := .mask 0x7#32, ill := fun l => !l.hc }
  | .hrel _ => some { op := 0x68, f := 0x01, q := false, d := .sd [.s] true 1 1, imm := .mask 0x7#32 }
  | .hclr _ => some { op := 0x68, f := 0x02, q := false, d := .sd [.s] true 1 1, imm := .mask 0x7#32 }
  | .hopIns _ => some
      { op := 0x69, f := 0x00, d := .vd 1 1, a := .vs 1 1, b := .vs 1 1, c := .vd 1 1, imm := .mask 0x7#32 }
  | .hopProbe _ => some { op := 0x69, f := 0x01, d := .vd 1 1, a := .vs 1 1, c := .vd 1 1, imm := .mask 0x7#32 }
  | .hopDel _ => some { op := 0x69, f := 0x02, d := .vd 1 1, a := .vs 1 1, c := .vd 1 1, imm := .mask 0x7#32 }
  | .hopAcc acc _ => some
      { op := 0x69, f := 3 + acc.code, d := .vd 1 1, a := .vs 1 1, b := .vs 1 1, c := .vd 1 1, imm := .mask 0x7#32 }
  | .hopIns64 _ => some
      { op := 0x69, f := 0x09, d := .vd 2 2, a := .vs 2 2, b := .vs 2 2, c := .vd 1 1, imm := .mask 0x7#32 }
  | .hopProbe64 _ => some { op := 0x69, f := 0x0A, d := .vd 2 2, a := .vs 2 2, c := .vd 1 1, imm := .mask 0x7#32 }
  | .hopDel64 _ => some { op := 0x69, f := 0x0B, d := .vd 2 2, a := .vs 2 2, c := .vd 1 1, imm := .mask 0x7#32 }
  | .hopAcc64 _ => some
      { op := 0x69, f := 0x0C, d := .vd 2 2, a := .vs 2 2, b := .vs 2 2, c := .vd 1 1, imm := .mask 0x7#32 }
  | .hashStep => none
  | .hdrainKeep _ => some
      { op := 0x6A, f := 0x00, d := .vd 1 1, a := .sdr [.s], b := .vd 1 1, c := .vd 1 1, imm := .mask 0x7#32 }
  | .hdrainClear _ => some
      { op := 0x6A, f := 0x01, d := .vd 1 1, a := .sdr [.s], b := .vd 1 1, c := .vd 1 1, imm := .mask 0x7#32 }
  | .hstat _ => some { op := 0x6B, f := 0x00, q := false, d := .sd [.s] false 2 2, imm := .mask 0x7#32 }
  | .ldg ld e => some
      { op := 0x6C, f := ld.code, el := true, asOk := true, d := .vd ld.regs ld.regs, a := bif e.as_ then .ss [.s] true 1 1 else .vs 2 2, b := .vs 1 1, c := .scale, imm := .full }
  | .stg st e => some
      { op := 0x6D, f := st.code, el := true, asOk := true, d := .vs st.regs st.regs, a := bif e.as_ then .ss [.s] true 1 1 else .vs 2 2, b := .vs 1 1, c := .scale, imm := .full }
  | .ldsc _ => some
      { op := 0x6E, f := 0x00, el := true, tys := intTys, d := .sd [.s] false 1 1, a := .ss [.s] true 1 1, imm := .full }
  | .stsc _ => some
      { op := 0x6E, f := 0x01, el := true, tys := intTys, d := .ss [.s] false 1 1, a := .ss [.s] true 1 1, imm := .full }
  | .leaseSet _ => some { op := 0x6F, f := 0x00, el := true, a := .ss [.s] true 1 1, imm := .ifA }
  | .leaseGet _ => some { op := 0x6F, f := 0x01, d := .sd [.s] false 1 1 }
  | .leaseMode _ => some { op := 0x6F, f := 0x02, el := true, a := .ss [.s] true 1 1, imm := .ifA }
  | .leasePref _ => some { op := 0x6F, f := 0x03, el := true, a := .ss [.s] true 1 1, imm := .ifA }
  | .leaseWindowEnd => none
  | .quenchEntryTimeout => none
  | .atom aop e => some
      { op := 0x70, f := aop.code, el := true, tys := allTys, asOk := true, bsOk := true, d := .vd aop.regs aop.regs, a := bif e.as_ then .ss [.s] true 1 1 else .vs 2 2, b := .lane aop.regs, c := .vs 1 1, imm := .full, res := e.tyBits.getLsbD 2 }
  | .atomApply => none
  | .fenceAcq e => some { op := 0x71, f := 0x00, tys := allTys, q := false, res := e.tyBits.getLsbD 2 }
  | .fenceRel e => some { op := 0x71, f := 0x01, tys := allTys, q := false, res := e.tyBits.getLsbD 2 }
  | .fenceAr e => some { op := 0x71, f := 0x02, tys := allTys, q := false, res := e.tyBits.getLsbD 2 }
  | .ldac e => some
      { op := 0x72, f := 0x00, el := true, tys := allTys, asOk := true, d := .vd e.acRegs e.acRegs, a := bif e.as_ then .ss [.s] true 1 1 else .vs 2 2, b := .vs 1 1, c := .scale, imm := .full }
  | .strl e => some
      { op := 0x72, f := 0x01, el := true, tys := allTys, asOk := true, d := .vs e.acRegs e.acRegs, a := bif e.as_ then .ss [.s] true 1 1 else .vs 2 2, b := .vs 1 1, c := .scale, imm := .full }
  | .pushCopy _ => some { op := 0x74, f := 0x00, q := false, d := .sd [.s] false 2 1, a := .ss [.s] false 8 8 }
  | .pushIndex _ => some { op := 0x74, f := 0x01, q := false, d := .sd [.s] false 2 1, a := .ss [.s] false 8 8 }
  | .pushAttn _ => some { op := 0x74, f := 0x02, q := false, d := .sd [.s] false 2 1, a := .ss [.s] false 8 8 }
  | .pushColl _ => some { op := 0x74, f := 0x03, q := false, d := .sd [.s] false 2 1, a := .ss [.s] false 8 8 }
  | .wcnt cls _ => some { op := 0x75, f := cls.code, q := false, d := .sd [.s] true 1 1, imm := .mask 0x3F#32 }
  | .cpLin => none
  | .cp2d => none
  | .cpFill => none
  | .gaRows => none
  | .gaElems => none
  | .scElems => none
  | .clAllred => none
  | .clAllgat => none
  | .clSend => none
  | .clRecv => none
  | .collectiveTimeout => none
  | .barInit _ => some
      { op := 0x76, f := 0x00, el := true, q := false, a := .ss [.bar] false 1 1, b := .ss [.s] true 1 1, imm := .ifB }
  | .barArrive _ => some { op := 0x76, f := 0x01, q := false, d := .sd [.s] true 1 1, a := .ss [.bar] false 1 1 }
  | .barWait _ => some
      { op := 0x76, f := 0x02, q := false, a := .ss [.bar] false 1 1, b := .ss [.s] true 1 1, imm := .ifB }
  | .barSync _ => some { op := 0x76, f := 0x03, q := false, d := .sd [.s] true 1 1, a := .ss [.bar] false 1 1 }
  | .barExpect _ => some
      { op := 0x76, f := 0x04, el := true, q := false, a := .ss [.bar] false 1 1, b := .ss [.s] true 1 1, imm := .ifB }
  | .barQuery _ => some { op := 0x76, f := 0x05, q := false, d := .sd [.s] false 1 1, a := .ss [.bar] false 1 1 }
  | .mbxSend _ => some
      { op := 0x77, f := 0x00, el := true, q := false, d := .sd [.s] true 1 1, a := .ss [.s] false 1 1, b := .ss [.s] true 1 1, imm := .ifB }
  | .mbxRecv _ => some
      { op := 0x77, f := 0x01, q := false, d := .sd [.s] false 2 2, a := .ss [.s] true 1 1, imm := .ifA }
  | .mbxPeek _ => some
      { op := 0x77, f := 0x02, q := false, d := .sd [.s] false 2 2, a := .ss [.s] true 1 1, imm := .ifA }
  | .spawn _ => some
      { op := 0x78, f := 0x00, q := false, d := .sd [.s] true 1 1, a := .ss [.s] false 8 8, imm := .mask 0x3F#32 }
  | .fw _ => some { op := 0x79, f := 0x00, q := false, a := .ss [.s] true 1 1, imm := .full }
  | .fwReply => none
  | .rgnEnter _ => some { op := 0x7A, f := 0x00, q := false, a := .ss [.s] true 1 1 }
  | .jobCwait _ => some
      { op := 0x7B, f := 0x00, el := true, q := false, d := .sd [.s] false 1 1, a := .ss [.s] false 1 1, b := .ss [.s] true 1 1, imm := .ifB }
  | .jobCadd _ => some
      { op := 0x7B, f := 0x01, el := true, q := false, d := .sd [.s] true 1 1, a := .ss [.s] false 1 1, b := .ss [.s] true 1 1, c := .bits 0x01#8, imm := .ifB }
  | .jobCaddInit _ => some
      { op := 0x7B, f := 0x01, el := true, q := false, d := .sd [.s] true 1 1, a := .ss [.s] false 1 1, b := .ss [.s] true 1 1, c := .bits 0x01#8, imm := .ifB }
  | .jobCancel _ => some
      { op := 0x7B, f := 0x02, q := false, d := .sd [.s] true 1 1, a := .ss [.s] false 1 1, imm := .mask 0x3#32 }
  | .jobFork _ => some
      { op := 0x7B, f := 0x03, el := true, q := false, d := .sd [.s] true 1 1, a := .ss [.s] false 1 1, b := .ss [.s] true 1 1, imm := .ifB }
  | .teamPlace => none
  | .teamRetire => none
  | .agingStep => none
  | .preemptRequest => none
  | .regionOverrun => none
  | .kvNew => none
  | .kvAppend => none
  | .kvFork => none
  | .kvRelease => none
  | .kvCompact => none
  | .kvAttn => none
  | .kvRead => none
  | .kvCancelRelease => none
  | .trap _ => some { op := 0x7C, f := 0x00, imm := .full }
  | .brk _ => some { op := 0x7C, f := 0x01 }
  | .rft _ => some { op := 0x7C, f := 0x02, q := false }
  | .sysTlbinvLeaf _ => some
      { op := 0x7D, f := 0x00, q := false, d := .sd [.s] true 1 1, a := .ss [.s] false 1 1, b := .ss [.s] false 1 1, imm := .mask 0x3#32 }
  | .sysTlbinvContext _ => some
      { op := 0x7D, f := 0x00, q := false, d := .sd [.s] true 1 1, a := .ss [.s] false 1 1, b := .ss [.s] false 1 1, imm := .mask 0x3#32 }
  | .sysTlbinvAll _ => some
      { op := 0x7D, f := 0x00, q := false, d := .sd [.s] true 1 1, a := .ss [.s] false 1 1, b := .ss [.s] false 1 1, imm := .mask 0x3#32 }
  | .sysCfgrd _ => some { op := 0x7D, f := 0x01, q := false, d := .sd [.s] false 2 2, a := .ss [.s] false 1 1 }
  | .sysCfgwr _ => some
      { op := 0x7D, f := 0x02, q := false, d := .sd [.s] true 1 1, a := .ss [.s] false 1 1, b := .ss [.s] false 1 1 }
  | .arenaAdd => none
  | .sysFqreplayRetry _ => some
      { op := 0x7D, f := 0x03, q := false, d := .sd [.s] true 1 1, a := .ss [.s] false 1 1, imm := .mask 0x1#32 }
  | .sysFqreplayDiscard _ => some
      { op := 0x7D, f := 0x03, q := false, d := .sd [.s] true 1 1, a := .ss [.s] false 1 1, imm := .mask 0x1#32 }
  | .sysHaltEnable _ => some
      { op := 0x7D, f := 0x04, q := false, d := .sd [.s] true 1 1, a := .ss [.s] false 1 1, imm := .mask 0x3#32 }
  | .sysHaltSuspend _ => some
      { op := 0x7D, f := 0x04, q := false, d := .sd [.s] true 1 1, a := .ss [.s] false 1 1, imm := .mask 0x3#32 }
  | .sysHaltResume _ => some
      { op := 0x7D, f := 0x04, q := false, d := .sd [.s] true 1 1, a := .ss [.s] false 1 1, imm := .mask 0x3#32 }
  | .sysHaltTeardown _ => some
      { op := 0x7D, f := 0x04, q := false, d := .sd [.s] true 1 1, a := .ss [.s] false 1 1, imm := .mask 0x3#32 }
  | .eccError => none
  | .poolGranuleClear => none
  | .doorbellSubmit => none
  | .doorbellCancel => none
  | .doorbellNotify => none
  | .cfgcmdRead => none
  | .cfgcmdWrite => none
  | .cfgcmdHalt => none
  | .hostWindowRead => none
  | .hostWindowWrite => none
  | .attgo => none
  | .attestationPeerRequest => none
  | .registerWrite => none
  | .lysobDataFlit => none
  | .lysobAck => none
  | .lysobNak => none
  | .lysobCredit => none
  | .lysobIdle => none
  | .lysobPortTrained => none
  | .powerAverageStep => none
  | .thermalLimit => none
  | .fundamentalReset => none
  | .lysobCrcError => none
  | .hostAtomicopCompletion => none

/-- The fields of an instruction that has a row. -/
def encOf : Instr → Option Enc
  | .nop e => some e
  | .br e => some e
  | .jmp e => some e
  | .call e => some e
  | .ret e => some e
  | .jsetM e => some e
  | .jsetAct e => some e
  | .jclr e => some e
  | .jwait e => some e
  | .exit e => some e
  | .exitc e => some e
  | .seg e => some e
  | .sleepUntil e => some e
  | .sleepCyc e => some e
  | .sleepPrm e => some e
  | .gsr e => some e
  | .ssr e => some e
  | .add e => some e
  | .sub e => some e
  | .mul e => some e
  | .mulh e => some e
  | .mad e => some e
  | .min e => some e
  | .max e => some e
  | .abs e => some e
  | .and e => some e
  | .or e => some e
  | .xor e => some e
  | .not e => some e
  | .shl e => some e
  | .shr e => some e
  | .sar e => some e
  | .fsh e => some e
  | .bfx e => some e
  | .bfi e => some e
  | .popc e => some e
  | .clz e => some e
  | .brev e => some e
  | .perm e => some e
  | .cmp _ e => some e
  | .sel e => some e
  | .mov e => some e
  | .lea e => some e
  | .sad e => some e
  | .fadd e => some e
  | .fsub e => some e
  | .fmul e => some e
  | .fma e => some e
  | .fmin e => some e
  | .fmax e => some e
  | .fneg e => some e
  | .fabs e => some e
  | .fcopysign e => some e
  | .fcmp _ e => some e
  | .fdot2 e => some e
  | .fclass e => some e
  | .frnd e => some e
  | .fscale e => some e
  | .cvt _ e => some e
  | .pack16 _ e => some e
  | .pack8 _ e => some e
  | .unpk16 _ e => some e
  | .unpk8 _ e => some e
  | .sfuRcp e => some e
  | .sfuRsqrt e => some e
  | .sfuSqrt e => some e
  | .sfuExp2 e => some e
  | .sfuLog2 e => some e
  | .lgqCode e => some e
  | .lgqPairs e => some e
  | .lgx e => some e
  | .lgpkPack e => some e
  | .lgpkUnpack e => some e
  | .voteAny e => some e
  | .voteAll e => some e
  | .voteBallot e => some e
  | .voteCount e => some e
  | .lxGet e => some e
  | .lxRise e => some e
  | .lxFall e => some e
  | .lxFlip e => some e
  | .lxTurn e => some e
  | .matchLanes _ e => some e
  | .rdc _ e => some e
  | .scan _ e => some e
  | .topk _ e => some e
  | .rank e => some e
  | .elect e => some e
  | .saluAdd e => some e
  | .saluSub e => some e
  | .saluMul e => some e
  | .saluAnd e => some e
  | .saluOr e => some e
  | .saluXor e => some e
  | .saluShl e => some e
  | .saluShr e => some e
  | .saluSar e => some e
  | .saluMinS e => some e
  | .saluMaxS e => some e
  | .saluMinZ e => some e
  | .saluMaxZ e => some e
  | .saluMov e => some e
  | .saluLea e => some e
  | .saluNot e => some e
  | .scmp _ e => some e
  | .sbrNz e => some e
  | .sbrZ e => some e
  | .bcast e => some e
  | .pick e => some e
  | .mmovAnd e => some e
  | .mmovOr e => some e
  | .mmovXor e => some e
  | .mmovAndn e => some e
  | .mmovNot e => some e
  | .mmovFroms e => some e
  | .mmovTos e => some e
  | .mmovPopc e => some e
  | .lds _ e => some e
  | .sts _ e => some e
  | .ldsv e => some e
  | .stsv e => some e
  | .movx e => some e
  | .ldh e => some e
  | .mmaBf16 e => some e
  | .mmaF16 e => some e
  | .mmaS8 e => some e
  | .mmaZ8 e => some e
  | .mmaLg6 e => some e
  | .tzero e => some e
  | .tld e => some e
  | .tst e => some e
  | .tcvt e => some e
  | .tdrain e => some e
  | .tdrainAdd e => some e
  | .tadd e => some e
  | .ksetFroms e => some e
  | .ksetNonzero e => some e
  | .ksetAnd e => some e
  | .ksetOr e => some e
  | .ksetNot e => some e
  | .sldFwd e => some e
  | .sldBwd e => some e
  | .sstBlend e => some e
  | .sstWrite e => some e
  | .sstAdd e => some e
  | .sstBwd e => some e
  | .hardIdx e => some e
  | .hardOnehot e => some e
  | .sinit e => some e
  | .sinitRel e => some e
  | .sfence e => some e
  | .stape e => some e
  | .sseq e => some e
  | .hclaim e => some e
  | .hrel e => some e
  | .hclr e => some e
  | .hopIns e => some e
  | .hopProbe e => some e
  | .hopDel e => some e
  | .hopAcc _ e => some e
  | .hopIns64 e => some e
  | .hopProbe64 e => some e
  | .hopDel64 e => some e
  | .hopAcc64 e => some e
  | .hdrainKeep e => some e
  | .hdrainClear e => some e
  | .hstat e => some e
  | .ldg _ e => some e
  | .stg _ e => some e
  | .ldsc e => some e
  | .stsc e => some e
  | .leaseSet e => some e
  | .leaseGet e => some e
  | .leaseMode e => some e
  | .leasePref e => some e
  | .atom _ e => some e
  | .fenceAcq e => some e
  | .fenceRel e => some e
  | .fenceAr e => some e
  | .ldac e => some e
  | .strl e => some e
  | .pushCopy e => some e
  | .pushIndex e => some e
  | .pushAttn e => some e
  | .pushColl e => some e
  | .wcnt _ e => some e
  | .barInit e => some e
  | .barArrive e => some e
  | .barWait e => some e
  | .barSync e => some e
  | .barExpect e => some e
  | .barQuery e => some e
  | .mbxSend e => some e
  | .mbxRecv e => some e
  | .mbxPeek e => some e
  | .spawn e => some e
  | .fw e => some e
  | .rgnEnter e => some e
  | .jobCwait e => some e
  | .jobCadd e => some e
  | .jobCaddInit e => some e
  | .jobCancel e => some e
  | .jobFork e => some e
  | .trap e => some e
  | .brk e => some e
  | .rft e => some e
  | .sysTlbinvLeaf e => some e
  | .sysTlbinvContext e => some e
  | .sysTlbinvAll e => some e
  | .sysCfgrd e => some e
  | .sysCfgwr e => some e
  | .sysFqreplayRetry e => some e
  | .sysFqreplayDiscard e => some e
  | .sysHaltEnable e => some e
  | .sysHaltSuspend e => some e
  | .sysHaltResume e => some e
  | .sysHaltTeardown e => some e
  | _ => none

/-- The fields of a one-word B instruction, with its opcode. -/
def bEncOf : Instr → Option (Nat × BEnc)
  | .nopB b => some (0x00, b)
  | .retB b => some (0x04, b)
  | .exitB b => some (0x07, b)
  | .segB b => some (0x09, b)
  | .addB b => some (0x10, b)
  | .subB b => some (0x11, b)
  | .mulB b => some (0x12, b)
  | .minB b => some (0x15, b)
  | .maxB b => some (0x16, b)
  | .andB b => some (0x18, b)
  | .orB b => some (0x19, b)
  | .xorB b => some (0x1A, b)
  | .notB b => some (0x1B, b)
  | .shlB b => some (0x1C, b)
  | .shrB b => some (0x1D, b)
  | .sarB b => some (0x1E, b)
  | .movB b => some (0x28, b)
  | .faddB b => some (0x30, b)
  | .fsubB b => some (0x31, b)
  | .fmulB b => some (0x32, b)
  | .fminB b => some (0x34, b)
  | .fmaxB b => some (0x35, b)
  | _ => none

/-- The instruction of an opcode, a function code and fields (R29). Rows that one opcode and function code share are
told apart by the field that their chapter names (R181, R323, R369). -/
def build (op f : Nat) (e : Enc) : Option Instr :=
  match op with
  | 0x00 =>
    match f with
    | 0x00 => some (.nop e)
    | _ => none
  | 0x01 =>
    match f with
    | 0x00 => some (.br e)
    | _ => none
  | 0x02 =>
    match f with
    | 0x00 => some (.jmp e)
    | _ => none
  | 0x03 =>
    match f with
    | 0x00 => some (.call e)
    | _ => none
  | 0x04 =>
    match f with
    | 0x00 => some (.ret e)
    | _ => none
  | 0x05 =>
    match f with
    | 0x00 => some (.jsetM e)
    | 0x01 => some (.jsetAct e)
    | 0x02 => some (.jclr e)
    | _ => none
  | 0x06 =>
    match f with
    | 0x00 => some (.jwait e)
    | _ => none
  | 0x07 =>
    match f with
    | 0x00 => some (.exit e)
    | _ => none
  | 0x08 =>
    match f with
    | 0x00 => some (.exitc e)
    | _ => none
  | 0x09 =>
    match f with
    | 0x00 => some (.seg e)
    | _ => none
  | 0x0A =>
    match f with
    | 0x00 => some (.sleepUntil e)
    | 0x01 => some (.sleepCyc e)
    | 0x02 => some (.sleepPrm e)
    | _ => none
  | 0x0B =>
    match f with
    | 0x00 => some (.gsr e)
    | 0x01 => some (.ssr e)
    | _ => none
  | 0x10 =>
    match f with
    | 0x00 => some (.add e)
    | _ => none
  | 0x11 =>
    match f with
    | 0x00 => some (.sub e)
    | _ => none
  | 0x12 =>
    match f with
    | 0x00 => some (.mul e)
    | _ => none
  | 0x13 =>
    match f with
    | 0x00 => some (.mulh e)
    | _ => none
  | 0x14 =>
    match f with
    | 0x00 => some (.mad e)
    | _ => none
  | 0x15 =>
    match f with
    | 0x00 => some (.min e)
    | _ => none
  | 0x16 =>
    match f with
    | 0x00 => some (.max e)
    | _ => none
  | 0x17 =>
    match f with
    | 0x00 => some (.abs e)
    | _ => none
  | 0x18 =>
    match f with
    | 0x00 => some (.and e)
    | _ => none
  | 0x19 =>
    match f with
    | 0x00 => some (.or e)
    | _ => none
  | 0x1A =>
    match f with
    | 0x00 => some (.xor e)
    | _ => none
  | 0x1B =>
    match f with
    | 0x00 => some (.not e)
    | _ => none
  | 0x1C =>
    match f with
    | 0x00 => some (.shl e)
    | _ => none
  | 0x1D =>
    match f with
    | 0x00 => some (.shr e)
    | _ => none
  | 0x1E =>
    match f with
    | 0x00 => some (.sar e)
    | _ => none
  | 0x1F =>
    match f with
    | 0x00 => some (.fsh e)
    | _ => none
  | 0x20 =>
    match f with
    | 0x00 => some (.bfx e)
    | _ => none
  | 0x21 =>
    match f with
    | 0x00 => some (.bfi e)
    | _ => none
  | 0x22 =>
    match f with
    | 0x00 => some (.popc e)
    | _ => none
  | 0x23 =>
    match f with
    | 0x00 => some (.clz e)
    | _ => none
  | 0x24 =>
    match f with
    | 0x00 => some (.brev e)
    | _ => none
  | 0x25 =>
    match f with
    | 0x00 => some (.perm e)
    | _ => none
  | 0x26 =>
    (Rel.ofCode f).map fun x => .cmp x e
  | 0x27 =>
    match f with
    | 0x00 => some (.sel e)
    | _ => none
  | 0x28 =>
    match f with
    | 0x00 => some (.mov e)
    | _ => none
  | 0x29 =>
    match f with
    | 0x00 => some (.lea e)
    | _ => none
  | 0x2A =>
    match f with
    | 0x00 => some (.sad e)
    | _ => none
  | 0x30 =>
    match f with
    | 0x00 => some (.fadd e)
    | _ => none
  | 0x31 =>
    match f with
    | 0x00 => some (.fsub e)
    | _ => none
  | 0x32 =>
    match f with
    | 0x00 => some (.fmul e)
    | _ => none
  | 0x33 =>
    match f with
    | 0x00 => some (.fma e)
    | _ => none
  | 0x34 =>
    match f with
    | 0x00 => some (.fmin e)
    | _ => none
  | 0x35 =>
    match f with
    | 0x00 => some (.fmax e)
    | _ => none
  | 0x36 =>
    match f with
    | 0x00 => some (.fneg e)
    | 0x01 => some (.fabs e)
    | 0x02 => some (.fcopysign e)
    | _ => none
  | 0x37 =>
    (FRel.ofCode f).map fun x => .fcmp x e
  | 0x38 =>
    match f with
    | 0x00 => some (.fdot2 e)
    | _ => none
  | 0x39 =>
    match f with
    | 0x00 => some (.fclass e)
    | _ => none
  | 0x3A =>
    match f with
    | 0x00 => some (.frnd e)
    | _ => none
  | 0x3B =>
    match f with
    | 0x00 => some (.fscale e)
    | _ => none
  | 0x40 =>
    (CvtPair.ofCode f).map fun x => .cvt x e
  | 0x41 =>
    match f with
    | 0 => (Half.ofCode 0).map fun x => .pack16 x e
    | 1 => (Half.ofCode 1).map fun x => .pack16 x e
    | 2 => (Sign.ofCode 0).map fun x => .pack8 x e
    | 3 => (Sign.ofCode 1).map fun x => .pack8 x e
    | _ => none
  | 0x42 =>
    match f with
    | 0 => (Half.ofCode 0).map fun x => .unpk16 x e
    | 1 => (Half.ofCode 1).map fun x => .unpk16 x e
    | 2 => (Sign.ofCode 0).map fun x => .unpk8 x e
    | 3 => (Sign.ofCode 1).map fun x => .unpk8 x e
    | _ => none
  | 0x43 =>
    match f with
    | 0x00 => some (.sfuRcp e)
    | 0x01 => some (.sfuRsqrt e)
    | 0x02 => some (.sfuSqrt e)
    | 0x03 => some (.sfuExp2 e)
    | 0x04 => some (.sfuLog2 e)
    | _ => none
  | 0x44 =>
    match f with
    | 0x00 => some (.lgqCode e)
    | 0x01 => some (.lgqPairs e)
    | _ => none
  | 0x45 =>
    match f with
    | 0x00 => some (.lgx e)
    | _ => none
  | 0x46 =>
    match f with
    | 0x00 => some (.lgpkPack e)
    | 0x01 => some (.lgpkUnpack e)
    | _ => none
  | 0x48 =>
    match f with
    | 0x00 => some (.voteAny e)
    | 0x01 => some (.voteAll e)
    | 0x02 => some (.voteBallot e)
    | 0x03 => some (.voteCount e)
    | _ => none
  | 0x49 =>
    match f with
    | 0x00 => some (.lxGet e)
    | 0x01 => some (.lxRise e)
    | 0x02 => some (.lxFall e)
    | 0x03 => some (.lxFlip e)
    | 0x04 => some (.lxTurn e)
    | _ => none
  | 0x4A =>
    (MatchSize.ofCode f).map fun x => .matchLanes x e
  | 0x4B =>
    (RdcOp.ofCode f).map fun x => .rdc x e
  | 0x4C =>
    (ScanOp.ofCode f).map fun x => .scan x e
  | 0x4D =>
    (TopkOp.ofCode f).map fun x => .topk x e
  | 0x4E =>
    match f with
    | 0x00 => some (.rank e)
    | 0x01 => some (.elect e)
    | _ => none
  | 0x50 =>
    match f with
    | 0x00 => some (.saluAdd e)
    | 0x01 => some (.saluSub e)
    | 0x02 => some (.saluMul e)
    | 0x03 => some (.saluAnd e)
    | 0x04 => some (.saluOr e)
    | 0x05 => some (.saluXor e)
    | 0x06 => some (.saluShl e)
    | 0x07 => some (.saluShr e)
    | 0x08 => some (.saluSar e)
    | 0x09 => some (.saluMinS e)
    | 0x0A => some (.saluMaxS e)
    | 0x0B => some (.saluMinZ e)
    | 0x0C => some (.saluMaxZ e)
    | 0x0D => some (.saluMov e)
    | 0x0E => some (.saluLea e)
    | 0x0F => some (.saluNot e)
    | _ => none
  | 0x51 =>
    (SRel.ofCode f).map fun x => .scmp x e
  | 0x52 =>
    match f with
    | 0x00 => some (.sbrNz e)
    | 0x01 => some (.sbrZ e)
    | _ => none
  | 0x53 =>
    match f with
    | 0x00 => some (.bcast e)
    | _ => none
  | 0x54 =>
    match f with
    | 0x00 => some (.pick e)
    | _ => none
  | 0x55 =>
    match f with
    | 0x00 => some (.mmovAnd e)
    | 0x01 => some (.mmovOr e)
    | 0x02 => some (.mmovXor e)
    | 0x03 => some (.mmovAndn e)
    | 0x04 => some (.mmovNot e)
    | 0x05 => some (.mmovFroms e)
    | 0x06 => some (.mmovTos e)
    | 0x07 => some (.mmovPopc e)
    | _ => none
  | 0x58 =>
    (LdType.ofCode f).map fun x => .lds x e
  | 0x59 =>
    (StWidth.ofCode f).map fun x => .sts x e
  | 0x5A =>
    match f with
    | 0x00 => some (.ldsv e)
    | _ => none
  | 0x5B =>
    match f with
    | 0x00 => some (.stsv e)
    | _ => none
  | 0x5C =>
    match f with
    | 0x00 => some (.movx e)
    | _ => none
  | 0x5D =>
    match f with
    | 0x00 => some (.ldh e)
    | _ => none
  | 0x60 =>
    match f with
    | 0x00 => some (.mmaBf16 e)
    | 0x01 => some (.mmaF16 e)
    | 0x02 => some (.mmaS8 e)
    | 0x03 => some (.mmaZ8 e)
    | 0x04 => some (.mmaLg6 e)
    | _ => none
  | 0x61 =>
    match f with
    | 0x00 => some (.tzero e)
    | 0x01 => some (.tld e)
    | 0x02 => some (.tst e)
    | 0x03 => some (.tcvt e)
    | 0x04 => some (.tdrain e)
    | 0x05 => some (.tdrainAdd e)
    | 0x06 => some (.tadd e)
    | _ => none
  | 0x62 =>
    match f with
    | 0x00 => some (.ksetFroms e)
    | 0x01 => some (.ksetNonzero e)
    | 0x02 => some (.ksetAnd e)
    | 0x03 => some (.ksetOr e)
    | 0x04 => some (.ksetNot e)
    | _ => none
  | 0x64 =>
    match f with
    | 0x00 => some (.sldFwd e)
    | 0x01 => some (.sldBwd e)
    | _ => none
  | 0x65 =>
    match f with
    | 0x00 => some (.sstBlend e)
    | 0x01 => some (.sstWrite e)
    | 0x02 => some (.sstAdd e)
    | 0x03 => some (.sstBwd e)
    | _ => none
  | 0x66 =>
    match f with
    | 0x00 => some (.hardIdx e)
    | 0x01 => some (.hardOnehot e)
    | _ => none
  | 0x67 =>
    match f with
    | 0x00 => some (bif e.c.getLsbD 0 then .sinitRel e else .sinit e)
    | 0x01 => some (.sfence e)
    | 0x02 => some (.stape e)
    | 0x03 => some (.sseq e)
    | _ => none
  | 0x68 =>
    match f with
    | 0x00 => some (.hclaim e)
    | 0x01 => some (.hrel e)
    | 0x02 => some (.hclr e)
    | _ => none
  | 0x69 =>
    match f with
    | 0x00 => some (.hopIns e)
    | 0x01 => some (.hopProbe e)
    | 0x02 => some (.hopDel e)
    | 3 => (HopAcc.ofCode 0).map fun x => .hopAcc x e
    | 4 => (HopAcc.ofCode 1).map fun x => .hopAcc x e
    | 5 => (HopAcc.ofCode 2).map fun x => .hopAcc x e
    | 6 => (HopAcc.ofCode 3).map fun x => .hopAcc x e
    | 7 => (HopAcc.ofCode 4).map fun x => .hopAcc x e
    | 8 => (HopAcc.ofCode 5).map fun x => .hopAcc x e
    | 0x09 => some (.hopIns64 e)
    | 0x0A => some (.hopProbe64 e)
    | 0x0B => some (.hopDel64 e)
    | 0x0C => some (.hopAcc64 e)
    | _ => none
  | 0x6A =>
    match f with
    | 0x00 => some (.hdrainKeep e)
    | 0x01 => some (.hdrainClear e)
    | _ => none
  | 0x6B =>
    match f with
    | 0x00 => some (.hstat e)
    | _ => none
  | 0x6C =>
    (LdType.ofCode f).map fun x => .ldg x e
  | 0x6D =>
    (StWidth.ofCode f).map fun x => .stg x e
  | 0x6E =>
    match f with
    | 0x00 => some (.ldsc e)
    | 0x01 => some (.stsc e)
    | _ => none
  | 0x6F =>
    match f with
    | 0x00 => some (.leaseSet e)
    | 0x01 => some (.leaseGet e)
    | 0x02 => some (.leaseMode e)
    | 0x03 => some (.leasePref e)
    | _ => none
  | 0x70 =>
    (AtomOp.ofCode f).map fun x => .atom x e
  | 0x71 =>
    match f with
    | 0x00 => some (.fenceAcq e)
    | 0x01 => some (.fenceRel e)
    | 0x02 => some (.fenceAr e)
    | _ => none
  | 0x72 =>
    match f with
    | 0x00 => some (.ldac e)
    | 0x01 => some (.strl e)
    | _ => none
  | 0x74 =>
    match f with
    | 0x00 => some (.pushCopy e)
    | 0x01 => some (.pushIndex e)
    | 0x02 => some (.pushAttn e)
    | 0x03 => some (.pushColl e)
    | _ => none
  | 0x75 =>
    (EngClass.ofCode f).map fun x => .wcnt x e
  | 0x76 =>
    match f with
    | 0x00 => some (.barInit e)
    | 0x01 => some (.barArrive e)
    | 0x02 => some (.barWait e)
    | 0x03 => some (.barSync e)
    | 0x04 => some (.barExpect e)
    | 0x05 => some (.barQuery e)
    | _ => none
  | 0x77 =>
    match f with
    | 0x00 => some (.mbxSend e)
    | 0x01 => some (.mbxRecv e)
    | 0x02 => some (.mbxPeek e)
    | _ => none
  | 0x78 =>
    match f with
    | 0x00 => some (.spawn e)
    | _ => none
  | 0x79 =>
    match f with
    | 0x00 => some (.fw e)
    | _ => none
  | 0x7A =>
    match f with
    | 0x00 => some (.rgnEnter e)
    | _ => none
  | 0x7B =>
    match f with
    | 0x00 => some (.jobCwait e)
    | 0x01 => some (bif e.c.getLsbD 0 then .jobCaddInit e else .jobCadd e)
    | 0x02 => some (.jobCancel e)
    | 0x03 => some (.jobFork e)
    | _ => none
  | 0x7C =>
    match f with
    | 0x00 => some (.trap e)
    | 0x01 => some (.brk e)
    | 0x02 => some (.rft e)
    | _ => none
  | 0x7D =>
    match f with
    | 0x00 => some (bif e.imm == 1#32 then .sysTlbinvContext e else bif e.imm == 2#32 then .sysTlbinvAll e else .sysTlbinvLeaf e)
    | 0x01 => some (.sysCfgrd e)
    | 0x02 => some (.sysCfgwr e)
    | 0x03 => some (bif e.imm.getLsbD 0 then .sysFqreplayDiscard e else .sysFqreplayRetry e)
    | 0x04 => some (match e.imm.toNat % 4 with
      | 0 => .sysHaltEnable e | 1 => .sysHaltSuspend e | 2 => .sysHaltResume e | _ => .sysHaltTeardown e)
    | _ => none
  | _ => none

/-- The opcodes whose B and B+L forms are two-address: v[D] ← v[D] op v[A] (R19). -/
def twoAddr (op : Nat) : Bool :=
  [0x10, 0x11, 0x12, 0x15, 0x16, 0x18, 0x19, 0x1A, 0x1C, 0x1D, 0x1E, 0x30, 0x31, 0x32, 0x34, 0x35].contains op

/-- The default type of a B form: s32 in the integer block and below, f32 in the float block (R19). -/
def bType (op : Nat) : Ty := if 0x30 ≤ op then .f32 else .s32

/-- The E fields a B or B+L form executes with (R19). -/
def shortEnc (op : Nat) (form : Form) (b : BEnc) : Enc :=
  { form, q := b.q, stall := b.stall, d := b.d, a := bif twoAddr op then b.d else b.a,
    b := bif twoAddr op then b.a else 0#8, c := 0#8, as_ := false, bs := false, sat := false, rnd := .rn,
    ty := bType op, imm := 0#32 }

/-- The one-word B instruction of an opcode (R19). -/
def buildB (op : Nat) (b : BEnc) : Option Instr :=
  match op with
  | 0x00 => some (.nopB b)
  | 0x04 => some (.retB b)
  | 0x07 => some (.exitB b)
  | 0x09 => some (.segB b)
  | 0x10 => some (.addB b)
  | 0x11 => some (.subB b)
  | 0x12 => some (.mulB b)
  | 0x15 => some (.minB b)
  | 0x16 => some (.maxB b)
  | 0x18 => some (.andB b)
  | 0x19 => some (.orB b)
  | 0x1A => some (.xorB b)
  | 0x1B => some (.notB b)
  | 0x1C => some (.shlB b)
  | 0x1D => some (.shrB b)
  | 0x1E => some (.sarB b)
  | 0x28 => some (.movB b)
  | 0x30 => some (.faddB b)
  | 0x31 => some (.fsubB b)
  | 0x32 => some (.fmulB b)
  | 0x34 => some (.fminB b)
  | 0x35 => some (.fmaxB b)
  | _ => none

end Machine
end Sys2Proof
end

