-- ==== Sys2Proof/WellFormed.lean ====
section
/-! DEFINITION. Which instructions are well formed: the checks of R13 to R19, R26 and R27 on an instruction's fields. -/
namespace Sys2Proof.Machine

/-- A scalar-field number lies in a class, with `n` registers at a multiple of `al` (R15). -/
def Cls.holds (l : Limits) (n al v : Nat) : Cls → Bool
  | .s    => decide (v % al = 0 ∧ v + n ≤ 0x40)
  | .m    => decide (0x40 ≤ v ∧ v ≤ 0x4F)
  | .m1   => decide (0x41 ≤ v ∧ v ≤ 0x4F)
  | .j    => decide (0x50 ≤ v ∧ v ≤ 0x57)
  | .k    => decide (0x58 ≤ v ∧ v ≤ 0x5F)
  | .k1   => decide (0x59 ≤ v ∧ v ≤ 0x5F)
  | .tile => decide (0x80 ≤ v ∧ v < 0x80 + l.tiles ∧ v ≤ 0xBF)
  | .bar  => decide (0xC0 ≤ v ∧ v < 0xC0 + l.bars ∧ v ≤ 0xEF)

/-- A block of vector registers lies within the allotment at its alignment (R14). -/
def vecFits (l : Limits) (n al v : Nat) : Bool := decide (v % al = 0 ∧ v + n ≤ l.nRegs)

/-- A field value that takes the illegal-instruction trap (R14, R15). `sc` is the AS or BS bit. -/
def Fld.ill (l : Limits) (sc : Bool) (v : Nat) : Fld → Bool
  | .no | .num | .bits _ | .pred _ => false
  | .vs n al | .vd n al => decide (v ≠ 0xFF) && !vecFits l n al v
  | .vblk n al => !vecFits l n al v
  | .lane n => decide (v ≠ 0xFF) && !(bif sc then decide (v < 0x40) else vecFits l n n v)
  | .ss cls ff n al | .sd cls ff n al =>
      !(bif decide (v = 0xFF) then ff else cls.any (Cls.holds l n al v))
  | .sdr cls => !cls.any (Cls.holds l 1 1 v)
  | .scale => decide (4 < v % 8)

/-- A field value that takes the reserved-field trap (R13). -/
def Fld.res (v : BitVec 8) : Fld → Bool
  | .no => v != 0#8
  | .bits m => v &&& ~~~m != 0#8
  | .scale => v &&& 0xF8#8 != 0#8
  | .pred sel => v &&& (bif sel then 0x1E#8 else 0x1F#8) != 0#8
  | _ => false

/-- Bits of IMM32 that take the reserved-field trap in an E form (R13, R17). -/
def ImmUse.res (e : Enc) : ImmUse → Bool
  | .no => e.imm != 0#32
  | .full => false
  | .mask m => e.imm &&& ~~~m != 0#32
  | .ifA => e.a != 0xFF#8 && e.imm != 0#32
  | .ifB => e.b != 0xFF#8 && e.imm != 0#32

/-- A form the row does not have (R19, R29). -/
def Row.formIll (r : Row) (e : Enc) : Bool :=
  match e.form with
  | .e => false
  | .el _ => !r.el
  | .bl _ => !r.bl

/-- The fields that take the illegal-instruction trap (R30 item 2). -/
def Row.isIll (r : Row) (l : Limits) (e : Enc) : Bool :=
  r.formIll e || !r.tys.contains e.ty || r.d.ill l false e.d.toNat || r.a.ill l e.as_ e.a.toNat
    || r.b.ill l e.bs e.b.toNat || r.c.ill l false e.c.toNat || r.ill l

/-- The immediate and literal words that take the reserved-field trap (R13, R17, R47, R50, R63). -/
def Row.immRes (r : Row) (e : Enc) : Bool :=
  match e.form with
  | .e => r.imm.res e
  | .el lit => e.imm != 0#32 || (r.litZ && lit != 0#64)
  | .bl lit => r.blZ && lit != 0#64

/-- The fields that take the reserved-field trap (R30 item 3). -/
def Row.isRes (r : Row) (e : Enc) : Bool :=
  r.d.res e.d || r.a.res e.a || r.b.res e.b || r.c.res e.c || (e.as_ && !r.asOk) || (e.bs && !r.bsOk)
    || (e.sat && !r.sat) || (e.rnd != .rn && !r.rnd) || (e.q != 0#4 && !r.q) || r.immRes e || r.res

/-- A B+L form carries the fields of the equivalent E form and nothing else (R19). -/
def Row.shortShape (r : Row) (e : Enc) : Bool :=
  match e.form with
  | .bl lit => e == shortEnc r.op (.bl lit)
      { q := e.q, stall := e.stall, d := e.d, a := bif twoAddr r.op then e.b else e.a }
  | _ => true

/-- The row a one-word B form executes as (R19). -/
def bRow (op : Nat) (b : BEnc) : Option Row := (build op 0 (shortEnc op .e b)).bind rowOf

/-- The pair codes that name no operation of a P form (R26). -/
def pairCodeIll (p : Nat) : Bool := decide (0x26 ≤ p) || decide (0x1B ≤ p ∧ p ≤ 0x1F) || decide (p = 0x16)

/-- The pair codes whose operation reads no second source: the six of R26, and bfx, whose row has no B (R117). -/
def pairUnary (p : Nat) : Bool := [0x07, 0x0B, 0x10, 0x12, 0x13, 0x14, 0x18].contains p

/-- The pair codes whose operation reads a third operand from its own destination (R26, R116). -/
def pairThird (p : Nat) : Bool := [0x04, 0x0F, 0x10, 0x11, 0x15, 0x1A, 0x23].contains p

/-- The type an operation of a P form runs at (R26). -/
def pairType (p : Nat) : Ty :=
  if 0x20 ≤ p then .f32 else if p = 0x19 then .z64 else if p = 0x1A then .z32 else .s32

/-- The registers a P operation writes: a pair for lea, none for 0xFF (R27). -/
def pairWrites (p d : Nat) : List Nat :=
  if d = 0xFF then [] else if p = 0x19 then [d, d + 1] else [d]

/-- The registers a P operation reads (R27). -/
def pairReads (p d a b : Nat) : List Nat :=
  (if a = 0xFF then [] else if p = 0x19 then [a, a + 1] else [a])
    ++ (if pairUnary p || b = 0xFF then [] else [b])
    ++ (if pairThird p && d ≠ 0xFF then [d] else [])

/-- An operand of a P operation that breaks R14. -/
def pairOperandIll (l : Limits) (p d a b : Nat) : Bool :=
  let n := if p = 0x19 then 2 else 1
  (Fld.vd n n).ill l false d || (Fld.vs n n).ill l false a || (!pairUnary p && (Fld.vs 1 1).ill l false b)

/-- A P form that is not legal (R26, R27). -/
def pairIll (l : Limits) (p : PEnc) : Bool :=
  let p1 := p.p1.toNat
  let p2 := p.p2.toNat
  let w1 := pairWrites p1 p.d1.toNat
  let w2 := pairWrites p2 p.d2.toNat
  let r1 := pairReads p1 p.d1.toNat p.a1.toNat p.b1.toNat
  let r2 := pairReads p2 p.d2.toNat p.a2.toNat p.b2.toNat
  let reads := (r1 ++ r2).eraseDups
  let muls := [0x02, 0x22]
  pairCodeIll p1 || pairCodeIll p2
    || pairOperandIll l p1 p.d1.toNat p.a1.toNat p.b1.toNat || pairOperandIll l p2 p.d2.toNat p.a2.toNat p.b2.toNat
    || w1.any (fun x => w2.any fun y => x % 4 == y % 4)
    || [0, 1, 2, 3].any (fun k => decide (2 < (reads.filter (fun x => x % 4 == k)).length))
    || (muls.contains p1 && muls.contains p2)
    || w1.any r2.contains || w2.any r1.contains

/-- A P form with a nonzero reserved field: the B field of an operation that reads no second source (R26). -/
def pairRes (p : PEnc) : Bool :=
  (pairUnary p.p1.toNat && p.b1 != 0#8) || (pairUnary p.p2.toNat && p.b2 != 0#8)

/-- The words of an instruction of opcode 0x7F: as many as its LEN names (R9, R31). -/
def illegalShape (ws : List W32) : Bool :=
  match ws with
  | [] => false
  | w :: _ => w.toNat / 32 % 128 == 0x7F && ws.length == (match w.toNat % 4 with | 0 => 1 | 3 => 5 | _ => 3)

/-- A well-formed instruction under a team's limits: its fields take no decode trap. An event is no instruction
word and is not well formed in this sense. -/
def wellFormed (l : Limits) (i : Instr) : Bool :=
  match rowOf i, encOf i with
  | some r, some e => !r.isIll l e && !r.isRes e && r.shortShape e && build r.op r.f e == some i
  | _, _ =>
    match bEncOf i with
    | some (op, b) =>
      match bRow op b with
      | some r => !r.isIll l (shortEnc op .e b) && !r.isRes (shortEnc op .e b)
      | none => false
    | none =>
      match i with
      | .pair p => !pairIll l p && !pairRes p
      | .illegal ws => illegalShape ws
      | _ => false

end Sys2Proof.Machine
end

