-- ==== Sys2Proof/Decode.lean ====
section
/-! DEFINITION. Decoding instruction words (R9, R10, R25, R30 to R32) and, after it, the encoder. -/
namespace Sys2Proof
open Machine

/-- Why words are no instruction (R30 items 2 and 3). -/
inductive DecodeError where
  /-- cause 0x01 -/
  | illegal
  /-- cause 0x02 -/
  | reserved
  /-- fewer words than LEN names -/
  | short
  deriving DecidableEq, Repr

/-- Words of the instruction that begins with a word (R9). -/
def lengthWords (w0 : W32) : Nat :=
  match w0.toNat % 4 with
  | 0 => 1
  | 3 => 5
  | _ => 3

/-- Major opcode (R9). -/
def opcodeOf (w0 : W32) : Nat := (w0.extractLsb' 5 7).toNat

/-- The short fields of word 0 (R9). -/
def bFields (w0 : W32) : BEnc :=
  { q := w0.extractLsb' 28 4, stall := w0.extractLsb' 2 3, d := w0.extractLsb' 12 8, a := w0.extractLsb' 20 8 }

/-- The fields of words 0 to 2 (R9, R10). -/
def eFields (form : Form) (w0 w1 w2 : W32) : Enc :=
  { form, q := w0.extractLsb' 28 4, stall := w0.extractLsb' 2 3, d := w0.extractLsb' 12 8,
    a := w0.extractLsb' 20 8, b := w1.extractLsb' 0 8, c := w1.extractLsb' 8 8, as_ := w1.getLsbD 30,
    bs := w1.getLsbD 31, sat := w1.getLsbD 29, rnd := Rnd.ofBits (w1.extractLsb' 27 2),
    ty := Ty.ofBits (w1.extractLsb' 24 3), imm := w2 }

/-- F (R10). -/
def functionOf (w1 : W32) : Nat := (w1.extractLsb' 16 8).toNat

/-- The fields of a P form (R25). -/
def pFields (w0 w1 w2 : W32) : PEnc :=
  { q := w0.extractLsb' 28 4, stall := w0.extractLsb' 2 3, d1 := w0.extractLsb' 12 8, a1 := w0.extractLsb' 20 8,
    b1 := w1.extractLsb' 0 8, p1 := w1.extractLsb' 8 6, d2 := w1.extractLsb' 14 8, a2 := w1.extractLsb' 22 8,
    b2 := w2.extractLsb' 0 8, p2 := w2.extractLsb' 8 6 }

/-- The bits of words 1 and 2 that a P form reserves (R25). -/
def pairZeroBits (w1 w2 : W32) : Bool := w1.extractLsb' 30 2 == 0#2 && w2.extractLsb' 14 18 == 0#18

/-- Checks of R30 items 2 and 3 on an instruction that has a row. -/
def checkRow (l : Limits) (i : Instr) (e : Enc) : Except DecodeError Instr :=
  match rowOf i with
  | none => .error .illegal
  | some r => if r.isIll l e then .error .illegal else if r.isRes e then .error .reserved else .ok i

/-- An E, E+L or B+L instruction from its opcode, function code and fields (R29, R30). -/
def decodeRow (l : Limits) (op f : Nat) (e : Enc) : Except DecodeError Instr :=
  match build op f e with
  | none => .error .illegal
  | some i => checkRow l i e

/-- A one-word B instruction (R19, R30). -/
def decodeB (l : Limits) (w0 : W32) : Except DecodeError Instr :=
  let op := opcodeOf w0
  let b := bFields w0
  match buildB op b, bRow op b with
  | some i, some r =>
    let e := shortEnc op .e b
    if r.isIll l e then .error .illegal else if r.isRes e then .error .reserved else .ok i
  | _, _ => .error .illegal

/-- A P instruction (R25 to R27). -/
def decodePair (l : Limits) (w0 w1 w2 : W32) : Except DecodeError Instr :=
  let p := pFields w0 w1 w2
  if pairIll l p then .error .illegal
  else if pairRes p || !pairZeroBits w1 w2 then .error .reserved
  else .ok (.pair p)

/-- Decode one instruction under a team's limits from its words, word 0 first (R30 items 2 and 3, R31). -/
def decodeWords (l : Limits) (ws : List W32) : Except DecodeError Instr :=
  match ws with
  | [] => .error .short
  | w0 :: rest =>
    if ws.length < lengthWords w0 then .error .short
    else if opcodeOf w0 = 0x7F then .ok (.illegal (ws.take (lengthWords w0)))
    else if opcodeOf w0 = 0x7E then
      match w0.toNat % 4, rest with
      | 1, w1 :: w2 :: _ => decodePair l w0 w1 w2
      | _, _ => .error .illegal
    else
      match w0.toNat % 4, rest with
      | 0, _ => decodeB l w0
      | 1, w1 :: w2 :: _ => decodeRow l (opcodeOf w0) (functionOf w1) (eFields .e w0 w1 w2)
      | 2, l0 :: l1 :: _ =>
        decodeRow l (opcodeOf w0) 0 (shortEnc (opcodeOf w0) (.bl (l1 ++ l0)) (bFields w0))
      | 3, w1 :: w2 :: l0 :: l1 :: _ =>
        decodeRow l (opcodeOf w0) (functionOf w1) (eFields (.el (l1 ++ l0)) w0 w1 w2)
      | _, _ => .error .short

/-- Words from bytes, each word in its byte order, the first at the lowest address (R4, R9). -/
def wordsOfBytes : List Byte → List W32
  | b0 :: b1 :: b2 :: b3 :: rest => (b3 ++ b2 ++ b1 ++ b0) :: wordsOfBytes rest
  | _ => []

/-- Decode one instruction from bytes; the rest of the bytes follow it (R32). -/
def decode (l : Limits) (bs : List Byte) : Except DecodeError (Instr × List Byte) :=
  match wordsOfBytes (bs.take 20) with
  | [] => .error .short
  | w0 :: ws =>
    match decodeWords l ((w0 :: ws).take (lengthWords w0)) with
    | .ok i => .ok (i, bs.drop (4 * lengthWords w0))
    | .error e => .error e

/-- The bytes of a number, least significant first (R4). -/
def bytesOfNat : Nat → Nat → List Byte
  | 0, _ => []
  | n + 1, w => BitVec.ofNat 8 w :: bytesOfNat n (w / 256)

/-- What the decoder reads from an instruction whose bits are `w`, laid out as it is stored: five words, the bits
above `nbits` zero. -/
def decodeTableWord (nbits w : Nat) : Option Instr :=
  match decode Limits.top (bytesOfNat 20 (w % 2 ^ nbits)) with
  | .ok (i, _) => some i
  | .error _ => none

/-! ## The encoder -/

/-- Word 0 (R9). -/
def word0 (q : BitVec 4) (a d : BitVec 8) (op : Nat) (stall : BitVec 3) (len : BitVec 2) : W32 :=
  q ++ a ++ d ++ BitVec.ofNat 7 op ++ stall ++ len

/-- Word 1 of an E form (R10). -/
def word1 (e : Enc) (f : Nat) : W32 :=
  BitVec.ofBool e.bs ++ BitVec.ofBool e.as_ ++ BitVec.ofBool e.sat ++ e.rnd.bits ++ e.ty.bits ++ BitVec.ofNat 8 f
    ++ e.c ++ e.b

/-- The two literal words, low word first (R9). -/
def litWords (l : W64) : List W32 := [l.extractLsb' 0 32, l.extractLsb' 32 32]

/-- The words of an instruction that has a row (R9, R10, R19). -/
def encodeRow (r : Row) (e : Enc) : List W32 :=
  match e.form with
  | .e => [word0 e.q e.a e.d r.op e.stall 1#2, word1 e r.f, e.imm]
  | .el lit => [word0 e.q e.a e.d r.op e.stall 3#2, word1 e r.f, e.imm] ++ litWords lit
  | .bl lit => word0 e.q (bif twoAddr r.op then e.b else e.a) e.d r.op e.stall 2#2 :: litWords lit

/-- The words of a P form (R25). -/
def encodePair (p : PEnc) : List W32 :=
  [word0 p.q p.a1 p.d1 0x7E p.stall 1#2,
   (0#2 ++ p.a2 ++ p.d2 ++ p.p1 ++ p.b1 : BitVec 32),
   (0#18 ++ p.p2 ++ p.b2 : BitVec 32)]

/-- The words of an instruction; an event has none. -/
def encode (i : Instr) : List W32 :=
  match rowOf i, encOf i with
  | some r, some e => encodeRow r e
  | _, _ =>
    match bEncOf i with
    | some (op, b) => [word0 b.q b.a b.d op b.stall 0#2]
    | none =>
      match i with
      | .pair p => encodePair p
      | .illegal ws => ws
      | _ => []

end Sys2Proof
end

