-- ==== Sys2Proof/Machine/State.lean ====
section
/-! DEFINITION. The state of the module as plain data, its reset, and the reasons a step can stop. -/
namespace Sys2Proof.Machine

/-- Reasons for a fault of the MODEL (a trap of the 940 is no fault: it is a next state). -/
inductive Fault where
  /-- An instruction was executed while State.current names no resident group with a running lane: nothing issues
  (R39). Raised by issueMore only; safe: the machine itself never issues in that case. -/
  | noIssuer
  deriving DecidableEq, Repr

/-- Reasons for a refusal. -/
inductive Refusal where
  /-- An instruction whose meaning is not written. Raised by dispatch arms only; safe. -/
  | notModelled (mnemonic : String)
  deriving DecidableEq, Repr

/-! ## Groups -/

/-- A register of a group as the scoreboard names it (R21, R80). -/
inductive RegName where
  | v (n : Nat) | s (n : Nat) | m (n : Nat) | j (n : Nat) | k (n : Nat)
  deriving DecidableEq, Repr

/-- What a lane is doing: it runs, is parked at a join (with the marking mask of its jwait), sleeps in the sleep of
that number, is held by a handler, or has exited (R8, R51, R252, R360, R56). -/
inductive LaneState where
  | running
  | parked (join : Nat) (mark : Option Nat)
  | asleep (sleep : Nat)
  | held
  | exited
  deriving DecidableEq, Repr

/-- One lane: its program counter and what it is doing (R42). -/
structure Lane where
  pc : W64
  st : LaneState
  deriving DecidableEq, Repr

/-- A fixed-latency write not yet visible: the register, the lanes and their values (a single entry 0 for a register
that is no lane register), and the stall position at which it completes (R21 to R23). -/
structure PendWrite where
  reg    : RegName
  values : SMap W64
  ready  : Nat
  deriving DecidableEq, Repr

/-- An open join episode: its join, its first cycle and its timeout, 0 for none (R53). -/
structure Episode where
  join : Nat
  t0   : Nat
  t    : Nat
  deriving DecidableEq, Repr

/-- The lanes that slept in one issue (R251, R252): their sleep's number, deadline, sleep.prm's class and n, event
mask, whether an enabled event has happened since (by reason number), and whether the core was gated meanwhile. -/
structure Sleep where
  id       : Nat
  deadline : W64
  prm      : Option (EngClass × Nat)
  mask     : BitVec 5
  happened : List Nat
  gated    : Bool
  from_    : Nat
  deriving DecidableEq, Repr

/-- One value for each class of outstanding operation (R247). -/
structure PerClass (α : Type) where
  copy  : α
  index : α
  drain : α
  blend : α
  attn  : α
  coll  : α
  deriving DecidableEq, Repr

/-- The lease state of a group (R195) with its window counts (R200) and its parking and aging state (R196, R199). -/
structure Lease where
  floor     : Nat
  meas      : Nat
  decl      : Nat
  mode      : Nat
  active    : Bool
  parkCount : Nat
  aged      : Option Nat
  misses    : Nat
  lost      : Nat
  deriving DecidableEq, Repr

/-- Scopes (R12, R220). -/
inductive Scope where
  | grp | team | dev | sys
  deriving DecidableEq, Repr

/-- The address an access resolves to: physical address, CP and CMP of its page (R366, R367). -/
structure Phys where
  pa  : Nat
  cp  : Nat
  cmp : Nat
  deriving DecidableEq, Repr

/-- Forms of a soft operation (R166, R184). -/
inductive SoftForm where
  | sldFwd | sldBwd | blend | write | add | sstBwd | null
  deriving DecidableEq, Repr

/-- A block of registers: its first register, none for 0xFF, and its elements (R165). -/
structure Block where
  reg   : Option Nat
  count : Nat
  deriving DecidableEq, Repr

/-- How far the application of a soft operation has come (R174, R233): the elements written so far, the results and the
flags. -/
structure SoftProgress where
  next  : Nat
  outs  : List (Block × List Nat)
  flags : BitVec 5
  deriving DecidableEq, Repr

/-- A soft operation accepted at its home and not yet applied (R168, R172 to R174): the group, its form, ticket, rounding
mode, tape bit, the values it reads (weights, a or dy, e), its result registers, the lanes that take results,
whether it is a null operation, the tape bytes it reserved or pops, and the frames of the pages it may touch, under
VA[56:16]. -/
structure SoftOp where
  group  : Nat
  form   : SoftForm
  ticket : W32
  rnd    : Rnd
  tape   : Bool
  w      : List W32
  x      : List W32
  y      : List W32
  dst    : Nat
  dst2   : Nat
  lanes  : W64
  nullOp : Bool
  bytes  : Nat
  frames : List (Nat × Phys)
  /-- its application, once it has begun -/
  progress : Option SoftProgress := none
  deriving DecidableEq, Repr

/-- What a stape that waits is to do (R183): the new TFILL, if it sets one, the scalar field that takes the old one, and,
should it trap, its address and its running and active lanes. -/
structure TapeWait where
  set  : Option W64
  dst  : Nat
  ia   : Nat
  here : W64
  act  : W64
  deriving DecidableEq, Repr

/-- A soft operation that has issued and is not yet accepted at its region's home (R168, R173, R179): the operation with the
sequence number in place of its ticket and the bytes of its tape record, the address of its descriptor, the registers that take
its results, the scalar field that takes its ticket, and, should it trap, its address and its running and active lanes. -/
structure SoftWait where
  op     : SoftOp
  addr   : W64
  dst    : List RegName
  seqDst : Option Nat
  ia     : Nat
  here   : W64
  act    : W64
  deriving DecidableEq, Repr

/-- What a group that issues nothing further is waiting for, and what it does when the wait ends (R249, R265, R315,
R323, R168, R182, R183, R374). A soft point holds the number of its arrival at the region's home (R170); that of a stape stands
in its gate. -/
inductive Wait where
  | counter (cls : EngClass) (n : Nat) (dst : Nat)
  | barrier (bar : Nat) (phase : Bool)
  | rendezvous (entry arg : W64)
  | jobCounter (ctr : Nat) (threshold : W32) (dst : Nat)
  | softPoint (region number : Nat) (point : Option W32) (before : List W32) (dst : Nat)
  | tape (region : Nat) (at_ : TapeWait)
  | accept (region : Nat) (at_ : SoftWait)
  | suspension (context : Nat) (dst : Nat)
  | teardown (context : Nat) (dst : Nat)
  deriving DecidableEq, Repr

/-- A trap to be taken before the group's next issue, or one being taken: cause, xval, xmask (R359). -/
structure TrapInfo where
  cause : BitVec 8
  val   : W64
  mask  : W64
  deriving DecidableEq, Repr

/-- A resident group (R36, R80, R82). Registers of a class are sparse, an unlisted one being 0; m0 and k0 are never
stored and read all ones (R80). -/
structure Group where
  id        : Nat
  team      : Nat
  grpidx    : Nat
  slot      : Nat
  slotIdx   : Nat
  width     : Nat
  /-- lane registers, under 64 × register + lane -/
  v         : SMap W32
  s         : SMap W64
  m         : SMap W64
  j         : SMap W64
  k         : SMap W64
  lanes     : List Lane
  seg       : Nat
  fst       : BitVec 5
  sbchk     : Bool
  xcause    : BitVec 8
  xpc       : W64
  xval      : W64
  xmask     : W64
  inh       : Bool
  /-- the lanes the handler runs in: H of R360 -/
  hlanes    : W64
  wakeReason : BitVec 3
  wakeGated : Bool
  starve    : Nat
  counters  : PerClass Nat
  status    : PerClass W64
  seq       : PerClass W32
  episodes  : List Episode
  sleeps    : List Sleep
  lease     : Lease
  pend      : List PendWrite
  dist      : Nat
  /-- registers a pending variable-latency producer will write (R21) -/
  busy      : List RegName
  /-- loaded registers and the first cycle in which each may be read (R87, R218, R292) -/
  due       : List (RegName × Nat)
  /-- first cycle in which the next instruction may issue (R20) -/
  readyAt   : Nat
  wait      : Option Wait
  /-- traps to be taken before the next issue, the oldest first (R46, R160, R253, R320) -/
  pendTraps : List TrapInfo
  /-- the record address of an fw whose reply has not arrived (R313) -/
  fwOut     : Option Nat
  /-- the group has made its first issue, and with it the acquire of R306 -/
  begun     : Bool
  /-- the cycle by which every fixed-latency instruction issued so far has completed (R21, R84) -/
  fixedBy   : Nat := 0
  deriving DecidableEq, Repr

/-! ## Teams, launches, counters and contexts -/

/-- A named barrier (R263). -/
structure Barrier where
  phase   : Bool
  parked  : Nat
  arrived : Nat
  expect  : Nat
  bytes   : W64
  /-- device-memory words that engine data counted in this phase has written, by word address (R231) -/
  wrote   : List Nat := []
  deriving DecidableEq, Repr

/-- A hash table of a team (R270 to R273, R291). -/
structure Table where
  handle : Nat
  base   : Nat
  sda    : Nat
  wide   : Bool
  logb   : Nat
  sbase  : W64
  scap   : Nat
  cnta   : W64
  tomb   : Nat
  live   : Nat
  fails  : Nat
  ovf    : Nat
  spills : Nat
  deriving DecidableEq, Repr

/-- The operation a hash step performs (R279). -/
inductive HashOp where
  | ins | probe | del | acc (op : HopAcc) | acc64
  | drain (clear : Bool)
  deriving DecidableEq, Repr

/-- One step a hop has formed and the hash unit has not yet applied (R281): the group, the handle, the operation, the
key, the lanes of the key group with their values, the result and status registers, and whether the step is the last
of its instruction. Of an hdrain it is what is still to be done (R290): the key is its cursor, the lanes are those not
yet filled. `val` and `cur` are an hdrain's value register and cursor field, `since` is the cycle of issue, and
`region` the region instance in which the instruction issued (R316). -/
structure HashStep where
  /-- the number of its instruction -/
  id     : Nat := 0
  group  : Nat
  handle : Nat
  op     : HashOp
  wide   : Bool
  key    : W64
  lanes  : List (Nat × W64)
  dst    : Nat
  st     : Nat
  last   : Bool
  val    : Nat := 0xFF
  cur    : Nat := 0xFF
  since  : Nat := 0
  region : Nat := 0
  deriving DecidableEq, Repr

/-- A group that waits at a stape: the number of its arrival at the region's home, and the tickets accepted before it
(R170, R183). -/
structure Gate where
  group   : Nat
  number  : Nat
  tickets : List W32
  deriving DecidableEq, Repr

/-- A live soft region (R162 to R164). `team` is the owner of a scratchpad region; a device-memory region belongs to its
context. `gates` holds the groups that wait at a stape. -/
structure Region where
  id     : Nat
  team   : Option Nat
  ctx    : Nat
  desc   : W64
  descPa : Phys
  base   : W64
  gbase  : W64
  tbase  : W64
  tcap   : Nat
  tv     : Bool
  gv     : Bool
  ordered : Bool
  bf16   : Bool
  w      : Nat
  n      : Nat
  ticket : W32
  appl   : W32
  tfill  : Nat
  ops    : List SoftOp
  gates  : List Gate
  deriving DecidableEq, Repr

/-- The region record of a team (R314). -/
structure RegionRecord where
  entry : W64
  arg   : W64
  masks : List W64
  open_ : Bool
  deriving DecidableEq, Repr

/-- A pool word that an uncorrectable storage error has lost (R160): where it lies (none where no instruction names it),
the value of the report, the cycle in which an instruction met it, and whether the groups have their traps. -/
structure LostWord where
  word     : Option PoolWord
  val      : W64
  met      : Option Nat
  reported : Bool
  deriving DecidableEq, Repr

/-- A scratchpad byte whose newest value one side does not see yet, the hash unit or ordinary accesses, for nothing orders the two
but a named barrier (R286): its address, the value that this side sees, and the groups whose writes it does not see. -/
structure LagByte where
  at_    : Nat
  byte   : Byte
  groups : List Nat
  deriving DecidableEq, Repr

/-- A resident team (R75, R314). -/
structure Team where
  id       : Nat
  launch   : Nat
  number   : Nat
  core     : Nat
  x        : Nat
  y        : Nat
  z        : Nat
  /-- scratchpad bytes (R85); an unlisted byte is 0 (R79) -/
  sp       : SMap Byte
  /-- tile elements under 1024 × tile + 32 × row + column (R80) -/
  tiles    : SMap W32
  bars     : List Barrier
  tables   : List Table
  steps    : List HashStep
  rec_     : RegionRecord
  /-- cycle of a held pre-emption request (R320) -/
  request  : Option Nat
  /-- targets recorded by exitc, by grpidx (R59) -/
  successor : List (Nat × W64)
  /-- register granules of exited slices kept for the successor (R78) -/
  reserve  : Nat
  placedAt : Nat
  /-- grpidx of groups of this team that have retired -/
  retired  : List Nat
  /-- teams withdrawn by fw that end with this one (R305) -/
  withdrew : Nat
  /-- slot and slot index of each group that has been created, by grpidx (R59) -/
  places   : List (Option (Nat × Nat))
  /-- lost pool words (R160) -/
  lostWords : List LostWord := []
  /-- a request has come while the region is open: the team is discarded in this cycle (R321) -/
  deciding : Bool := false
  /-- how many regions the team has opened after its first one (R314, R316) -/
  regionNo : Nat := 0
  /-- cores on which earlier runs of the team left words that its launch has not registered (R224) -/
  pastCores : List Nat := []
  /-- where the hash unit does not yet see ordinary stores (R286) -/
  lag : List LagByte := []
  /-- where ordinary accesses do not yet see what the hash unit has written (R286) -/
  old : List LagByte := []
  deriving DecidableEq, Repr

/-- A launch descriptor (R301) with its partition word (R74). -/
structure Desc where
  entry : W64
  param : W64
  part  : W64
  fpol  : Nat
  maint : Bool
  prio  : Nat
  wc    : Nat
  gm1   : Nat
  dxm1  : Nat
  dym1  : Nat
  dzm1  : Nat
  dctr  : Nat
  cctr  : Nat
  lmode : Nat
  decl  : Nat
  phase : Nat
  graph : Nat
  dthr  : Nat
  job   : Nat
  deriving DecidableEq, Repr

/-- A team waiting to be placed again: its linear number and its region record (R308, R319). -/
structure Returned where
  number : Nat
  rec_   : RegionRecord
  withdrew : Nat
  /-- cores on which the team has run (R224) -/
  cores  : List Nat := []
  deriving DecidableEq, Repr

/-- An accepted launch (R302, R306 to R309). Launch numbers rise in acceptance order. -/
structure Launch where
  id       : Nat
  ctx      : Nat
  queue    : Nat
  desc     : Desc
  /-- next linear number never placed, and those withdrawn by fw -/
  next     : Nat
  taken    : List Nat
  returned : List Returned
  /-- teams that have not yet ended -/
  left     : Nat
  level    : Nat
  /-- cycle from which the next aging step is counted, once eligible -/
  agedFrom : Option Nat
  /-- cycle from which the next team has waited for room (R318) -/
  waitFrom : Option Nat
  /-- cores that have placed a team of it (R34) -/
  entered  : List Nat
  deriving DecidableEq, Repr

/-- A completion counter record (R303). -/
structure Counter where
  value     : W32
  target    : W32
  parent    : BitVec 16
  faults    : Nat
  level     : BitVec 2
  done      : Bool
  cancelled : Bool
  deriving DecidableEq, Repr

/-- A ring of configuration space (R372). -/
structure Ring where
  base  : Nat
  head  : Nat
  tail  : Nat
  log2n : Nat
  deriving DecidableEq, Repr

/-- A context: its registers of R371 and R311, and its doorbell page (R378). -/
structure Context where
  en       : Bool
  susp     : Bool
  priv     : Bool
  maint    : Bool
  ptroot   : Nat
  xhandler : W64
  wdStarve : Nat
  wcbWait  : Nat
  ageLimit : Nat
  preWait  : Nat
  preLimit : Nat
  cbase    : Nat
  cnum     : Nat
  kvquota0 : Nat
  kvquota1 : Nat
  ctxsave  : Nat
  flog     : Ring
  arena    : Ring
  /-- arena frames the full ring could not take (R372) -/
  arenaHeld : List Nat
  /-- a suspension is under way (R364, R374) -/
  suspending : Bool
  desc     : SMap W64
  subSeq   : W32
  subStatus : Byte
  cntsel   : W64
  canstat  : Byte
  notifyEn : Bool
  notifyCtr : Nat
  /-- which contents the device wrote at CTXSAVE when it suspended the context (R374) -/
  saved    : Option Nat
  /-- the queue contents and counter records saved with them -/
  savedLaunches : List Launch := []
  savedCounters : List (Nat × Counter) := []
  deriving DecidableEq, Repr

/-- An arena page: context, job, virtual page number VA[56:16] (R324, R371). -/
structure ArenaPage where
  ctx  : Nat
  job  : Nat
  page : Nat
  deriving DecidableEq, Repr

/-! ## Memory -/

/-- Who owns an L1 line (R190): a group, or the reserve. -/
inductive LineOwner where
  | group (id : Nat)
  | reserve
  deriving DecidableEq, Repr

/-- An L1 line (R190). `words` holds the values of valid words; `age` is the cycle count of its last hit or
allocation, larger for younger; `stores` names the groups, each with its context, whose stores its dirty words hold. -/
structure L1Line where
  core  : Nat
  line  : Nat
  valid : BitVec 32
  dirty : BitVec 32
  words : SMap W32
  owner : LineOwner
  ctx   : Nat
  cmp   : Nat
  age   : Nat
  stores : List (Nat × Nat) := []
  deriving DecidableEq, Repr

/-- A victim tag (R200). -/
structure VictimTag where
  core  : Nat
  line  : Nat
  owner : LineOwner
  deriving DecidableEq, Repr

/-- An open quench-buffer entry (R212): the bytes written, under their offset in the block. -/
structure QuenchEntry where
  core   : Nat
  block  : Nat
  ctx    : Nat
  opened : Nat
  bytes  : SMap Byte
  /-- the words, by offset, whose latest write registers them to the core (R223) -/
  owned  : List Nat
  /-- the groups, each with its context, whose stores it holds (R225, R370) -/
  stores : List (Nat × Nat) := []
  /-- its lines, by number in the block, that a store through a page with CP = 0b10 has written (R206) -/
  oldest : List Nat := []
  deriving DecidableEq, Repr

/-- A line that an L2 slice holds, with its dirty words (R204). What it holds equals Chip.mem, which is what every
home access sees. -/
structure L2Line where
  line  : Nat
  dirty : BitVec 32
  deriving DecidableEq, Repr

/-- A fence, ldac or strl of a group whose release (`rel`) or acquire (`acq`) has not completed (R225, R226, R238, R240).
Its number is that of its issue: the operations before it have lower ones. `holds` is a strl, which keeps back nothing but its own stores. -/
structure Fence where
  number : Nat
  group  : Nat
  core   : Nat
  rel    : Bool
  acq    : Bool
  holds  : Bool
  scope  : Scope
  deriving DecidableEq, Repr

/-- A word or doubleword of a strl that is still to be stored (R240); `fence` is the number of the strl's release. -/
structure HeldStore where
  id    : Nat
  fence : Nat
  group : Nat
  core  : Nat
  ctx   : Nat
  owner : LineOwner
  phys  : Phys
  bytes : List Byte
  deriving DecidableEq, Repr

/-- Stored forms of a 512-byte block (R208). -/
inductive BlockForm where
  | zero | rep | d8 | d16 | raw
  deriving DecidableEq, Repr

/-- A cached leaf (R368): where it is cached, its context, its first page's VA and size, frame and attributes. -/
structure TlbEntry where
  /-- a core's L1 TLB, or (from 256) a die's L2 TLB -/
  place : Nat
  ctx   : Nat
  va    : Nat
  size  : Nat
  frame : Nat
  perm  : BitVec 3
  cp    : Nat
  cmp   : Nat
  deriving DecidableEq, Repr

/-- A 16-byte-aligned store to the home of a range of words by the drains: one row (R155, R156). -/
structure DrainRow where
  row   : Nat
  words : List (Phys × W32)
  deriving DecidableEq, Repr

/-- A drain accepted by the array whose rows are not all applied (R155): row(0), s[B] and the rows still to come. `add`
is none for tdrain, some true for tdrain.add.f32 and some false for tdrain.add.s32. -/
structure Drain where
  id    : Nat
  group : Nat
  core  : Nat
  ctx   : Nat
  add   : Option Bool
  base  : W64
  pitch : W64
  rows  : List DrainRow
  /-- the tile, and the cycle of acceptance: the array reads it within 8 cycles (R155) -/
  tile  : Nat := 0
  since : Nat := 0
  deriving DecidableEq, Repr

/-- The lanes of one atom that name one address, with their data; `high` where the low halves of add.bf16x2 have been
applied and `olds` holds what they returned (R235). -/
structure AtomUnit where
  ea    : W64
  phys  : Phys
  lanes : List (Nat × W64)
  high  : Bool
  olds  : SMap W64
  deriving DecidableEq, Repr

/-- An atom sent to its home slices and not wholly applied (R235). -/
structure Atom where
  id    : Nat
  group : Nat
  core  : Nat
  op    : AtomOp
  dst   : Nat
  units : List AtomUnit
  deriving DecidableEq, Repr

/-! ## Engines, attention dies, links, control -/

/-- An engine operation accepted by a push (R243 to R246). -/
structure EngOp where
  id      : Nat
  cls     : EngClass
  core    : Nat
  ctx     : Nat
  team    : Nat
  group   : Nat
  cmd     : List Byte
  seq     : W32
  /-- cycle of acceptance -/
  since   : Nat
  /-- the operation has run; it is complete once none of its units is parked -/
  started : Bool
  /-- lowest-numbered failed unit and its status (R259) -/
  failed  : Option (Nat × Nat)
  /-- the team was discarded (R269) -/
  dropped : Bool
  /-- the command is bad (R245) -/
  bad     : Bool := false
  /-- scratchpad size and contents of a team that is gone (R354) -/
  space   : Option (Nat × SMap Byte) := none
  /-- the scratchpad words that were lost when its team went (R160, R376) -/
  lost    : List Nat := []
  deriving DecidableEq, Repr

/-- A unit parked in a fault queue (R260, R373), with the REASON of its entry. -/
structure ParkedUnit where
  token : W64
  die   : Nat
  op    : Nat
  unit  : Nat
  va    : W64
  reason : Nat
  /-- ring index of its entry -/
  slot  : Nat
  void  : Bool
  deriving DecidableEq, Repr

/-- A sequence record (R333). -/
structure Sequence where
  num    : Nat
  ctx    : Nat
  die    : Nat
  lg6    : Bool
  nl     : Nat
  nh     : Nat
  job    : Nat
  length : Nat
  parent : Option Nat
  f      : Nat
  spans  : List (Nat × Nat × Nat)
  own0   : Nat
  live   : Bool
  deriving DecidableEq, Repr

/-- An allocated attention block (R336, R338): its die, physical number, whether an overflow entry records it, owner,
logical block, the context it counts to, its payload and side bytes (32,896), unlisted ones 0, and whether a storage
error has lost some of it (R376). -/
structure KvBlock where
  die   : Nat
  phys  : Nat
  spill : Bool
  owner : Nat
  lb    : Nat
  ctx   : Nat
  data  : SMap Byte
  lost  : Bool
  deriving DecidableEq, Repr

/-- A mailbox: its value, FULL, and the context that filled it (R267). -/
structure Mailbox where
  value : W64
  full  : Bool
  ctx   : Nat
  deriving DecidableEq, Repr

/-- A Lysob port (R383, R384): LINKSTAT, the next sequence numbers, kept data flits, credits, failed replays. -/
structure Port where
  up       : Bool
  crcerr   : W32
  replay   : Nat
  txSeq    : BitVec 12
  rxLast   : BitVec 12
  kept     : List Flit
  credits  : Nat
  /-- replays of one flit so far without an ack for it, and that flit's SEQ -/
  tries    : Nat
  again    : BitVec 12
  /-- what the port has been told to send: ack, nak and replayed flits, newest last -/
  sent     : List (Nat × Flit)
  received : List Flit
  /-- data flits delivered since the last flit sent: the next one's CRED (R383) -/
  owed     : Nat := 0
  deriving DecidableEq, Repr

/-- The choice state of one issue slot (R39): the slot index of the last primary, which group it is, how many cycles in a
row it has been primary, and one more than the cycle in which it was primary last, 0 for none. -/
structure SlotState where
  primary : Nat
  run     : Nat
  cycle   : Nat
  who     : Option Nat := none
  deriving DecidableEq, Repr

/-- The pipes (R38). -/
inductive Pipe where
  | int | fp | xch | mem | mx | ctl
  deriving DecidableEq, Repr

/-- MODEL: a group chosen to issue: its pipe, its live slices, and what orders it within the cycle. -/
structure Ready where
  group : Nat
  core  : Nat
  slot  : Nat
  idx   : Nat
  pipe  : Pipe
  need  : Nat
  /-- 0, but 1 for bar.init and 2 for an arrival (R264) -/
  rank  : Nat
  /-- 1 for the matrix array and 2 for the hash unit, which accept in ascending slot order (R141, R276); else 0 -/
  unit  : Nat
  deriving DecidableEq, Repr

/-- The state of the control block and start-up controller (R382, R386, R387, R389). -/
structure Control where
  bootState : Nat
  bootErr   : Nat
  cfgnum    : W64
  cfgval    : W64
  /-- the context whose suspension, or with true whose teardown, CFGCMD waits for: BUSY is 1 while there is one
  (R382) -/
  cfgWait   : Option (Nat × Bool)
  cfgStatus : Byte
  hwinbase  : W64
  hwinerr   : W64
  attnonce  : BitVec 256
  attaddr   : W64
  attstat   : Nat
  mreg      : List (BitVec 512)
  pwrlim    : Nat
  pwrnow    : Nat
  /-- the last 100 one-microsecond power readings, newest first -/
  power     : List Nat
  throttled : Bool
  /-- the coolant is above its limit (R389) -/
  thermal   : Bool
  /-- MODEL: starts since the first fundamental reset of the run, which BOOTCNT adds to its fused count -/
  starts    : Nat
  deriving DecidableEq, Repr

/-- One die's error counts and fault queue (R371, R375, R260). -/
structure Die where
  eccCe   : W64
  eccUe   : W64
  eccUlog : W64
  fq      : Ring
  deriving DecidableEq, Repr

/-- A reply to the host or to a peer (R377, R387): bytes, and whether the request completed as unsupported or
poisoned. -/
structure Reply where
  bytes       : List Byte
  unsupported : Bool
  poisoned    : Bool
  deriving DecidableEq, Repr

/-- What the cores, the memory, the engines, the dies and the links hold: all that instructions act on. -/
structure Chip where
  /-- CYC.COUNT (R82) -/
  cyc      : Nat
  groups   : List Group
  teams    : List Team
  launches : List Launch
  /-- counter records by number; an unlisted one is in its reset state (R303) -/
  counters : SMap Counter
  /-- live children of job counters (R324) -/
  liveKids : SMap Nat
  arenaPages : List ArenaPage
  /-- arena pages whose entries are cleared and whose frames earlier accesses may still reach (R325, R370) -/
  leaving  : List (ArenaPage × Nat)
  contexts : SMap Context
  /-- last queue that placed, by effective level (R309) -/
  lastPlaced : SMap Nat
  /-- returned granules still to be cleared, by core (R79) -/
  uncleared : SMap Nat
  /-- cores on which pre-emption makes room, and the launch whose team it is for, none once that team is placed or its
  launch has ended (R318) -/
  preempting : List (Nat × Option Nat)
  /-- MODEL: once-a-cycle events that this cycle has had: 0 window end, 1 pool clearing -/
  hadEvents : List Nat
  /-- choice state of the issue slots, under 4 × core + slot (R39, R40) -/
  slots    : SMap SlotState
  /-- device memory and host memory by physical byte address (R205); an unlisted byte reads 0 (R208) -/
  mem      : List Host.Cell
  /-- stored form of each 512-byte block; an unlisted one is ZERO (R208) -/
  forms    : SMap BlockForm
  /-- owner core + 1 of each word, by word address; an unlisted word has none (R223) -/
  owners   : SMap Nat
  /-- poisoned words, by word address (R376) -/
  poison   : List Nat
  l1       : List L1Line
  /-- lines of the L2 slices, the oldest first -/
  l2       : List L2Line
  victims  : List VictimTag
  quench   : List QuenchEntry
  tlb      : List TlbEntry
  /-- words that the cores' instruction caches hold, under 2^50 × core + word address (R34) -/
  icache   : SMap (Option W32)
  drains   : List Drain
  atoms    : List Atom
  /-- stores of strl that are still to be made -/
  held     : List HeldStore
  /-- releases and acquires that have not completed -/
  fences   : List Fence
  ops      : List EngOp
  parked   : List ParkedUnit
  regions  : List Region
  /-- mailboxes under 16 × core + number (R267) -/
  mailboxes : SMap Mailbox
  sequences : List Sequence
  blocks   : List KvBlock
  /-- sequences whose job was cancelled and whose release step is still to come, each with the cycle by which it comes
  (R326, R353) -/
  releases : List (Nat × Nat)
  ports    : SMap Port
  routes   : SMap W64
  devSets  : SMap W64
  die0     : Die
  die1     : Die
  devid    : BitVec 12
  /-- HATOMIC (R382) -/
  hatomic  : W64
  /-- MSI-X vectors sent, oldest first (R381) -/
  msix     : List Nat
  /-- MODEL: counts the free values drawn (Config) -/
  fresh    : Nat
  /-- MODEL: the next unused number for groups, teams, launches and operations -/
  nextId   : Nat
  deriving DecidableEq, Repr

/-- MODEL: the parts of a cycle: what may happen in any cycle, the issues of the groups chosen for it, and what falls due
in it. -/
inductive Stage where
  | free | issue | due
  deriving DecidableEq, Repr

/-- The module. -/
structure State where
  chip     : Chip
  control  : Control
  /-- replies to host reads and to peers, oldest first -/
  replies  : List Reply
  /-- MODEL: which part of the cycle comes next -/
  stage    : Stage
  /-- MODEL: the groups chosen for issue in this cycle that have not issued yet (R39, R40) -/
  picked   : List Ready
  /-- MODEL: the group whose instruction is being executed -/
  current  : Option Nat
  /-- MODEL: what the event being taken acts on -/
  event    : EvArg
  /-- MODEL: host, fabric and hardware events that have arrived and are still to be taken, oldest first -/
  agenda   : List (Instr × EvArg)
  deriving DecidableEq, Repr

/-! ## Reset values -/

/-- A counter record at reset (R303). -/
def Counter.reset : Counter :=
  { value := 0, target := 0, parent := 0xFFFF, faults := 0, level := 0, done := false, cancelled := false }

/-- An empty mailbox (R267). -/
def Mailbox.reset : Mailbox := { value := 0, full := false, ctx := 0 }

/-- A ring at reset (R372). -/
def Ring.reset : Ring := { base := 0, head := 0, tail := 0, log2n := 0 }

/-- A context at reset (R371, R311, R341, R378). -/
def Context.reset : Context :=
  { en := false, susp := false, priv := false, maint := false, ptroot := 0, xhandler := 0, wdStarve := 0x00100000,
    wcbWait := 0x100, ageLimit := 0x003D0900, preWait := 0x00030D40, preLimit := 0x000C3500, cbase := 0, cnum := 0,
    kvquota0 := 0x400000, kvquota1 := 0x400000, ctxsave := 0, flog := .reset, arena := .reset, arenaHeld := [],
    suspending := false, desc := [], subSeq := 0, subStatus := 0, cntsel := 0, canstat := 0, notifyEn := false,
    notifyCtr := 0, saved := none }

/-- A port at reset (R384); its sequence numbers and credits are a design choice of the model (log 7). -/
def Port.reset : Port :=
  { up := false, crcerr := 0, replay := 0, txSeq := 0, rxLast := 0xFFF, kept := [], credits := 0, tries := 0, again := 0,
    sent := [], received := [] }

/-- A die at reset (R371). -/
def Die.reset : Die := { eccCe := 0, eccUe := 0, eccUlog := 0, fq := .reset }

/-- The control block at reset (R382, R386); PWRNOW has no reset value in the manual (log 7). -/
def Control.reset : Control :=
  { bootState := 0, bootErr := 0, cfgnum := 0, cfgval := 0, cfgWait := none, cfgStatus := 0, hwinbase := 0,
    hwinerr := 0, attnonce := 0, attaddr := 0, attstat := 0, mreg := List.replicate 8 0#512,
    pwrlim := 3200, pwrnow := 0, power := [], throttled := false,
    thermal := false, starts := 0 }

/-- Everything but the control block right after a fundamental reset: no context, no work, memory reading zero. -/
def Chip.reset : Chip :=
  { cyc := 0, groups := [], teams := [], launches := [], counters := [], liveKids := [], arenaPages := [], leaving := [],
    contexts := [], lastPlaced := [], uncleared := [], preempting := [], hadEvents := [], slots := [], mem := [], forms := [], owners := [],
    poison := [], l1 := [], l2 := [], victims := [], quench := [], tlb := [], icache := [], drains := [], atoms := [], held := [], fences := [], ops := [],
    parked := [], regions := [], mailboxes := [], sequences := [], blocks := [], releases := [], ports := [],
    routes := [], devSets := [], die0 := .reset, die1 := .reset, devid := 0, hatomic := 0, msix := [], fresh := 0,
    nextId := 0 }

/-- The module right after a fundamental reset: start-up state ROM, no context, no work, memory reading zero. -/
def State.reset : State :=
  { chip := .reset, control := .reset, replies := [], stage := .free, picked := [],
    current := none, event := {}, agenda := [] }

end Sys2Proof.Machine
end

