-- ==== Sys2Proof/Machine/Maps.lean ====
section
/-! DEFINITION. Sparse maps in canonical form, lane masks, and bytes in their order (R4). -/
namespace Sys2Proof.Machine

/-! ## Sparse maps -/

/-- What a map holds under a key; `d` where the key is not listed. -/
def SMap.get {α : Type} (d : α) : SMap α → Nat → α
  | [], _ => d
  | (k, v) :: m, a => if a = k then v else SMap.get d m a

/-- An entry put before the first greater key. -/
def SMap.insert {α : Type} (a : Nat) (v : α) : SMap α → SMap α
  | [] => [(a, v)]
  | (k, w) :: m => if a < k then (a, v) :: (k, w) :: m else (k, w) :: SMap.insert a v m

/-- A map with one key written; the value `d` is not listed. -/
def SMap.put {α : Type} [DecidableEq α] (d : α) (m : SMap α) (a : Nat) (v : α) : SMap α :=
  let rest := m.filter fun p => p.1 != a
  if v = d then rest else SMap.insert a v rest

/-- The canonical form: keys strictly rising, and no entry equal to `d`. -/
def SMap.wf {α : Type} [DecidableEq α] (d : α) : SMap α → Bool
  | [] => true
  | (k, v) :: m =>
    decide (v ≠ d) && (match m with | [] => true | (k', _) :: _ => decide (k < k')) && SMap.wf d m

/-- A map with several keys written, in their order. -/
def SMap.putAll {α : Type} [DecidableEq α] (d : α) (m : SMap α) (ps : List (Nat × α)) : SMap α :=
  ps.foldl (fun m p => SMap.put d m p.1 p.2) m

/-! ## Lane masks -/

/-- The word with one bit set. -/
def bit (n : Nat) : W64 := 1#64 <<< n

/-- The lanes below `w` that a mask names, in ascending order. -/
def lanesOf (m : W64) (w : Nat) : List Nat := (List.range w).filter fun l => m.getLsbD l

/-- The mask of the lanes of a list. -/
def maskOf (ls : List Nat) : W64 := ls.foldl (fun m l => m ||| bit l) 0#64

/-- The mask of the lanes below `w` for which a test holds. -/
def maskWhere (w : Nat) (p : Nat → Bool) : W64 := maskOf ((List.range w).filter p)

/-- Lanes 0 to w − 1 (R49). -/
def fullMask (w : Nat) : W64 := maskWhere w fun _ => true

/-- Bits set in a word (R106). -/
def popcount {n : Nat} (x : BitVec n) : Nat := ((List.range n).filter fun i => x.getLsbD i).length

/-! ## Bytes and numbers, least significant byte first (R4) -/

/-- The number that bytes hold. -/
def leNat : List Byte → Nat
  | [] => 0
  | b :: bs => b.toNat + 256 * leNat bs

/-- The bytes of a number, `n` of them. -/
abbrev leBytes (n w : Nat) : List Byte := bytesOfNat n w

/-- Bytes of a map from an address on. -/
def bytesAt (m : SMap Byte) (a n : Nat) : List Byte := (List.range n).map fun i => SMap.get 0#8 m (a + i)

/-- Bytes of a map written from an address on. -/
def putBytes : SMap Byte → Nat → List Byte → SMap Byte
  | m, _, [] => m
  | m, a, b :: bs => putBytes (SMap.put 0#8 m a b) (a + 1) bs

/-- The number in `n` bytes of a map. -/
def natAt (m : SMap Byte) (a n : Nat) : Nat := leNat (bytesAt m a n)

/-- The word in a map. -/
def wordAt (m : SMap Byte) (a : Nat) : W32 := BitVec.ofNat 32 (natAt m a 4)

/-- Bits [hi:lo] of a word, as a number. -/
def fieldOf (x hi lo : Nat) : Nat := x / 2 ^ lo % 2 ^ (hi + 1 - lo)

/-! ## Lists of records -/

/-- The records with the one that a test names changed. -/
def updWhere {α : Type} (p : α → Bool) (f : α → α) (l : List α) : List α := l.map fun x => bif p x then f x else x

/-- Least number of a list, if it has one. -/
def leastOf : List Nat → Option Nat
  | [] => none
  | x :: xs => match leastOf xs with
    | none => some x
    | some y => some (if x ≤ y then x else y)

/-- The least number below `n` that a test admits. -/
def leastWhere (n : Nat) (p : Nat → Bool) : Option Nat := (List.range n).find? p

/-- Insertion of a record into a list sorted by a rank; equal ranks keep their order. -/
def insertBy {α : Type} (rank : α → Nat) (x : α) : List α → List α
  | [] => [x]
  | y :: ys => if rank x < rank y then x :: y :: ys else y :: insertBy rank x ys

/-- A list sorted by a rank; equal ranks keep their order. -/
def sortBy {α : Type} (rank : α → Nat) (l : List α) : List α := l.foldl (fun acc x => insertBy rank x acc) []

end Sys2Proof.Machine
end

