-- ==== Sys2Proof/Machine/Memory.lean ====
section
/-! DEFINITION. Device memory at its home slices, translation, the L1 of each core and the quench buffer
(R190 to R194, R200, R205 to R214, R222 to R226, R366 to R368). -/
namespace Sys2Proof.Machine

/-! ## Home memory -/

/-- Memory's canonical form (R208: an unlisted byte reads 0). -/
abbrev Memory.wf (m : List Host.Cell) : Prop := SMap.wf 0#8 m = true

/-- One byte of physical memory. -/
def Chip.byte (c : Chip) (pa : Nat) : Byte := SMap.get 0#8 c.mem pa

/-- Bytes of physical memory. -/
def Chip.bytes (c : Chip) (pa n : Nat) : List Byte := bytesAt c.mem pa n

/-- A number in physical memory. -/
def Chip.homeNat (c : Chip) (pa n : Nat) : Nat := natAt c.mem pa n

/-- A word of physical memory. -/
def Chip.homeWord (c : Chip) (pa : Nat) : W32 := wordAt c.mem pa

/-- First address of host memory (R205). -/
def hostBase : Nat := 0x8000000000000

/-- Addresses the physical map populates (R205). -/
def populated (pa : Nat) : Bool :=
  decide (pa ≤ 0x773593FFFF) || decide (0x10000000000 ≤ pa ∧ pa ≤ 0x1EE6B27FFFF)
    || decide (hostBase ≤ pa ∧ pa ≤ 0xFFFFFFFFFFFFF)

/-- Every byte of a range is populated (R205). -/
def populatedAll (pa n : Nat) : Bool := (List.range n).all fun i => populated (pa + i)

/-- The home slice of an address (R204). -/
def homeSlice (pa : Nat) : Nat :=
  let b := BitVec.ofNat 52 pa
  (b.extractLsb' 9 7 ^^^ b.extractLsb' 16 7 ^^^ b.extractLsb' 23 7 ^^^ b.extractLsb' 30 7 ^^^ b.extractLsb' 37 7
    ^^^ b.extractLsb' 44 7 ^^^ (b.extractLsb' 51 1).setWidth 7).toNat

/-- The die of an address's home slice (R204). -/
def homeDie (pa : Nat) : Nat := homeSlice pa / 64

/-! ## The L2 slices (R204, R206) -/

/-- Whether two lines compete for one set of one slice (R204). -/
def l2Mates (a b : Nat) : Bool :=
  homeSlice (128 * a) == homeSlice (128 * b) && Config.l2Set a % 1024 == Config.l2Set b % 1024

/-- The lines held once a line is there too: a full set gives up its oldest, and the new line enters as the youngest, or
as the oldest of its set where its page has CP = 0b10 (R206; log 82). Host memory has no L2. -/
def l2Insert (ls : List L2Line) (line : Nat) (oldest : Bool) : List L2Line :=
  if hostBase ≤ 128 * line ∨ ls.any (fun l => l.line == line) = true then ls
  else
    let mates := ls.filter fun l => l2Mates l.line line
    let ls := if mates.length < Config.l2Ways then ls else ls.filter fun l => some l != mates.head?
    let new : L2Line := { line, dirty := 0#32 }
    if oldest then new :: ls else ls ++ [new]

/-- The lines held once a word has been written at its home. -/
def l2Write (ls : List L2Line) (wa : Nat) : List L2Line :=
  updWhere (fun l => l.line == wa / 32) (fun l => { l with dirty := l.dirty ||| 1#32 <<< (wa % 32) })
    (l2Insert ls (wa / 32) false)

/-- A line read through its home slice. -/
def Chip.l2Read (c : Chip) (line : Nat) (oldest : Bool) : Chip := { c with l2 := l2Insert c.l2 line oldest }

/-- The lines of an access to `n` bytes enter their slices as the CP of its page has it (R206). -/
def Chip.l2Access (c : Chip) (p : Phys) (n : Nat) : Chip :=
  if p.cp = 3 then c
  else
    { c with
      l2 := (List.range ((p.pa + n - 1) / 128 + 1 - p.pa / 128)).foldl (fun ls i => l2Insert ls (p.pa / 128 + i) (p.cp == 2)) c.l2 }

/-- The words of a block of 512 bytes. -/
def blockWords (m : SMap Byte) (block : Nat) : List W32 := (List.range 128).map fun i => wordAt m (512 * block + 4 * i)

/-- Whether the differences to a block's first word fit in `n` signed bits (R208). -/
def deltasFit (n : Nat) : List W32 → Bool
  | [] => true
  | b :: ws => ws.all fun w => ((w - b).setWidth n).signExtend 32 == w - b

/-- The first form that decodes to a block's words (R209). -/
def formOf (ws : List W32) : BlockForm :=
  if ws.all (· == 0#32) then .zero
  else if ws.all (· == ws.headD 0#32) then .rep
  else if deltasFit 8 ws then .d8
  else if deltasFit 16 ws then .d16
  else .raw

/-- A line's word made invalid unless it is dirty; a line left with no valid word is gone (R194, R223). -/
def Chip.dropWord (c : Chip) (core wa : Nat) : Chip :=
  let i := wa % 32
  let upd := fun (l : L1Line) =>
    bif l.core == core && l.line == wa / 32 && !l.dirty.getLsbD i
    then { l with valid := l.valid &&& ~~~(1#32 <<< i), words := SMap.put 0#32 l.words i 0#32 } else l
  { c with l1 := (c.l1.map upd).filter fun l => l.valid != 0#32 }

/-- A core's valid clean copy of a word made equal to its home: a clean word that its core owns always is (R223). -/
def Chip.refreshWord (c : Chip) (core wa : Nat) : Chip :=
  let i := wa % 32
  let mine := fun (l : L1Line) => l.core == core && l.line == wa / 32 && l.valid.getLsbD i && !l.dirty.getLsbD i
  { c with
    l1 := updWhere mine (fun l => { l with words := SMap.put 0#32 l.words i (c.homeWord (4 * wa)) }) c.l1 }

/-- A write applied at the home slice within one word: the other core that owned the word loses its copy, the owner
becomes `owner`, whose own copy follows, and a write of all four bytes clears poison (R211, R223, R376). `self` is the
core that makes the write, or none. -/
def Chip.homeWriteWord (c : Chip) (pa : Nat) (bs : List Byte) (self owner : Option Nat) : Chip :=
  let wa := pa / 4
  let prev := SMap.get 0 c.owners wa
  let c := bif prev != 0 && some (prev - 1) != self then c.dropWord (prev - 1) wa else c
  let c : Chip := { c with
    mem := putBytes c.mem pa bs
    l2 := l2Write c.l2 wa
    owners := SMap.put 0 c.owners wa (match owner with | none => 0 | some k => k + 1)
    poison := bif bs.length == 4 then c.poison.filter (· != wa) else c.poison }
  match owner with
  | none => c
  | some k => c.refreshWord k wa

/-- A block stored again after a write (R209, R211). Host memory has no metadata. -/
def Chip.reform (c : Chip) (block cmp : Nat) : Chip :=
  if 512 * block < hostBase then
    { c with forms := SMap.put .zero c.forms block (if cmp = 1 then formOf (blockWords c.mem block) else .raw) }
  else c

/-- Bytes cut at word boundaries: at most four a piece. -/
def wordPieces : Nat → Nat → List Byte → List (Nat × List Byte)
  | 0, _, _ => []
  | _, _, [] => []
  | fuel + 1, pa, bs =>
    let k := 4 - pa % 4
    (pa, bs.take k) :: wordPieces fuel (pa + k) (bs.drop k)

/-- A write applied at home (R211). The words' owner becomes `owner` (R223). -/
def Chip.homeWrite (c : Chip) (pa : Nat) (bs : List Byte) (cmp : Nat) (self owner : Option Nat) : Chip :=
  let c' := (wordPieces bs.length pa bs).foldl (fun c p => c.homeWriteWord p.1 p.2 self owner) c
  (List.range ((pa + bs.length - 1) / 512 + 1 - pa / 512)).foldl (fun c i => c.reform (pa / 512 + i) cmp) c'

/-! ## Translation -/

/-- What an access needs of its leaf (R367). -/
inductive Access where
  | read | write | both | fetch
  deriving DecidableEq, Repr

/-- The permission bits R, W and X that an access needs. -/
def Access.needs : Access → BitVec 3
  | .read => 1 | .write => 2 | .both => 3 | .fetch => 4

/-- The leaf of a page-table entry (R366). -/
def leafOf (ctx va size e : Nat) : TlbEntry :=
  { place := 0, ctx, va := va / size * size, size, frame := fieldOf e 51 16 * 0x10000,
    perm := BitVec.ofNat 3 (fieldOf e 4 2), cp := fieldOf e 6 5, cmp := fieldOf e 8 7 }

/-- Four levels of the walk: the shift of the index, its bits, and whether a leaf may stand there (R366). -/
def walkLevels : List (Nat × Nat × Bool) := [(46, 11, false), (36, 10, true), (26, 10, true), (16, 10, true)]

/-- The walk from a table down (R367); 7 and 8 are the causes of a failed walk. -/
def walk (m : SMap Byte) (ctx va : Nat) : List (Nat × Nat × Bool) → Nat → Except Nat TlbEntry
  | [], _ => .error 8
  | (shift, bits, mayLeaf) :: rest, table =>
    let e := natAt m (table + 8 * (va / 2 ^ shift % 2 ^ bits)) 8
    if e % 2 = 0 then .error 7
    else if e / 2 % 2 = 1 then
      if !mayLeaf || fieldOf e 63 52 != 0 || fieldOf e 15 9 != 0 || fieldOf e 51 16 * 0x10000 % 2 ^ shift != 0
      then .error 8
      else .ok (leafOf ctx va (2 ^ shift) e)
    else if rest.isEmpty || fieldOf e 63 52 != 0 || fieldOf e 12 2 != 0 then .error 8
    else walk m ctx va rest (fieldOf e 51 13 * 0x2000)

/-- The addresses of the entries that a walk reads. -/
def walkEntries (m : SMap Byte) (va : Nat) : List (Nat × Nat × Bool) → Nat → List Nat
  | [], _ => []
  | (shift, bits, _) :: rest, table =>
    let a := table + 8 * (va / 2 ^ shift % 2 ^ bits)
    let e := natAt m a 8
    a :: if e % 2 = 0 ∨ e / 2 % 2 = 1 then [] else walkEntries m va rest (fieldOf e 51 13 * 0x2000)

/-- A walk from a context's root; 14 is the cause of one that reads a lost entry, whose data is never used (R376). -/
def Chip.walkRoot (c : Chip) (ctx va : Nat) : Except Nat TlbEntry :=
  let root := (SMap.get Context.reset c.contexts ctx).ptroot
  if !c.poison.isEmpty && (walkEntries c.mem va walkLevels root).any (fun a => c.poison.any fun w => w / 2 == a / 8) then .error 14
  else walk c.mem ctx va walkLevels root

/-- A cached leaf at a place (R368). -/
def Chip.tlbFind (c : Chip) (place ctx va : Nat) : Option TlbEntry :=
  c.tlb.find? fun e => e.place == place && e.ctx == ctx && e.va == va / e.size * e.size

/-- The list without its n-th element. -/
def dropAt {α : Type} : Nat → List α → List α
  | _, [] => []
  | 0, _ :: xs => xs
  | n + 1, x :: xs => x :: dropAt n xs

/-- A leaf cached at a place; a full TLB gives up an entry the manual does not name (R368; log 10). -/
def Chip.tlbFill (c : Chip) (place : Nat) (e : TlbEntry) : Chip :=
  let here := c.tlb.filter fun x => x.place == place
  let cap := if place < Config.cores then Config.coreTlb else Config.dieTlb
  if here.length < cap then { c with tlb := c.tlb ++ [{ e with place }] }
  else
    { c with
      tlb := c.tlb.filter (fun x => x.place != place) ++ dropAt (Config.tlbVictim c.fresh % cap) here
        ++ [{ e with place }]
      fresh := c.fresh + 1 }

/-- The leaf of a virtual address below 2^57, through the TLBs of the places named, nearest first (R367, R368). -/
def Chip.leaf (c : Chip) (ctx va : Nat) : List Nat → Chip × Except Nat TlbEntry
  | [] => (c, c.walkRoot ctx va)
  | place :: rest =>
    match c.tlbFind place ctx va with
    | some e => (c, .ok e)
    | none =>
      match c.leaf ctx va rest with
      | (c, .ok e) => (c.tlbFill place e, .ok e)
      | (c, .error f) => (c, .error f)

/-- The physical address of an access and the checks of R205, R206, R214 and R367. -/
def physOf (e : TlbEntry) (va n : Nat) (acc : Access) : Except Nat Phys :=
  let pa := e.frame + va % e.size
  if e.perm &&& acc.needs ≠ acc.needs ∨ populatedAll pa n = false
      ∨ (decide (hostBase ≤ pa) != decide (e.cp = 3)) = true ∨ 2 ≤ e.cmp then .error 8
  else .ok { pa, cp := e.cp, cmp := e.cmp }

/-- Translation of an access (R218, R255, R367): a virtual address at or above 2^57 is a page fault. -/
def Chip.translate (c : Chip) (places : List Nat) (ctx va n : Nat) (acc : Access) : Chip × Except Nat Phys :=
  if 2 ^ 57 ≤ va then (c, .error 7)
  else
    match c.leaf ctx va places with
    | (c, .ok e) => (c, physOf e va n acc)
    | (c, .error f) => (c, .error f)

/-- The TLBs a core's accesses use (R368). -/
def corePlaces (core : Nat) : List Nat := [core, Config.cores + core / Config.coresPerDie]

/-- The TLB a die's engines and units use (R368). -/
def diePlaces (die : Nat) : List Nat := [Config.cores + die]

/-! ## The quench buffer -/

/-- An entry applied at home (R211, R212). A line that a store through a page with CP = 0b10 has written enters its slice as
the oldest of its set, whatever other stores the entry holds of it (R206; log 117). -/
def Chip.quenchApply (c : Chip) (q : QuenchEntry) : Chip :=
  let c := q.oldest.foldl (fun c i => c.l2Read (4 * q.block + i) true) c
  let words := (q.bytes.map fun b => b.1 / 4).eraseDups
  let c := words.foldl (fun c i =>
      let mine := q.bytes.filter fun b => b.1 / 4 == i
      let owner := bif q.owned.contains i then some q.core else none
      match mine with
      | [_, _, _, _] => c.homeWriteWord (512 * q.block + 4 * i) (mine.map (·.2)) (some q.core) owner
      | _ => mine.foldl (fun c b => c.homeWriteWord (512 * q.block + b.1) [b.2] (some q.core) owner) c) c
  c.reform q.block 1

/-- Of a core's entries for which `who` holds, those up to and with the last one that a test names leave, in the order
in which they opened (R212). -/
def Chip.quenchSome (c : Chip) (core : Nat) (who p : QuenchEntry → Bool) : Chip :=
  let mine := c.quench.filter fun q => q.core == core && who q
  let last := (List.range mine.length).foldl (fun n i => bif (mine[i]?.map p).getD false then i + 1 else n) 0
  let go := mine.take last
  let c := go.foldl (fun c q => c.quenchApply q) c
  { c with quench := c.quench.filter fun q => !go.contains q }

/-- A core's entries up to and with the one that a test names leave, in the order in which they opened (R212). -/
def Chip.quenchLeave (c : Chip) (core : Nat) (p : QuenchEntry → Bool) : Chip := c.quenchSome core (fun _ => true) p

/-- The entries that a context's own WCB_WAIT sends: those of that context alone (R213; log 83). -/
def Chip.quenchTimed (c : Chip) (core ctx : Nat) (p : QuenchEntry → Bool) : Chip :=
  c.quenchSome core (fun q => q.ctx == ctx) p

/-- All entries of a core leave. -/
def Chip.quenchDrain (c : Chip) (core : Nat) : Chip := c.quenchLeave core fun _ => true

/-- A write that leaves the core within one word: through the quench buffer where the page compresses, else straight
to its home, behind what the buffer holds of that word (R212, R215). `owner` is the core it registers to, or none;
`stores` names the groups whose stores it holds, and `oldest` says that its page has CP = 0b10 (R206). -/
def Chip.leaveCore (c : Chip) (core ctx : Nat) (stores : List (Nat × Nat)) (pa : Nat) (bs : List Byte) (cmp : Nat)
    (owner : Option Nat) (oldest : Bool) : Chip :=
  if cmp ≠ 1 then
    let c := c.quenchLeave core fun q => q.block == pa / 512 && q.bytes.any fun b => b.1 / 4 == pa % 512 / 4
    (if oldest then c.l2Read (pa / 128) true else c).homeWrite pa bs cmp (some core) owner
  else
    let block := pa / 512
    let mine := fun (q : QuenchEntry) => q.core == core && q.block == block
    let c := c.quenchLeave core fun q => q.block == block && q.ctx != ctx
    let c := bif c.quench.any mine then c
      else
        let open_ := c.quench.filter fun q => q.core == core
        let c := if open_.length < Config.quenchEntries then c
          else c.quenchLeave core fun q => some q == open_.head?
        { c with quench := c.quench ++ [{ core, block, ctx, opened := c.cyc, bytes := [], owned := [] }] }
    let i := pa % 512 / 4
    let merge := fun (q : QuenchEntry) =>
      { q with
        bytes := sortBy (·.1) (q.bytes.filter (fun b => !(decide (pa % 512 ≤ b.1 ∧ b.1 < pa % 512 + bs.length)))
          ++ (List.range bs.length).map fun k => (pa % 512 + k, bs[k]?.getD 0#8))
        owned := match owner with
          | some _ => (i :: q.owned).eraseDups
          | none => q.owned.filter (· != i)
        stores := (q.stores ++ stores).eraseDups
        oldest := if oldest then (pa % 512 / 128 :: q.oldest).eraseDups else q.oldest }
    let c := { c with quench := updWhere mine merge c.quench }
    let c := c.quenchLeave core fun q => q.block == block && q.bytes.length == 512
    if (SMap.get Context.reset c.contexts ctx).wcbWait = 0 then c.quenchTimed core ctx fun q => q.block == block else c

/-- Where a core's instruction cache lists a word. -/
def icacheKey (core pa : Nat) : Nat := core * 2 ^ 50 + pa / 4

/-! ## The L1 -/

/-- A line of a core's L1. -/
def Chip.line? (c : Chip) (core line : Nat) : Option L1Line := c.l1.find? fun l => l.core == core && l.line == line

/-- A line with its new contents. -/
def Chip.setLine (c : Chip) (l : L1Line) : Chip :=
  { c with l1 := updWhere (fun x => x.core == l.core && x.line == l.line) (fun _ => l) c.l1 }

/-- Lines that an owner holds in a core's L1: its occupancy (R200). -/
def Chip.occupancy (c : Chip) (core : Nat) (o : LineOwner) : Nat :=
  (c.l1.filter fun l => l.core == core && l.owner == o).length

/-- Effective lease (R195). -/
def Lease.lines (l : Lease) : Nat :=
  match l.mode with
  | 0 => l.decl
  | 1 => l.meas
  | _ => max l.decl l.meas

/-- Whether a group is in its core's activation order: some lane has neither exited nor fallen asleep (R196). -/
def Group.ordered (g : Group) : Bool :=
  g.lanes.any fun l => match l.st with | .exited | .asleep _ => false | _ => true

/-- Order in which R193 gives lines up: 1 for a retired, reserve or lease-parked owner, 2 for an owner beyond its
lease, 3 otherwise. -/
def Chip.victimRank (c : Chip) (l : L1Line) : Nat :=
  match l.owner with
  | .reserve => 1
  | .group g =>
    match c.groups.find? fun x => x.id == g with
    | none => 1
    | some x =>
      if x.ordered && !x.lease.active then 1 else if x.lease.lines < c.occupancy l.core l.owner then 2 else 3

/-- The dirty words of a line written back and registered to its core; they become clean (R194, R223). -/
def Chip.cleanLine (c : Chip) (l : L1Line) : Chip :=
  let dirty := (List.range 32).filter fun i => l.dirty.getLsbD i
  let c := dirty.foldl (fun c i =>
    c.leaveCore l.core l.ctx l.stores (128 * l.line + 4 * i) (leBytes 4 (SMap.get 0#32 l.words i).toNat) l.cmp (some l.core) false) c
  { c with l1 := updWhere (fun x => x.core == l.core && x.line == l.line) (fun x => { x with dirty := 0#32, stores := [] }) c.l1 }

/-- A line evicted under R193: its dirty words go home and it enters the victim tags (R194, R200). -/
def Chip.evict (c : Chip) (l : L1Line) : Chip :=
  let c := c.cleanLine l
  let tags := c.victims.filter (fun v => v.core == l.core) ++ [{ core := l.core, line := l.line, owner := l.owner }]
  { c with
    l1 := c.l1.filter fun x => !(x.core == l.core && x.line == l.line)
    victims := c.victims.filter (fun v => v.core != l.core) ++ tags.drop (tags.length - Config.victimTags) }

/-- One miss of an owner, lost where the victim tags record the line as its own (R200). -/
def Chip.countMiss (c : Chip) (core line : Nat) (o : LineOwner) : Chip :=
  match o with
  | .reserve => c
  | .group g =>
    let tag : VictimTag := { core, line, owner := o }
    let lost := c.victims.contains tag
    { c with
      victims := c.victims.filter (· != tag)
      groups := updWhere (fun x => x.id == g) (fun x =>
        { x with lease := { x.lease with misses := x.lease.misses + 1, lost := x.lease.lost + lost.toNat } }) c.groups }

/-- A line allocated with no valid word, after its victim has left (R190, R193). -/
def Chip.allocLine (c : Chip) (core line : Nat) (o : LineOwner) (ctx cmp : Nat) : Chip :=
  let set := c.l1.filter fun l => l.core == core && l.line % Config.l1Sets == line % Config.l1Sets
  let c := if set.length < Config.l1Ways then c
    else match sortBy c.victimRank (sortBy (·.age) set) with
      | [] => c
      | v :: _ => c.evict v
  { c with l1 := c.l1 ++ [{ core, line, valid := 0, dirty := 0, words := [], owner := o, ctx, cmp, age := c.cyc }] }

/-- The words of a line not yet valid read from home; a poisoned word stays invalid (R191, R376). -/
def Chip.fillLine (c : Chip) (core line : Nat) : Chip :=
  match c.line? core line with
  | none => c
  | some l =>
    let need := (List.range 32).filter fun i => !l.valid.getLsbD i && !c.poison.contains (32 * line + i)
    (c.l2Read line false).setLine { l with
      valid := need.foldl (fun v i => v ||| 1#32 <<< i) l.valid
      words := need.foldl (fun w i => SMap.put 0#32 w i (c.homeWord (128 * line + 4 * i))) l.words }

/-- Who makes an access: its core, its context, its group, and the owner of lines it allocates (R190, R219). -/
structure Accessor where
  core  : Nat
  ctx   : Nat
  group : Nat
  owner : LineOwner
  deriving DecidableEq, Repr

/-- A line's age at a hit (R193). -/
def Chip.touch (c : Chip) (core line : Nat) : Chip :=
  { c with l1 := updWhere (fun x => x.core == core && x.line == line) (fun x => { x with age := c.cyc }) c.l1 }

/-- A load of one word (R191, R206, R210, R212); none where the word is poisoned (R376). On a miss the victim leaves first,
and may push the oldest victim tag out, before the missing line's own tag is looked up: R200 does not say which comes
first (a choice of the model, log 101). Words that the line holds valid keep what they hold beside those that a fill brings
(R191), and so a load of 8 or 16 bytes may find old words beside new ones of a drain's row, which R157 and R218 do not speak of
(a choice of the model, log 110). -/
def Chip.loadWord (c : Chip) (who : Accessor) (p : Phys) : Chip × Option W32 :=
  let wa := p.pa / 4
  let line := wa / 32
  let i := wa % 32
  let c := c.quenchLeave who.core fun q => q.block == p.pa / 512
  let here := fun (c : Chip) => (c.line? who.core line).bind fun l =>
    bif l.valid.getLsbD i then some (SMap.get 0#32 l.words i) else none
  if p.cp = 0 then
    match here c with
    | some w => (c.touch who.core line, some w)
    | none =>
      let c := bif (c.line? who.core line).isSome then c else c.allocLine who.core line who.owner who.ctx p.cmp
      let c := ((c.countMiss who.core line who.owner).fillLine who.core line).touch who.core line
      (c, here c)
  else
    match (c.line? who.core line).filter fun l => l.dirty.getLsbD i with
    | some l => (c.touch who.core line, some (SMap.get 0#32 l.words i))
    | none => (c.l2Read line (p.cp == 2), bif c.poison.contains wa then none else some (c.homeWord (4 * wa)))

/-- A word with some of its bytes replaced, from byte `o` on. -/
def mergeWord (w : W32) (o : Nat) (bs : List Byte) : W32 :=
  let old := leBytes 4 w.toNat
  BitVec.ofNat 32 (leNat (old.take o ++ bs ++ old.drop (o + bs.length)))

/-- A store within one word through a page with CP = 0b00 (R192). The line takes the page's CMP: a write-back of a line
written through pages of different CMP carries the last store's, which the manual does not fix (a choice of the model,
log 100). -/
def Chip.storeCached (c : Chip) (who : Accessor) (p : Phys) (bs : List Byte) : Chip :=
  let wa := p.pa / 4
  let line := wa / 32
  let i := wa % 32
  let put := fun (c : Chip) (w : W32) =>
    { c with l1 := updWhere (fun x => x.core == who.core && x.line == line) (fun x =>
        { x with
          valid := x.valid ||| 1#32 <<< i
          dirty := x.dirty ||| 1#32 <<< i
          words := SMap.put 0#32 x.words i w
          cmp := p.cmp
          age := c.cyc
          stores := ((who.group, who.ctx) :: x.stores).eraseDups }) c.l1 }
  match c.line? who.core line with
  | some l =>
    if bs.length = 4 then put c (BitVec.ofNat 32 (leNat bs))
    else if l.valid.getLsbD i then put c (mergeWord (SMap.get 0#32 l.words i) (p.pa % 4) bs)
    else c.leaveCore who.core who.ctx [(who.group, who.ctx)] p.pa bs p.cmp none false
  | none =>
    if bs.length = 4 then
      put ((c.allocLine who.core line who.owner who.ctx p.cmp).countMiss who.core line who.owner)
        (BitVec.ofNat 32 (leNat bs))
    else c.leaveCore who.core who.ctx [(who.group, who.ctx)] p.pa bs p.cmp none false

/-- A store within one word that writes its home, registered to the core, and any valid copy in the core's L1; a
dirty copy is merged and sent whole (R206, R223, R240). -/
def Chip.storeThrough (c : Chip) (who : Accessor) (p : Phys) (bs : List Byte) : Chip :=
  let wa := p.pa / 4
  let line := wa / 32
  let i := wa % 32
  let out := fun (c : Chip) (stores : List (Nat × Nat)) (pa : Nat) (bs : List Byte) =>
    c.leaveCore who.core who.ctx stores pa bs p.cmp (some who.core) (p.cp == 2)
  match c.line? who.core line with
  | some l =>
    if l.valid.getLsbD i then
      let c := c.touch who.core line
      let l := { l with age := c.cyc }
      let w := mergeWord (SMap.get 0#32 l.words i) (p.pa % 4) bs
      let c := c.setLine { l with words := SMap.put 0#32 l.words i w, dirty := l.dirty &&& ~~~(1#32 <<< i) }
      if l.dirty.getLsbD i then out c ((who.group, who.ctx) :: l.stores) (4 * wa) (leBytes 4 w.toNat)
      else out c [(who.group, who.ctx)] p.pa bs
    else out c [(who.group, who.ctx)] p.pa bs
  | none => out c [(who.group, who.ctx)] p.pa bs

/-- A store within one word by the path its page's CP gives it (R192, R206). -/
def Chip.storeWord (c : Chip) (who : Accessor) (p : Phys) (bs : List Byte) : Chip :=
  match p.cp with
  | 0 => c.storeCached who p bs
  | 3 => c.homeWrite p.pa bs 0 none none
  | _ => c.storeThrough who p bs

/-- A load of `n` bytes that one lane names, aligned to its size (R218); none where a word is poisoned. -/
def Chip.loadBytes (c : Chip) (who : Accessor) (p : Phys) (n : Nat) : Chip × Option Nat :=
  if n < 4 then
    match c.loadWord who { p with pa := p.pa / 4 * 4 } with
    | (c, some w) => (c, some (w.toNat / 256 ^ (p.pa % 4) % 256 ^ n))
    | (c, none) => (c, none)
  else
    (List.range (n / 4)).foldl (fun acc i =>
      match acc with
      | (c, none) => (c, none)
      | (c, some v) =>
        match c.loadWord who { p with pa := p.pa + 4 * i } with
        | (c, some w) => (c, some (v + w.toNat * 2 ^ (32 * i)))
        | (c, none) => (c, none)) (c, some 0)

/-- The words of an access of `n` bytes. -/
def Phys.words (p : Phys) (n : Nat) : List Phys :=
  (List.range ((n + 3) / 4)).map fun i => { p with pa := p.pa / 4 * 4 + 4 * i }

/-- The words that the accesses of one instruction name, line after line in the order in which the lines first appear:
one fill serves every word of a line that one instruction needs (R191). -/
def wordsByLine (ps : List Phys) (n : Nat) : List Phys :=
  let ws := (ps.flatMap fun p => p.words n).eraseDups
  (ws.map fun p => p.pa / 128).eraseDups.flatMap fun line => ws.filter fun p => p.pa / 128 == line

/-- The number that an access of `n` bytes finds among the words read; none where one is poisoned. -/
def numberAt (got : List (Phys × Option W32)) (p : Phys) (n : Nat) : Option Nat :=
  let ws := (p.words n).map fun q => ((got.find? fun g => g.1 == q).bind (·.2))
  if ws.any (·.isNone) then none
  else
    let v := leNat (ws.flatMap fun w => leBytes 4 ((w.map (·.toNat)).getD 0))
    some (if n < 4 then v / 256 ^ (p.pa % 4) % 256 ^ n else v)

/-- A store of bytes that one lane names, aligned to its size (R218). -/
def Chip.storeBytes (c : Chip) (who : Accessor) (p : Phys) (bs : List Byte) : Chip :=
  (wordPieces bs.length p.pa bs).foldl (fun c x => c.storeWord who { p with pa := x.1 } x.2) c

/-! ## Releases and acquires -/

/-- Every dirty word of a core registered and its quench buffer empty: what a release at .dev does to the core's
memory (R212, R223, R225). -/
def Chip.registerAll (c : Chip) (core : Nat) : Chip :=
  let c := c.quenchDrain core
  let c := (c.l1.filter fun l => l.core == core).foldl (fun c l => c.cleanLine l) c
  c.quenchDrain core

/-- What an acquire at .dev does: the valid clean words that the core does not own become invalid (R226). -/
def Chip.invalidateStale (c : Chip) (core : Nat) : Chip :=
  let upd := fun (l : L1Line) =>
    bif l.core == core then
      let stale := (List.range 32).filter fun i =>
        l.valid.getLsbD i && !l.dirty.getLsbD i && SMap.get 0 c.owners (32 * l.line + i) != core + 1
      { l with
        valid := stale.foldl (fun v i => v &&& ~~~(1#32 <<< i)) l.valid
        words := stale.foldl (fun w i => SMap.put 0#32 w i 0#32) l.words }
    else l
  { c with l1 := (c.l1.map upd).filter fun l => l.valid != 0#32 }

/-- Whether a byte stands in a core's L1. -/
def Chip.inL1 (c : Chip) (core pa : Nat) : Bool :=
  (c.line? core (pa / 128)).any fun l => l.valid.getLsbD (pa / 4 % 32)

/-- Whether a store of a group is on its way home in its core's quench buffer and stands in no L1: a release at .team waits
until it is at home (R212, R225). -/
def Chip.storesOut (c : Chip) (core group : Nat) : Bool :=
  c.quench.any fun q => q.core == core && (q.stores.any fun s => s.1 == group)
    && q.bytes.any fun b => !c.inL1 core (512 * q.block + b.1)

/-- A release at a scope, its waits over (R225). -/
def Chip.release (c : Chip) (core : Nat) : Scope → Chip
  | .grp | .team => c
  | .dev | .sys => c.registerAll core

/-- An acquire at a scope, its waits over (R226). -/
def Chip.acquire (c : Chip) (core : Nat) : Scope → Chip
  | .grp | .team => c
  | .dev | .sys => c.invalidateStale core

/-- A word written by an engine, drain, blend, spill, host or peer: at home, with no owner (R223). -/
def Chip.unitWrite (c : Chip) (pa : Nat) (bs : List Byte) (cmp : Nat) : Chip := c.homeWrite pa bs cmp none none

/-- The same through a page, with the page's attributes (R156, R206). -/
def Chip.pageWrite (c : Chip) (p : Phys) (bs : List Byte) : Chip := (c.l2Access p bs.length).unitWrite p.pa bs p.cmp

/-- Poison in a range of bytes (R376). -/
def Chip.poisoned (c : Chip) (pa n : Nat) : Bool := c.poison.any fun w => decide (pa < 4 * w + 4 ∧ 4 * w < pa + n)

end Sys2Proof.Machine
end

