-- ==== Sys2Proof/Machine/Work.lean ====
section
/-! DEFINITION. Groups and teams in their places, completion counters, submission, cancellation, pre-emption and the
end of a team (R57 to R59, R74 to R80, R263, R264, R301 to R328, R364, R365, R372, R374, R381). -/
namespace Sys2Proof.Machine

/-! ## Looking things up -/

def Chip.group? (c : Chip) (id : Nat) : Option Group := c.groups.find? fun g => g.id == id
def Chip.team? (c : Chip) (id : Nat) : Option Team := c.teams.find? fun t => t.id == id
def Chip.launch? (c : Chip) (id : Nat) : Option Launch := c.launches.find? fun l => l.id == id
def Chip.context (c : Chip) (x : Nat) : Context := SMap.get Context.reset c.contexts x
def Chip.counter (c : Chip) (n : Nat) : Counter := SMap.get Counter.reset c.counters n

/-- A group with its new contents. -/
def Chip.setGroup (c : Chip) (g : Group) : Chip := { c with groups := updWhere (fun x => x.id == g.id) (fun _ => g) c.groups }
/-- A group changed. -/
def Chip.onGroup (c : Chip) (id : Nat) (f : Group → Group) : Chip :=
  { c with groups := updWhere (fun x => x.id == id) f c.groups }
/-- A team changed. -/
def Chip.onTeam (c : Chip) (id : Nat) (f : Team → Team) : Chip := { c with teams := updWhere (fun x => x.id == id) f c.teams }
/-- A launch changed. -/
def Chip.onLaunch (c : Chip) (id : Nat) (f : Launch → Launch) : Chip :=
  { c with launches := updWhere (fun x => x.id == id) f c.launches }
/-- A context changed. -/
def Chip.onContext (c : Chip) (x : Nat) (f : Context → Context) : Chip :=
  { c with contexts := SMap.put Context.reset c.contexts x (f (c.context x)) }
def Chip.setCounter (c : Chip) (n : Nat) (r : Counter) : Chip := { c with counters := SMap.put Counter.reset c.counters n r }

/-- Groups of a team that have not retired, in ascending grpidx. -/
def Chip.groupsOf (c : Chip) (team : Nat) : List Group := sortBy (·.grpidx) (c.groups.filter fun g => g.team == team)

/-- Core of a group. -/
def Chip.coreOf (c : Chip) (g : Group) : Nat := ((c.team? g.team).map (·.core)).getD 0

/-- The launch of a team. -/
def Chip.launchOf (c : Chip) (t : Team) : Option Launch := c.launch? t.launch

/-- Context of a team. -/
def Chip.ctxOf (c : Chip) (t : Team) : Nat := ((c.launchOf t).map (·.ctx)).getD 0

/-! ## Lanes -/

def LaneState.isRunning : LaneState → Bool
  | .running => true
  | _ => false
def LaneState.isExited : LaneState → Bool
  | .exited => true
  | _ => false
def LaneState.isAsleep : LaneState → Bool
  | .asleep _ => true
  | _ => false
def LaneState.isParked : LaneState → Bool
  | .parked _ _ => true
  | _ => false

/-- The mask of the lanes for whose lane record a test holds. -/
def Group.maskBy (g : Group) (p : Lane → Bool) : W64 :=
  maskWhere g.width fun l => (g.lanes[l]?.map p).getD false

/-- The running lanes (R8). -/
def Group.running (g : Group) : W64 := g.maskBy (·.st.isRunning)
/-- The exited lanes. -/
def Group.exited (g : Group) : W64 := g.maskBy (·.st.isExited)

/-- The lanes of a mask changed. -/
def Group.onLanes (g : Group) (m : W64) (f : Lane → Lane) : Group :=
  { g with lanes := (List.range g.lanes.length).filterMap fun l =>
      (g.lanes[l]?).map fun x => bif m.getLsbD l then f x else x }

/-- The least program counter of the running lanes: the issue address (R43). -/
def Group.issueAddress (g : Group) : Option Nat :=
  leastOf ((g.lanes.filter (·.st.isRunning)).map (·.pc.toNat))

/-- The running lanes at an address. -/
def Group.at_ (g : Group) (a : Nat) : W64 := g.maskBy fun l => l.st.isRunning && l.pc.toNat == a

/-- A slice with a lane that has not exited is live (R36). -/
def Group.liveSlices (g : Group) : Nat :=
  ((List.range (g.width / 8)).filter fun i =>
    (List.range 8).any fun k => (g.lanes[8 * i + k]?.map fun l => !l.st.isExited).getD false).length

/-! ## Sleeping and waking (R252) -/

/-- An event that may wake sleepers: its reason is noted with the sleeps that enable it. -/
def Group.note (g : Group) (cyc reason : Nat) (maskBit : Option Nat) : Group :=
  { g with sleeps := g.sleeps.map fun z =>
      bif decide (z.from_ < cyc) && (match maskBit with | none => true | some b => z.mask.getLsbD b)
        && !(reason == 2 && z.prm.isSome)
      then { z with happened := (reason :: z.happened).eraseDups } else z }

/-- An event noted with every group for which a test holds. -/
def Chip.noteWhere (c : Chip) (p : Group → Bool) (reason : Nat) (maskBit : Option Nat) : Chip :=
  { c with groups := updWhere p (fun g => g.note c.cyc reason maskBit) c.groups }

/-! ## Outstanding-operation counters (R247, R248) -/

def PerClass.get {α : Type} (p : PerClass α) : EngClass → α
  | .copy => p.copy | .index => p.index | .drain => p.drain | .blend => p.blend | .attn => p.attn | .coll => p.coll
def PerClass.set {α : Type} (p : PerClass α) (x : α) : EngClass → PerClass α
  | .copy => { p with copy := x } | .index => { p with index := x } | .drain => { p with drain := x }
  | .blend => { p with blend := x } | .attn => { p with attn := x } | .coll => { p with coll := x }
def PerClass.all {α : Type} (x : α) : PerClass α :=
  { copy := x, index := x, drain := x, blend := x, attn := x, coll := x }

/-- A counter of a group raised by one. -/
def Group.raise (g : Group) (cls : EngClass) : Group :=
  { g with counters := g.counters.set (g.counters.get cls + 1) cls }

/-- A counter of a group lowered by one; its lowering may wake a sleeper (R252). -/
def Chip.lower (c : Chip) (gid : Nat) (cls : EngClass) : Chip :=
  (c.onGroup gid fun g => { g with counters := g.counters.set (g.counters.get cls - 1) cls }).noteWhere
    (fun g => g.id == gid) 2 (some 0)

/-- A status word with one more failure (R248). -/
def statusFail (w : W64) (seq : W32) (cmd status : Nat) : W64 :=
  let n := fieldOf w.toNat 31 16
  if n = 0 then BitVec.ofNat 64 (seq.toNat * 2 ^ 32 + 2 ^ 16 + cmd % 256 * 256 + status % 256)
  else w + (if n = 0xFFFF then 0#64 else 0x10000#64)

/-! ## Named barriers (R263, R264) -/

/-- Doubleword 0 of a barrier object (R263). Of more than 65,535 parked units the field shows the number modulo 2^16, and the
phase waits for all of them: R263 does not say what PARKED then holds (a choice of the model, log 121). -/
def Barrier.word0 (b : Barrier) : W64 :=
  BitVec.ofNat 64 (b.phase.toNat * 2 ^ 63 + b.parked % 2 ^ 16 * 2 ^ 32 + b.arrived % 2 ^ 16 * 2 ^ 16 + b.expect % 2 ^ 16)

/-- Whether a barrier's phase is complete (R264). -/
def Barrier.complete (b : Barrier) : Bool :=
  b.expect != 0 && decide (b.expect ≤ b.arrived) && b.bytes == 0#64 && b.parked == 0

/-- The waits of a team's groups for the phase of a barrier pass at its flip, whatever it does later (R265). -/
def Chip.passBarrier (c : Chip) (team b : Nat) (phase : Bool) : Chip :=
  { c with
    groups := updWhere (fun g => g.team == team && g.wait == some (.barrier b phase)) (fun g => { g with wait := none })
      c.groups }

/-- A barrier of a team, if the team is there and holds it. -/
def Chip.barrier? (c : Chip) (team b : Nat) : Option Barrier := (c.team? team).bind fun t => t.bars[b]?

/-- A change of a barrier that is not tested yet: what step 1 of R264 does, whose test comes once all such changes of
the cycle are made. -/
def Chip.changeBarrier (c : Chip) (team b : Nat) (f : Barrier → Barrier) : Chip :=
  match c.barrier? team b with
  | none => c
  | some old => c.onTeam team fun t => { t with bars := t.bars.set b (f old) }

/-- The test for completion (R264). At the flip the waits of the phase pass, the words that counted engine data has
written are no longer read from the core's clean copies (R231), and sleepers may wake (R252). -/
def Chip.testBarrier (c : Chip) (team b : Nat) : Chip :=
  match c.barrier? team b with
  | none => c
  | some x =>
    if x.complete then
      let core := ((c.team? team).map (·.core)).getD 0
      let c := x.wrote.foldl (fun c wa => c.dropWord core wa) c
      ((c.onTeam team fun t =>
          { t with bars := t.bars.set b { x with phase := !x.phase, arrived := 0, wrote := [] } }).passBarrier
        team b x.phase).noteWhere (fun g => g.team == team) 3 (some 1)
    else c

/-- A step of a barrier's cycle: what the earlier step has completed flips first, then the change is made and tested
(R264: bar.init, and every arrival). -/
def Chip.onBarrier (c : Chip) (team b : Nat) (f : Barrier → Barrier) : Chip :=
  ((c.testBarrier team b).changeBarrier team b f).testBarrier team b

/-- Every barrier tested, once the step-1 changes of the cycle are made (R264). -/
def Chip.testBarriers (c : Chip) : Chip :=
  c.teams.foldl (fun c t => (List.range t.bars.length).foldl (fun c b => c.testBarrier t.id b) c) c

/-- One arrival (R264). -/
def Chip.arrive (c : Chip) (team b : Nat) : Chip :=
  c.onBarrier team b fun x => { x with arrived := min 0xFFFF (x.arrived + 1) }

/-! ## Rings and MSI-X (R372, R381) -/

/-- A vector raised (R381). -/
def Chip.msi (c : Chip) (v : Nat) : Chip := { c with msix := c.msix ++ [v] }

/-- A full ring (R372). -/
def Ring.full (r : Ring) : Bool := (r.tail + 2 ^ 24 - r.head) % 2 ^ 24 == 2 ^ r.log2n

/-- A ring after its device has written an entry. -/
def Ring.advance (r : Ring) : Ring := { r with tail := (r.tail + 1) % 2 ^ 24 }

/-- Where a ring's next entry of `n` bytes goes. -/
def Ring.slotAddr (r : Ring) (n : Nat) : Nat := r.base + n * (r.tail % 2 ^ r.log2n)

/-- The die of a core. -/
def dieOf (core : Nat) : Nat := core / Config.coresPerDie

def Chip.die (c : Chip) (d : Nat) : Die := if d = 0 then c.die0 else c.die1
def Chip.onDie (c : Chip) (d : Nat) (f : Die → Die) : Chip :=
  if d = 0 then { c with die0 := f c.die0 } else { c with die1 := f c.die1 }

/-- A frame appended to a context's arena free list, or held while the ring is full (R372). -/
def Chip.arenaPush (c : Chip) (x frame : Nat) : Chip :=
  let r := (c.context x).arena
  if r.full || !(c.context x).arenaHeld.isEmpty then
    c.onContext x fun k => { k with arenaHeld := k.arenaHeld ++ [frame] }
  else
    (c.unitWrite (r.slotAddr 8) (leBytes 8 (frame / 0x10000)) 0).onContext x fun k => { k with arena := k.arena.advance }

/-- Held frames that the ring now has room for (R372). -/
def Chip.arenaDrain : Nat → Chip → Nat → Chip
  | 0, c, _ => c
  | fuel + 1, c, x =>
    match (c.context x).arenaHeld with
    | [] => c
    | f :: rest =>
      if (c.context x).arena.full then c
      else Chip.arenaDrain fuel
        ((c.onContext x fun k => { k with arenaHeld := [] }).arenaPush x f |>.onContext x fun k => { k with arenaHeld := rest }) x

/-! ## Completion counters (R303, R304, R380) -/

/-- Word 0 of a counter record (R303). -/
def Counter.word0 (r : Counter) : W64 :=
  BitVec.ofNat 64 (r.cancelled.toNat * 2 ^ 63 + r.done.toNat * 2 ^ 62 + r.level.toNat * 2 ^ 60
    + min r.faults 0xFFFF * 2 ^ 32 + r.value.toNat)
/-- Word 1 of a counter record (R303). -/
def Counter.word1 (r : Counter) : W64 := BitVec.ofNat 64 (r.parent.toNat * 2 ^ 32 + r.target.toNat)

/-- A counter lies in a context's range (R311). -/
def Context.inRange (k : Context) (n : Nat) : Bool := decide (k.cbase ≤ n ∧ n < k.cbase + k.cnum)

/-- NOTIFY of every context that named a counter whose DONE or CANCELLED has become 1 (R380). -/
def Chip.notify (c : Chip) (n : Nat) : Chip :=
  (c.contexts.map (·.1)).foldl (fun c x =>
    let k := c.context x
    if k.notifyEn && k.notifyCtr == n then (c.onContext x fun k => { k with notifyEn := false }).msi x else c) c

/-- A job's parent loses a live child when the job is done or cancelled (R324). -/
def Chip.orphan (c : Chip) (r : Counter) : Chip :=
  if r.level = 3#2 ∧ r.parent ≠ 0xFFFF#16 then
    { c with liveKids := SMap.put 0 c.liveKids r.parent.toNat (SMap.get 0 c.liveKids r.parent.toNat - 1) }
  else c

/-- A change to a counter's VALUE and FAULTS, with the propagation of R304; the fuel bounds a chain of parents, each
of which becomes DONE at most once. A cancelled counter takes no change. -/
def Chip.bump : Nat → Chip → Nat → (Counter → Counter) → Chip
  | 0, c, _, _ => c
  | fuel + 1, c, n, f =>
    let old := c.counter n
    if old.cancelled then c
    else
      let r := f old
      if r.value = r.target ∧ r.target ≠ 0#32 ∧ r.done = false then
        let c := ((c.setCounter n { r with done := true }).notify n).orphan r
        if r.level = 3#2 ∨ r.parent = 0xFFFF#16 then c
        else Chip.bump fuel c r.parent.toNat fun p => { p with value := p.value + 1 }
      else c.setCounter n r

/-- VALUE gains `n`, and FAULTS too where the teams ended by a fault policy (R305). -/
def Chip.count (c : Chip) (ctr n : Nat) (faults : Nat) : Chip :=
  (List.range n).foldl (fun c _ => Chip.bump 65536 c ctr fun r =>
    { r with value := r.value + 1, faults := min 0xFFFF (r.faults + faults) }) c

/-! ## Launch descriptors and submission (R74, R75, R301, R302) -/

/-- Fields of the partition word (R74). -/
def Desc.nb (d : Desc) : Nat := fieldOf d.part.toNat 37 32
def Desc.hc (d : Desc) : Bool := d.part.getLsbD 31
def Desc.tl (d : Desc) : Nat := fieldOf d.part.toNat 30 24
def Desc.spg (d : Desc) : Nat := fieldOf d.part.toNat 18 8
def Desc.rq (d : Desc) : Nat := fieldOf d.part.toNat 3 0

/-- Group width (R301). -/
def Desc.width (d : Desc) : Nat := 8 * 2 ^ d.wc
/-- Groups per team (R301). -/
def Desc.groups (d : Desc) : Nat := d.gm1 + 1
/-- Teams of the launch (R301). -/
def Desc.teams (d : Desc) : Nat := (d.dxm1 + 1) * (d.dym1 + 1) * (d.dzm1 + 1)
/-- Granules a team needs (R75). -/
def Desc.granules (d : Desc) : Nat := d.groups * (d.width / 8) * d.rq + d.spg + 4 * d.tl

/-- A partition word within its limits (R74). -/
def Desc.partOk (d : Desc) : Bool :=
  fieldOf d.part.toNat 63 38 == 0 && fieldOf d.part.toNat 23 19 == 0 && fieldOf d.part.toNat 7 4 == 0
    && decide (d.nb ≤ 48 ∧ d.tl ≤ 64 ∧ d.spg ≤ 1535 ∧ 1 ≤ d.rq ∧ d.rq ≤ 8)

/-- A descriptor's fields from its eight words (R301). -/
def Desc.ofWords (ws : List W64) : Desc :=
  let w := fun k => (ws[k]?.getD 0#64)
  let f := fun k hi lo => fieldOf (w k).toNat hi lo
  { entry := w 0, param := w 1, part := w 2, fpol := f 3 62 61, maint := (w 3).getLsbD 60, prio := f 3 58 56,
    wc := f 3 53 52, gm1 := f 3 51 48, dzm1 := f 3 47 32, dym1 := f 3 31 16, dxm1 := f 3 15 0, dctr := f 4 63 48,
    cctr := f 4 47 32, lmode := f 4 13 12, decl := f 4 10 0, phase := f 5 63 48, graph := f 5 47 32,
    dthr := f 5 31 0, job := f 6 15 0 }

/-- Reserved bits of a descriptor are zero (R301). -/
def descReservedOk (ws : List W64) : Bool :=
  let f := fun k hi lo => fieldOf (ws[k]?.getD 0#64).toNat hi lo
  f 3 63 63 == 0 && f 3 59 59 == 0 && f 3 55 54 == 0 && f 4 31 14 == 0 && f 4 11 11 == 0 && f 6 63 16 == 0
    && f 7 63 0 == 0

/-- Numbers of a launch's teams never placed and not withdrawn, and its returned teams (R308). -/
def Launch.nextNew (l : Launch) : Option Nat :=
  ((List.range (l.taken.length + 1)).map (l.next + ·)).find? fun n => decide (n < l.desc.teams) && !l.taken.contains n

/-- A launch that still has a team to place: it stands in its queue (R308). -/
def Launch.unplaced (l : Launch) : Bool := !l.returned.isEmpty || l.nextNew.isSome

/-- A queue's launches that have not all been placed (R302, R308). -/
def Chip.queued (c : Chip) (x q : Nat) : List Launch :=
  sortBy (·.id) (c.launches.filter fun l => l.ctx == x && l.queue == q && l.unplaced)

/-- The status of a submission (R302). A launch is complete when all its teams have ended, whatever its CCTR's DONE says (a choice of
the model, log 136). -/
def Chip.submitStatus (c : Chip) (x q : Nat) (ws : List W64) (maintOk : Bool) : Nat :=
  let d := Desc.ofWords ws
  let k := c.context x
  let optional := fun n => n == 0xFFFF
  let level := fun n => (c.counter n).level.toNat
  if Config.queueDepth ≤ (c.queued x q).length then 1
  else if !descReservedOk ws || d.entry.toNat % 4 != 0 || decide (2 ^ 57 ≤ d.entry.toNat) || d.fpol == 3
      || d.lmode == 3 || decide (1792 < d.decl) || decide (2 ^ 32 ≤ d.teams) || !d.partOk || (d.maint && !maintOk) then 2
  else if decide (Config.poolGranules < d.granules) then 3
  else if !k.inRange d.cctr || !k.inRange d.job || level d.job != 3
      || (d.dthr != 0 && !k.inRange d.dctr)
      || (!optional d.graph && (!k.inRange d.graph || level d.graph != 1))
      || (!optional d.phase && (!k.inRange d.phase || level d.phase != 2))
      || c.launches.any (fun l => l.desc.cctr == d.cctr) then 4
  else if (c.counter d.job).cancelled || (!optional d.graph && (c.counter d.graph).cancelled)
      || (!optional d.phase && (c.counter d.phase).cancelled) then 5
  else 0

/-- A launch record at acceptance (R302). -/
def Launch.ofDesc (id x q : Nat) (d : Desc) : Launch :=
  { id, ctx := x, queue := q, desc := d, next := 0, taken := [], returned := [], left := d.teams, level := d.prio,
    agedFrom := none, waitFrom := none, entered := [] }

/-- A submission: its status, and the launch accepted where the status is 0 (R302). -/
def Chip.submit (c : Chip) (x q : Nat) (ws : List W64) (maintOk : Bool) : Chip × Nat :=
  let st := c.submitStatus x q ws maintOk
  if st ≠ 0 then (c, st)
  else
    let d := Desc.ofWords ws
    let c := c.setCounter d.cctr
      { value := 0, target := BitVec.ofNat 32 d.teams, parent := BitVec.ofNat 16 d.graph, faults := 0, level := 0,
        done := false, cancelled := false }
    ({ c with launches := c.launches ++ [Launch.ofDesc c.nextId x q d], nextId := c.nextId + 1 }, 0)

/-! ## Creating groups and teams (R42, R77, R80, R195, R306, R319) -/

/-- A group as it is created (R80, R195): every lane running at `entry`, but those of `gone` exited. -/
def Group.create (id team grpidx slot slotIdx : Nat) (d : Desc) (entry arg0 arg1 gone : W64) : Group :=
  { id, team, grpidx, slot, slotIdx, width := d.width, v := [],
    s := SMap.put 0#64 (SMap.put 0#64 [] 1 arg1) 0 arg0, m := [], j := [], k := [],
    lanes := (List.range d.width).map fun l =>
      if gone.getLsbD l then { pc := BitVec.allOnes 64, st := .exited } else { pc := entry, st := .running },
    seg := d.width, fst := 0, sbchk := false, xcause := 0, xpc := 0, xval := 0, xmask := 0, inh := false, hlanes := 0,
    wakeReason := 0, wakeGated := false, starve := 0, counters := .all 0, status := .all 0#64, seq := .all 0#32,
    episodes := [], sleeps := [],
    lease := { floor := 16, meas := d.decl, decl := d.decl, mode := d.lmode, active := false, parkCount := 0,
               aged := none, misses := 0, lost := 0 },
    pend := [], dist := 0, busy := [], due := [], readyAt := 0, wait := none, pendTraps := [], fwOut := none, begun := false }

/-- Granules a team holds: live slices, scratchpad, tiles, and the reserve of R78. -/
def Chip.granulesHeld (c : Chip) (t : Team) (d : Desc) : Nat :=
  ((c.groupsOf t.id).map fun g => g.liveSlices * d.rq).sum + d.spg + 4 * d.tl + t.reserve

/-- Free granules of a core: neither held nor waiting to be cleared (R77, R79). -/
def Chip.freeGranules (c : Chip) (core : Nat) : Nat :=
  let held := ((c.teams.filter fun t => t.core == core).map fun t =>
    match c.launchOf t with | some l => c.granulesHeld t l.desc | none => 0).sum
  Config.poolGranules - held - SMap.get 0 c.uncleared core

/-- Granules given back wait to be cleared (R79). -/
def Chip.giveBack (c : Chip) (core n : Nat) : Chip :=
  { c with uncleared := SMap.put 0 c.uncleared core (SMap.get 0 c.uncleared core + n) }

/-! ## Lease activation (R196, R198) -/

/-- The order of a core's groups (R196), as a rank: aged first, then priority, team age and grpidx.
Team numbers rise in the order of placement. -/
def Chip.activationOrder (c : Chip) (core : Nat) : List Group :=
  let here := c.groups.filter fun g => g.ordered && c.coreOf g == core
  let prio := fun (g : Group) =>
    7 - (((c.team? g.team).bind fun t => c.launchOf t).map fun l => l.desc.prio).getD 0
  let base := sortBy prio (sortBy (·.team) (sortBy (·.grpidx) here))
  sortBy (fun g => match g.lease.aged with | some a => a | none => c.cyc + 1) base

/-- The groups the budget activates: the walk stops at the first that does not fit, and the first is always active
(R196). -/
def leaseWalk : Nat → Bool → List Group → List Nat
  | _, _, [] => []
  | used, first, g :: gs =>
    if first || decide (used + g.lease.lines ≤ Config.leaseBudget) then
      g.id :: leaseWalk (used + g.lease.lines) false gs
    else []

/-- Activation of a core's groups computed again (R198). -/
def Chip.activate (c : Chip) (core : Nat) : Chip :=
  let on := leaseWalk 0 true (c.activationOrder core)
  let here := fun (g : Group) => c.coreOf g == core
  { c with groups := updWhere here (fun g => { g with lease := { g.lease with active := on.contains g.id } }) c.groups }

/-! ## The end of a team -/

/-- The bytes that the device writes at CTXSAVE: their layout is its own (R374). `n` tells suspensions apart. -/
def Context.saveBytes (k : Context) (n : Nat) : List Byte :=
  (List.range (1048576 + 16 * k.cnum)).map (Config.saveArea n)

/-- The counter records of a context's range (R311). -/
def Chip.rangeCounters (c : Chip) (k : Context) : List (Nat × Counter) :=
  (List.range k.cnum).map fun i => (k.cbase + i, c.counter (k.cbase + i))

/-- A suspension that was waiting for the context's last team is completed: its queues and counters are written at
CTXSAVE, at home as every write of the device is (R211, R374). -/
def Chip.settleSuspend (c : Chip) (x : Nat) : Chip :=
  let k := c.context x
  if k.suspending && !(c.teams.any fun t => c.ctxOf t == x) then
    let c := { c.unitWrite k.ctxsave (k.saveBytes c.fresh) 0 with fresh := c.fresh + 1 }
    c.onContext x fun k =>
      { k with
        suspending := false, susp := true, saved := some (c.fresh - 1)
        savedLaunches := c.launches.filter fun l => l.ctx == x
        savedCounters := c.rangeCounters k }
  else c

/-- An entry marked VOID: FLG[1] is set where HEAD has not passed it (R269). -/
def Chip.voidUnit (c : Chip) (p : ParkedUnit) : Chip :=
  let r := (c.die p.die).fq
  let c := { c with parked := updWhere (fun q => q.token == p.token) (fun q => { q with void := true }) c.parked }
  if (r.tail + 2 ^ 24 - r.head) % 2 ^ 24 < (r.tail + 2 ^ 24 - p.slot) % 2 ^ 24 then c
  else
    let a := r.base + 32 * (p.slot % 2 ^ r.log2n) + 14
    c.unitWrite a [c.byte a ||| 2#8] 0

/-- A 64-bit field of a command (R242). -/
def cmdNat (cmd : List Byte) (o n : Nat) : Nat := leNat ((cmd.drop o).take n)

/-- The destination fields of an engine operation that name scratchpad (R255, R269, R354). -/
def EngOp.intoScratchpad (o : EngOp) : Bool :=
  let sp := fun i => decide (2 ^ 63 ≤ cmdNat o.cmd i 8)
  match cmdNat o.cmd 0 1 with
  | 0x01 | 0x02 | 0x03 | 0x10 | 0x11 => sp 8
  | 0x12 => false
  | 0x30 | 0x31 => sp 16
  | 0x33 => sp 16
  | 0x25 => sp 40 || (cmdNat o.cmd 23 1 % 2 == 1 && sp 48)
  | 0x26 => sp 32
  | _ => false

/-- The engine operations of a discarded team (R269, R354): parked units are dropped and their entries VOID; one that
writes the team's scratchpad is dropped, another copy, index or collective operation is dropped or completes, an
attention operation keeps its step, and with it what the scratchpad held and which of its words were lost. -/
def Chip.orphanOps (c : Chip) (team : Nat) : Chip :=
  let space := (c.team? team).bind fun t => (c.launchOf t).map fun l => (1024 * l.desc.spg, t.sp)
  let lost := ((c.team? team).map fun t => t.lostWords.filterMap fun l => match l.word with
    | some (.sp a) => some (a / 4)
    | _ => none).getD []
  let c := { c with ops := updWhere (fun o => o.team == team && o.space.isNone) (fun o => { o with space, lost }) c.ops }
  (c.ops.filter fun o => o.team == team && !o.dropped).foldl (fun c o =>
    let drop := o.intoScratchpad || o.started || (o.cls != .attn && Config.dropsOperation c.fresh)
    let c := (c.parked.filter fun p => p.op == o.id && !p.void).foldl (fun c p => c.voidUnit p) { c with fresh := c.fresh + 1 }
    if !drop then c
    else if o.cls = .attn && !o.started then
      { c with ops := updWhere (fun q => q.id == o.id) (fun q => { q with dropped := true }) c.ops }
    else { c with ops := c.ops.filter fun q => q.id != o.id }) c

/-- A region at whose stapes groups wait no longer. -/
def Region.without (gs : List Nat) (r : Region) : Region := { r with gates := r.gates.filter fun q => !gs.contains q.group }

/-- What a team's runs, and those of the teams it has withdrawn, have left on cores is registered to them: the release of
the end of a launch (R58, R224, R231). -/
def Chip.releasePast (c : Chip) (t : Team) : Chip :=
  (t.pastCores.filter (· != t.core)).foldl (fun c k => c.release k .dev) (c.release t.core .dev)

/-- A team gone from its core: its groups, scratchpad, tiles, tables, barriers and scratchpad regions with it; its
accepted drains, atoms and device-memory operations stay to be applied, and its groups wait at no stape any more (R78,
R158, R179, R187, R241, R269, R293). -/
def Chip.removeTeam (c : Chip) (t : Team) : Chip :=
  let n := match c.launchOf t with | some l => c.granulesHeld t l.desc | none => 0
  let mine := (c.groupsOf t.id).map (·.id)
  let c := c.orphanOps t.id
  let c := { c with
    groups := c.groups.filter fun g => g.team != t.id
    teams := c.teams.filter fun u => u.id != t.id
    regions := (c.regions.filter fun (r : Region) => r.team != some t.id).map (Region.without mine)
    fences := c.fences.filter fun f => f.holds || !mine.contains f.group
    victims := c.victims.filter fun v => match v.owner with | .group g => !mine.contains g | .reserve => true }
  (c.giveBack t.core n).activate t.core

/-- The pre-emptions that are still pending: a team of the core holds a request, whatever has become of the launch they
make room for, or granules that a discard gave back for it are still to be cleared (R318). -/
def Chip.tidyPreempting (c : Chip) : Chip :=
  let ps := c.preempting.map fun p => (p.1, p.2.filter fun id => c.launches.any fun l => l.id == id)
  let stands := fun (p : Nat × Option Nat) =>
    (c.teams.any fun t => t.core == p.1 && t.request.isSome) || (p.2.isSome && SMap.get 0 c.uncleared p.1 != 0)
  { c with preempting := ps.filter stands }

/-- A launch whose last team has ended leaves the distributor. -/
def Chip.endTeams (c : Chip) (launch n : Nat) : Chip :=
  let c := c.onLaunch launch fun l => { l with left := l.left - n }
  { c with launches := c.launches.filter fun l => !(l.id == launch && l.left == 0) }.tidyPreempting

/-- A team discarded and returned to its launch, its region open (R308, R319). -/
def Chip.discardReturned (c : Chip) (t : Team) : Chip :=
  let x := c.ctxOf t
  let r : Returned :=
    { number := t.number, rec_ := { t.rec_ with open_ := true }, withdrew := t.withdrew
      cores := (t.pastCores ++ [t.core]).eraseDups }
  (((c.removeTeam t).onLaunch t.launch fun l => { l with returned := l.returned ++ [r] })).settleSuspend x

/-- A team discarded for good; where `faulted` it counts to its launch's counter, with FAULTS, once what its earlier runs
left on other cores is registered (R224, R305, R364). -/
def Chip.discardEnded (c : Chip) (t : Team) (faulted : Bool) : Chip :=
  let x := c.ctxOf t
  let cctr := (c.launchOf t).map fun l => l.desc.cctr
  let c := if faulted then c.releasePast t else c
  let c := c.removeTeam t
  let c := match faulted, cctr with
    | true, some n => c.count n (1 + t.withdrew) 1
    | _, _ => c
  (c.endTeams t.launch (1 + t.withdrew)).settleSuspend x

/-- A pre-emption request on a team, made before the issues of a cycle (R319 to R321): in an open region the team is
discarded in this cycle, and no closing instruction of it issues any more; a closed one holds the request and wakes the
team's sleepers. -/
def Chip.requestTeam (c : Chip) (team : Nat) : Chip :=
  match c.team? team with
  | none => c
  | some t =>
    if t.request.isSome then c
    else
      let c := c.onTeam team fun t => { t with request := some c.cyc, deciding := t.rec_.open_ }
      if t.rec_.open_ then c else c.noteWhere (fun g => g.team == team) 6 none

/-- A context's suspension begins: no further team is placed, and before the next issues every team of it is requested
(R318, R374; Chip.suspendees). -/
def Chip.beginSuspend (c : Chip) (x : Nat) : Chip :=
  (c.onContext x fun k => { k with suspending := true }).settleSuspend x

/-- Teams that a suspension has still to request: those that neither hold a request nor have a region-overrun trap to
take (R318, R320, R374). -/
def Chip.suspendees (c : Chip) : List Team :=
  c.teams.filter fun t => (c.context (c.ctxOf t)).suspending && t.request.isNone
    && !((c.groupsOf t.id).any fun g => g.pendTraps.any fun p => p.cause == 0x0D#8)

/-! ## Cancellation (R325, R326) -/

/-- Whether a job counter is `root` or descends from it (R324). -/
def Chip.jobUnder (c : Chip) (root : Nat) : Nat → Nat → Bool
  | 0, n => n == root
  | fuel + 1, n =>
    n == root || ((c.counter n).level == 3#2 && (c.counter n).parent != 0xFFFF#16
      && Chip.jobUnder c root fuel (c.counter n).parent.toNat)

/-- CANCELLED set on a counter (R325, R327). -/
def Chip.cancelCounter (c : Chip) (n : Nat) : Chip :=
  let r := c.counter n
  if r.cancelled then c
  else
    let c := (c.setCounter n { r with cancelled := true }).notify n
    if r.done then c else c.orphan r

/-- The address of the entry that holds a valid leaf for a virtual address (R367). -/
def leafAddr (m : SMap Byte) (va : Nat) : List (Nat × Nat × Bool) → Nat → Option Nat
  | [], _ => none
  | (shift, bits, _) :: rest, table =>
    let a := table + 8 * (va / 2 ^ shift % 2 ^ bits)
    let e := natAt m a 8
    if e % 2 = 0 then none else if e / 2 % 2 = 1 then some a else leafAddr m va rest (fieldOf e 51 13 * 0x2000)

/-- An arena page returned: its entry cleared and its translations gone. Its frame goes on the free list once the
invalidation is complete as that of sys.tlbinv is (R325, R370; Chip.freePage). -/
def Chip.returnPage (c : Chip) (p : ArenaPage) : Chip :=
  let va := p.page * 0x10000
  let c := { c with
    arenaPages := c.arenaPages.filter (· != p)
    tlb := c.tlb.filter fun e => !(e.ctx == p.ctx && e.va == va / e.size * e.size) }
  match leafAddr c.mem va walkLevels (c.context p.ctx).ptroot with
  | none => c
  | some a =>
    let frame := fieldOf (c.homeNat a 8) 51 16 * 0x10000
    { c.unitWrite a (leBytes 8 0) 0 with leaving := c.leaving ++ [(p, frame)] }

/-- The counters and launches that a cancellation at a level names (R325). -/
def Chip.inSubtree (c : Chip) (lvl n : Nat) (l : Launch) : Bool :=
  match lvl with
  | 0 => l.desc.cctr == n
  | 1 => l.desc.graph == n
  | 2 => l.desc.phase == n
  | _ => c.jobUnder n 256 l.desc.job

/-- A launch cancelled: removed from its queue, its teams discarded, a cancel event on their cores (R252, R325). -/
def Chip.dropLaunch (c : Chip) (l : Launch) : Chip :=
  let teams := c.teams.filter fun t => t.launch == l.id
  let c := teams.foldl (fun c t =>
    let c := c.removeTeam t
    c.noteWhere (fun g => c.coreOf g == t.core) 7 (some 4)) c
  let c := { c with launches := c.launches.filter fun m => m.id != l.id }.tidyPreempting
  c.settleSuspend l.ctx

/-- Blocks of a die that sequences hold (R326). -/
def Chip.blocksOn (c : Chip) (die : Nat) (seqs : List Nat) : Nat :=
  (c.blocks.filter fun b => b.die == die && seqs.contains b.owner).length

/-- The cycle by which a cancelled sequence's blocks are free: 12 µs, and 1/2,000 µs for each block of its die (R326). -/
def Chip.releaseBy (c : Chip) (seqs : List Nat) (q : Sequence) : Nat :=
  c.cyc + 12 * Config.cyclesPerMicro + c.blocksOn q.die seqs * Config.cyclesPerMicro / 2000

/-- A cancellation and its status: 0 done, 1 bad level, 3 already cancelled (R325). -/
def Chip.cancel (c : Chip) (n lvl : Nat) : Chip × Nat :=
  let r := c.counter n
  if r.level.toNat ≠ lvl then (c, 1)
  else if r.cancelled then (c, 3)
  else
    let gone := c.launches.filter fun l => c.inSubtree lvl n l
    let jobs := if lvl = 3 then ((c.counters.map (·.1)).filter fun k => c.jobUnder n 256 k) else []
    let seqs := if lvl = 3 then c.sequences.filter fun q => c.jobUnder n 256 q.job else []
    let soon := seqs.map fun q => (q.num, c.releaseBy (seqs.map (·.num)) q)
    let pages := if lvl = 3 then c.arenaPages.filter fun p => c.jobUnder n 256 p.job else []
    let c := (n :: gone.map (·.desc.cctr) ++ jobs).foldl (fun c k => c.cancelCounter k) c
    let c := gone.foldl (fun c l => c.dropLaunch l) c
    let c := pages.foldl (fun c p => c.returnPage p) c
    ({ c with releases := c.releases ++ soon.filter fun r => !(c.releases.any fun p => p.1 == r.1) }, 0)

/-! ## Fault policies and the fault log (R364, R365) -/

/-- What a fault-log entry and a handler record of a trap (R359, R365). -/
structure Trapped where
  cause : BitVec 8
  pc    : W64
  val   : W64
  mask  : W64
  deriving DecidableEq, Repr

/-- A fault-log entry's bytes (R365). -/
def logBytes (r : Trapped) (double ret : Bool) (fpol cctr core grp : Nat) : List Byte :=
  [r.cause, BitVec.ofNat 8 (double.toNat + 2 * fpol + 8 * ret.toNat)] ++ leBytes 2 cctr ++ leBytes 2 core
    ++ [BitVec.ofNat 8 grp, 0#8] ++ leBytes 8 r.pc.toNat ++ leBytes 8 r.val.toNat ++ leBytes 8 r.mask.toNat

/-- An entry at the tail of a context's fault log, after a release of the core; a full ring drops it (R365, R372). No rule
gives the CMP of the device's own writes, which no page translates: the model takes 0b00, RAW (a choice of the model,
log 102). -/
def Chip.logFault (c : Chip) (x core : Nat) (entry : List Byte) : Chip :=
  let c := c.registerAll core
  let r := (c.context x).flog
  if r.full then c
  else (((c.unitWrite (r.slotAddr 32) entry 0).onContext x fun k => { k with flog := k.flog.advance }).msi x)

/-- The fault policy of a group's launch, applied at once (R364). -/
def Chip.policy (c : Chip) (g : Group) (r : Trapped) (double : Bool) : Chip :=
  match c.team? g.team with
  | none => c
  | some t =>
    match c.launchOf t with
    | none => c
    | some l =>
      let ret := l.desc.fpol == 2 && t.rec_.open_
      let c := c.logFault l.ctx t.core (logBytes r double ret l.desc.fpol l.desc.cctr t.core g.grpidx)
      match l.desc.fpol with
      | 1 => ((c.discardEnded t true).cancel l.desc.cctr 0).1
      | 2 =>
        let c := if ret then c.discardReturned t else c.discardEnded t true
        if (c.context l.ctx).suspending || (c.context l.ctx).susp then c else c.beginSuspend l.ctx
      | _ => c.discardEnded t true

end Sys2Proof.Machine
end

