-- ==== Sys2Proof/Machine/Ops.lean ====
section
/-! DEFINITION. The registers of a group and their pending writes (R20 to R24, R80), joins (R49 to R54), taking a trap
and returning from one (R359 to R364), and the issue of one instruction (R30, R43 to R46). -/
namespace Sys2Proof.Machine

/-! ## Reading registers (R80) -/

/-- v[r] of a lane. -/
def Group.vreg (g : Group) (r l : Nat) : W32 := SMap.get 0#32 g.v (64 * r + l)
/-- v[r] ‖ v[r+1] of a lane, the low word first (R14). -/
def Group.vpair (g : Group) (r l : Nat) : W64 := g.vreg (r + 1) l ++ g.vreg r l
/-- s[n]. -/
def Group.sreg (g : Group) (n : Nat) : W64 := SMap.get 0#64 g.s n
/-- m[n]; m0 reads all ones. -/
def Group.mreg (g : Group) (n : Nat) : W64 := if n = 0 then BitVec.allOnes 64 else SMap.get 0#64 g.m n
/-- j[n] (R49). -/
def Group.jreg (g : Group) (n : Nat) : W64 := SMap.get 0#64 g.j n
/-- k[n]; k0 reads all ones. -/
def Group.kreg (g : Group) (n : Nat) : W64 := if n = 0 then BitVec.allOnes 64 else SMap.get 0#64 g.k n

/-- The register a scalar-field value names (R15). -/
def scalarName (v : Nat) : Option RegName :=
  if v < 0x40 then some (.s v) else if v < 0x50 then some (.m (v - 0x40)) else if v < 0x58 then some (.j (v - 0x50))
  else if v < 0x60 then some (.k (v - 0x58)) else none

/-- The value of a scalar-field register (R15). -/
def Group.scalar (g : Group) (v : Nat) : W64 :=
  match scalarName v with
  | some (.s n) => g.sreg n
  | some (.m n) => g.mreg n
  | some (.j n) => g.jreg n
  | some (.k n) => g.kreg n
  | _ => 0#64

/-! ## Writing registers -/

/-- A write made at once: a lane register's values by lane (0 to 63), another register's value under key 0. m0 and k0 are never
written (R80); bits of j at the width and above, and of exited lanes, read 0 (R49). -/
def Group.poke (g : Group) (r : RegName) (vals : SMap W64) : Group :=
  match r with
  | .v n => { g with
      v := vals.foldl (fun v p => if p.1 < 64 then SMap.put 0#32 v (64 * n + p.1) (p.2.setWidth 32) else v) g.v }
  | .s n => { g with s := SMap.put 0#64 g.s n (SMap.get 0#64 vals 0) }
  | .m n => if n = 0 then g else { g with m := SMap.put 0#64 g.m n (SMap.get 0#64 vals 0) }
  | .j n => { g with j := SMap.put 0#64 g.j n (SMap.get 0#64 vals 0 &&& fullMask g.width &&& ~~~g.exited) }
  | .k n => if n = 0 then g else { g with k := SMap.put 0#64 g.k n (SMap.get 0#64 vals 0) }

/-- Pending writes made, in their order. -/
def Group.pokeAll (g : Group) (ps : List PendWrite) : Group := ps.foldl (fun g p => g.poke p.reg p.values) g

/-- The pending writes complete at a stall position (R21 to R23). -/
def Group.commit (g : Group) (pos : Nat) : Group :=
  { g.pokeAll (g.pend.filter fun p => decide (p.ready ≤ pos)) with pend := g.pend.filter fun p => decide (pos < p.ready) }

/-- All pending writes complete (R24). -/
def Group.commitAll (g : Group) : Group := { g.pokeAll g.pend with pend := [] }

/-- Pending writes that a younger direct write replaces, lane by lane. R22 and R23 speak of fixed-latency producers alone; that
a variable-latency result takes the register at once, drops the older fixed-latency write that is pending there in its lanes
and is no stall-short case is a choice of the model (log 108). -/
def Group.forget (g : Group) (r : RegName) (vals : SMap W64) : Group :=
  let cut := fun (p : PendWrite) =>
    if p.reg = r then { p with values := p.values.filter fun x => !(vals.any fun y => y.1 == x.1) } else p
  { g with pend := (g.pend.map cut).filter fun p => p.reg != r || !p.values.isEmpty }

/-- A register written by an instruction at a stall position: at its latency, or at once for latency 0, a
variable-latency result (R21). -/
def Group.write (g : Group) (pos lat : Nat) (r : RegName) (vals : SMap W64) : Group :=
  if lat = 0 then (g.forget r vals).poke r vals
  else { g with pend := insertBy (·.ready) { reg := r, values := vals, ready := pos + lat } g.pend }

/-- One value for a register that is no lane register. -/
def Group.writeOne (g : Group) (pos lat : Nat) (r : RegName) (x : W64) : Group := g.write pos lat r [(0, x)]

/-- A direct write of a scalar register; 0xFF discards (R15). -/
def Group.setScalar (g : Group) (field : Nat) (x : W64) : Group :=
  match scalarName field with
  | some r => g.writeOne 0 0 r x
  | none => g

/-! ## Joins (R49 to R54) -/

/-- Lanes parked at a join (R52). -/
def Group.parkedAt (g : Group) (j : Nat) : W64 :=
  g.maskBy fun l => match l.st with | .parked k _ => k == j | _ => false

/-- What a lane that stops waiting becomes: running, or held while a handler runs in other lanes (R360). A lane of H that
slept or waited in the handler runs on there, as R253 has it of a handler that sleeps (log 43). -/
def Group.resumed (g : Group) (l : Nat) : LaneState := if g.inh && !g.hlanes.getLsbD l then .held else .running

/-- A mask register's pending writes made and one bit of it then set or cleared. A fixed-latency write of the marking mask
that is still pending completes here, early: R52 does not say how it and the mark combine (a choice of the model,
log 96). -/
def Group.markBit (g : Group) (n l : Nat) (on : Bool) : Group :=
  let g := { g.pokeAll (g.pend.filter fun p => p.reg == RegName.m n) with pend := g.pend.filter fun p => p.reg != RegName.m n }
  g.poke (.m n) [(0, if on then g.mreg n ||| bit l else g.mreg n &&& ~~~bit l)]

/-- The lanes of a join released, each setting or clearing its bit of its marking mask (R52, R53). -/
def Group.releaseJoin (g : Group) (j : Nat) (mark : Bool) : Group :=
  let ls := lanesOf (g.parkedAt j) g.width
  let g := ls.foldl (fun g l =>
    match (g.lanes[l]?).map (·.st) with
    | some (.parked _ (some b)) => g.markBit b l mark
    | _ => g) g
  let lanes := (List.range g.lanes.length).filterMap fun l =>
    (g.lanes[l]?).map fun (x : Lane) => bif ls.contains l then { x with st := g.resumed l } else x
  { g with lanes, episodes := g.episodes.filter fun e => e.join != j }

/-- Join j evaluated (R52). A held lane that j names is not in Parked(j) and keeps j from completing, though R360 has it belong to no
join (a choice of the model, log 128). -/
def Group.evalJoin (g : Group) (j : Nat) : Group :=
  let p := g.parkedAt j
  if p ≠ 0#64 ∧ g.jreg j &&& ~~~g.exited &&& ~~~p = 0#64 then g.releaseJoin j false else g

/-- All joins evaluated (R55). -/
def Group.evalJoins (g : Group) : Group := (List.range 8).foldl (fun g j => g.evalJoin j) g

/-- Parked lanes that nothing can release are released as at a timeout (R54). -/
def Group.settleJoins (g : Group) : Group :=
  if g.lanes.any (·.st.isParked) && !g.lanes.any (·.st.isRunning) && !g.lanes.any (·.st.isAsleep) then
    (List.range 8).foldl (fun g j => g.releaseJoin j true) g
  else g

/-! ## Taking a trap (R359, R360, R364) -/

/-- Causes that go straight to the fault policy (R359). -/
def policyCause (cause : BitVec 8) : Bool := [0x04#8, 0x0D#8, 0x0E#8].contains cause

/-- Entry into the context's handler (R360). Traps that wait for the next issue still wait, one of divergence starvation too
(R46). -/
def Group.enterHandler (g : Group) (r : Trapped) (handler : W64) : Group :=
  let h := g.at_ r.pc.toNat
  { g with
    xcause := r.cause, xpc := r.pc, xval := r.val, xmask := r.mask, inh := true, hlanes := h, starve := 0
    lanes := (List.range g.lanes.length).filterMap fun l => (g.lanes[l]?).map fun x =>
      bif h.getLsbD l then { x with pc := handler } else bif x.st.isRunning then { x with st := .held } else x }

/-- A group that takes a trap no longer waits at a stape (R183). -/
def Chip.leaveGates (c : Chip) (gid : Nat) : Chip :=
  { c with regions := c.regions.map (Region.without [gid]) }

/-- TAKING A TRAP: every pending fixed-latency write completes (R24); then the group enters its handler, or the fault
policy of its launch is applied (R360, R364). -/
def Chip.takeTrap (c : Chip) (g : Group) (r : Trapped) : Chip :=
  let g := g.commitAll
  let c := c.leaveGates g.id
  match c.team? g.team with
  | none => c
  | some t =>
    let xh := (c.context (c.ctxOf t)).xhandler
    if !policyCause r.cause && xh != 0#64 && !g.inh then c.setGroup (g.enterHandler r xh)
    else (c.setGroup g).policy g r g.inh

/-- RETURNING FROM A TRAP (R363): the running lanes go to xpc and the held ones run again. -/
def Group.returnFromTrap (g : Group) : Group :=
  { g with
    inh := false, hlanes := 0
    lanes := g.lanes.map fun l => match l.st with
      | .running => { l with pc := g.xpc }
      | .held => { l with st := .running }
      | _ => l }

/-- A group whose handler's lanes have all exited leaves its handler (R361). -/
def Group.leaveHandler (g : Group) : Group :=
  if g.inh && g.hlanes &&& ~~~g.exited == 0#64 then
    { g with
      inh := false, hlanes := 0
      lanes := g.lanes.map fun l => match l.st with | .held => { l with st := .running } | _ => l }
  else g

/-! ## What an instruction reads and writes -/

/-- Opcode, mask register, STALL and length in bytes of an instruction. -/
structure Shape where
  op    : Nat
  q     : Nat
  stall : Nat
  len   : Nat
  deriving DecidableEq, Repr

/-- Length in bytes of a form (R9). -/
def Form.bytes : Form → Nat
  | .e => 12 | .el _ => 20 | .bl _ => 12

/-- The shape of an instruction; an event has none. -/
def shapeOf (i : Instr) : Option Shape :=
  match rowOf i, encOf i with
  | some r, some e => some { op := r.op, q := e.q.toNat, stall := e.stall.toNat, len := Form.bytes e.form }
  | _, _ =>
    match bEncOf i with
    | some (op, b) => some { op, q := b.q.toNat, stall := b.stall.toNat, len := 4 }
    | none =>
      match i with
      | .pair p => some { op := 0x7E, q := p.q.toNat, stall := p.stall.toNat, len := 12 }
      | .illegal ws => some { op := 0x7F, q := 0, stall := 0, len := 4 * ws.length }
      | _ => none

/-- Latency of an opcode; 0 for a variable-latency one (R21). -/
def latencyOf (op : Nat) : Nat :=
  if 0x10 ≤ op ∧ op ≤ 0x2A then 4
  else if 0x50 ≤ op ∧ op ≤ 0x55 then 4
  else if 0x30 ≤ op ∧ op ≤ 0x3B then 6
  else if [0x40, 0x41, 0x42, 0x44, 0x45, 0x46, 0x48, 0x49, 0x4A, 0x4E].contains op then 6
  else 0

/-- Vector registers from v[n] on. -/
def vecRegs (v n : Nat) : List RegName := (List.range n).map fun i => .v (v + i)

/-- Scalar-field registers from a value on. -/
def scalarRegs (v n : Nat) : List RegName := (List.range n).filterMap fun i => scalarName (v + i)

/-- Registers that a field reads (R14, R15, R113). -/
def Fld.reads (sc : Bool) (v : Nat) : Fld → List RegName
  | .vs n _ => if v = 0xFF then [] else vecRegs v n
  | .vblk n _ => vecRegs v n
  | .lane n => if v = 0xFF then [] else if sc then scalarRegs v 1 else vecRegs v n
  | .ss _ _ n _ => scalarRegs v n
  | .sdr _ => scalarRegs v 1
  | .pred _ => if v / 32 = 0 then [] else [.k (v / 32)]
  | _ => []

/-- Registers that a field writes. -/
def Fld.writes (v : Nat) : Fld → List RegName
  | .vd n _ => if v = 0xFF then [] else vecRegs v n
  | .sd _ _ n _ => scalarRegs v n
  | .sdr _ => scalarRegs v 1
  | _ => []

/-- Scale registers that IMM32 of an mma.lg6 names (R146). -/
def immReads : Instr → List RegName
  | .mmaLg6 e =>
    [e.imm.toNat % 256, e.imm.toNat / 256 % 256].flatMap fun n => if n = 0xFF then [] else [.v n]
  | _ => []

/-- Registers of a block of a hard instruction (R165, R180). -/
def hardRegs (e : Enc) (w : Nat) (r : BitVec 8) : List RegName :=
  if r = 0xFF#8 then [] else vecRegs r.toNat (blockRegs e.imm.toNat w)

/-- The registers that the encoding of an instruction names as read. -/
def namedReads (i : Instr) (w : Nat) : List RegName :=
  let q := match shapeOf i with | some s => if s.q = 0 then [] else [.m s.q] | none => []
  match i with
  | .pair p =>
    q ++ (pairReads p.p1.toNat p.d1.toNat p.a1.toNat p.b1.toNat
      ++ pairReads p.p2.toNat p.d2.toNat p.a2.toNat p.b2.toNat).map RegName.v
  | .hardIdx e | .hardOnehot e => q ++ hardRegs e w e.a
  | _ =>
    match rowOf i, encOf i with
    | some r, some e =>
      q ++ immReads i ++ r.d.reads false e.d.toNat ++ r.a.reads e.as_ e.a.toNat ++ r.b.reads e.bs e.b.toNat
        ++ r.c.reads false e.c.toNat
    | _, _ =>
      match bEncOf i with
      | some (op, b) =>
        match bRow op b with
        | some r =>
          let e := shortEnc op .e b
          q ++ r.d.reads false e.d.toNat ++ r.a.reads e.as_ e.a.toNat ++ r.b.reads e.bs e.b.toNat
            ++ r.c.reads false e.c.toNat
        | none => q
      | none => q

/-- The register of the sequence number of a soft operation, which it reads in ordered mode only (R167), but for one that
also names its descriptor. -/
def seqReads : Instr → List RegName
  | .sldFwd e | .sldBwd e | .sstBlend e | .sstWrite e | .sstAdd e | .sstBwd e => scalarRegs (e.a.toNat + 1) 1
  | .sseq e => if e.b = 0xFF#8 ∨ e.b = e.a then [] else scalarRegs e.b.toNat 1
  | _ => []

/-- Registers an instruction reads, as the scoreboard sees them (R21, R22). -/
def readsOf (i : Instr) (w : Nat) : List RegName := (namedReads i w).filter fun r => !(seqReads i).contains r

/-- Registers an instruction writes, each with the latency of its write (R21). -/
def writesOf (i : Instr) (w : Nat) : List (RegName × Nat) :=
  match i with
  | .pair p =>
    (pairWrites p.p1.toNat p.d1.toNat).map (fun n => (RegName.v n, latencyOf (p.p1.toNat + 0x10)))
      ++ (pairWrites p.p2.toNat p.d2.toNat).map fun n => (RegName.v n, latencyOf (p.p2.toNat + 0x10))
  | .hardOnehot e => (hardRegs e w e.d).map fun r => (r, 0)
  | _ =>
    match rowOf i, encOf i with
    | some r, some e =>
      (r.d.writes e.d.toNat ++ r.a.writes e.a.toNat ++ r.b.writes e.b.toNat ++ r.c.writes e.c.toNat).map
        fun n => (n, latencyOf r.op)
    | _, _ =>
      match bEncOf i with
      | some (op, b) =>
        match bRow op b with
        | some r => (r.d.writes b.d.toNat).map fun n => (n, latencyOf op)
        | none => []
      | none => []

/-- Cycles in which a fixed-latency instruction completes; 0 for a variable-latency one (R21). -/
def fixedLatency (i : Instr) : Nat :=
  match i with
  | .pair p => max (latencyOf (p.p1.toNat + 0x10)) (latencyOf (p.p2.toNat + 0x10))
  | _ => latencyOf (((shapeOf i).map (·.op)).getD 0)

/-- The pipe of an instruction (R38). -/
def pipeOf (i : Instr) : Pipe :=
  match i with
  | .pair p => if p.p1.toNat ≤ 0x1A ∧ p.p2.toNat ≤ 0x1A then .int else .fp
  | _ =>
    let op := ((shapeOf i).map (·.op)).getD 0
    if (0x10 ≤ op ∧ op ≤ 0x2A) ∨ (0x50 ≤ op ∧ op ≤ 0x55) then .int
    else if 0x30 ≤ op ∧ op ≤ 0x46 then .fp
    else if 0x48 ≤ op ∧ op ≤ 0x4E then .xch
    else if (0x58 ≤ op ∧ op ≤ 0x5D) ∨ (0x64 ≤ op ∧ op ≤ 0x72) then .mem
    else if 0x60 ≤ op ∧ op ≤ 0x62 then .mx
    else .ctl

/-- Instructions that write memory, which a release that has not completed keeps back: stores, movx and fw among them (R88,
R313), strl, atoms, pushes, drains, soft operations, the instructions that write a soft region's D fields, and hash
operations (R229, R238). -/
def writesMemory : Instr → Bool
  | .sts _ _ | .stsv _ | .movx _ | .fw _ | .tst _ | .tcvt _ | .tdrain _ | .tdrainAdd _ | .stg _ _ | .stsc _ | .strl _ | .atom _ _
  | .pushCopy _ | .pushIndex _ | .pushAttn _ | .pushColl _
  | .sldFwd _ | .sldBwd _ | .sstBlend _ | .sstWrite _ | .sstAdd _ | .sstBwd _ | .sseq _
  | .hopIns _ | .hopProbe _ | .hopDel _ | .hopAcc _ _ | .hopIns64 _ | .hopProbe64 _ | .hopDel64 _ | .hopAcc64 _
  | .hdrainKeep _ | .hdrainClear _ | .hclaim _ | .hclr _ | .sinit _ | .sinitRel _ | .sfence _ | .stape _ => true
  | _ => false

/-- Instructions that an acquire that has not completed keeps back: memory and MX instructions, and pushes (R238). -/
def usesMemory (i : Instr) : Bool :=
  pipeOf i == .mem || pipeOf i == .mx || (match i with | .pushCopy _ | .pushIndex _ | .pushAttn _ | .pushColl _ => true | _ => false)

/-- Whether a fence keeps an instruction of its group back (R238, R240). -/
def Fence.keeps (f : Fence) (i : Instr) : Bool := !f.holds && ((f.acq && usesMemory i) || (f.rel && writesMemory i))

/-- Whether a fence, ldac or strl of a group that has not completed keeps an instruction back. -/
def Chip.fenced (c : Chip) (gid : Nat) (i : Instr) : Bool := c.fences.any fun f => f.group == gid && f.keeps i

/-! ## The issue of one instruction (R30, R43 to R46) -/

/-- An instruction at its issue: its group as it stands (fixed-latency writes due are in), the same group with its
lanes at the issue address moved past the instruction and the bookkeeping of the issue done, and what the effect needs
to know. -/
structure Issue where
  core : Nat
  ctx  : Nat
  desc : Desc
  team : Team
  now  : Nat
  g0   : Group
  g    : Group
  ia   : Nat
  len  : Nat
  /-- running lanes at the issue address -/
  here : W64
  /-- the active ones (R8) -/
  act  : W64
  pos  : Nat
  lat  : Nat

/-- What an effect comes to. -/
inductive Eff (α : Type) where
  | ok (a : α)
  /-- a precise trap on the instruction: cause, xval, xmask -/
  | trap (cause : BitVec 8) (val mask : W64)
  /-- a trap taken at once after the instruction has completed, at the next address (R362) -/
  | after (a : α) (cause : BitVec 8) (val mask : W64)
  /-- an imprecise trap of the team: cause and xval (R160, R376) -/
  | teamTrap (a : α) (cause : BitVec 8) (val : W64)
  /-- the instruction cannot issue yet; the group tries again in the next cycle. It waits by a rule that R39 does not list, so the
  group has counted as ready, has taken its slot's turn and keeps its place as primary (a choice of the model, log 127) -/
  | stall
  /-- the same, with something kept: the instruction has arrived where it waits -/
  | stallWith (a : α)

/-- An effect's state changed. -/
def Eff.map {α β : Type} (f : α → β) : Eff α → Eff β
  | .ok a => .ok (f a)
  | .trap c v m => .trap c v m
  | .after a c v m => .after (f a) c v m
  | .teamTrap a c v => .teamTrap (f a) c v
  | .stall => .stall
  | .stallWith a => .stallWith (f a)

/-- Words 0 and 1 of an instruction's words, as xval of R30 and R359 (0x13) holds them; word 1 is 0 where the
instruction has no E words. -/
def packWords : List W32 → W64
  | [w0] => (0#32 : W32) ++ w0
  | w0 :: w1 :: _ => (bif w0.toNat % 4 == 2 then 0#32 else w1) ++ w0
  | [] => 0#64

/-- Words 0 and 1 of an instruction. -/
def xvalWords (i : Instr) : W64 := packWords (encode i)

/-- A group as its instruction issues: lanes at the issue address past it, the starvation count (R45), the earliest
next issue and the stall position of the next instruction (R20). -/
def Group.issued (g : Group) (now ia len stall : Nat) : Group :=
  let waiting := g.lanes.any fun l => l.st.isRunning && decide (ia < l.pc.toNat)
  { g with
    lanes := g.lanes.map fun l =>
      bif l.st.isRunning && l.pc.toNat == ia then { l with pc := l.pc + BitVec.ofNat 64 len } else l
    starve := if waiting then g.starve + 1 else 0
    readyAt := now + 1 + stall
    dist := g.dist + 1 + stall
    begun := true }

/-- A starvation count that has reached WD_STARVE leaves its trap for the next issue (R46). -/
def Group.watch (g : Group) (limit : Nat) : Group :=
  if limit ≠ 0 ∧ g.starve = limit then
    { g with pendTraps := g.pendTraps ++ [{ cause := 0x04, val := BitVec.ofNat 64 g.starve, mask := 0 }] }
  else g

/-- A fixed-latency instruction completes by a cycle (R21, R84). -/
def Group.settleBy (g : Group) (cyc : Nat) : Group := { g with fixedBy := max g.fixedBy cyc }

/-- A storage error of a team: every group stops and the policy is applied once (R160, R364, R376). -/
def Chip.teamTrap (c : Chip) (g : Group) (cause : BitVec 8) (val : W64) : Chip :=
  let pc := (g.issueAddress).getD (2 ^ 64 - 1)
  (c.setGroup g.commitAll).policy g.commitAll
    { cause, pc := BitVec.ofNat 64 pc, val, mask := g.at_ pc } g.inh

/-- A group that cannot issue tries again in the next cycle. -/
def Chip.retry (c : Chip) (gid : Nat) : Chip := c.onGroup gid fun g => { g with readyAt := c.cyc + 1 }

/-- An effect carried out on the chip (R30, R43, R359). -/
def Chip.settle (c : Chip) (x : Issue) : Eff Chip → Chip
  | .ok a => a
  | .trap cause val mask =>
    c.takeTrap x.g0 { cause, pc := BitVec.ofNat 64 x.ia, val, mask }
  | .after a cause val mask =>
    match a.group? x.g.id with
    | some g => a.takeTrap g { cause, pc := BitVec.ofNat 64 (x.ia + x.len), val, mask }
    | none => a
  | .teamTrap a cause val =>
    match a.group? x.g.id with
    | some g => a.teamTrap g cause val
    | none => a
  | .stall => c.retry x.g.id
  | .stallWith a => (a.setGroup x.g0).retry x.g.id

/-- The registers a pending producer of variable latency keeps an instruction from (R21). One that only writes such a register waits
too, and its group is not ready meanwhile, though R21 and R39 speak of readers and operands (a choice of the model, log 126). -/
def Group.mustWait (g : Group) (now : Nat) (rs : List RegName) (ws : List (RegName × Nat)) : Bool :=
  let waits := fun r => g.busy.contains r || g.due.any fun d => d.1 == r && decide (now < d.2)
  rs.any waits || ws.any fun w => waits w.1

/-- Registers that may not be read before a cycle (R87, R218, R292). -/
def Group.hold (g : Group) (now until_ : Nat) (rs : List RegName) : Group :=
  { g with due := g.due.filter (fun d => decide (now < d.2)) ++ rs.map fun r => (r, until_) }

/-- R22 and R23: a read at a distance below its producer's latency, or a write that would complete before an older
one of the same register. -/
def Group.stallShort (g : Group) (pos : Nat) (rs : List RegName) (ws : List (RegName × Nat)) : Bool :=
  g.pend.any fun p => rs.contains p.reg || ws.any fun w => w.1 == p.reg && w.2 != 0 && decide (pos + w.2 < p.ready)

/-- The issue of an instruction by a group of the chip: none where the group, its team or its launch does not exist or
the group has no running lane. -/
def Chip.issueAt (c : Chip) (gid : Nat) (i : Instr) : Option Issue :=
  match c.group? gid with
  | none => none
  | some g =>
    match c.team? g.team, g.issueAddress, shapeOf i with
    | some t, some ia, some sh =>
      match c.launchOf t with
      | none => none
      | some l =>
        let g0 := g.commit g.dist
        let here := g0.at_ ia
        some
          { core := t.core, ctx := l.ctx, desc := l.desc, team := t, now := c.cyc, g0
            g := ((g0.issued c.cyc ia sh.len sh.stall).watch (c.context l.ctx).wdStarve).settleBy (c.cyc + fixedLatency i)
            ia, len := sh.len, here, act := here &&& g0.mreg sh.q, pos := g.dist, lat := latencyOf sh.op }
    | _, _, _ => none

/-- The issue of an instruction whose effect acts on the chip. `more` names registers that the encoding alone does not
give. The first issue of a group acquires at device scope (R306). -/
def issueMore (i : Instr) (s : State) (more : Chip → Issue → List RegName × List RegName)
    (f : Issue → Chip → Eff Chip) : Host.Outcome State Fault Refusal :=
  match s.current.bind fun gid => s.chip.issueAt gid i with
  | none => .fault .noIssuer
  | some x =>
    let rw := more s.chip x
    let rs := readsOf i x.g.width ++ rw.1
    let ws := writesOf i x.g.width ++ rw.2.map fun r => (r, 0)
    let c :=
      if x.g0.mustWait x.now rs ws || s.chip.fenced x.g.id i then s.chip.retry x.g.id
      else if x.g0.sbchk && x.g0.stallShort x.pos rs ws then s.chip.settle x (.trap 0x03 0#64 x.act)
      else
        let c := if x.g0.begun then s.chip else s.chip.acquire x.core .dev
        c.settle x (f x (c.setGroup x.g))
    .next { s with chip := c }

/-- The issue of an instruction whose effect acts on the chip. -/
def issueC (i : Instr) (s : State) (f : Issue → Chip → Eff Chip) : Host.Outcome State Fault Refusal :=
  issueMore i s (fun _ _ => ([], [])) f

/-- The issue of an instruction whose effect stays within its group. -/
def issueG (i : Instr) (s : State) (f : Issue → Eff Group) : Host.Outcome State Fault Refusal :=
  issueC i s fun x c => (f x).map c.setGroup

/-- The issue of an instruction that always has its effect within its group. -/
def issueOk (i : Instr) (s : State) (f : Issue → Group) : Host.Outcome State Fault Refusal :=
  issueG i s fun x => .ok (f x)

end Sys2Proof.Machine
end

