-- ==== Sys2Proof/Machine/Operands.lean ====
section
/-! DEFINITION. How an instruction reads its operands and writes its results: vector, scalar, literal and immediate
operands (R14 to R18, R113 to R115, R135). -/
namespace Sys2Proof.Machine

/-- The literal of an L form, zero otherwise (R14). -/
def Enc.lit (e : Enc) : W64 := (Form.lit e.form).getD 0#64

/-- IMM32 sign-extended, or the literal in its place (R17). -/
def Enc.imm64 (e : Enc) : W64 :=
  match e.form with
  | .e => e.imm.signExtend 64
  | .el l => l
  | .bl l => l

/-- A vector field at 32 bits: v[n], or the literal's low word or zero for 0xFF (R14, R18). -/
def Group.vec (g : Group) (e : Enc) (n : BitVec 8) (l : Nat) : W32 :=
  if n = 0xFF#8 then (Enc.lit e).setWidth 32 else g.vreg n.toNat l

/-- Register `i` of a block of vector registers; 0xFF reads zero. -/
def Group.vecAt (g : Group) (n : BitVec 8) (i l : Nat) : W32 := if n = 0xFF#8 then 0#32 else g.vreg (n.toNat + i) l

/-- A vector field at 64 bits: a pair, or the whole literal (R14). -/
def Group.vec2 (g : Group) (e : Enc) (n : BitVec 8) (l : Nat) : W64 :=
  if n = 0xFF#8 then Enc.lit e else g.vpair n.toNat l

/-- A or B of a lane instruction at 32 bits (R113): `sc` is AS or BS. -/
def Group.lane32 (g : Group) (e : Enc) (sc : Bool) (n : BitVec 8) (l : Nat) : W32 :=
  if sc ∧ n ≠ 0xFF#8 then (g.scalar n.toNat).setWidth 32 else g.vec e n l

/-- A or B of a lane instruction at 64 bits (R113). -/
def Group.lane64 (g : Group) (e : Enc) (sc : Bool) (n : BitVec 8) (l : Nat) : W64 :=
  if sc ∧ n ≠ 0xFF#8 then g.scalar n.toNat else g.vec2 e n l

/-- OpA of a lane (R113), at 32 bits. -/
def Group.opA (g : Group) (e : Enc) (l : Nat) : W32 := g.lane32 e e.as_ e.a l
/-- OpB of a lane (R113), at 32 bits. -/
def Group.opB (g : Group) (e : Enc) (l : Nat) : W32 := g.lane32 e e.bs e.b l
/-- OpC of a lane (R113), at 32 bits. -/
def Group.opC (g : Group) (e : Enc) (l : Nat) : W32 := g.vec e e.c l
/-- OpA of a lane at 64 bits. -/
def Group.opA64 (g : Group) (e : Enc) (l : Nat) : W64 := g.lane64 e e.as_ e.a l
/-- OpB of a lane at 64 bits. -/
def Group.opB64 (g : Group) (e : Enc) (l : Nat) : W64 := g.lane64 e e.bs e.b l
/-- OpC of a lane at 64 bits. -/
def Group.opC64 (g : Group) (e : Enc) (l : Nat) : W64 := g.vec2 e e.c l

/-- A of a scalar instruction: 0xFF reads the literal or zero (R135). -/
def Group.scalarA (g : Group) (e : Enc) : W64 := if e.a = 0xFF#8 then Enc.lit e else g.scalar e.a.toNat

/-- Op2 of a scalar instruction: B, or the immediate or literal for 0xFF (R135, R265, R322). -/
def Group.op2 (g : Group) (e : Enc) : W64 := if e.b = 0xFF#8 then Enc.imm64 e else g.scalar e.b.toNat

/-- A where 0xFF names the immediate or the literal (R202, R251, R268). -/
def Group.immA (g : Group) (e : Enc) : W64 := if e.a = 0xFF#8 then Enc.imm64 e else g.scalar e.a.toNat

/-- A scalar base: 0xFF is zero, or the literal of an E+L form (R17, R89). -/
def Group.baseS (g : Group) (e : Enc) : W64 := if e.a = 0xFF#8 then Enc.lit e else g.scalar e.a.toNat

/-- The active lanes of an issue, in ascending order. -/
def Issue.lanes (x : Issue) : List Nat := lanesOf x.act x.g.width

/-- A result of one register for each active lane, at the instruction's latency; 0xFF discards (R14, R115). -/
def Issue.put (x : Issue) (g : Group) (d : BitVec 8) (f : Nat → W32) : Group :=
  if d = 0xFF#8 then g
  else g.write x.pos x.lat (.v d.toNat) (x.lanes.map fun l => (l, (f l).setWidth 64))

/-- A result of a pair for each active lane (R14, R114). -/
def Issue.put2 (x : Issue) (g : Group) (d : BitVec 8) (f : Nat → W64) : Group :=
  if d = 0xFF#8 then g
  else
    (g.write x.pos x.lat (.v d.toNat) (x.lanes.map fun l => (l, (f l) &&& 0xFFFFFFFF#64))).write x.pos x.lat
      (.v (d.toNat + 1)) (x.lanes.map fun l => (l, (f l) >>> 32))

/-- A result of several registers for each active lane; register i of lane l is f i l. -/
def Issue.putN (x : Issue) (g : Group) (d : BitVec 8) (n : Nat) (f : Nat → Nat → W32) : Group :=
  if d = 0xFF#8 then g
  else (List.range n).foldl (fun g i =>
    g.write x.pos x.lat (.v (d.toNat + i)) (x.lanes.map fun l => (l, (f i l).setWidth 64))) g

/-- A group-scope result in the register that a scalar field names; 0xFF discards (R15, R44). -/
def Issue.putS (x : Issue) (g : Group) (d : BitVec 8) (v : W64) : Group :=
  match scalarName d.toNat with
  | some r => g.writeOne x.pos x.lat r v
  | none => g

/-- A lane mask with a bit for each active lane that a test names (R62, R120). -/
def Issue.laneMask (x : Issue) (p : Nat → Bool) : W64 := maskOf (x.lanes.filter p)

/-- Whether the type is 64 bits wide, and the result then a pair (R114): a 64-bit or a 32-bit result for each lane. -/
def Issue.putTy (x : Issue) (g : Group) (e : Enc) (f32 : Nat → W32) (f64 : Nat → W64) : Group :=
  if e.ty.is64 then x.put2 g e.d f64 else x.put g e.d f32

end Sys2Proof.Machine
end

