-- ==== Sys2Proof/Machine/Flags.lean ====
section
/-! DEFINITION. Saturation and the sticky flags (R8, R97, R110, R111). -/
namespace Sys2Proof.Machine

/-- A set of the five flags, laid out as fst: NV, DZ, OF, UF, NX from bit 4 down (R82). -/
abbrev Flags := BitVec 5

/-- Invalid. -/
def flagNV : Flags := 0x10
/-- Division by zero. -/
def flagDZ : Flags := 0x08
/-- Overflow. -/
def flagOF : Flags := 0x04
/-- Underflow. -/
def flagUF : Flags := 0x02
/-- Inexact. -/
def flagNX : Flags := 0x01

/-- A flag where a condition holds. -/
def flagIf (c : Bool) (f : Flags) : Flags := bif c then f else 0#5

/-- The flags of a list of elements, together. -/
def orFlags (fs : List Flags) : Flags := fs.foldl (· ||| ·) 0#5

/-- RaiseFlag (R8): flags become set in the group's fst. -/
def Group.raiseFlags (g : Group) (f : Flags) : Group := { g with fst := g.fst ||| f }

/-- SatS (R8). -/
def satS (x : Int) (n : Nat) : Int := max (-(2 ^ (n - 1))) (min x (2 ^ (n - 1) - 1))
/-- SatZ (R8). -/
def satZ (x : Int) (n : Nat) : Int := max 0 (min x (2 ^ n - 1))

/-- A word read as its type reads it (R97). -/
def intOf {n : Nat} (signed : Bool) (x : BitVec n) : Int := bif signed then x.toInt else (x.toNat : Int)

/-- An exact integer result narrowed to n bits: saturated under SAT, else wrapped (R97, R118). -/
def narrow (n : Nat) (signed sat : Bool) (x : Int) : BitVec n :=
  BitVec.ofInt n (bif sat then (bif signed then satS x n else satZ x n) else x)

/-- A lane result with flags for each active lane, raised for the active lanes only (R110). -/
def Issue.putF (x : Issue) (g : Group) (d : BitVec 8) (f : Nat → W32 × Flags) : Group :=
  (x.put g d fun l => (f l).1).raiseFlags (orFlags (x.lanes.map fun l => (f l).2))

end Sys2Proof.Machine
end

