-- ==== Sys2Proof/Machine/Control.lean ====
section
/-! DEFINITION. Control transfer, joins, exit, segments and the special registers (R47 to R61, R82 to R84). -/
namespace Sys2Proof.Machine

/-! ## Shared effects -/

/-- A transfer of every active lane to a target (R33, R48). -/
def Issue.transfer (x : Issue) (g : Group) (target : W64) : Eff Group :=
  if x.act ≠ 0#64 ∧ target.toNat % 4 ≠ 0 then .trap 0x09 target x.act
  else .ok (g.onLanes x.act fun l => { l with pc := target })

/-- The address of an instruction and a displacement (R17, R48). -/
def Issue.relative (x : Issue) (e : Enc) : W64 := BitVec.ofNat 64 x.ia + Enc.imm64 e

/-- Target of jmp, call and exitc: relative, or s[A] with AS (R48, R59). -/
def Issue.jumpTarget (x : Issue) (e : Enc) : W64 := if e.as_ then x.g.scalar e.a.toNat else x.relative e

/-- A join mask written and its join evaluated (R50, R52). -/
def Issue.setJoin (x : Issue) (d : BitVec 8) (v : W64) : Group :=
  let j := d.toNat - 0x50
  ((x.g.writeOne x.pos 0 (.j j) v).evalJoin j).settleJoins

/-- The active lanes of a group exit: its join masks lose them, its joins are evaluated, and a handler whose lanes
have all exited ends (R49, R52, R54, R55, R361). -/
def Group.exitLanes (g : Group) (m : W64) : Group :=
  let g := g.onLanes m fun l => { l with pc := BitVec.allOnes 64, st := .exited }
  let g := (List.range 8).foldl (fun g n => { g with j := SMap.put 0#64 g.j n (g.jreg n &&& ~~~g.exited) }) g
  g.leaveHandler.evalJoins.settleJoins

/-- The exit of the active lanes, as the chip sees it: freed slices return their granules, or leave them to the team's
reserve once a successor is recorded (R56, R78); a group that exits or falls asleep with it changes the activation
(R196, R198). -/
def Issue.exit (x : Issue) (c : Chip) : Chip :=
  let g := x.g.exitLanes x.act
  let n := (x.g.liveSlices - g.liveSlices) * x.desc.rq
  let c := c.setGroup g
  let keep := x.desc.maint && ((c.team? g.team).map fun t => !t.successor.isEmpty).getD false
  let c := bif keep then c.onTeam g.team fun t => { t with reserve := t.reserve + n }
    else bif n == 0 then c else c.giveBack x.core n
  if g.ordered = x.g.ordered then c else c.activate x.core

/-- A segment size written (R60, R61); `v` is the value that a trap reports. -/
def Issue.setSeg (x : Issue) (s : Nat) (v : W64) : Eff Group :=
  if segOk s x.g.width then .ok { x.g with seg := s } else .trap 0x01 v x.act

/-- Whether an older instruction of the group has not completed: a fixed-latency one, a pending register, an atom, a fence, a
store of a strl, a drain, a soft operation or a hash step (R84, R111). An fw whose reply is still out does not count: it issues, zeroes its
record and goes on, and no rule says that its reply is part of its completion (a choice of the model, log 104). -/
def Chip.olderPending (c : Chip) (g : Group) : Bool :=
  decide (c.cyc < g.fixedBy) || !g.busy.isEmpty || g.due.any (fun d => decide (c.cyc < d.2)) || c.atoms.any (fun a => a.group == g.id)
    || c.held.any (fun h => h.group == g.id) || c.fences.any (fun f => f.group == g.id) || c.drains.any (fun d => d.group == g.id)
    || c.regions.any (fun r => r.ops.any fun o => o.group == g.id)
    || c.teams.any (fun t => t.steps.any fun h => h.group == g.id)

/-- The lease state word (R195). -/
def Lease.word (l : Lease) : W64 :=
  BitVec.ofNat 64 (l.floor * 2 ^ 48 + l.meas * 2 ^ 32 + l.decl * 2 ^ 16 + l.mode * 2 ^ 12 + l.lines)

/-- A special register of group, core or device scope, zero-extended (R82). -/
def Issue.special (x : Issue) (c : Chip) (n : Nat) : W64 :=
  let nat := fun v => BitVec.ofNat 64 v
  match n with
  | 0x61 => nat x.g.width
  | 0x62 => nat x.g.grpidx
  | 0x63 => nat x.team.x
  | 0x64 => nat x.team.y
  | 0x65 => nat x.team.z
  | 0x66 => nat (x.desc.dxm1 + 1)
  | 0x67 => nat (x.desc.dym1 + 1)
  | 0x68 => nat (x.desc.dzm1 + 1)
  | 0x69 => nat c.cyc
  | 0x6A => nat x.core
  | 0x6C => nat x.g.seg
  | 0x6D => x.g.fst.setWidth 64
  | 0x6E => nat (x.g.wakeGated.toNat * 8 + x.g.wakeReason.toNat)
  | 0x6F => nat (x.g.lease.mode * 2 ^ 12 + x.g.lease.lines)
  | 0x70 => nat x.g.sbchk.toNat
  | 0x71 => x.g.xcause.setWidth 64
  | 0x72 => x.g.xpc
  | 0x73 => x.g.xval
  | 0x74 => x.g.xmask
  | 0x75 => c.devid.setWidth 64
  | _ => 0#64

/-- The special registers that wait for every older instruction: fst, wake, lease and gctl (R84). -/
def waitsForOlder (n : Nat) : Bool := [0x6D, 0x6E, 0x6F, 0x70].contains n

/-- The bits that a writable special register defines (R82, R84). -/
def specialBits (n : Nat) : W64 :=
  match n with
  | 0x6C => 0x7F#64
  | 0x6D => 0x1F#64
  | 0x70 => 0x1#64
  | 0x71 => 0xFF#64
  | _ => BitVec.allOnes 64

/-- A special register written (R84). -/
def Issue.setSpecial (x : Issue) (n : Nat) (v : W64) : Eff Group :=
  if v &&& ~~~specialBits n ≠ 0#64 then .trap 0x02 v x.act
  else
    match n with
    | 0x6C => x.setSeg v.toNat v
    | 0x6D => .ok { x.g with fst := v.setWidth 5 }
    | 0x70 => .ok { x.g with sbchk := v.getLsbD 0 }
    | 0x71 => .ok { x.g with xcause := v.setWidth 8 }
    | 0x72 => .ok { x.g with xpc := v }
    | 0x73 => .ok { x.g with xval := v }
    | 0x74 => .ok { x.g with xmask := v }
    | _ => .trap 0x01 v x.act

/-! ## Meanings -/

/-- nop (R47): the lanes move past it. -/
def execNop (e : Enc) (s : State) : Host.Outcome State Fault Refusal := issueOk (.nop e) s fun x => x.g
/-- nop, B form. -/
def execNopB (b : BEnc) (s : State) : Host.Outcome State Fault Refusal := issueOk (.nopB b) s fun x => x.g

/-- br (R48). -/
def execBr (e : Enc) (s : State) : Host.Outcome State Fault Refusal :=
  issueG (.br e) s fun x => x.transfer x.g (x.relative e)

/-- jmp (R48). -/
def execJmp (e : Enc) (s : State) : Host.Outcome State Fault Refusal :=
  issueG (.jmp e) s fun x => x.transfer x.g (x.jumpTarget e)

/-- call (R48): the target is read before s[D] is written. -/
def execCall (e : Enc) (s : State) : Host.Outcome State Fault Refusal :=
  issueG (.call e) s fun x =>
    (x.transfer x.g (x.jumpTarget e)).map fun g => x.putS g e.d (BitVec.ofNat 64 (x.ia + x.len))

/-- ret (R48). -/
def execRet (e : Enc) (s : State) : Host.Outcome State Fault Refusal :=
  issueG (.ret e) s fun x => x.transfer x.g (x.g.scalar e.a.toNat)
/-- ret, B form. -/
def execRetB (b : BEnc) (s : State) : Host.Outcome State Fault Refusal :=
  issueG (.retB b) s fun x => x.transfer x.g (x.g.scalar b.a.toNat)

/-- jset.m (R50). -/
def execJsetM (e : Enc) (s : State) : Host.Outcome State Fault Refusal :=
  issueOk (.jsetM e) s fun x => x.setJoin e.d (x.g.scalarA e)
/-- jset.act (R50). -/
def execJsetAct (e : Enc) (s : State) : Host.Outcome State Fault Refusal :=
  issueOk (.jsetAct e) s fun x => x.setJoin e.d x.act
/-- jclr (R50). -/
def execJclr (e : Enc) (s : State) : Host.Outcome State Fault Refusal :=
  issueOk (.jclr e) s fun x => x.setJoin e.d 0#64

/-- The timeout of a jwait: IMM32 unsigned, or the literal (R51). -/
def jwaitTimeout (e : Enc) : Nat :=
  match e.form with
  | .e => e.imm.toNat
  | .el l => l.toNat
  | .bl l => l.toNat

/-- jwait (R51 to R54): the active lanes park; an episode opens where none was parked. -/
def execJwait (e : Enc) (s : State) : Host.Outcome State Fault Refusal :=
  issueOk (.jwait e) s fun x =>
    let j := e.a.toNat - 0x50
    let mark := if e.b = 0xFF#8 then none else some (e.b.toNat - 0x40)
    if x.act = 0#64 then x.g
    else
      let opens := x.g.parkedAt j == 0#64
      let g := x.g.onLanes x.act fun l => { l with st := .parked j mark }
      let g := if opens then { g with episodes := g.episodes ++ [{ join := j, t0 := x.now, t := jwaitTimeout e }] } else g
      (g.evalJoin j).settleJoins

/-- exit (R55 to R57). -/
def execExit (e : Enc) (s : State) : Host.Outcome State Fault Refusal := issueC (.exit e) s fun x c => .ok (x.exit c)
/-- exit, B form. -/
def execExitB (b : BEnc) (s : State) : Host.Outcome State Fault Refusal := issueC (.exitB b) s fun x c => .ok (x.exit c)

/-- exitc (R59): a trap outside a maintenance launch; else the target is recorded and the active lanes exit. -/
def execExitc (e : Enc) (s : State) : Host.Outcome State Fault Refusal :=
  issueC (.exitc e) s fun x c =>
    let t := x.jumpTarget e
    if !x.desc.maint then .trap 0x12 0#64 x.act
    else if x.act ≠ 0#64 ∧ t.toNat % 4 ≠ 0 then .trap 0x09 t x.act
    else
      let c := if x.act = 0#64 then c
        else c.onTeam x.team.id fun u =>
          { u with successor := u.successor.filter (fun p => p.1 != x.g.grpidx) ++ [(x.g.grpidx, t)] }
      .ok (x.exit c)

/-- seg (R61). -/
def execSeg (e : Enc) (s : State) : Host.Outcome State Fault Refusal :=
  issueG (.seg e) s fun x =>
    let v := if e.as_ then x.g.scalar e.a.toNat else e.a.setWidth 64
    x.setSeg v.toNat v
/-- seg, B form. -/
def execSegB (b : BEnc) (s : State) : Host.Outcome State Fault Refusal :=
  issueG (.segB b) s fun x => x.setSeg b.a.toNat (b.a.setWidth 64)

/-- gsr (R83, R84). -/
def execGsr (e : Enc) (s : State) : Host.Outcome State Fault Refusal :=
  issueC (.gsr e) s fun x c =>
    let n := e.a.toNat
    if waitsForOlder n && c.olderPending x.g then .stall
    else
      .ok (c.setGroup (match n with
        | 0x60 => x.put x.g e.d fun l => BitVec.ofNat 32 l
        | 0x6B => x.put2 x.g e.d fun l => ((x.g0.lanes[l]?).map (·.pc)).getD 0#64
        | _ => x.putS x.g e.d (x.special c n)))

/-- ssr (R83, R84). -/
def execSsr (e : Enc) (s : State) : Host.Outcome State Fault Refusal :=
  issueC (.ssr e) s fun x c =>
    let n := e.d.toNat
    if waitsForOlder n && c.olderPending x.g then .stall
    else (x.setSpecial n (x.g.baseS e)).map c.setGroup

end Sys2Proof.Machine
end

