-- ==== Sys2Proof/Machine/Float.lean ====
section
/-! DEFINITION. The binary formats, exact sums and products, rounding, conversions, special functions, and the LG6
format (R8, R94 to R109, R123, R127, R131). -/
namespace Sys2Proof.Machine

/-- A binary format: exponent bits and fraction bits (R94). -/
structure Fmt where
  eb : Nat
  mb : Nat
  deriving DecidableEq, Repr

def fmtF32 : Fmt := { eb := 8, mb := 23 }
def fmtF16 : Fmt := { eb := 5, mb := 10 }
def fmtBF16 : Fmt := { eb := 8, mb := 7 }

/-- The format of a floating-point type; f32 for the others. -/
def Fmt.ofTy : Ty → Fmt
  | .f16 => fmtF16
  | .bf16 => fmtBF16
  | _ => fmtF32

def Fmt.bits (f : Fmt) : Nat := 1 + f.eb + f.mb
def Fmt.bias (f : Fmt) : Int := 2 ^ (f.eb - 1) - 1
/-- Exponent of the smallest normal number. -/
def Fmt.emin (f : Fmt) : Int := 1 - f.bias
/-- Exponent of the largest finite number. -/
def Fmt.emax (f : Fmt) : Int := f.bias

/-- A floating-point value: a NaN, an infinity, or ±m × 2^e. -/
inductive FVal where
  | nan (signalling : Bool)
  | inf (neg : Bool)
  | fin (neg : Bool) (m : Nat) (e : Int)
  deriving DecidableEq, Repr

/-- The value of a bit string (R94). -/
def Fmt.decode (f : Fmt) (x : Nat) : FVal :=
  let neg := x / 2 ^ (f.eb + f.mb) % 2 == 1
  let ex := x / 2 ^ f.mb % 2 ^ f.eb
  let m := x % 2 ^ f.mb
  if ex = 2 ^ f.eb - 1 then
    if m = 0 then .inf neg else .nan (m / 2 ^ (f.mb - 1) == 0)
  else if ex = 0 then .fin neg m (f.emin - f.mb)
  else .fin neg (2 ^ f.mb + m) ((ex : Int) - f.bias - f.mb)

/-- CanonNaN (R8). -/
def Fmt.nan (f : Fmt) : Nat := (2 ^ f.eb - 1) * 2 ^ f.mb + 2 ^ (f.mb - 1)
def Fmt.signBit (f : Fmt) (neg : Bool) : Nat := neg.toNat * 2 ^ (f.eb + f.mb)
def Fmt.inf (f : Fmt) (neg : Bool) : Nat := f.signBit neg + (2 ^ f.eb - 1) * 2 ^ f.mb
def Fmt.largest (f : Fmt) (neg : Bool) : Nat := f.inf neg - 1

def FVal.isNaN : FVal → Bool
  | .nan _ => true
  | _ => false
def FVal.isSig : FVal → Bool
  | .nan s => s
  | _ => false
def FVal.neg : FVal → FVal
  | .nan s => .nan s
  | .inf n => .inf (!n)
  | .fin n m e => .fin (!n) m e

/-- Whether a magnitude with remainder `rem` of a quantum `2 ^ sh` is rounded away from zero (R100). -/
def roundsUp (rnd : Rnd) (neg : Bool) (n rem half : Nat) (sticky : Bool) : Bool :=
  match rnd with
  | .rn => decide (half < rem) || (rem == half && (sticky || n % 2 == 1))
  | .rz => false
  | .rm => neg && (rem != 0 || sticky)
  | .rp => !neg && (rem != 0 || sticky)

/-- `m × 2^e` (and a little more where `sticky`) in units of `2^q`, rounded, and whether that was inexact. -/
def roundAt (rnd : Rnd) (neg : Bool) (m : Nat) (e q : Int) (sticky : Bool) : Nat × Bool :=
  if q ≤ e then (m * 2 ^ (e - q).toNat, sticky)
  else
    let sh := (q - e).toNat
    if Nat.log2 m + 2 ≤ sh then
      ((roundsUp rnd neg 0 (m != 0).toNat 2 sticky).toNat, m != 0 || sticky)
    else
    let n := m / 2 ^ sh
    let rem := m % 2 ^ sh
    (n + (roundsUp rnd neg n rem (2 ^ (sh - 1)) sticky).toNat, rem != 0 || sticky)

/-- The rounding helpers (R8): one rounding of ±m × 2^e to a format, with its flags. Tininess is detected after
rounding. In a directed mode every value beyond the largest finite one overflows, as the worked case of 65,520 toward
zero under R100 has it (log 76). -/
def Fmt.roundFin (f : Fmt) (rnd : Rnd) (neg : Bool) (m : Nat) (e : Int) (sticky : Bool) : Nat × Flags :=
  if m = 0 then (f.signBit neg, 0#5)
  else
    let top := e + (Nat.log2 m : Int)
    let q1 := top - f.mb
    let q := max q1 (f.emin - f.mb)
    let (n, inexact) := roundAt rnd neg m e q sticky
    let cut := rnd != .rn && inexact && decide (q = f.emax - f.mb)
      && (roundAt .rz neg m e q sticky).1 == 2 ^ (f.mb + 1) - 1
    if (n ≠ 0 ∧ f.emax < q + (Nat.log2 n : Int)) ∨ cut = true then
      let toInf := match rnd with | .rn => true | .rz => false | .rm => neg | .rp => !neg
      (if toInf then f.inf neg else f.largest neg, flagOF ||| flagNX)
    else
      let (n1, _) := roundAt rnd neg m e q1 sticky
      let tiny := decide (q1 + (Nat.log2 n1 : Int) < f.emin)
      (f.signBit neg + (q - (f.emin - f.mb)).toNat * 2 ^ f.mb + n,
        flagIf inexact flagNX ||| flagIf (tiny && inexact) flagUF)

/-- A value rounded once to a format (R8). The invalid flag of a signalling NaN is the caller's. -/
def Fmt.round (f : Fmt) (rnd : Rnd) : FVal → Nat × Flags
  | .nan _ => (f.nan, 0#5)
  | .inf n => (f.inf n, 0#5)
  | .fin n m e => f.roundFin rnd n m e false

/-- The exact product of two values, and whether it is invalid (R95, R107). -/
def FVal.mul : FVal → FVal → FVal × Flags
  | .nan a, .nan b => (.nan false, flagIf (a || b) flagNV)
  | .nan a, _ => (.nan false, flagIf a flagNV)
  | _, .nan b => (.nan false, flagIf b flagNV)
  | .inf a, .inf b => (.inf (a != b), 0#5)
  | .inf a, .fin b m _ => if m = 0 then (.nan false, flagNV) else (.inf (a != b), 0#5)
  | .fin a m _, .inf b => if m = 0 then (.nan false, flagNV) else (.inf (a != b), 0#5)
  | .fin a m e, .fin b n k => (.fin (a != b) (m * n) (e + k), 0#5)

/-- Least exponent of the nonzero finite terms. -/
def leastExp : List FVal → Option Int
  | [] => none
  | .fin _ m e :: ts =>
    match leastExp ts with
    | none => if m = 0 then none else some e
    | some k => some (if m = 0 then k else min e k)
  | _ :: ts => leastExp ts

/-- The sum of the finite terms in units of `2^q`. -/
def sumAt (q : Int) : List FVal → Int
  | [] => 0
  | .fin n m e :: ts => (if m = 0 then 0 else (if n then -1 else 1) * ((m * 2 ^ (e - q).toNat : Nat) : Int)) + sumAt q ts
  | _ :: ts => sumAt q ts

def FVal.isZero (neg : Bool) : FVal → Bool
  | .fin n m _ => m == 0 && n == neg
  | _ => false
def FVal.isInf (neg : Bool) : FVal → Bool
  | .inf n => n == neg
  | _ => false

/-- ExactSum (R8), with the invalid flag it raises. The sign of an exact zero depends on the mode. -/
def exactSum (rnd : Rnd) (ts : List FVal) : FVal × Flags :=
  if ts.any FVal.isNaN then (.nan false, flagIf (ts.any FVal.isSig) flagNV)
  else if ts.any (FVal.isInf false) && ts.any (FVal.isInf true) then (.nan false, flagNV)
  else if ts.any (FVal.isInf false) then (.inf false, 0#5)
  else if ts.any (FVal.isInf true) then (.inf true, 0#5)
  else
    let q := (leastExp ts).getD 0
    let s := sumAt q ts
    if s = 0 then
      (.fin (ts.all (FVal.isZero true) || (rnd == .rm && !ts.all (FVal.isZero false))) 0 0, 0#5)
    else (.fin (decide (s < 0)) s.natAbs q, 0#5)

/-- A sum rounded once (R8, R107). -/
def Fmt.sum (f : Fmt) (rnd : Rnd) (ts : List FVal) : Nat × Flags :=
  let (v, fl) := exactSum rnd ts
  let (r, fr) := f.round rnd v
  (r, fl ||| fr)

/-- A product rounded once. -/
def Fmt.product (f : Fmt) (rnd : Rnd) (a b : Nat) : Nat × Flags :=
  let (v, fl) := (f.decode a).mul (f.decode b)
  let (r, fr) := f.round rnd v
  (r, fl ||| fr)

/-- fma (R122). -/
def Fmt.fma (f : Fmt) (rnd : Rnd) (a b c : Nat) : Nat × Flags :=
  let (v, fl) := (f.decode a).mul (f.decode b)
  let (r, fr) := f.sum rnd [v, f.decode c]
  (r, fl ||| fr)

/-- fadd (R122). -/
def Fmt.add (f : Fmt) (rnd : Rnd) (a b : Nat) : Nat × Flags := f.sum rnd [f.decode a, f.decode b]
/-- fsub (R122). -/
def Fmt.sub (f : Fmt) (rnd : Rnd) (a b : Nat) : Nat × Flags := f.sum rnd [f.decode a, (f.decode b).neg]

/-- A value as an integer of its order: negative below positive, −0 just below +0 (R69, R123). -/
def Fmt.key (f : Fmt) (x : Nat) : Int :=
  let mag := x % 2 ^ (f.eb + f.mb)
  if x / 2 ^ (f.eb + f.mb) % 2 = 1 then -(mag : Int) - 1 else mag

/-- fmin and fmax (R123). -/
def Fmt.minMax (f : Fmt) (isMax : Bool) (a b : Nat) : Nat × Flags :=
  let x := f.decode a
  let y := f.decode b
  let fl := flagIf (x.isSig || y.isSig) flagNV
  match x.isNaN, y.isNaN with
  | true, true => (f.nan, fl)
  | true, false => (b, fl)
  | false, true => (a, fl)
  | false, false => (if (decide (f.key a ≤ f.key b)) != isMax then a else b, fl)

/-- Value order of two ordered operands; −0 equals +0 (R124). -/
def Fmt.lt (f : Fmt) (a b : Nat) : Bool :=
  let z := fun x => decide (x % 2 ^ (f.eb + f.mb) = 0)
  !(z a && z b) && decide (f.key a < f.key b)

/-- fcmp (R124): the relation and its flag. -/
def Fmt.compare (f : Fmt) (rel : FRel) (a b : Nat) : Bool × Flags :=
  let x := f.decode a
  let y := f.decode b
  let un := x.isNaN || y.isNaN
  let sig := flagIf (x.isSig || y.isSig) flagNV
  let lt := f.lt a b
  let gt := f.lt b a
  match rel with
  | .eq => (!un && !lt && !gt, sig)
  | .ne => (un || lt || gt, sig)
  | .lt => (!un && lt, flagIf un flagNV)
  | .le => (!un && !gt, flagIf un flagNV)
  | .gt => (!un && gt, flagIf un flagNV)
  | .ge => (!un && !lt, flagIf un flagNV)
  | .unord => (un, sig)
  | .ord => (!un, sig)

/-- fclass: the number of the class bit (R127). -/
def Fmt.classOf (f : Fmt) (x : Nat) : Nat :=
  match f.decode x with
  | .nan true => 8
  | .nan false => 9
  | .inf n => if n then 0 else 7
  | .fin n m _ =>
    if m = 0 then (if n then 3 else 4)
    else if m < 2 ^ f.mb then (if n then 2 else 5)
    else (if n then 1 else 6)

/-- frnd (R122): rounded to an integral value of the same format. -/
def Fmt.integral (f : Fmt) (rnd : Rnd) (a : Nat) : Nat × Flags :=
  match f.decode a with
  | .nan s => (f.nan, flagIf s flagNV)
  | .inf n => (f.inf n, 0#5)
  | .fin n m e =>
    if m = 0 ∨ 0 ≤ e then (a, 0#5)
    else
      let (k, inexact) := roundAt rnd n m e 0 false
      ((f.roundFin .rz n k 0 false).1, flagIf inexact flagNX)

/-- fscale (R122). -/
def Fmt.scale (f : Fmt) (rnd : Rnd) (a : Nat) (k : Int) : Nat × Flags :=
  match f.decode a with
  | .nan s => (f.nan, flagIf s flagNV)
  | .inf n => (f.inf n, 0#5)
  | .fin n m e => f.roundFin rnd n m (e + k) false

/-- A conversion to an integer format (R98). -/
def Fmt.toInt (f : Fmt) (rnd : Rnd) (signed : Bool) (n : Nat) (a : Nat) : Int × Flags :=
  let lo : Int := bif signed then -(2 ^ (n - 1)) else 0
  let hi : Int := bif signed then 2 ^ (n - 1) - 1 else 2 ^ n - 1
  match f.decode a with
  | .nan _ => (0, flagNV)
  | .inf neg => (bif neg then lo else hi, flagNV)
  | .fin neg m e =>
    let (k, inexact) := roundAt rnd neg m e 0 false
    let v : Int := bif neg then -(k : Int) else k
    if lo ≤ v ∧ v ≤ hi then (v, flagIf inexact flagNX) else (max lo (min v hi), flagNV)

/-- A conversion from an integer (R99). -/
def Fmt.ofInt (f : Fmt) (rnd : Rnd) (x : Int) : Nat × Flags := f.roundFin rnd (decide (x < 0)) x.natAbs 0 false

/-- A conversion between floating-point formats (R99). -/
def convertFmt (src dst : Fmt) (rnd : Rnd) (a : Nat) : Nat × Flags :=
  let v := src.decode a
  let (r, fl) := dst.round rnd v
  (r, fl ||| flagIf v.isSig flagNV)

/-! ## Special functions (R131) -/

/-- Integer square root, bit by bit from bit `n` down. -/
def isqrt (n x : Nat) : Nat :=
  (List.range (n + 1)).foldl (fun r i => let t := r + 2 ^ (n - i); bif decide (t * t ≤ x) then t else r) 0

/-- ⌊ln 2 × 2^192⌋. -/
def ln2Fixed : Nat := 0xb17217f7d1cf79abc9e3b39803f2f6af40f343267298b62d

/-- 2^f × 2^192 for the fraction f = x / 2^192, by the series of exp(f ln 2). -/
def exp2Fixed (x : Nat) : Nat :=
  let y := x * ln2Fixed / 2 ^ 192
  ((List.range 56).foldl (fun (acc : Nat × Nat) k => let t := acc.2 * y / 2 ^ 192 / (k + 1); (acc.1 + t, t))
    (2 ^ 192, 2 ^ 192)).1

/-- log2(1 + x / 2^24) × 2^192 for a fraction of a significand: twice the inverse hyperbolic tangent of
(y − 1) / (y + 1), over ln 2. -/
def log2Fixed (x : Nat) : Nat :=
  let z := x * 2 ^ 192 / (2 ^ 25 + x)
  let zz := z * z / 2 ^ 192
  let s := ((List.range 70).foldl (fun (acc : Nat × Nat) k => (acc.1 + acc.2 / (2 * k + 1), acc.2 * zz / 2 ^ 192))
    (0, z)).1
  2 * s * 2 ^ 192 / ln2Fixed

/-- rcp: the correctly rounded reciprocal. -/
def sfuRcpOf (a : Nat) : Nat × Flags :=
  match fmtF32.decode a with
  | .nan s => (fmtF32.nan, flagIf s flagNV)
  | .inf n => (fmtF32.signBit n, 0#5)
  | .fin n m e =>
    if m = 0 then (fmtF32.inf n, flagDZ)
    else fmtF32.roundFin .rn n (2 ^ 96 / m) (-96 - e) (2 ^ 96 % m != 0)

/-- rsqrt. -/
def sfuRsqrtOf (a : Nat) : Nat × Flags :=
  match fmtF32.decode a with
  | .nan s => (fmtF32.nan, flagIf s flagNV)
  | .inf n => if n then (fmtF32.nan, flagNV) else (0, 0#5)
  | .fin n m e =>
    if m = 0 then (fmtF32.inf n, flagDZ)
    else if n then (fmtF32.nan, flagNV)
    else
      let (m, e) := if e % 2 = 0 then (m, e) else (2 * m, e - 1)
      let y := 2 ^ 160 / m
      let r := isqrt 80 y
      fmtF32.roundFin .rn false r (-80 - e / 2) (r * r != y || 2 ^ 160 % m != 0)

/-- sqrt. -/
def sfuSqrtOf (a : Nat) : Nat × Flags :=
  match fmtF32.decode a with
  | .nan s => (fmtF32.nan, flagIf s flagNV)
  | .inf n => if n then (fmtF32.nan, flagNV) else (fmtF32.inf false, 0#5)
  | .fin n m e =>
    if m = 0 then (a, 0#5)
    else if n then (fmtF32.nan, flagNV)
    else
      let (m, e) := if e % 2 = 0 then (m, e) else (2 * m, e - 1)
      let y := m * 2 ^ 64
      let r := isqrt 46 y
      fmtF32.roundFin .rn false r (e / 2 - 32) (r * r != y)

/-- exp2. A result that is no power of two is inexact. -/
def sfuExp2Of (a : Nat) : Nat × Flags :=
  match fmtF32.decode a with
  | .nan s => (fmtF32.nan, flagIf s flagNV)
  | .inf n => (if n then 0 else fmtF32.inf false, 0#5)
  | .fin n m e =>
    if 8 ≤ e + (Nat.log2 m : Int) ∧ m ≠ 0 then
      if n then fmtF32.roundFin .rn false 1 (-1000) false else fmtF32.roundFin .rn false 1 1000 false
    else
      let x : Int := (bif n then -1 else 1) * ((m * 2 ^ (e + 192).toNat : Nat) : Int)
      let i := x / 2 ^ 192
      let f := (x % 2 ^ 192).toNat
      if f = 0 then fmtF32.roundFin .rn false 1 i false else fmtF32.roundFin .rn false (exp2Fixed f) (i - 192) true

/-- log2. A result of an operand that is no power of two is inexact. -/
def sfuLog2Of (a : Nat) : Nat × Flags :=
  match fmtF32.decode a with
  | .nan s => (fmtF32.nan, flagIf s flagNV)
  | .inf n => if n then (fmtF32.nan, flagNV) else (fmtF32.inf false, 0#5)
  | .fin n m e =>
    if m = 0 then (fmtF32.inf true, flagDZ)
    else if n then (fmtF32.nan, flagNV)
    else
      let k := Nat.log2 m
      let frac := m * 2 ^ (24 - k) - 2 ^ 24
      let i : Int := e + k
      if frac = 0 then fmtF32.ofInt .rn i
      else
        let t : Int := i * 2 ^ 192 + log2Fixed frac
        fmtF32.roundFin .rn (decide (t < 0)) t.natAbs (-192) true

/-! ## LG6 (R101 to R106) -/

/-- The significands of the power table T, over 2^23 (R102). -/
def lgTable (j : Nat) : Nat :=
  match j with
  | 0 => 0x800000
  | 1 => 0x9837F0
  | 2 => 0xB504F3
  | _ => 0xD744FD

/-- LgVal(q) (R102). -/
def lgVal (neg : Bool) (q : Int) : FVal := .fin neg (lgTable (q % 4).toNat) (q / 4 - 23)

/-- LgDecode(code, s) (R102). -/
def lgDecode (code : BitVec 6) (s : Int) : FVal :=
  let c := code.toNat % 32
  if c = 0 ∨ s = -128 then .fin false 0 0 else lgVal (code.getLsbD 5) ((c : Int) - 16 + s)

/-- LgProd (R104). -/
def lgProd (a : BitVec 6) (sa : Int) (b : BitVec 6) (sb : Int) : FVal :=
  let ca := a.toNat % 32
  let cb := b.toNat % 32
  if ca = 0 ∨ cb = 0 ∨ sa = -128 ∨ sb = -128 then .fin false 0 0
  else lgVal (a.getLsbD 5 != b.getLsbD 5) ((ca : Int) - 16 + ((cb : Int) - 16) + sa + sb)

/-- Magnitude of a finite value in units of 2^-300, exact for every f32 and every LgVal. -/
def unitsOf : FVal → Nat
  | .fin _ m e => m * 2 ^ (e + 300).toNat
  | _ => 0

/-- Code c's value under a scale, in those units (R106). -/
def lgUnits (c : Nat) (s : Int) : Nat := if c = 0 then 0 else unitsOf (lgVal false ((c : Int) - 16 + s))

/-- The candidate nearest to a magnitude; a tie goes to the even code (R106). -/
def lgNearest (u : Nat) (s : Int) : Nat :=
  let dist := fun c => let v := lgUnits c s; if v ≤ u then u - v else v - u
  (List.range 31).foldl (fun best i =>
    let c := i + 1
    if dist c < dist best ∨ (dist c = dist best ∧ c % 2 = 0) then c else best) 0

/-- LgQuant (R106). -/
def lgQuant (x : W32) (s : Int) : BitVec 6 × Flags :=
  let code := fun (neg : Bool) (c : Nat) => if c = 0 then 0#6 else BitVec.ofNat 6 (neg.toNat * 32 + c)
  match fmtF32.decode x.toNat with
  | .nan _ => (0#6, flagNV)
  | .inf n => if s = -128 then (0#6, flagNX) else (code n 31, flagOF ||| flagNX)
  | .fin n m e =>
    if s = -128 then (0#6, flagIf (m != 0) flagNX)
    else
      let u := unitsOf (.fin n m e)
      let c := lgNearest u s
      if lgUnits 31 s < u then (code n 31, flagOF ||| flagNX)
      else (code n c, flagIf (u != lgUnits c s) flagNX ||| flagIf (c == 0 && u != 0) flagUF)

/-- A code whose magnitude is zero is normal only as 0x00 (R101, R134). -/
def lgNorm (code : BitVec 6) : BitVec 6 := if code.toNat % 32 = 0 then 0#6 else code

end Sys2Proof.Machine
end

