-- ==== Sys2Proof/Machine/Integer.lean ====
section
/-! DEFINITION. Integer instructions on lanes (R113 to R120). An effect reads its operands from the group as it issues
and writes to the group it is given, so that a P form can chain two of them (R28). -/
namespace Sys2Proof.Machine

/-- The effect of a lane instruction: it reads `x.g` and writes the group it is given. -/
abbrev Fx := Issue → Enc → Group → Group

/-- An instruction whose effect is a lane effect. -/
def runFx (i : Instr) (e : Enc) (fx : Fx) (s : State) : Host.Outcome State Fault Refusal :=
  issueOk i s fun x => fx x e x.g

/-- A result of the operands A and B at the width of the type (R114). -/
def fxBin (f : (n : Nat) → BitVec n → BitVec n → BitVec n) : Fx := fun x e g =>
  x.putTy g e (fun l => f 32 (x.g.opA e l) (x.g.opB e l)) (fun l => f 64 (x.g.opA64 e l) (x.g.opB64 e l))

/-- A result of the operand A. -/
def fxUn (f : (n : Nat) → BitVec n → BitVec n) : Fx := fun x e g =>
  x.putTy g e (fun l => f 32 (x.g.opA e l)) (fun l => f 64 (x.g.opA64 e l))

/-- An exact integer result of A and B, narrowed (R118). -/
def fxArith (f : Int → Int → Int) : Fx := fun x e g =>
  fxBin (fun n a b => narrow n e.ty.signed e.sat (f (intOf e.ty.signed a) (intOf e.ty.signed b))) x e g

def fxAdd : Fx := fxArith (· + ·)
def fxSub : Fx := fxArith (· - ·)
def fxMul : Fx := fxArith (· * ·)

/-- mulh: the high half of the exact product (R118). -/
def fxMulh : Fx := fun x e g =>
  fxBin (fun n a b => BitVec.ofInt n (intOf e.ty.signed a * intOf e.ty.signed b / 2 ^ n)) x e g

/-- mad (R118). -/
def fxMad : Fx := fun x e g =>
  let f := fun (n : Nat) (a b c : BitVec n) =>
    narrow n e.ty.signed e.sat (intOf e.ty.signed a * intOf e.ty.signed b + intOf e.ty.signed c)
  x.putTy g e (fun l => f 32 (x.g.opA e l) (x.g.opB e l) (x.g.opC e l))
    (fun l => f 64 (x.g.opA64 e l) (x.g.opB64 e l) (x.g.opC64 e l))

/-- The lesser of two words as the type reads them. -/
def fxMin : Fx := fun x e g =>
  fxBin (fun _ a b => if intOf e.ty.signed a ≤ intOf e.ty.signed b then a else b) x e g
/-- The greater. -/
def fxMax : Fx := fun x e g =>
  fxBin (fun _ a b => if intOf e.ty.signed a ≤ intOf e.ty.signed b then b else a) x e g

/-- abs (R118). -/
def fxAbs : Fx := fun x e g =>
  fxUn (fun n a => narrow n e.ty.signed e.sat ((intOf e.ty.signed a).natAbs : Int)) x e g

def fxAnd : Fx := fxBin fun _ a b => a &&& b
def fxOr : Fx := fxBin fun _ a b => a ||| b
def fxXor : Fx := fxBin fun _ a b => a ^^^ b
def fxNot : Fx := fxUn fun _ a => ~~~a

/-- A shift: k is OpB[31:0] whatever the width (R119). -/
def fxShift (f : (n : Nat) → BitVec n → Nat → BitVec n) : Fx := fun x e g =>
  x.putTy g e (fun l => f 32 (x.g.opA e l) (x.g.opB e l).toNat)
    (fun l => f 64 (x.g.opA64 e l) ((x.g.opB64 e l).setWidth 32).toNat)

/-- shl (R119). Under SAT a shift of 128 or more saturates as one of 128 does. -/
def fxShl : Fx := fun x e g =>
  fxShift (fun n a k =>
    if e.sat then narrow n e.ty.signed true (intOf e.ty.signed a * 2 ^ min k 128)
    else if n ≤ k then 0#n else a <<< k) x e g

/-- shr (R119). -/
def fxShr : Fx := fxShift fun n a k => if n ≤ k then 0#n else a >>> k

/-- sar (R119). -/
def fxSar : Fx := fxShift fun n a k =>
  if n ≤ k then (if a.msb then BitVec.allOnes n else 0#n) else a.sshiftRight k

/-- fsh (R119): OpA is the high word. -/
def fxFsh : Fx := fun x e g =>
  x.put g e.d fun l =>
    let k := ((x.g.opC e l) + e.imm).toNat % 32
    ((x.g.opA e l ++ x.g.opB e l : W64) >>> k).setWidth 32

/-- Position and width of bfx and bfi (R119). -/
def fieldPlace (c imm : W32) : Nat × Nat :=
  let p := (c.toNat % 256 + imm.toNat % 256) % 256
  let w := (c.toNat / 256 % 256 + imm.toNat / 256 % 256) % 256
  (p, if 32 ≤ p then 0 else min w (32 - p))

/-- bfx of one word (R119). -/
def bfxOf (signed : Bool) (a c imm : W32) : W32 :=
  let (p, w) := fieldPlace c imm
  let v := a.toNat / 2 ^ p % 2 ^ w
  if signed ∧ w ≠ 0 ∧ 2 ^ (w - 1) ≤ v then BitVec.ofNat 32 (v + 2 ^ 32 - 2 ^ w) else BitVec.ofNat 32 v

/-- bfx. -/
def fxBfx : Fx := fun x e g => x.put g e.d fun l => bfxOf e.ty.signed (x.g.opA e l) (x.g.opC e l) e.imm

/-- bfi of one word (R119). -/
def bfiOf (a b c imm : W32) : W32 :=
  let (p, w) := fieldPlace c imm
  let m := BitVec.ofNat 32 ((2 ^ w - 1) * 2 ^ p)
  (a &&& ~~~m) ||| ((b <<< p) &&& m)

/-- bfi. -/
def fxBfi : Fx := fun x e g => x.put g e.d fun l => bfiOf (x.g.opA e l) (x.g.opB e l) (x.g.opC e l) e.imm

/-- popc: a 32-bit result at both widths (R118). -/
def fxPopc : Fx := fun x e g =>
  x.put g e.d fun l =>
    BitVec.ofNat 32 (if e.ty.is64 then popcount (x.g.opA64 e l) else popcount (x.g.opA e l))

/-- Zero bits above the highest one bit (R118). -/
def clzOf {n : Nat} (a : BitVec n) : Nat := if a.toNat = 0 then n else n - 1 - Nat.log2 a.toNat

/-- clz. -/
def fxClz : Fx := fxUn fun n a => BitVec.ofNat n (clzOf a)

/-- Bits in reverse order (R118). -/
def brevOf (n : Nat) (a : BitVec n) : BitVec n :=
  (List.range n).foldl (fun r i => if a.getLsbD i then r ||| (1#n <<< (n - 1 - i)) else r) 0#n

/-- brev. -/
def fxBrev : Fx := fxUn brevOf

/-- perm of two words under a selector (R119). -/
def permOf (a b : W32) (sel : Nat) : W32 :=
  let src := leBytes 4 a.toNat ++ leBytes 4 b.toNat
  let out := (List.range 4).foldl (fun (out : List Byte) j =>
    let v : Byte :=
      if sel / 2 ^ (12 + j) % 2 = 0 then src[sel / 8 ^ j % 8]?.getD 0#8
      else match out.getLast? with
        | none => 0#8
        | some p => if p.msb then 0xFF#8 else 0#8
    out ++ [v]) []
  BitVec.ofNat 32 (leNat out)

/-- perm. -/
def fxPerm : Fx := fun x e g =>
  x.put g e.d fun l =>
    let sel := if e.c = 0xFF#8 then e.imm else x.g.opC e l
    permOf (x.g.opA e l) (x.g.opB e l) (sel.toNat % 65536)

/-- sel (R120). -/
def fxSel : Fx := fun x e g =>
  let m := x.g.mreg (e.c.toNat - 0x40)
  x.putTy g e (fun l => if m.getLsbD l then x.g.opA e l else x.g.opB e l)
    (fun l => if m.getLsbD l then x.g.opA64 e l else x.g.opB64 e l)

/-- mov (R118). -/
def fxMov : Fx := fxUn fun _ a => a

/-- lea (R120). -/
def fxLea : Fx := fun x e g =>
  x.put2 g e.d fun l =>
    let b := x.g.opB e l
    let index := if e.ty.signed then b.signExtend 64 else b.setWidth 64
    x.g.opA64 e l + index * BitVec.ofNat 64 (2 ^ (e.c.toNat % 8)) + Enc.imm64 e

/-- The sum of absolute differences of the bytes of two words (R118). -/
def sadOf (a b : W32) : Nat :=
  ((List.range 4).map fun i =>
    let p := a.toNat / 256 ^ i % 256
    let q := b.toNat / 256 ^ i % 256
    max p q - min p q).sum

/-- sad (R118). -/
def fxSad : Fx := fun x e g =>
  x.put g e.d fun l => narrow 32 false e.sat ((x.g.opC e l).toNat + sadOf (x.g.opA e l) (x.g.opB e l) : Int)

/-- A relation between two integers (R117). -/
def Rel.holds (r : Rel) (a b : Int) : Bool :=
  match r with
  | .eq => decide (a = b)
  | .ne => decide (a ≠ b)
  | .lt => decide (a < b)
  | .le => decide (a ≤ b)
  | .gt => decide (b < a)
  | .ge => decide (b ≤ a)

/-- cmp (R120): the mask of the active lanes for which the relation holds. -/
def fxCmp (rel : Rel) : Fx := fun x e g =>
  x.putS g e.d (x.laneMask fun l =>
    if e.ty.is64 then Rel.holds rel (intOf e.ty.signed (x.g.opA64 e l)) (intOf e.ty.signed (x.g.opB64 e l))
    else Rel.holds rel (intOf e.ty.signed (x.g.opA e l)) (intOf e.ty.signed (x.g.opB e l)))

/-! ## Meanings -/

/-- add (R118). -/
def execAdd (e : Enc) (s : State) : Host.Outcome State Fault Refusal := runFx (.add e) e fxAdd s
/-- add, B form (R19). -/
def execAddB (b : BEnc) (s : State) : Host.Outcome State Fault Refusal :=
  runFx (.addB b) (shortEnc 0x10 .e b) fxAdd s
/-- sub (R118). -/
def execSub (e : Enc) (s : State) : Host.Outcome State Fault Refusal := runFx (.sub e) e fxSub s
/-- sub, B form (R19). -/
def execSubB (b : BEnc) (s : State) : Host.Outcome State Fault Refusal :=
  runFx (.subB b) (shortEnc 0x11 .e b) fxSub s
/-- mul (R118). -/
def execMul (e : Enc) (s : State) : Host.Outcome State Fault Refusal := runFx (.mul e) e fxMul s
/-- mul, B form (R19). -/
def execMulB (b : BEnc) (s : State) : Host.Outcome State Fault Refusal :=
  runFx (.mulB b) (shortEnc 0x12 .e b) fxMul s
/-- mulh (R118). -/
def execMulh (e : Enc) (s : State) : Host.Outcome State Fault Refusal := runFx (.mulh e) e fxMulh s
/-- mad (R118). -/
def execMad (e : Enc) (s : State) : Host.Outcome State Fault Refusal := runFx (.mad e) e fxMad s
/-- min (R118). -/
def execMin (e : Enc) (s : State) : Host.Outcome State Fault Refusal := runFx (.min e) e fxMin s
/-- min, B form (R19). -/
def execMinB (b : BEnc) (s : State) : Host.Outcome State Fault Refusal :=
  runFx (.minB b) (shortEnc 0x15 .e b) fxMin s
/-- max (R118). -/
def execMax (e : Enc) (s : State) : Host.Outcome State Fault Refusal := runFx (.max e) e fxMax s
/-- max, B form (R19). -/
def execMaxB (b : BEnc) (s : State) : Host.Outcome State Fault Refusal :=
  runFx (.maxB b) (shortEnc 0x16 .e b) fxMax s
/-- abs (R118). -/
def execAbs (e : Enc) (s : State) : Host.Outcome State Fault Refusal := runFx (.abs e) e fxAbs s
/-- and (R118). -/
def execAnd (e : Enc) (s : State) : Host.Outcome State Fault Refusal := runFx (.and e) e fxAnd s
/-- and, B form (R19). -/
def execAndB (b : BEnc) (s : State) : Host.Outcome State Fault Refusal :=
  runFx (.andB b) (shortEnc 0x18 .e b) fxAnd s
/-- or (R118). -/
def execOr (e : Enc) (s : State) : Host.Outcome State Fault Refusal := runFx (.or e) e fxOr s
/-- or, B form (R19). -/
def execOrB (b : BEnc) (s : State) : Host.Outcome State Fault Refusal :=
  runFx (.orB b) (shortEnc 0x19 .e b) fxOr s
/-- xor (R118). -/
def execXor (e : Enc) (s : State) : Host.Outcome State Fault Refusal := runFx (.xor e) e fxXor s
/-- xor, B form (R19). -/
def execXorB (b : BEnc) (s : State) : Host.Outcome State Fault Refusal :=
  runFx (.xorB b) (shortEnc 0x1A .e b) fxXor s
/-- not (R118). -/
def execNot (e : Enc) (s : State) : Host.Outcome State Fault Refusal := runFx (.not e) e fxNot s
/-- not, B form (R19). -/
def execNotB (b : BEnc) (s : State) : Host.Outcome State Fault Refusal :=
  runFx (.notB b) (shortEnc 0x1B .e b) fxNot s
/-- shl (R119). -/
def execShl (e : Enc) (s : State) : Host.Outcome State Fault Refusal := runFx (.shl e) e fxShl s
/-- shl, B form (R19). -/
def execShlB (b : BEnc) (s : State) : Host.Outcome State Fault Refusal :=
  runFx (.shlB b) (shortEnc 0x1C .e b) fxShl s
/-- shr (R119). -/
def execShr (e : Enc) (s : State) : Host.Outcome State Fault Refusal := runFx (.shr e) e fxShr s
/-- shr, B form (R19). -/
def execShrB (b : BEnc) (s : State) : Host.Outcome State Fault Refusal :=
  runFx (.shrB b) (shortEnc 0x1D .e b) fxShr s
/-- sar (R119). -/
def execSar (e : Enc) (s : State) : Host.Outcome State Fault Refusal := runFx (.sar e) e fxSar s
/-- sar, B form (R19). -/
def execSarB (b : BEnc) (s : State) : Host.Outcome State Fault Refusal :=
  runFx (.sarB b) (shortEnc 0x1E .e b) fxSar s
/-- fsh (R119). -/
def execFsh (e : Enc) (s : State) : Host.Outcome State Fault Refusal := runFx (.fsh e) e fxFsh s
/-- bfx (R119). -/
def execBfx (e : Enc) (s : State) : Host.Outcome State Fault Refusal := runFx (.bfx e) e fxBfx s
/-- bfi (R119). -/
def execBfi (e : Enc) (s : State) : Host.Outcome State Fault Refusal := runFx (.bfi e) e fxBfi s
/-- popc (R118). -/
def execPopc (e : Enc) (s : State) : Host.Outcome State Fault Refusal := runFx (.popc e) e fxPopc s
/-- clz (R118). -/
def execClz (e : Enc) (s : State) : Host.Outcome State Fault Refusal := runFx (.clz e) e fxClz s
/-- brev (R118). -/
def execBrev (e : Enc) (s : State) : Host.Outcome State Fault Refusal := runFx (.brev e) e fxBrev s
/-- perm (R119). -/
def execPerm (e : Enc) (s : State) : Host.Outcome State Fault Refusal := runFx (.perm e) e fxPerm s
/-- sel (R120). -/
def execSel (e : Enc) (s : State) : Host.Outcome State Fault Refusal := runFx (.sel e) e fxSel s
/-- mov (R118). -/
def execMov (e : Enc) (s : State) : Host.Outcome State Fault Refusal := runFx (.mov e) e fxMov s
/-- mov, B form (R19). -/
def execMovB (b : BEnc) (s : State) : Host.Outcome State Fault Refusal :=
  runFx (.movB b) (shortEnc 0x28 .e b) fxMov s
/-- lea (R120). -/
def execLea (e : Enc) (s : State) : Host.Outcome State Fault Refusal := runFx (.lea e) e fxLea s
/-- sad (R118). -/
def execSad (e : Enc) (s : State) : Host.Outcome State Fault Refusal := runFx (.sad e) e fxSad s
/-- cmp (R120). -/
def execCmp (rel : Rel) (e : Enc) (s : State) : Host.Outcome State Fault Refusal := runFx (.cmp rel e) e (fxCmp rel) s

end Sys2Proof.Machine
end

