-- ==== Sys2Proof/Machine/Scalar.lean ====
section
/-! DEFINITION. Scalar instructions (R135 to R140). -/
namespace Sys2Proof.Machine

/-- A scalar result: in a mask destination the bits at the width and above are 0 (R136). -/
def Issue.putSalu (x : Issue) (d : BitVec 8) (v : W64) : Group :=
  x.putS x.g d (if 0x40 ≤ d.toNat then v &&& fullMask x.g.width else v)

/-- An salu operation of A and Op2. -/
def runSalu (i : Instr) (e : Enc) (f : W64 → W64 → W64) (s : State) : Host.Outcome State Fault Refusal :=
  issueOk i s fun x => x.putSalu e.d (f (x.g.scalarA e) (x.g.op2 e))

/-- salu.add. -/
def execSaluAdd (e : Enc) (s : State) : Host.Outcome State Fault Refusal := runSalu (.saluAdd e) e (· + ·) s
/-- salu.sub. -/
def execSaluSub (e : Enc) (s : State) : Host.Outcome State Fault Refusal := runSalu (.saluSub e) e (· - ·) s
/-- salu.mul. -/
def execSaluMul (e : Enc) (s : State) : Host.Outcome State Fault Refusal := runSalu (.saluMul e) e (· * ·) s
/-- salu.and. -/
def execSaluAnd (e : Enc) (s : State) : Host.Outcome State Fault Refusal := runSalu (.saluAnd e) e (· &&& ·) s
/-- salu.or. -/
def execSaluOr (e : Enc) (s : State) : Host.Outcome State Fault Refusal := runSalu (.saluOr e) e (· ||| ·) s
/-- salu.xor. -/
def execSaluXor (e : Enc) (s : State) : Host.Outcome State Fault Refusal := runSalu (.saluXor e) e (· ^^^ ·) s
/-- salu.shl. -/
def execSaluShl (e : Enc) (s : State) : Host.Outcome State Fault Refusal :=
  runSalu (.saluShl e) e (fun a k => if 64 ≤ k.toNat then 0#64 else a <<< k.toNat) s
/-- salu.shr. -/
def execSaluShr (e : Enc) (s : State) : Host.Outcome State Fault Refusal :=
  runSalu (.saluShr e) e (fun a k => if 64 ≤ k.toNat then 0#64 else a >>> k.toNat) s
/-- salu.sar. -/
def execSaluSar (e : Enc) (s : State) : Host.Outcome State Fault Refusal :=
  runSalu (.saluSar e) e (fun a k =>
    if 64 ≤ k.toNat then (if a.msb then BitVec.allOnes 64 else 0#64) else a.sshiftRight k.toNat) s
/-- salu.min.s. -/
def execSaluMinS (e : Enc) (s : State) : Host.Outcome State Fault Refusal :=
  runSalu (.saluMinS e) e (fun a b => if a.toInt ≤ b.toInt then a else b) s
/-- salu.max.s. -/
def execSaluMaxS (e : Enc) (s : State) : Host.Outcome State Fault Refusal :=
  runSalu (.saluMaxS e) e (fun a b => if a.toInt ≤ b.toInt then b else a) s
/-- salu.min.z. -/
def execSaluMinZ (e : Enc) (s : State) : Host.Outcome State Fault Refusal :=
  runSalu (.saluMinZ e) e (fun a b => if a.toNat ≤ b.toNat then a else b) s
/-- salu.max.z. -/
def execSaluMaxZ (e : Enc) (s : State) : Host.Outcome State Fault Refusal :=
  runSalu (.saluMaxZ e) e (fun a b => if a.toNat ≤ b.toNat then b else a) s
/-- salu.mov. The listing of R294 leaves nonzero values in registers that its tables do not list (lines 4 and 7), where R294 says
that such registers hold zero: the model follows the instructions (log 122). -/
def execSaluMov (e : Enc) (s : State) : Host.Outcome State Fault Refusal := runSalu (.saluMov e) e (fun _ b => b) s
/-- salu.lea: B names a scalar register, and the offset is IMM32 or the literal (R136). -/
def execSaluLea (e : Enc) (s : State) : Host.Outcome State Fault Refusal :=
  issueOk (.saluLea e) s fun x =>
    x.putSalu e.d (x.g.scalarA e + x.g.scalar e.b.toNat * BitVec.ofNat 64 (2 ^ (e.c.toNat % 8)) + Enc.imm64 e)
/-- salu.not. -/
def execSaluNot (e : Enc) (s : State) : Host.Outcome State Fault Refusal := runSalu (.saluNot e) e (fun a _ => ~~~a) s

/-- A relation of scmp (R137). -/
def SRel.holds (r : SRel) (a b : W64) : Bool :=
  match r with
  | .eq => a == b
  | .ne => a != b
  | .lt => decide (a.toInt < b.toInt)
  | .le => decide (a.toInt ≤ b.toInt)
  | .gt => decide (b.toInt < a.toInt)
  | .ge => decide (b.toInt ≤ a.toInt)
  | .ltz => decide (a.toNat < b.toNat)
  | .lez => decide (a.toNat ≤ b.toNat)
  | .gtz => decide (b.toNat < a.toNat)
  | .gez => decide (b.toNat ≤ a.toNat)

/-- scmp (R137). -/
def execScmp (rel : SRel) (e : Enc) (s : State) : Host.Outcome State Fault Refusal :=
  issueOk (.scmp rel e) s fun x =>
    x.putS x.g e.d (if SRel.holds rel (x.g.scalarA e) (x.g.op2 e) then 1#64 else 0#64)

/-- The uniform branch (R138): every running lane at the issue address moves to the target, or none does. -/
def runSbr (i : Instr) (e : Enc) (cond : W64 → Bool) (s : State) : Host.Outcome State Fault Refusal :=
  issueG i s fun x =>
    let t := BitVec.ofNat 64 x.ia + Enc.imm64 e
    if !cond (x.g.scalarA e) then .ok x.g
    else if t.toNat % 4 ≠ 0 then .trap 0x09 t x.act
    else .ok (x.g.onLanes x.here fun l => { l with pc := t })

/-- sbr.nz. -/
def execSbrNz (e : Enc) (s : State) : Host.Outcome State Fault Refusal := runSbr (.sbrNz e) e (· != 0#64) s
/-- sbr.z. -/
def execSbrZ (e : Enc) (s : State) : Host.Outcome State Fault Refusal := runSbr (.sbrZ e) e (· == 0#64) s

/-- bcast (R139). -/
def execBcast (e : Enc) (s : State) : Host.Outcome State Fault Refusal :=
  issueOk (.bcast e) s fun x =>
    x.putTy x.g e (fun _ => (x.g.scalarA e).setWidth 32) (fun _ => x.g.scalarA e)

/-- The value of one lane, as pick reads it (R139). -/
def pickValue (x : Issue) (e : Enc) (i : Nat) : W64 :=
  if x.g.exited.getLsbD i then 0#64
  else if e.ty.is64 then x.g.vec2 e e.a i
  else if e.ty.signed then (x.g.vec e e.a i).signExtend 64 else (x.g.vec e e.a i).setWidth 64

/-- pick (R139). -/
def execPick (e : Enc) (s : State) : Host.Outcome State Fault Refusal :=
  issueOk (.pick e) s fun x => x.putS x.g e.d (pickValue x e ((x.g.op2 e).toNat % x.g.width))

/-- An operand of mmov: the bits at the width and above count as 0 for an m register (R140). -/
def mmovOperand (x : Issue) (v : BitVec 8) : W64 :=
  let w := x.g.scalar v.toNat
  if 0x40 ≤ v.toNat ∧ v.toNat < 0x50 then w &&& fullMask x.g.width else w

/-- A mask operation of mmov. -/
def runMmov (i : Instr) (e : Enc) (f : W64 → W64 → W64) (s : State) : Host.Outcome State Fault Refusal :=
  issueOk i s fun x => x.putS x.g e.d (f (mmovOperand x e.a) (mmovOperand x e.b) &&& fullMask x.g.width)

/-- mmov.and. -/
def execMmovAnd (e : Enc) (s : State) : Host.Outcome State Fault Refusal := runMmov (.mmovAnd e) e (· &&& ·) s
/-- mmov.or. -/
def execMmovOr (e : Enc) (s : State) : Host.Outcome State Fault Refusal := runMmov (.mmovOr e) e (· ||| ·) s
/-- mmov.xor. -/
def execMmovXor (e : Enc) (s : State) : Host.Outcome State Fault Refusal := runMmov (.mmovXor e) e (· ^^^ ·) s
/-- mmov.andn. -/
def execMmovAndn (e : Enc) (s : State) : Host.Outcome State Fault Refusal :=
  runMmov (.mmovAndn e) e (fun a b => a &&& ~~~b) s
/-- mmov.not. -/
def execMmovNot (e : Enc) (s : State) : Host.Outcome State Fault Refusal := runMmov (.mmovNot e) e (fun a _ => ~~~a) s
/-- mmov.froms. -/
def execMmovFroms (e : Enc) (s : State) : Host.Outcome State Fault Refusal := runMmov (.mmovFroms e) e (fun a _ => a) s
/-- mmov.tos: a k register keeps all its bits. -/
def execMmovTos (e : Enc) (s : State) : Host.Outcome State Fault Refusal :=
  issueOk (.mmovTos e) s fun x => x.putS x.g e.d (mmovOperand x e.a)
/-- mmov.popc. -/
def execMmovPopc (e : Enc) (s : State) : Host.Outcome State Fault Refusal :=
  issueOk (.mmovPopc e) s fun x => x.putS x.g e.d (BitVec.ofNat 64 (popcount (mmovOperand x e.a)))

end Sys2Proof.Machine
end

