-- ==== Sys2Proof/Machine/Scratchpad.lean ====
section
/-! DEFINITION. Scratchpad accesses and the hearth window (R85 to R93). -/
namespace Sys2Proof.Machine

/-! ## The scratchpad and the hearth -/

/-- First address of the hearth window (R85). -/
def hearthBase : Nat := 0x1FFC00

/-- An address lies in the hearth window. -/
def inHearth (a : Nat) : Bool := decide (hearthBase ≤ a ∧ a < 0x200000)

/-- A mailbox as a context sees it: one that another context filled reads as empty (R267). One that its own context has
emptied keeps its value beside FULL = 0 (R268). -/
def Chip.mailbox (c : Chip) (core m ctx : Nat) : Mailbox :=
  let b := SMap.get Mailbox.reset c.mailboxes (16 * core + m)
  if b.ctx = ctx then b else .reset

/-- Doubleword k of the hearth as a team sees it (R72, R88, R263, R267). -/
def Chip.hearthWord (c : Chip) (t : Team) (ctx k : Nat) : W64 :=
  if k < 96 then
    match t.bars[k / 2]? with
    | some b => if k % 2 = 0 then b.word0 else b.bytes
    | none => 0#64
  else
    let b := c.mailbox t.core (k / 2 - 48) ctx
    if k % 2 = 0 then b.value else if b.full then 1#64 else 0#64

/-- A byte of the scratchpad as ordinary accesses see it (R286). -/
def Team.ordinary (t : Team) (a : Nat) : Byte :=
  ((t.old.find? fun l => l.at_ == a).map (·.byte)).getD (SMap.get 0#8 t.sp a)

/-- One byte of a team's scratchpad space (R85, R88). -/
def Chip.spByte (c : Chip) (t : Team) (ctx a : Nat) : Byte :=
  if inHearth a then BitVec.ofNat 8 ((c.hearthWord t ctx ((a - hearthBase) / 8)).toNat / 256 ^ (a % 8))
  else t.ordinary a

/-- The number that bytes of the scratchpad space hold. -/
def Chip.spNat (c : Chip) (t : Team) (ctx a n : Nat) : Nat := leNat ((List.range n).map fun i => c.spByte t ctx (a + i))

/-- A lost word that is read is to be reported: the cycle counts from which its report is due (R160, R376). -/
def Chip.meetWords (c : Chip) (team : Nat) (reads : PoolWord → Bool) : Chip :=
  c.onTeam team fun t => { t with
    lostWords := updWhere (fun l => l.word.any reads && l.met.isNone) (fun l => { l with met := some c.cyc }) t.lostWords }

/-- Whether a word that a test names is lost. -/
def Team.loses (t : Team) (reads : PoolWord → Bool) : Bool := t.lostWords.any fun l => l.word.any reads

/-- An instruction that would complete and reads a lost pool word of its team writes nothing, and the word is to be
reported (R160). -/
def Issue.meets (x : Issue) (c : Chip) (reads : PoolWord → Bool) (k : Eff Chip) : Eff Chip :=
  match k with
  | .ok a => if x.team.loses reads then .ok (c.meetWords x.team.id reads) else .ok a
  | k => k

/-- The scratchpad words of accesses of `n` bytes. -/
def spReads (as : List Nat) (n : Nat) : PoolWord → Bool
  | .sp a => as.any fun b => decide (b / 4 ≤ a / 4 ∧ a / 4 ≤ (b + n - 1) / 4)
  | _ => false

/-- The scratchpad words of some ranges: a first address and so many bytes each. -/
def spRanges (rs : List (Nat × Nat)) : PoolWord → Bool
  | .sp a => rs.any fun r => decide (r.2 ≠ 0 ∧ r.1 / 4 ≤ a / 4 ∧ a / 4 ≤ (r.1 + r.2 - 1) / 4)
  | _ => false

/-- The bytes of doublewords that a write of some bytes does not touch. -/
def apartFrom (a n : Nat) (ls : List LagByte) : List LagByte :=
  ls.filter fun l => n == 0 || decide (l.at_ / 8 < a / 8 ∨ (a + n - 1) / 8 < l.at_ / 8)

/-- Bytes written to a team's scratchpad; every access sees the doublewords that they touch. -/
def Team.spPut (t : Team) (a : Nat) (bs : List Byte) : Team :=
  { t with sp := putBytes t.sp a bs, lag := apartFrom a bs.length t.lag, old := apartFrom a bs.length t.old }

/-- The bytes that one side does not see, by whole doublewords (log 138), after a write of a group: in the doublewords that `late` names it still sees what it
saw, and it sees the others that the write touches whole (R286). `ws` are the bytes written, each with its value before. -/
def lagAfter (ls : List LagByte) (g : Nat) (late : Nat → Bool) (ws : List (Nat × Byte)) : List LagByte :=
  (ls.filter fun l => late (l.at_ / 8) || !(ws.any fun w => w.1 / 8 == l.at_ / 8)).map (fun l =>
      if ws.any fun w => w.1 == l.at_ then { l with groups := (g :: l.groups).eraseDups } else l)
    ++ (ws.filter fun w => late (w.1 / 8) && !(ls.any fun l => l.at_ == w.1)).map fun w =>
      { at_ := w.1, byte := w.2, groups := [g] }

/-- An ordinary store of a group: the bytes stand at once for every ordinary access, and the hash unit sees them at once or
later (R286). -/
def Team.spStore (t : Team) (g : Nat) (late : Nat → Bool) (a : Nat) (bs : List Byte) : Team :=
  { t.spPut a bs with
    lag := lagAfter t.lag g late ((List.range bs.length).map fun i => (a + i, SMap.get 0#8 t.sp (a + i))) }

/-- The ordinary stores of an instruction, made in their order. -/
def Chip.spStores (c : Chip) (x : Issue) (ps : List (Nat × List Byte)) : Chip :=
  { c.onTeam x.team.id (fun t => ps.foldl (fun t p => t.spStore x.g.id (Config.hashLags c.fresh) p.1 p.2) t) with
    fresh := c.fresh + 1 }

/-- The team with the hash unit's view of its scratchpad and that of ordinary accesses changed over (R286). -/
def Team.swapLag (t : Team) : Team :=
  { t with
    sp := t.lag.foldl (fun m l => putBytes m l.at_ [l.byte]) t.sp
    lag := t.lag.map fun l => { l with byte := SMap.get 0#8 t.sp l.at_ } }

/-- The team as the hash unit finds it. -/
def Team.hashView (t : Team) : Team := { t.swapLag with lag := [] }

/-- What the hash unit has made of a team: a byte of `t` whose store it does not yet see keeps the stored value, and what the unit
makes of it stands beneath that. -/
def Team.fromHash (t u : Team) : Team := { u with lag := t.swapLag.lag }.swapLag

/-- The bytes in which a team's scratchpad differs from what it was, each with its value before. -/
def Team.changed (t u : Team) : List (Nat × Byte) :=
  (((t.sp ++ u.sp).map (·.1)).eraseDups.filter fun a => SMap.get 0#8 t.sp a != SMap.get 0#8 u.sp a).map fun a =>
    (a, SMap.get 0#8 t.sp a)

/-- What the hash unit has made of a team for a group, and where ordinary accesses do not see it yet (R286). -/
def Team.afterHash (t : Team) (g : Nat) (late : Nat → Bool) (u : Team) : Team :=
  let w := t.fromHash u
  { w with old := lagAfter t.old g late (t.changed w) }

/-- What the hash unit has done for a group is the team's from now on; `t` is the team before. -/
def Chip.endHash (c : Chip) (t : Team) (g : Nat) : Chip :=
  { c.onTeam t.id (t.afterHash g (Config.hashLags c.fresh)) with fresh := c.fresh + 1 }

/-- What the hash unit does for a group of a team, on the scratchpad as the unit sees it (R286). -/
def Chip.asHash (c : Chip) (team g : Nat) (f : Chip → Chip) : Chip :=
  match c.team? team with
  | none => f c
  | some t => (f (c.onTeam team Team.hashView)).endHash t g

/-- The issue of an instruction that has the hash unit act at once, on the scratchpad as it sees it. -/
def issueHash (i : Instr) (s : State) (f : Issue → Chip → Eff Chip) : Host.Outcome State Fault Refusal :=
  issueC i s fun x c =>
    (f { x with team := x.team.hashView } (c.onTeam x.team.id Team.hashView)).map fun c => c.endHash x.team x.g.id

/-- The bytes in doublewords where a group has written something that is not seen yet. -/
def unseenBy (ls : List LagByte) (g : Nat) : List Nat :=
  ((ls.filter fun l => l.groups.contains g).map fun l => l.at_ / 8).eraseDups

/-- The hash unit comes to see the ordinary stores to some doublewords. -/
def Team.hashSees (t : Team) (ds : List Nat) : Team := { t with lag := t.lag.filter fun l => !ds.contains (l.at_ / 8) }

/-- Ordinary accesses come to see what the hash unit has written to some doublewords. -/
def Team.loadsSee (t : Team) (ds : List Nat) : Team := { t with old := t.old.filter fun l => !ds.contains (l.at_ / 8) }

/-- Both sides see all that a group has written (R286). -/
def Team.groupSeen (t : Team) (g : Nat) : Team := (t.hashSees (unseenBy t.lag g)).loadsSee (unseenBy t.old g)

/-- The cause with which an access of `n` bytes fails (R90), checked in the order misaligned, hearth store,
protection. -/
def spCheck (size : Nat) (store : Bool) (n a : Nat) : Option (BitVec 8) :=
  if a % n ≠ 0 then some 0x09#8
  else if store && inHearth a then some 0x06#8
  else if a + n ≤ size ∨ inHearth a then none
  else some 0x08#8

/-- Scratchpad bytes of the issuing team (R85). -/
def Issue.spSize (x : Issue) : Nat := 1024 * x.desc.spg

/-- The trap of the lowest failing lane, if a lane fails: xmask names the failing lanes (R90). -/
def laneTrap {α : Type} (fails : List (Nat × BitVec 8 × W64)) (ok : Eff α) : Eff α :=
  match fails with
  | [] => ok
  | (_, cause, val) :: _ => .trap cause val (maskOf (fails.map (·.1)))

/-- Passes of an access, from the addresses of the words it wants (R86). -/
def passes (words : List Nat) : Nat :=
  let ws := words.eraseDups
  ((List.range 64).map fun b => (ws.filter fun w => w % 64 == b).length).foldl max 0

/-- The first cycle in which a load's result may be read (R87). -/
def Issue.loadReady (x : Issue) (words : List Nat) : Nat := x.now + 20 + (passes words - 1)

/-- Word addresses that an access of `n` bytes wants. -/
def wordsAt (a n : Nat) : List Nat := (List.range ((n + 3) / 4)).map fun i => a / 4 + i

/-! ## lds and sts -/

/-- The address of a lane (R90): base + index × scale + offset. -/
def Issue.spAddr (x : Issue) (e : Enc) (l : Nat) : W64 :=
  let base := if e.as_ then x.g.baseS e else (x.g.vec e e.a l).setWidth 64
  base + (x.g.vec e e.b l).signExtend 64 * BitVec.ofNat 64 (2 ^ (e.c.toNat % 8)) + e.imm.signExtend 64

/-- Register i of a load's result (R90, R218). -/
def LdType.part (t : LdType) (v i : Nat) : W32 :=
  match t with
  | .s8 => (BitVec.ofNat 8 v).signExtend 32
  | .z8 => (BitVec.ofNat 8 v).setWidth 32
  | .s16 => (BitVec.ofNat 16 v).signExtend 32
  | .z16 => (BitVec.ofNat 16 v).setWidth 32
  | _ => BitVec.ofNat 32 (v / 2 ^ (32 * i))

/-- lds (R89, R90). -/
def execLds (ld : LdType) (e : Enc) (s : State) : Host.Outcome State Fault Refusal :=
  issueC (.lds ld e) s fun x c =>
    let n := LdType.bytes ld
    let ea := fun l => x.spAddr e l
    laneTrap (x.lanes.filterMap fun l => (spCheck x.spSize false n (ea l).toNat).map fun k => (l, k, ea l)) <|
      let ready := x.loadReady (x.lanes.flatMap fun l => wordsAt (ea l).toNat n)
      let g := x.putN x.g e.d (LdType.regs ld) fun i l => LdType.part ld (c.spNat x.team x.ctx (ea l).toNat n) i
      x.meets c (spReads (x.lanes.map fun l => (ea l).toNat) n)
        (.ok (c.setGroup (g.hold x.now ready ((writesOf (.lds ld e) x.g.width).map (·.1)))))

/-- The bytes a lane stores from n bytes of registers (R90). -/
def Group.storeData (g : Group) (d : BitVec 8) (n l : Nat) : List Byte :=
  ((List.range ((n + 3) / 4)).flatMap fun i => leBytes 4 (g.vecAt d i l).toNat).take n

/-- sts (R89, R90): the lanes store in ascending order, so the highest-numbered one wins. The store acts as it issues,
so another group of the team sees a group's stores to different locations in program order; R87 does not ask for that
order, and the model's choice allows fewer outcomes than it (log 38). -/
def execSts (st : StWidth) (e : Enc) (s : State) : Host.Outcome State Fault Refusal :=
  issueC (.sts st e) s fun x c =>
    let n := StWidth.bytes st
    let ea := fun l => x.spAddr e l
    laneTrap (x.lanes.filterMap fun l => (spCheck x.spSize true n (ea l).toNat).map fun k => (l, k, ea l)) <|
      .ok (c.spStores x (x.lanes.map fun l => ((ea l).toNat, x.g.storeData e.d n l)))

/-! ## ldsv and stsv (R91) -/

/-- The address of register j of a lane. -/
def Issue.svAddr (x : Issue) (e : Enc) (j l : Nat) : W64 :=
  x.g.baseS e + e.imm.signExtend 64 + BitVec.ofNat 64 (4 * (j * x.g.width + l))

/-- The failing lanes, each with its lowest failing register. -/
def Issue.svFails (x : Issue) (e : Enc) (store : Bool) : List (Nat × BitVec 8 × W64) :=
  x.lanes.filterMap fun l => (List.range e.c.toNat).findSome? fun j =>
    (spCheck x.spSize store 4 (x.svAddr e j l).toNat).map fun k => (l, k, x.svAddr e j l)

/-- ldsv. -/
def execLdsv (e : Enc) (s : State) : Host.Outcome State Fault Refusal :=
  issueC (.ldsv e) s fun x c =>
    laneTrap (x.svFails e false) <|
      let ready := x.loadReady (x.lanes.flatMap fun l =>
        (List.range e.c.toNat).map fun j => (x.svAddr e j l).toNat / 4)
      let g := x.putN x.g e.d e.c.toNat fun j l => BitVec.ofNat 32 (c.spNat x.team x.ctx (x.svAddr e j l).toNat 4)
      x.meets c (spReads (x.lanes.flatMap fun l => (List.range e.c.toNat).map fun j => (x.svAddr e j l).toNat) 4)
        (.ok (c.setGroup (g.hold x.now ready ((writesOf (.ldsv e) x.g.width).map (·.1)))))

/-- stsv. -/
def execStsv (e : Enc) (s : State) : Host.Outcome State Fault Refusal :=
  issueC (.stsv e) s fun x c =>
    laneTrap (x.svFails e true) <|
      .ok (c.spStores x ((List.range e.c.toNat).flatMap fun j =>
        x.lanes.map fun l => ((x.svAddr e j l).toNat, leBytes 4 (x.g.vecAt e.d j l).toNat)))

/-! ## movx and ldh -/

/-- The destination of a lane of movx (R92). -/
def Issue.movxDst (x : Issue) (e : Enc) (l : Nat) : W64 := (x.g.vec e e.d l).setWidth 64
/-- The source of a lane of movx. -/
def Issue.movxSrc (x : Issue) (e : Enc) (l : Nat) : W64 := (x.g.vec e e.a l).setWidth 64 + e.imm.signExtend 64

/-- The check of one lane of movx, its destination first. -/
def Issue.movxFail (x : Issue) (e : Enc) (l : Nat) : Option (Nat × BitVec 8 × W64) :=
  let n := 4 * e.c.toNat
  match spCheck x.spSize true n (x.movxDst e l).toNat with
  | some k => some (l, k, x.movxDst e l)
  | none => (spCheck x.spSize false n (x.movxSrc e l).toNat).map fun k => (l, k, x.movxSrc e l)

/-- movx (R92): every source is read before any destination is written. -/
def execMovx (e : Enc) (s : State) : Host.Outcome State Fault Refusal :=
  issueC (.movx e) s fun x c =>
    let n := 4 * e.c.toNat
    laneTrap (x.lanes.filterMap (x.movxFail e)) <|
      let moves := x.lanes.map fun l =>
        ((x.movxDst e l).toNat, leBytes n (c.spNat x.team x.ctx (x.movxSrc e l).toNat n))
      x.meets c (spReads (x.lanes.map fun l => (x.movxSrc e l).toNat) n)
        (.ok (c.spStores x moves))

/-- ldh (R93): both doublewords of one object. -/
def execLdh (e : Enc) (s : State) : Host.Outcome State Fault Refusal :=
  issueC (.ldh e) s fun x c =>
    let ea := x.g.baseS e + e.imm.signExtend 64
    if ea.toNat % 16 ≠ 0 then .trap 0x09 ea x.act
    else if !inHearth ea.toNat then .trap 0x08 ea x.act
    else
      let k := (ea.toNat - hearthBase) / 8
      let g := x.putS (x.putS x.g e.d (c.hearthWord x.team x.ctx k)) (e.d + 1) (c.hearthWord x.team x.ctx (k + 1))
      .ok (c.setGroup (g.hold x.now (x.now + 20) [.s e.d.toNat, .s (e.d.toNat + 1)]))

end Sys2Proof.Machine
end

