-- ==== Sys2Proof/Machine/Device.lean ====
section
/-! DEFINITION. Device-memory accesses of lanes and groups, atoms, fences and leases (R202, R203, R217 to R219, R225,
R226, R231, R234 to R241). -/
namespace Sys2Proof.Machine

/-! ## Addresses and their checks -/

/-- Who makes a group's lane accesses (R190). -/
def Issue.who (x : Issue) : Accessor := { core := x.core, ctx := x.ctx, group := x.g.id, owner := .group x.g.id }
/-- Who makes its scalar accesses: their lines belong to the reserve (R219). -/
def Issue.whoReserve (x : Issue) : Accessor := { core := x.core, ctx := x.ctx, group := x.g.id, owner := .reserve }

/-- The address of a lane: base + index × scale + offset, the literal replacing the offset in E+L (R17, R218, R235). A
scalar base or an index of 0xFF is zero in the E+L form too, as R217 and R234 say; R17 by itself would read the literal
there (a choice of the model, log 80). -/
def Issue.devAddr (x : Issue) (e : Enc) (index : BitVec 8) (scale : Nat) (l : Nat) : W64 :=
  let base := if e.as_ then (if e.a = 0xFF#8 then 0#64 else x.g.scalar e.a.toNat)
    else if e.a = 0xFF#8 then Enc.lit e else x.g.vpair e.a.toNat l
  let idx := if index = 0xFF#8 then 0#32 else x.g.vreg index.toNat l
  base + idx.signExtend 64 * BitVec.ofNat 64 scale + Enc.imm64 e

/-- The address of a lane of ldg, stg, ldac or strl: B indexes, scaled by C (R217, R239). -/
def Issue.memAddr (x : Issue) (e : Enc) (l : Nat) : W64 := x.devAddr e e.b (2 ^ (e.c.toNat % 8)) l

/-- The check of one access of `n` bytes: misaligned, else its translation (R218). -/
def Chip.checkAccess (c : Chip) (core ctx : Nat) (n : Nat) (acc : Access) (ea : W64) :
    Chip × Except (BitVec 8) Phys :=
  if ea.toNat % n ≠ 0 then (c, .error 0x09#8)
  else
    match c.translate (corePlaces core) ctx ea.toNat n acc with
    | (c, .ok p) => (c, .ok p)
    | (c, .error k) => (c, .error (BitVec.ofNat 8 k))

/-- The checks of every lane before any access: the chip after the walks, the translations by lane, and the failing
lanes (R218). -/
def Chip.checkLanes (c : Chip) (x : Issue) (n : Nat) (acc : Access) (ea : Nat → W64) :
    Chip × List (Nat × Phys) × List (Nat × BitVec 8 × W64) :=
  x.lanes.foldl (fun (r : Chip × List (Nat × Phys) × List (Nat × BitVec 8 × W64)) l =>
    match r.1.checkAccess x.core x.ctx n acc (ea l) with
    | (c, .ok p) => (c, r.2.1 ++ [(l, p)], r.2.2)
    | (c, .error k) => (c, r.2.1, r.2.2 ++ [(l, k, ea l)])) (c, [], [])

/-! ## A group's order with its own atoms (R206, R222) -/

/-- Bytes of an atom's element. -/
def AtomOp.bytes (op : AtomOp) : Nat := 4 * AtomOp.regs op

/-- Whether a unit of an atom and an access of `n` bytes must keep their program order: they share a word, or both
reach host memory. -/
def AtomUnit.ordered (u : AtomUnit) (op : AtomOp) (p : Phys) (n : Nat) : Bool :=
  (p.cp == 3 && u.phys.cp == 3)
    || decide (p.pa / 4 ≤ (u.phys.pa + AtomOp.bytes op - 1) / 4 ∧ u.phys.pa / 4 ≤ (p.pa + n - 1) / 4)

/-- Whether a store of a strl and an access of `n` bytes must keep their program order. -/
def HeldStore.ordered (h : HeldStore) (p : Phys) (n : Nat) : Bool :=
  (p.cp == 3 && h.phys.cp == 3)
    || decide (p.pa / 4 ≤ (h.phys.pa + h.bytes.length - 1) / 4 ∧ h.phys.pa / 4 ≤ (p.pa + n - 1) / 4)

/-- Whether accesses of a group must wait for an atom that it has sent or for stores of its strl: a group sees a word no
earlier than its own latest write to it (R222). -/
def Chip.behindAtom (c : Chip) (g : Group) (n : Nat) (ps : List Phys) : Bool :=
  c.atoms.any (fun a => a.group == g.id && a.units.any fun u => ps.any fun p => u.ordered a.op p n)
    || c.held.any fun h => h.group == g.id && ps.any fun p => h.ordered p n

/-! ## Loads and stores of lanes -/

/-- The loads of the lanes, every word read once and line after line (R191): the numbers read by lane, and the first
lane that read poison. -/
def Chip.loadLanes (c : Chip) (who : Accessor) (n : Nat) (ps : List (Nat × Phys)) :
    Chip × SMap Nat × Option Nat :=
  let r := (wordsByLine (ps.map (·.2)) n).foldl (fun (r : Chip × List (Phys × Option W32)) p =>
    let v := r.1.loadWord who p
    (v.1, r.2 ++ [(p, v.2)])) (c, [])
  let got := fun (p : Phys) => numberAt r.2 p n
  (r.1, ps.filterMap fun p => (got p.2).map fun v => (p.1, v), (ps.find? fun p => (got p.2).isNone).map (·.1))

/-- The group as the chip holds it now, with a load's result written and its reader's earliest cycle (R218). -/
def Issue.loaded (x : Issue) (c : Chip) (d : BitVec 8) (regs : Nat) (part : Nat → Nat → W32) (vals : SMap Nat) : Chip :=
  c.onGroup x.g.id fun g =>
    (x.putN g d regs fun i l => part (SMap.get 0 vals l) i).hold x.now (x.now + 32)
      (if d = 0xFF#8 then [] else vecRegs d.toNat regs)

/-- The stores of the lanes in ascending order, so that the highest-numbered lane wins (R218). -/
def Chip.storeLanes (c : Chip) (store : Chip → Phys → List Byte → Chip) (ps : List (Nat × Phys))
    (data : Nat → List Byte) : Chip :=
  ps.foldl (fun c p => store c p.2 (data p.1)) c

/-- ldg (R217, R218). -/
def execLdg (ld : LdType) (e : Enc) (s : State) : Host.Outcome State Fault Refusal :=
  issueC (.ldg ld e) s fun x c =>
    let n := LdType.bytes ld
    let r := c.checkLanes x n .read (x.memAddr e)
    laneTrap r.2.2 <|
      if c.behindAtom x.g n (r.2.1.map (·.2)) then .stall
      else
        let v := r.1.loadLanes x.who n r.2.1
        match v.2.2 with
        | some l => .teamTrap v.1 0x0E (x.memAddr e l)
        | none => .ok (x.loaded v.1 e.d (LdType.regs ld) (LdType.part ld) v.2.1)

/-- stg (R217, R218). -/
def execStg (st : StWidth) (e : Enc) (s : State) : Host.Outcome State Fault Refusal :=
  issueC (.stg st e) s fun x c =>
    let n := StWidth.bytes st
    let r := c.checkLanes x n .write (x.memAddr e)
    laneTrap r.2.2 <|
      if c.behindAtom x.g n (r.2.1.map (·.2)) then .stall
      else .ok (r.1.storeLanes (fun c p bs => c.storeBytes x.who p bs) r.2.1 (x.g.storeData e.d n))

/-! ## ldsc and stsc (R219) -/

/-- The address of a scalar access. -/
def Issue.scAddr (x : Issue) (e : Enc) : W64 :=
  (if e.a = 0xFF#8 then 0#64 else x.g.scalar e.a.toNat) + Enc.imm64 e

/-- Bytes of a scalar access. -/
def scBytes (e : Enc) : Nat := if e.ty.is64 then 8 else 4

/-- ldsc: nothing at all with no active lane. -/
def execLdsc (e : Enc) (s : State) : Host.Outcome State Fault Refusal :=
  issueC (.ldsc e) s fun x c =>
    if x.act = 0#64 then .ok c
    else
      let n := scBytes e
      match c.checkAccess x.core x.ctx n .read (x.scAddr e) with
      | (_, .error k) => .trap k (x.scAddr e) x.act
      | (c, .ok p) =>
        if c.behindAtom x.g n [p] then .stall
        else match c.loadBytes x.whoReserve p n with
        | (c, none) => .teamTrap c 0x0E (x.scAddr e)
        | (c, some v) =>
          let w : W64 := if e.ty.is64 then BitVec.ofNat 64 v
            else if e.ty.signed then (BitVec.ofNat 32 v).signExtend 64 else BitVec.ofNat 64 v
          .ok (c.onGroup x.g.id fun g => (x.putS g e.d w).hold x.now (x.now + 32) [.s e.d.toNat])

/-- stsc: nothing at all with no active lane. -/
def execStsc (e : Enc) (s : State) : Host.Outcome State Fault Refusal :=
  issueC (.stsc e) s fun x c =>
    if x.act = 0#64 then .ok c
    else
      let n := scBytes e
      match c.checkAccess x.core x.ctx n .write (x.scAddr e) with
      | (_, .error k) => .trap k (x.scAddr e) x.act
      | (c, .ok p) =>
        if c.behindAtom x.g n [p] then .stall
        else .ok (c.storeBytes x.whoReserve p (leBytes n (x.g.scalar e.d.toNat).toNat))

/-! ## Leases (R202, R203) -/

/-- A group's lease changed, and the activation of its core computed again (R198). -/
def Issue.setLease (x : Issue) (c : Chip) (f : Lease → Lease) : Chip :=
  (c.onGroup x.g.id fun g => { g with lease := f g.lease }).activate x.core

/-- lease.set. -/
def execLeaseSet (e : Enc) (s : State) : Host.Outcome State Fault Refusal :=
  issueC (.leaseSet e) s fun x c =>
    .ok (x.setLease c fun l => { l with decl := min (x.g.immA e).toNat 1792 })
/-- lease.get. -/
def execLeaseGet (e : Enc) (s : State) : Host.Outcome State Fault Refusal :=
  issueOk (.leaseGet e) s fun x => x.putS x.g e.d x.g.lease.word
/-- lease.mode. -/
def execLeaseMode (e : Enc) (s : State) : Host.Outcome State Fault Refusal :=
  issueC (.leaseMode e) s fun x c =>
    let v := x.g.immA e
    if 2 < v.toNat then .trap 0x01 v x.act else .ok (x.setLease c fun l => { l with mode := v.toNat })
/-- lease.pref. -/
def execLeasePref (e : Enc) (s : State) : Host.Outcome State Fault Refusal :=
  issueC (.leasePref e) s fun x c =>
    let n := min (x.g.immA e).toNat 1792
    .ok (x.setLease c fun l => { l with floor := n, meas := max l.meas n })

/-! ## Releases, acquires and the region (R225, R226, R316) -/

/-- Whether a group has an atom that is not wholly applied, or stores of a strl that are not performed. -/
def Chip.atomsOut (c : Chip) (g : Group) : Bool :=
  c.atoms.any (fun a => a.group == g.id) || c.held.any fun h => h.group == g.id

/-- The scope of an atom, fence, ldac or strl (R12). -/
def Enc.scope (e : Enc) : Scope :=
  match e.tyBits.toNat % 4 with
  | 0 => .grp
  | 1 => .team
  | 2 => .dev
  | _ => .sys

/-- Whether a scope reaches beyond the team. -/
def Scope.wide : Scope → Bool
  | .dev | .sys => true
  | _ => false

/-- A team's idempotent region closed by one of its operations (R314, R316). -/
def Chip.closeRegion (c : Chip) (team : Nat) : Chip :=
  c.onTeam team fun t => { t with rec_ := { t.rec_ with open_ := false } }

/-- The same for an operation whose effect comes after its issue: it closes no region but the one it issued in (R316). -/
def Chip.closeInstance (c : Chip) (team region : Nat) : Chip :=
  match c.team? team with
  | some t => if t.regionNo = region then c.closeRegion team else c
  | none => c

/-- Whether a fence waits: an acquire for the group's older atoms, whose loads have not returned, and a release for those,
for its older stores of strl and, at .team, for its stores on their way home (R225, R226). -/
def Chip.fenceWaits (c : Chip) (f : Fence) : Bool :=
  c.atoms.any (fun a => a.group == f.group && decide (a.id < f.number))
    || (f.rel && (c.held.any (fun h => h.group == f.group && decide (h.id < f.number))
      || (f.scope == .team && c.storesOut f.core f.group)))

/-- What a fence does once it waits no longer: the release, then the acquire. -/
def Chip.fenceDone (c : Chip) (f : Fence) : Chip :=
  let c := if f.rel then c.release f.core f.scope else c
  if f.acq then c.acquire f.core f.scope else c

/-- A fence takes effect at once, or its group goes on and it completes later (R238). -/
def Chip.fence (c : Chip) (f : Fence) : Chip :=
  if c.fenceWaits f then { c with fences := c.fences ++ [f], nextId := c.nextId + 1 } else c.fenceDone f

/-- A fence that has waited completes. -/
def Chip.endFence (c : Chip) (f : Fence) : Chip :=
  { c with fences := c.fences.filter fun q => q.number != f.number }.fenceDone f

/-- The fence that an instruction makes of a group. -/
def Issue.fence (x : Issue) (c : Chip) (e : Enc) (rel acq holds : Bool) : Fence :=
  { number := c.nextId, group := x.g.id, core := x.core, rel, acq, holds, scope := Enc.scope e }

/-- Whether an instruction that is a release at a scope must wait with its effect (R225, R231). -/
def Chip.releaseWaits (c : Chip) (core : Nat) (g : Group) (scope : Scope) : Bool :=
  c.atomsOut g || (scope == .team && c.storesOut core g.id)

/-- A fence: `rel` and `acq` say what it does (R225, R226, R238). -/
def runFence (i : Instr) (e : Enc) (rel acq : Bool) (s : State) : Host.Outcome State Fault Refusal :=
  issueC i s fun x c => .ok (c.fence (x.fence c e rel acq false))

/-- fence.acq (R238). -/
def execFenceAcq (e : Enc) (s : State) : Host.Outcome State Fault Refusal := runFence (.fenceAcq e) e false true s
/-- fence.rel. -/
def execFenceRel (e : Enc) (s : State) : Host.Outcome State Fault Refusal := runFence (.fenceRel e) e true false s
/-- fence.ar. -/
def execFenceAr (e : Enc) (s : State) : Host.Outcome State Fault Refusal := runFence (.fenceAr e) e true true s

/-- Bytes of an ldac or strl (R239). -/
def Enc.acBytes (e : Enc) : Nat := 4 * e.acRegs

/-- Register i of a loaded number. -/
def wordPart (v i : Nat) : W32 := BitVec.ofNat 32 (v / 2 ^ (32 * i))

/-- ldac (R239, R240): at a wide scope it reads the home slice, but for dirty words; then it acquires, which earlier stores
of the group's strl do not delay (R229). -/
def execLdac (e : Enc) (s : State) : Host.Outcome State Fault Refusal :=
  issueC (.ldac e) s fun x c =>
    let n := Enc.acBytes e
    let r := c.checkLanes x n .read (x.memAddr e)
    laneTrap r.2.2 <|
      if c.behindAtom x.g n (r.2.1.map (·.2)) then .stall
      else
        let home := fun (p : Phys) => if (Enc.scope e).wide && p.cp == 0 then ({ p with cp := 1 } : Phys) else p
        let v := r.1.loadLanes x.who n (r.2.1.map fun p => (p.1, home p.2))
        match v.2.2 with
        | some l => .teamTrap v.1 0x0E (x.memAddr e l)
        | none =>
          let c := x.loaded v.1 e.d e.acRegs wordPart v.2.1
          .ok (c.fence (x.fence c e false true false))

/-- The stores of a strl, to be made once its release, number `n`, has completed (R240): one for each physical address, which
takes the highest lane's data, whatever virtual addresses name it. At a wide scope they go through to home. -/
def Issue.heldStores (x : Issue) (e : Enc) (n : Nat) (ps : List (Nat × Phys)) : List HeldStore :=
  let last := ps.filter fun p => !(ps.any fun q => decide (p.1 < q.1) && q.2.pa == p.2.pa)
  (List.range last.length).filterMap fun k => (last[k]?).map fun p =>
    { id := n + 1 + k, fence := n, group := x.g.id, core := x.core, ctx := x.ctx, owner := .group x.g.id
      phys := if (Enc.scope e).wide && p.2.cp == 0 then { p.2 with cp := 1 } else p.2
      bytes := x.g.storeData e.d (Enc.acBytes e) p.1 }

/-- Whether a store of a strl may be made: its release has completed, and nothing older of its group stands before it
(R206, R229, R240). -/
def Chip.heldFree (c : Chip) (h : HeldStore) : Bool :=
  !(c.fences.any fun f => f.number == h.fence)
    && !(c.held.any fun k => k.group == h.group && decide (k.fence < h.fence) && h.ordered k.phys k.bytes.length)
    && !(c.atoms.any fun a => a.group == h.group && decide (a.id < h.id)
      && a.units.any fun u => u.ordered a.op h.phys h.bytes.length)

/-- The dirty copy of a word in a core's L1 registered before an atom is sent (R235). -/
def Chip.registerWord (c : Chip) (core wa : Nat) : Chip :=
  match c.line? core (wa / 32) with
  | none => c
  | some l =>
    if l.dirty.getLsbD (wa % 32) then
      (c.leaveCore core l.ctx l.stores (4 * wa) (leBytes 4 (SMap.get 0#32 l.words (wa % 32)).toNat) l.cmp (some core) false).setLine
        { l with dirty := l.dirty &&& ~~~(1#32 <<< (wa % 32)) }
    else c

/-- Whether a younger atom of a store's group waits for it (R222, R235). -/
def Chip.atomBehind (c : Chip) (h : HeldStore) : Bool :=
  c.atoms.any fun a => a.group == h.group && decide (h.id < a.id) && a.units.any fun u => u.ordered a.op h.phys h.bytes.length

/-- Words on their way home from a core: the dirty ones in its L1 are registered and leave its quench buffer (R212, R235). -/
def Chip.sendWords (c : Chip) (core : Nat) (words : List Nat) : Chip :=
  (words.foldl (fun c wa => c.registerWord core wa) c).quenchLeave core fun q => words.any fun wa => wa / 128 == q.block

/-- A store of a strl is performed: through to home, registered to the core, and into a valid copy, or at a narrow scope as
stg stores (R240). Where an atom of the group waits for it, its words go home at once, ahead of the atom (R222, R235). -/
def Chip.performHeld (c : Chip) (h : HeldStore) : Chip :=
  let c := ({ c with held := c.held.filter fun k => k.id != h.id }).storeBytes
    { core := h.core, ctx := h.ctx, group := h.group, owner := h.owner } h.phys h.bytes
  if c.atomBehind h then c.sendWords h.core ((h.phys.words h.bytes.length).map fun p => p.pa / 4) else c

/-- strl (R239, R240): it releases, and its stores are made after that, in no fixed order. The group goes on meanwhile. -/
def execStrl (e : Enc) (s : State) : Host.Outcome State Fault Refusal :=
  issueC (.strl e) s fun x c =>
    let n := Enc.acBytes e
    let r := c.checkLanes x n .write (x.memAddr e)
    laneTrap r.2.2 <|
      let k := r.1.nextId
      let hs := x.heldStores e k r.2.1
      let c := { r.1 with nextId := k + 1 + hs.length }.fence (x.fence r.1 e true false true)
      .ok { c with held := c.held ++ hs }

/-! ## atom (R234 to R237) -/

/-- Op of an atom on 32-bit elements (R235). -/
def AtomOp.apply32 (op : AtomOp) (old d : W32) : W32 :=
  let f := fun (fm : Fmt) (a b : Nat) => (fm.add .rn a b).1
  match op with
  | .addS32 => old + d
  | .addF32 => BitVec.ofNat 32 (f fmtF32 old.toNat d.toNat)
  | .addBf16x2 => BitVec.ofNat 32 (f fmtBF16 (old.toNat % 65536) (d.toNat % 65536)
      + 65536 * f fmtBF16 (old.toNat / 65536) (d.toNat / 65536))
  | .minS32 => if old.toInt ≤ d.toInt then old else d
  | .maxS32 => if old.toInt ≤ d.toInt then d else old
  | .minZ32 => if old.toNat ≤ d.toNat then old else d
  | .maxZ32 => if old.toNat ≤ d.toNat then d else old
  | .and => old &&& d
  | .or => old ||| d
  | .xor => old ^^^ d
  | _ => d

/-- Op of an atom on its element of 4 or 8 bytes. -/
def AtomOp.apply (op : AtomOp) (old d : W64) : W64 :=
  match op with
  | .addS64 => old + d
  | .swapS64 => d
  | _ => (AtomOp.apply32 op (old.setWidth 32) (d.setWidth 32)).setWidth 64

/-- Operations that host memory takes (R237). -/
def AtomOp.host (op : AtomOp) : Bool := [AtomOp.addS32, .swap, .addS64, .swapS64].contains op

/-- The lanes of an atom gathered by word, in the order in which the words first appear: lanes that name one word through two
mappings are applied together as well (R216, R236; log 124). -/
def atomUnits (ps : List (Nat × Phys)) (ea : Nat → W64) (data : Nat → W64) : List AtomUnit :=
  ((ps.map fun p => p.2.pa).eraseDups).filterMap fun a =>
    let mine := ps.filter fun p => p.2.pa == a
    mine.head?.map fun p => { ea := ea p.1, phys := p.2, lanes := mine.map fun q => (q.1, data q.1), high := false, olds := [] }

/-- atom: it is checked, closes the region and is sent, behind the core's own writes to its words (R212, R235);
atomApply applies it at its home. Of one that R237 refuses while its lanes mix CP 0b11 and other pages the manual does not
say which lanes the trap names: xval is the address of the lowest active lane and xmask holds all of them (a choice of the
model, log 103). -/
def execAtom (aop : AtomOp) (e : Enc) (s : State) : Host.Outcome State Fault Refusal :=
  issueC (.atom aop e) s fun x c =>
    let n := AtomOp.bytes aop
    let ea := x.devAddr e e.c n
    let r := c.checkLanes x n .both ea
    laneTrap r.2.2 <|
      let host := r.2.1.any fun p => p.2.cp == 3
      if host && !(AtomOp.host aop && Enc.scope e == .sys) then
        .trap 0x08 (ea (x.lanes.headD 0)) x.act
      else
        let c := r.1.closeRegion x.team.id
        if r.2.1.isEmpty then .ok c
        else
          let data := fun l => if AtomOp.regs aop = 2 then x.g.opB64 e l else (x.g.opB e l).setWidth 64
          let units := atomUnits r.2.1 ea data
          let words := units.flatMap fun u => (List.range (n / 4)).map fun i => u.phys.pa / 4 + i
          let c := c.sendWords x.core words
          let c := { c with
            atoms := c.atoms ++ [({ id := c.nextId, group := x.g.id, core := x.core, op := aop, dst := e.d.toNat, units } : Atom)]
            nextId := c.nextId + 1 }
          .ok (c.onGroup x.g.id fun (g : Group) =>
            { g with busy := g.busy ++ if e.d = 0xFF#8 then [] else vecRegs e.d.toNat (AtomOp.regs aop) })

end Sys2Proof.Machine
end

