-- ==== Sys2Proof/Machine/Matrix.lean ====
section
/-! DEFINITION. The matrix array, accumulator tiles and tile predicates (R141 to R161). -/
namespace Sys2Proof.Machine

/-! ## Tiles -/

/-- An element of a tile. -/
def Team.tile (t : Team) (T i j : Nat) : W32 := SMap.get 0#32 t.tiles (1024 * T + 32 * i + j)

/-- A tile with all its elements written. -/
def Team.setTile (t : Team) (T : Nat) (f : Nat → Nat → W32) : Team :=
  let mine := (List.range 1024).filterMap fun k =>
    let w := f (k / 32) (k % 32)
    if w = 0#32 then none else some (1024 * T + k, w)
  { t with tiles := t.tiles.filter (fun p => decide (p.1 < 1024 * T)) ++ mine
      ++ t.tiles.filter fun p => decide (1024 * (T + 1) ≤ p.1) }

/-- A tile that elements with flags are written to: the team gets the elements, the group the flags (R151, R154). -/
def Issue.putTile (x : Issue) (c : Chip) (T : Nat) (f : Nat → Nat → W32 × Flags) : Chip :=
  let rows := (List.range 1024).map fun k => f (k / 32) (k % 32)
  let word := fun i j => (rows[32 * i + j]?.map (·.1)).getD 0#32
  (c.onTeam x.team.id fun t => t.setTile T word).onGroup x.g.id fun g => g.raiseFlags (orFlags (rows.map (·.2)))

/-- The tile that a field names (R76). -/
def tileOf (v : BitVec 8) : Nat := v.toNat - 0x80

/-! ## What every MX instruction checks (R144, R152) -/

/-- The matrix-mask check. -/
def Issue.matrixMask (x : Issue) {α : Type} (k : Eff α) : Eff α :=
  if x.g.width ≠ 64 then .trap 0x0A (BitVec.ofNat 64 x.g.width) 0#64
  else
    let missing := ~~~x.g0.exited &&& ~~~x.act
    if missing ≠ 0#64 then .trap 0x0A x.act missing else k

/-- The predicate bit of the tile named by a field (R152). -/
def Issue.predicate (x : Issue) (e : Enc) (v : BitVec 8) : Bool := (x.g.kreg (e.c.toNat / 32)).getLsbD (tileOf v)

/-- The elements of a tile, as the words that an instruction reads. -/
def tileReads (T : Nat) : PoolWord → Bool
  | .tile t _ => t == T
  | _ => false

/-- The issue of an instruction of opcode 0x60 or 0x61: it retires with no effect where its predicate bit is 0, and
writes nothing where a word that it `reads` is lost (R160). -/
def issueMx (i : Instr) (e : Enc) (s : State) (reads : Issue → PoolWord → Bool) (f : Issue → Chip → Eff Chip) :
    Host.Outcome State Fault Refusal :=
  issueC i s fun x c => x.matrixMask (if x.predicate e e.d then x.meets c (reads x) (f x c) else .ok c)

/-! ## Scratchpad rows (R148, R149) -/

/-- The rows that a descriptor pair names at a tile index. -/
structure Rows where
  first : W64
  second : W64
  base  : Nat
  pitch : Nat
  rot   : Nat
  nMajor : Bool
  deriving DecidableEq, Repr

/-- The rows of a pair s[n], s[n+1] at tile index t. -/
def Group.rows (g : Group) (n t : Nat) : Rows :=
  let a := g.sreg n
  let b := g.sreg (n + 1)
  { first := a, second := b, base := fieldOf a.toNat 20 0 + t * fieldOf b.toNat 31 0, pitch := fieldOf a.toNat 47 32,
    rot := fieldOf b.toNat 34 32, nMajor := b.getLsbD 35 }

/-- The address of byte o of row x (R149). -/
def Rows.addr (r : Rows) (x o : Nat) : Nat :=
  r.base + x * r.pitch + (if r.rot = 0 then o else (o + 16 * (x % 2 ^ r.rot)) % r.pitch)

/-- The failure of an address. -/
def rowFail (size : Nat) (store : Bool) (a : Nat) : Option (BitVec 8 × W64) :=
  if store && inHearth a then some (0x06#8, BitVec.ofNat 64 a)
  else if a < size then none else some (0x08#8, BitVec.ofNat 64 a)

/-- The first check of R148 and R149 that rows of length L fail, in their order. -/
def Rows.fail (r : Rows) (size : Nat) (store : Bool) (n L : Nat) : Option (BitVec 8 × W64) :=
  if fieldOf r.first.toNat 63 48 ≠ 0 ∨ fieldOf r.first.toNat 31 21 ≠ 0 then some (0x02#8, r.first)
  else if fieldOf r.second.toNat 63 36 ≠ 0 then some (0x02#8, r.second)
  else if r.rot ≠ 0 ∧ (r.pitch % 16 ≠ 0 ∨ r.pitch < L) then some (0x01#8, r.first)
  else if r.base % 4 ≠ 0 then some (0x09#8, BitVec.ofNat 64 r.base)
  else if r.pitch % 4 ≠ 0 then some (0x09#8, BitVec.ofNat 64 r.pitch)
  else (List.range n).findSome? fun x => (List.range L).findSome? fun o => rowFail size store (r.addr x o)

/-- The scratchpad words of n rows of length L. -/
def Rows.reads (r : Rows) (n L : Nat) : PoolWord → Bool
  | .sp a => (List.range n).any fun k => (List.range L).any fun o => r.addr k o / 4 == a / 4
  | _ => false

/-- A check that traps with the active lanes in xmask. -/
def Issue.checked (x : Issue) {α : Type} (fail : Option (BitVec 8 × W64)) (k : Eff α) : Eff α :=
  match fail with
  | some (cause, v) => .trap cause v x.act
  | none => k

/-- A row of a scratchpad operand, as the number its bytes hold. -/
def Issue.rowNat (x : Issue) (r : Rows) (L k : Nat) : Nat :=
  leNat ((List.range L).map fun o => SMap.get 0#8 x.team.sp (r.addr k o))

/-! ## mma (R146 to R151) -/

/-- What the forms differ in: bits of an element, elements along K, registers, and row bytes. -/
inductive MmaKind where
  | bf16 | f16 | s8 | z8 | lg6
  deriving DecidableEq, Repr

/-- Bits of an element. -/
def MmaKind.bits : MmaKind → Nat
  | .bf16 | .f16 => 16 | .s8 | .z8 => 8 | .lg6 => 6
/-- Elements along K (R151). -/
def MmaKind.k : MmaKind → Nat
  | .bf16 | .f16 => 32 | .s8 | .z8 => 64 | .lg6 => 128
/-- Registers of a register operand (R147). -/
def MmaKind.regs : MmaKind → Nat
  | .lg6 => 12 | _ => 8
/-- Row length and rows of an N-major operand (R149). -/
def MmaKind.rowBytes (m : MmaKind) (nMajor : Bool) : Nat := if nMajor then 32 * m.bits / 8 else m.k * m.bits / 8
def MmaKind.rowCount (m : MmaKind) (nMajor : Bool) : Nat := if nMajor then m.k else 32

/-- An operand as the array has read it: its rows as numbers, whether they run along N, and the group whose exited
slices its lanes may belong to (R145); none for a scratchpad operand. -/
structure Operand where
  rows   : List Nat
  nMajor : Bool
  lanes  : Option Group

/-- A slice whose eight lanes have exited holds a lane. -/
def Group.goneSlice (g : Group) (l : Nat) : Bool :=
  (List.range 8).all fun i => (g.lanes[8 * (l / 8) + i]?.map (·.st.isExited)).getD true

/-- The words that the array reads of the lanes of n registers: those of no exited slice (R145, R160). -/
def Issue.laneReads (x : Issue) (r n : Nat) : PoolWord → Bool
  | .reg gi k l => gi == x.g.grpidx && decide (r ≤ k ∧ k < r + n) && !x.g0.goneSlice l
  | _ => false

/-- Row x of a register operand: lane x holds the first half of K and lane x + 32 the second (R147). -/
def Group.regRow (g : Group) (n regs x : Nat) : Nat :=
  ((List.range (2 * regs)).map fun i => (g.vreg (n + i % regs) (x + 32 * (i / regs))).toNat * 2 ^ (32 * i)).sum

/-- An operand read from registers or scratchpad. -/
def Issue.operand (x : Issue) (m : MmaKind) (sp : Bool) (n t : Nat) (isB : Bool) : Operand :=
  if sp then
    let r := x.g.rows n t
    let nm := isB && r.nMajor
    { rows := (List.range (m.rowCount nm)).map (x.rowNat r (m.rowBytes nm)), nMajor := nm, lanes := none }
  else { rows := (List.range 32).map (x.g.regRow n m.regs), nMajor := false, lanes := some x.g0 }

/-- The check of an operand. -/
def Issue.operandFail (x : Issue) (m : MmaKind) (sp : Bool) (n t : Nat) (isB : Bool) : Option (BitVec 8 × W64) :=
  if sp then
    let r := x.g.rows n t
    let nm := isB && r.nMajor
    r.fail x.spSize false (m.rowCount nm) (m.rowBytes nm)
  else none

/-- The pool words of an operand (R145, R160). -/
def Issue.operandReads (x : Issue) (m : MmaKind) (sp : Bool) (n t : Nat) (isB : Bool) (w : PoolWord) : Bool :=
  if sp then
    let r := x.g.rows n t
    let nm := isB && r.nMajor
    r.reads (m.rowCount nm) (m.rowBytes nm) w
  else x.laneReads n m.regs w

/-- Element k of row or column r; none where a lane of an exited slice would supply it (R145). -/
def Operand.elem (o : Operand) (m : MmaKind) (r k : Nat) : Option Nat :=
  let gone := match o.lanes with
    | some g => g.goneSlice (r + 32 * (k / (m.k / 2)))
    | none => false
  if gone then none
  else
    let (row, pos) := if o.nMajor then (k, r) else (r, k)
    some ((o.rows[row]?.getD 0) / 2 ^ (m.bits * pos) % 2 ^ m.bits)

/-- A scale of mma.lg6 for row or column r and block k (R150). -/
def Issue.scaleOf (x : Issue) (e : Enc) (v r k : Nat) : Int :=
  let lane := r + 32 * (k % 2)
  if v = 0xFF ∨ x.g0.goneSlice lane then 0
  else
    let byte := 2 * (k / 2) + (e.c.getLsbD 0).toNat
    (BitVec.ofNat 8 ((x.g.vreg v lane).toNat / 256 ^ byte)).toInt

/-- Product k of an element, with its flag (R151); a +0 term where a factor is exempt (R145). -/
def mmaProduct (m : MmaKind) (sa sb : Int) : Option Nat → Option Nat → FVal × Flags
  | some a, some b =>
    match m with
    | .bf16 => (fmtBF16.decode a).mul (fmtBF16.decode b)
    | .f16 => (fmtF16.decode a).mul (fmtF16.decode b)
    | _ => (lgProd (BitVec.ofNat 6 a) sa (BitVec.ofNat 6 b) sb, 0#5)
  | _, _ => (.fin false 0 0, 0#5)

/-- A float element (R151): one rounding of the exact sum. -/
def mmaFloat (m : MmaKind) (rnd : Rnd) (A B : Nat → Option Nat) (sa sb : Nat → Int) (acc : W32) : W32 × Flags :=
  let ps := (List.range m.k).map fun k => mmaProduct m (sa (k / 32)) (sb (k / 32)) (A k) (B k)
  let (r, fl) := fmtF32.sum rnd (ps.map (·.1) ++ [fmtF32.decode acc.toNat])
  (BitVec.ofNat 32 r, orFlags (fl :: ps.map (·.2)))

/-- An integer element (R151). -/
def mmaInt (signed sat : Bool) (A B : Nat → Option Nat) (acc : W32) : W32 × Flags :=
  let v := fun (a : Option Nat) => intOf signed (BitVec.ofNat 8 (a.getD 0))
  (narrow 32 true sat (acc.toInt + ((List.range 64).map fun k => v (A k) * v (B k)).sum), 0#5)

/-- The pool words that an mma reads: its tile, its operands and the scales of mma.lg6 (R160). -/
def Issue.mmaReads (x : Issue) (e : Enc) (m : MmaKind) (w : PoolWord) : Bool :=
  let scale := fun v => m == .lg6 && v != 0xFF && x.laneReads v 1 w
  tileReads (tileOf e.d) w || x.operandReads m e.as_ e.a.toNat (fieldOf e.imm.toNat 23 16) false w
    || x.operandReads m e.bs e.b.toNat (fieldOf e.imm.toNat 31 24) true w
    || scale (e.imm.toNat % 256) || scale (e.imm.toNat / 256 % 256)

/-- mma (R151). -/
def runMma (i : Instr) (e : Enc) (m : MmaKind) (s : State) : Host.Outcome State Fault Refusal :=
  issueMx i e s (fun x => x.mmaReads e m) fun x c =>
    let ta := fieldOf e.imm.toNat 23 16
    let tb := fieldOf e.imm.toNat 31 24
    x.checked (x.operandFail m e.as_ e.a.toNat ta false) <|
      x.checked (x.operandFail m e.bs e.b.toNat tb true) <|
        let A := x.operand m e.as_ e.a.toNat ta false
        let B := x.operand m e.bs e.b.toNat tb true
        let T := tileOf e.d
        .ok (x.putTile c T fun r j =>
          let acc := x.team.tile T r j
          match m with
          | .s8 => mmaInt true e.sat (A.elem m r) (B.elem m j) acc
          | .z8 => mmaInt false e.sat (A.elem m r) (B.elem m j) acc
          | _ => mmaFloat m e.rnd (A.elem m r) (B.elem m j) (x.scaleOf e (e.imm.toNat % 256) r)
              (x.scaleOf e (e.imm.toNat / 256 % 256) j) acc)

/-- mma.bf16. -/
def execMmaBf16 (e : Enc) (s : State) : Host.Outcome State Fault Refusal := runMma (.mmaBf16 e) e .bf16 s
/-- mma.f16. -/
def execMmaF16 (e : Enc) (s : State) : Host.Outcome State Fault Refusal := runMma (.mmaF16 e) e .f16 s
/-- mma.s8. -/
def execMmaS8 (e : Enc) (s : State) : Host.Outcome State Fault Refusal := runMma (.mmaS8 e) e .s8 s
/-- mma.z8. -/
def execMmaZ8 (e : Enc) (s : State) : Host.Outcome State Fault Refusal := runMma (.mmaZ8 e) e .z8 s
/-- mma.lg6. -/
def execMmaLg6 (e : Enc) (s : State) : Host.Outcome State Fault Refusal := runMma (.mmaLg6 e) e .lg6 s

/-! ## Tile instructions (R153, R154) -/

/-- tzero. -/
def execTzero (e : Enc) (s : State) : Host.Outcome State Fault Refusal :=
  issueMx (.tzero e) e s (fun _ _ => false) fun x c => .ok (c.onTeam x.team.id fun t => t.setTile (tileOf e.d) fun _ _ => 0#32)

/-- The rows of a tile instruction's descriptor. -/
def Issue.tileRows (x : Issue) (e : Enc) : Rows := x.g.rows e.a.toNat (e.imm.toNat % 256)

/-- tld. -/
def execTld (e : Enc) (s : State) : Host.Outcome State Fault Refusal :=
  issueMx (.tld e) e s (fun x => (x.tileRows e).reads 32 128) fun x c =>
    let r := x.tileRows e
    x.checked (r.fail x.spSize false 32 128) <|
      let rows := (List.range 32).map (x.rowNat r 128)
      .ok (c.onTeam x.team.id fun t =>
        t.setTile (tileOf e.d) fun i j => BitVec.ofNat 32 (rows[i]?.getD 0 / 2 ^ (32 * j)))

/-- Rows written to the scratchpad, a higher row over a lower one. -/
def Team.putRows (t : Team) (r : Rows) (rows : List (List Byte)) : Team :=
  (List.range rows.length).foldl (fun t i =>
    let bs := rows[i]?.getD []
    (List.range bs.length).foldl (fun t o => t.spPut (r.addr i o) [bs[o]?.getD 0#8]) t) t

/-- A store of a tile's rows, each element converted with its flags. -/
def runTileStore (i : Instr) (e : Enc) (n : Nat) (conv : W32 → Nat × Flags) (s : State) :
    Host.Outcome State Fault Refusal :=
  issueMx i e s (fun _ => tileReads (tileOf e.d)) fun x c =>
    let r := x.tileRows e
    x.checked (r.fail x.spSize true 32 (32 * n)) <|
      let out := (List.range 32).map fun i => (List.range 32).map fun j => conv (x.team.tile (tileOf e.d) i j)
      .ok ((c.onTeam x.team.id fun t =>
          t.putRows r (out.map fun row => row.flatMap fun v => leBytes n v.1)).onGroup x.g.id fun g =>
        g.raiseFlags (orFlags (out.flatten.map (·.2))))

/-- tst. -/
def execTst (e : Enc) (s : State) : Host.Outcome State Fault Refusal :=
  runTileStore (.tst e) e 4 (fun w => (w.toNat, 0#5)) s

/-- The conversion of tcvt. -/
def tcvtOf (e : Enc) (w : W32) : Nat × Flags :=
  match e.ty with
  | .bf16 => convertFmt fmtF32 fmtBF16 e.rnd w.toNat
  | .f16 => convertFmt fmtF32 fmtF16 e.rnd w.toNat
  | .f32 => fmtF32.ofInt e.rnd w.toInt
  | _ => let (v, fl) := fmtF32.toInt e.rnd true 32 w.toNat; ((BitVec.ofInt 32 v).toNat, fl)

/-- tcvt. -/
def execTcvt (e : Enc) (s : State) : Host.Outcome State Fault Refusal :=
  runTileStore (.tcvt e) e (match e.ty with | .bf16 | .f16 => 2 | _ => 4) (tcvtOf e) s

/-- tadd. -/
def execTadd (e : Enc) (s : State) : Host.Outcome State Fault Refusal :=
  issueMx (.tadd e) e s (fun _ w => tileReads (tileOf e.d) w || tileReads (tileOf e.a) w) fun x c =>
    let T := tileOf e.d
    .ok (x.putTile c T fun i j =>
      let a := x.team.tile T i j
      let b := x.team.tile (tileOf e.a) i j
      match e.ty with
      | .f32 => let (r, fl) := fmtF32.add e.rnd a.toNat b.toNat; (BitVec.ofNat 32 r, fl)
      | _ => (narrow 32 true e.sat (a.toInt + b.toInt), 0#5))

/-! ## Drains (R155 to R158) -/

/-- The address of row i of a drain (R155). -/
def Issue.drainRow (x : Issue) (e : Enc) (i : Nat) : W64 :=
  x.g.scalar e.a.toNat + e.imm.signExtend 64 + BitVec.ofNat 64 i * x.g.scalar e.b.toNat

/-- The translation of every word of a drain: its rows, or the first failing address. -/
def Chip.drainRows (c : Chip) (x : Issue) (e : Enc) (add : Bool) : Chip × Except (BitVec 8 × W64) (List DrainRow) :=
  let T := tileOf e.d
  (List.range 1024).foldl (fun (acc : Chip × Except (BitVec 8 × W64) (List DrainRow)) k =>
    match acc with
    | (c, .error f) => (c, .error f)
    | (c, .ok rows) =>
      let i := k / 32
      let a := x.drainRow e i + BitVec.ofNat 64 (4 * (k % 32))
      match c.translate (corePlaces x.core) x.ctx a.toNat 4 .write with
      | (c, .error f) => (c, .error (BitVec.ofNat 8 f, a))
      | (c, .ok p) =>
        if add && p.cp == 3 then (c, .error (0x08#8, a))
        else
          let w := (p, x.team.tile T i (k % 32))
          if k % 32 = 0 then (c, .ok (rows ++ [({ row := i, words := [w] } : DrainRow)]))
          else (c, .ok (updWhere (fun r => r.row == i) (fun r => { r with words := r.words ++ [w] }) rows)))
    (c, .ok [])

/-- A drain accepted by the array. A tdrain.add whose predicate bit is 0 leaves the team's region open, as it adds nothing
(a choice of the model, log 131). -/
def runDrain (i : Instr) (e : Enc) (add : Option Bool) (s : State) : Host.Outcome State Fault Refusal :=
  issueC i s fun x c =>
    if 63 ≤ x.g.counters.drain then .stall
    else x.matrixMask <|
      if !x.predicate e e.d then .ok c
      else x.meets c (tileReads (tileOf e.d)) <|
        let al := if add.isSome then 128 else 4
        let r0 := x.drainRow e 0
        if r0.toNat % al ≠ 0 then .trap 0x09 r0 x.act
        else if (x.g.scalar e.b.toNat).toNat % al ≠ 0 then .trap 0x09 (x.drainRow e 1) x.act
        else
          match c.drainRows x e add.isSome with
          | (_, .error f) => .trap f.1 f.2 x.act
          | (c, .ok rows) =>
            let c := if add.isSome then c.closeRegion x.team.id else c
            let d : Drain := { id := c.nextId, group := x.g.id, core := x.core, ctx := x.ctx, add, base := r0, pitch := x.g.scalar e.b.toNat, rows,
                                tile := tileOf e.d, since := x.now }
            .ok ({ c with drains := c.drains ++ [d], nextId := c.nextId + 1 }.onGroup x.g.id fun g => g.raise .drain)

/-- tdrain. -/
def execTdrain (e : Enc) (s : State) : Host.Outcome State Fault Refusal := runDrain (.tdrain e) e none s
/-- tdrain.add. -/
def execTdrainAdd (e : Enc) (s : State) : Host.Outcome State Fault Refusal :=
  runDrain (.tdrainAdd e) e (some (e.ty == .f32)) s

/-! ## kset (R159) -/

/-- A kset that reads only registers. -/
def runKset (i : Instr) (e : Enc) (f : Issue → W64) (s : State) : Host.Outcome State Fault Refusal :=
  issueOk i s fun x => x.putS x.g e.d (f x)

/-- kset.froms. -/
def execKsetFroms (e : Enc) (s : State) : Host.Outcome State Fault Refusal := runKset (.ksetFroms e) e (fun x => x.g.scalarA e) s

/-- Whether an element counts as nonzero. -/
def tileNonzero (ty : Ty) (w : W32) : Bool := if ty = .f32 then w.toNat % 2 ^ 31 != 0 else w != 0#32

/-- kset.nonzero: no bit is written where a word of the tile is lost (R160). -/
def execKsetNonzero (e : Enc) (s : State) : Host.Outcome State Fault Refusal :=
  issueC (.ksetNonzero e) s fun x c =>
    let T := tileOf e.a
    let some_ := (List.range 1024).any fun k => tileNonzero e.ty (x.team.tile T (k / 32) (k % 32))
    let old := x.g.scalar e.d.toNat
    x.meets c (tileReads T) (.ok (c.setGroup (x.putS x.g e.d (if some_ then old ||| bit T else old &&& ~~~bit T))))
/-- kset.and. -/
def execKsetAnd (e : Enc) (s : State) : Host.Outcome State Fault Refusal :=
  runKset (.ksetAnd e) e (fun x => x.g.scalar e.a.toNat &&& x.g.scalar e.b.toNat) s
/-- kset.or. -/
def execKsetOr (e : Enc) (s : State) : Host.Outcome State Fault Refusal :=
  runKset (.ksetOr e) e (fun x => x.g.scalar e.a.toNat ||| x.g.scalar e.b.toNat) s
/-- kset.not. -/
def execKsetNot (e : Enc) (s : State) : Host.Outcome State Fault Refusal :=
  runKset (.ksetNot e) e (fun x => ~~~x.g.scalar e.a.toNat) s

end Sys2Proof.Machine
end

