-- ==== Sys2Proof/Machine/Soft.lean ====
section
/-! DEFINITION. Soft regions (R162 to R187). -/
namespace Sys2Proof.Machine

/-! ## Live regions and their memory (R162, R163) -/

/-- A region changed. -/
def Chip.onSoft (c : Chip) (id : Nat) (f : Region → Region) : Chip :=
  { c with regions := updWhere (fun r => r.id == id) f c.regions }

/-- The live region that a descriptor address names for a group (R163, R167). -/
def Chip.softAt (c : Chip) (x : Issue) (addr : W64) : Option Region :=
  c.regions.find? fun r =>
    r.desc == addr && (if addr.msb then r.team == some x.team.id else r.team == none && r.ctx == x.ctx)

/-- Bytes of an element (R162). -/
def Region.esize (r : Region) : Nat := if r.bf16 then 2 else 4

/-- Where an address lies, by the frames an operation was issued with (R168). -/
def frameAt (frames : List (Nat × Phys)) (a : Nat) : Option Phys :=
  (frames.find? fun f => f.1 == a / 65536).map fun f => { f.2 with pa := f.2.pa + a % 65536 }

/-- A number of at most 4 bytes in a region's space. -/
def Chip.softNat (c : Chip) (r : Region) (frames : List (Nat × Phys)) (a n : Nat) : Nat :=
  match r.team with
  | some t => match c.team? t with
    | some t => natAt t.sp a n
    | none => 0
  | none => match frameAt frames a with
    | some p => c.homeNat p.pa n
    | none => 0

/-- At most 4 bytes written in a region's space: at home, with no owner (R223). -/
def Chip.softPut (c : Chip) (r : Region) (frames : List (Nat × Phys)) (a : Nat) (bs : List Byte) : Chip :=
  match r.team with
  | some t => c.onTeam t fun t => t.spPut a bs
  | none => match frameAt frames a with
    | some p => c.pageWrite p bs
    | none => c

/-- Bytes written in a region's space, word by word. -/
def Chip.softPutAll (c : Chip) (r : Region) (frames : List (Nat × Phys)) (a : Nat) (bs : List Byte) : Chip :=
  (wordPieces bs.length a bs).foldl (fun c p => c.softPut r frames p.1 p.2) c

/-- The bytes of the D fields (R162). -/
def Region.dFields (r : Region) (live : Bool) : List Byte :=
  leBytes 4 r.ticket.toNat ++ leBytes 4 r.appl.toNat ++ leBytes 4 r.tfill ++ leBytes 4 live.toNat

/-- The D fields written back (R162). -/
def Chip.writeBack (c : Chip) (r : Region) (live : Bool) : Chip :=
  match r.team with
  | some t => c.onTeam t fun t => t.spPut (r.desc.toNat % 2 ^ 21 + 0x20) (r.dFields live)
  | none => c.pageWrite { r.descPa with pa := r.descPa.pa + 0x20 } (r.dFields live)

/-! ## Checks at issue (R167, R168, R185) -/

/-- Registers per lane of a launch (R74). -/
def Desc.regs (d : Desc) : Nat := 32 * d.rq

/-- A descriptor address that breaks its alignment or leaves the scratchpad. -/
def Issue.descFail (x : Issue) (addr : W64) : Option (BitVec 8 × W64) :=
  if addr.msb then
    let off := addr.toNat % 2 ^ 21
    if off % 64 ≠ 0 then some (0x09#8, addr)
    else if fieldOf addr.toNat 62 21 ≠ 0 ∨ x.spSize < off + 64 then some (0x08#8, addr) else none
  else if addr.toNat % 128 ≠ 0 then some (0x09#8, addr) else none

/-- The first address of each page that a range meets. -/
def pagesOf (a n : Nat) : List Nat :=
  if n = 0 then [] else (List.range ((a + n - 1) / 65536 + 1 - a / 65536)).map fun i =>
    if i = 0 then a else (a / 65536 + i) * 65536

/-- Ranges translated page by page: their frames, or the first failing address (R168). -/
def Chip.framesOf (c : Chip) (x : Issue) (spans : List (Nat × Nat × Access)) :
    Chip × Except (BitVec 8 × W64) (List (Nat × Phys)) :=
  (spans.flatMap fun s => (pagesOf s.1 s.2.1).map fun a => (a, s.2.2)).foldl
    (fun (acc : Chip × Except (BitVec 8 × W64) (List (Nat × Phys))) p =>
      match acc with
      | (c, .error f) => (c, .error f)
      | (c, .ok fs) =>
        match c.translate (corePlaces x.core) x.ctx p.1 1 p.2 with
        | (c, .error f) => (c, .error (BitVec.ofNat 8 f, BitVec.ofNat 64 p.1))
        | (c, .ok q) => (c, .ok (fs ++ [(p.1 / 65536, { q with pa := q.pa - p.1 % 65536 })])))
    (c, .ok [])

/-- The block that a field names. -/
def blockOf (v : BitVec 8) (n : Nat) : Block := { reg := if v = 0xFF#8 then none else some v.toNat, count := n }

/-- The block after another. -/
def Block.after (b : Block) (gw n : Nat) : Block := { reg := b.reg.map (· + blockRegs b.count gw), count := n }

/-- The blocks a soft operation reads (weights first) and those it writes (R166, R178, R179). -/
def softBlocks (f : SoftForm) (d wv cf : BitVec 8) (r : Region) (gw : Nat) : List Block × List Block :=
  let w := blockOf wv r.n
  let cv := blockOf cf r.w
  match f with
  | .sldFwd => ([w], [blockOf d r.w])
  | .sldBwd => ([w, cv], [blockOf d r.n])
  | .blend => ([w, blockOf d r.w, cv], [])
  | .write | .add => ([w, blockOf d r.w], [])
  | .sstBwd => ([w, cv, cv.after gw r.w], [blockOf d r.n, cv, cv.after gw r.w])
  | .null => ([], [])

/-- Registers of a block that lie within R. -/
def Block.regs (b : Block) (gw limit : Nat) : List RegName :=
  match b.reg with
  | none => []
  | some r => (List.range (blockRegs b.count gw)).filterMap fun i => if r + i < limit then some (.v (r + i)) else none

/-- The first register number of a block at or beyond R. -/
def Block.overLimit (b : Block) (gw limit : Nat) : Option Nat :=
  match b.reg with
  | none => none
  | some r => if limit < r + blockRegs b.count gw then some (max r limit) else none

/-- The elements of a block; an exited lane supplies +0 (R165). -/
def Group.blockVals (g : Group) (b : Block) : List W32 :=
  (List.range b.count).map fun i =>
    match b.reg with
    | none => 0#32
    | some r => if g.exited.getLsbD (i % g.width) then 0#32 else g.vreg (r + i / g.width) (i % g.width)

/-- The registers that the live region gives a soft operation: those of its blocks, and in ordered mode that of its sequence
number (R167, R185). -/
def softMore (i : Instr) (f : SoftForm) (e : Enc) (c : Chip) (x : Issue) : List RegName × List RegName :=
  match c.softAt x (x.g.sreg e.a.toNat) with
  | none => ([], [])
  | some r =>
    let bs := softBlocks f e.d e.b e.c r x.g.width
    ((if r.ordered then seqReads i else []) ++ bs.1.flatMap fun b => b.regs x.g.width x.desc.regs,
      bs.2.flatMap fun b => b.regs x.g.width x.desc.regs)

/-- Length of a tape record of k touched slots (R176). -/
def Region.recLen (r : Region) (k : Nat) : Nat := 16 * ((k * r.w * r.esize + 15) / 16) + 48

/-- Whether a weight is +0 or −0 (R171). -/
def zeroWeight (w : W32) : Bool := w.toNat % 2 ^ 31 == 0

/-- The touched slots of a pointer (R171). -/
def touched (w : List W32) : List Nat := (List.range w.length).filter fun i => !zeroWeight (w[i]?.getD 0#32)

/-- Tape bytes that accepted operations have reserved, and those that a pop will free (R177). -/
def Region.reserved (r : Region) : Nat := ((r.ops.filter fun o => o.form != .sstBwd).map (·.bytes)).sum
def Region.popped (r : Region) : Nat := ((r.ops.filter fun o => o.form == .sstBwd).map (·.bytes)).sum

/-- The ranges that an operation may touch (R168). `tape` is the length of the record it would write; in ordered mode, behind a
waiting stape, or where the operation itself waits (`late`), TFILL may move until it is applied, and the record, or the one that
an sst.bwd pops, may lie lower or higher than now. R168 names no rights: the loads and sseq ask to read the data, every sst, a null
one too, to read and write it, each to read and write the gradients, and sst.bwd to write as well as to read the tape (a choice
of the model, log 112). -/
def softSpans (f : SoftForm) (r : Region) (null : Bool) (tape : Nat) (late : Bool) : List (Nat × Nat × Access) :=
  let data := r.n * r.w * r.esize
  let acc : Access := match f with | .sldFwd | .sldBwd | .null => .read | _ => .both
  let grad := match f with | .sldBwd | .sstBwd => r.gv | _ => false
  let at_ := r.tfill - r.popped + r.reserved
  [(r.base.toNat, data, acc)]
    ++ (if grad then [(r.gbase.toNat, 4 * r.n * r.w, Access.both)] else [])
    ++ (if tape != 0 && r.tv && (late || decide (r.tfill + r.reserved + tape ≤ r.tcap)) then
        (if r.ordered || late then [(r.tbase.toNat, r.tcap, Access.write)]
         else if r.gates.isEmpty then [(r.tbase.toNat + at_, tape, Access.write)]
         else [(r.tbase.toNat, at_ + tape, Access.write)]) else [])
    ++ (if f == .sstBwd && !null then [(r.tbase.toNat, if late then r.tcap else at_, Access.both)] else [])

/-! ## sld, sst and sseq (R168 to R173, R177, R179, R184) -/

/-- A header field of the newest record: its FORM, its length and its slot count (R176). -/
def Chip.tapeTop (c : Chip) (r : Region) (frames : List (Nat × Phys)) : Nat × Nat × Nat :=
  let h := fun o n => c.softNat r frames (r.tbase.toNat + r.tfill - 16 + o) n
  (h 4 1, 16 * h 6 2, h 8 2)

/-- The first lost word in some ranges of a region's space: the value of its report (R160, R376). -/
def Chip.spanLost (c : Chip) (r : Region) (frames : List (Nat × Phys)) (spans : List (Nat × Nat)) : Option W64 :=
  match r.team.bind c.team? with
  | some t => (t.lostWords.find? fun l => l.word.any fun w => match w with
      | .sp a => spans.any fun s => decide (s.1 / 4 ≤ a / 4 ∧ 4 * (a / 4) < s.1 + s.2)
      | _ => false).map (·.val)
  | none =>
    if c.poison.isEmpty then none
    else
      spans.findSome? fun s => (List.range (s.2 / 2)).findSome? fun k =>
        let a := s.1 + 2 * k
        match frameAt frames a with
        | some p => if c.poisoned p.pa 2 then some (BitVec.ofNat 64 (a / 4 * 4)) else none
        | none => none

/-- Ranges of a region's space are read at its home: those of device memory through their slices (R206). -/
def Chip.softRead (c : Chip) (r : Region) (frames : List (Nat × Phys)) (spans : List (Nat × Nat)) : Chip :=
  if r.team.isSome then c
  else
    (spans.flatMap fun s => if s.2 = 0 then [] else
      (List.range ((s.1 + s.2 - 1) / 128 + 1 - s.1 / 128)).map fun i => 128 * (s.1 / 128 + i)).foldl
      (fun c a => match frameAt frames a with | some p => c.l2Access p 128 | none => c) c

/-- The check of the newest record (R179): its length, or the trap's value. A header that is lost is not looked at: the
operation is accepted, and reports it when its turn comes (R185, R376). -/
def Chip.popCheck (c : Chip) (r : Region) (frames : List (Nat × Phys)) : Except W64 Nat :=
  if r.tv = false ∨ r.tfill = 0 then .error (bit 62)
  else if (c.spanLost r frames [(r.tbase.toNat + r.tfill - 16, 16)]).isSome then .ok 0
  else
    let (form, len, k) := c.tapeTop r frames
    if form < 1 ∨ 3 < form ∨ r.tfill < len ∨ len ≠ r.recLen k then
      .error (bit 63 ||| BitVec.ofNat 64 ((r.tfill - 16) % 2 ^ 32))
    else .ok len

/-- An operation's distance from APPL in ordered mode (R173). -/
def Region.ahead (r : Region) (q : W32) : Nat := (q - r.appl).toNat

/-- The release that a soft operation carries to its home (R175). -/
def Chip.softSent (c : Chip) (core : Nat) (r : Region) : Chip := if r.team.isSome then c else c.release core .dev

/-- Whether an operation must wait for its acceptance: 64 numbers and more ahead, behind a release that is not complete, or, for
sst.bwd, behind operations not yet applied or a waiting stape (R173, R175, R179, R183). -/
def Chip.softLate (c : Chip) (core : Nat) (g : Group) (r : Region) (f : SoftForm) (q : W32) : Bool :=
  (r.ordered && decide (64 ≤ r.ahead q))
    || (f == .sstBwd && ((if r.ordered then q != r.appl else !r.ops.isEmpty) || !r.gates.isEmpty))
    || c.releaseWaits core g (if r.team.isSome then .team else .dev)

/-- An operation accepted at its home, which draws its ticket in arrival mode (R170, R172, R175). -/
def Chip.acceptSoft (c : Chip) (core : Nat) (r : Region) (w : SoftWait) (bytes : Nat) : Chip :=
  let op := { w.op with bytes, ticket := if r.ordered then w.op.ticket else r.ticket }
  let c := (c.softSent core r).onSoft r.id fun r =>
    { r with ops := r.ops ++ [op], ticket := if r.ordered then r.ticket else r.ticket + 1 }
  c.onGroup op.group fun g =>
    let g := { g with busy := g.busy ++ if op.nullOp then [] else w.dst }
    match w.seqDst with
    | some d => g.setScalar d (op.ticket.setWidth 64)
    | none => g

/-- An operation tried at its home: a precise trap's cause and value, no answer yet, or the chip with the operation accepted
(R168, R173, R177, R179). The home looks at the newest tape record of an sst.bwd behind the release that the operation carries, so
it sees the group's own stores (R175). A region that is gone while the operation waits is not live when it is tried
(log 125). -/
def Chip.tryAccept (c : Chip) (core : Nat) (g : Group) (r? : Option Region) (w : SoftWait) :
    Except (BitVec 8 × W64) (Option Chip) :=
  match r? with
  | none => .error (0x08#8, w.addr)
  | some r =>
    let o := w.op
    let pops := o.form == .sstBwd && !o.nullOp
    if r.ordered ∧ (2 ^ 31 ≤ r.ahead o.ticket ∨ r.ops.any (fun p => p.ticket == o.ticket)) then .error (0x0B#8, r.appl ++ o.ticket)
    else if c.softLate core g r o.form o.ticket then .ok none
    else if o.bytes ≠ 0 ∧ (r.tv = false ∨ r.tcap < r.tfill + r.reserved + o.bytes) then .error (0x0C#8, BitVec.ofNat 64 o.bytes)
    else
      match (if pops then (c.softSent core r).popCheck r o.frames else .ok o.bytes) with
      | .error v => .error (0x0C#8, v)
      | .ok bytes =>
        let c := if pops then c.softRead r o.frames [(r.tbase.toNat + r.tfill - 16, 16)] else c
        .ok (some (c.acceptSoft core r w bytes))

/-- The issue of a soft operation beside its acceptance: the region it closes (R186, R316), and its blend counter (R170). -/
def Chip.issueSoft (c : Chip) (x : Issue) (r : Region) (f : SoftForm) : Chip :=
  let closes := r.team.isNone && (r.ordered || [SoftForm.blend, .write, .add, .sstBwd].contains f)
  (if closes then c.closeRegion x.team.id else c).onGroup x.g.id fun g => g.raise .blend

/-- A soft operation. `base` gives its sequence number, `seqDst` the field that takes its ticket. Where the home does not accept
it at once, its group issues nothing until it does (R168). -/
def runSoft (i : Instr) (e : Enc) (f : SoftForm) (seqDst : Option (BitVec 8)) (base : Group → W64)
    (s : State) : Host.Outcome State Fault Refusal :=
  issueMore i s (softMore i f e) fun x c =>
    let addr := x.g.sreg e.a.toNat
    let r? := c.softAt x addr
    let blocks := match r? with | some r => softBlocks f e.d e.b e.c r x.g.width | none => ([], [])
    let high := leastOf ((blocks.1 ++ blocks.2).filterMap fun b => b.overLimit x.g.width x.desc.regs)
    match high with
    | some n => .trap 0x01 (BitVec.ofNat 64 n) x.act
    | none =>
    x.checked (x.descFail addr) <|
    let null := x.act == 0#64 || f == .null
    let vals := if null then [] else blocks.1.map x.g.blockVals
    let taping := !null && e.sat && [SoftForm.blend, .write, .add].contains f
    let len := match r? with
      | some r => if taping then r.recLen (touched (vals.headD [])).length else 0
      | none => 0
    let q : W32 := (base x.g).setWidth 32 + e.imm
    let spans := if addr.msb then [] else (addr.toNat, 64, Access.read) ::
      (match r? with | some r => softSpans f r null len (c.softLate x.core x.g r f q) | none => [])
    match c.framesOf x spans with
    | (_, .error t) => .trap t.1 t.2 x.act
    | (c, .ok frames) =>
    match r? with
    | none => .trap 0x08 addr x.act
    | some r =>
      let op : SoftOp :=
        { group := x.g.id, form := f, ticket := q, rnd := e.rnd, tape := taping, w := vals.headD [],
          x := (vals[1]?).getD [], y := (vals[2]?).getD [], dst := e.d.toNat, dst2 := e.c.toNat, lanes := x.act,
          nullOp := null, bytes := len, frames }
      let w : SoftWait :=
        { op, addr, dst := blocks.2.flatMap fun b => b.regs x.g.width x.desc.regs, seqDst := seqDst.map (·.toNat),
          ia := x.ia, here := x.here, act := x.act }
      match c.tryAccept x.core x.g (some r) w with
      | .error t => .trap t.1 t.2 x.act
      | .ok c? =>
        if 63 ≤ x.g.counters.blend then .stall
        else match c? with
          | some c => .ok (c.issueSoft x r f)
          | none => .ok ((c.issueSoft x r f).onGroup x.g.id fun g => { g with wait := some (.accept r.id w) })

/-- The second register of a descriptor pair. -/
def pairSeq (e : Enc) (g : Group) : W64 := g.sreg (e.a.toNat + 1)

/-- sld.fwd. -/
def execSldFwd (e : Enc) (s : State) : Host.Outcome State Fault Refusal :=
  runSoft (.sldFwd e) e .sldFwd none (pairSeq e) s
/-- sld.bwd. -/
def execSldBwd (e : Enc) (s : State) : Host.Outcome State Fault Refusal :=
  runSoft (.sldBwd e) e .sldBwd none (pairSeq e) s
/-- sst.blend. -/
def execSstBlend (e : Enc) (s : State) : Host.Outcome State Fault Refusal :=
  runSoft (.sstBlend e) e .blend none (pairSeq e) s
/-- sst.write. -/
def execSstWrite (e : Enc) (s : State) : Host.Outcome State Fault Refusal :=
  runSoft (.sstWrite e) e .write none (pairSeq e) s
/-- sst.add. -/
def execSstAdd (e : Enc) (s : State) : Host.Outcome State Fault Refusal :=
  runSoft (.sstAdd e) e .add none (pairSeq e) s
/-- sst.bwd. -/
def execSstBwd (e : Enc) (s : State) : Host.Outcome State Fault Refusal :=
  runSoft (.sstBwd e) e .sstBwd none (pairSeq e) s
/-- sseq: always null; its ticket goes to s[D] (R184). -/
def execSseq (e : Enc) (s : State) : Host.Outcome State Fault Refusal :=
  runSoft (.sseq e) e .null (some e.d) (fun g => if e.b = 0xFF#8 then 0#64 else g.scalar e.b.toNat) s

/-! ## Application (R171, R174, R176, R178, R179) -/

/-- One fma of f32 operands, rounded to a format (R171). -/
def fmaTo (f : Fmt) (rnd : Rnd) (a b c : Nat) : Nat × Flags :=
  let (v, fl) := (fmtF32.decode a).mul (fmtF32.decode b)
  let (r, fr) := f.sum rnd [v, fmtF32.decode c]
  (r, fl ||| fr)

/-- An fma chain from +0. -/
def fmaChain (rnd : Rnd) (ts : List (Nat × Nat)) : Nat × Flags :=
  ts.foldl (fun (s : Nat × Flags) t => let r := fmaTo fmtF32 rnd t.1 t.2 s.1; (r.1, s.2 ||| r.2)) (0, 0#5)

/-- The sign bit of an f32 inverted. -/
def negF (x : Nat) : Nat := x ^^^ 2 ^ 31

/-- Element (i, j) of a region, read as f32 (R171). -/
def Chip.softElem (c : Chip) (r : Region) (fr : List (Nat × Phys)) (i j : Nat) : Nat :=
  let v := c.softNat r fr (r.base.toNat + r.esize * (i * r.w + j)) r.esize
  if r.bf16 then v * 65536 else v

/-- Gradient (i, j); zero with GV = 0 (R179). -/
def Chip.softGrad (c : Chip) (r : Region) (fr : List (Nat × Phys)) (i j : Nat) : Nat :=
  if r.gv then c.softNat r fr (r.gbase.toNat + 4 * (i * r.w + j)) 4 else 0

/-- Bytes at an address, to be written by an application. -/
abbrev Puts := List (Nat × List Byte)

/-- What an application comes to: its tape record, its elements in the order of the loops, each with its flags, the
results by block, the flags that they raise, and TFILL after it. `reads` says where an element takes what it writes from,
where that is not its own place. -/
structure Applied where
  tape  : Puts
  puts  : List (Nat × List Byte × Flags)
  outs  : List (Block × List Nat)
  flags : Flags
  tfill : Nat
  reads : List Nat := []

/-- An element of a list of operands. -/
def opAt (l : List W32) (i : Nat) : Nat := (l[i]?.getD 0#32).toNat

/-- sld.fwd (R171). -/
def applyFwd (c : Chip) (r : Region) (o : SoftOp) : Applied :=
  let ys := (List.range r.w).map fun j =>
    fmaChain o.rnd ((touched o.w).map fun i => (opAt o.w i, c.softElem r o.frames i j))
  { tape := [], puts := [], outs := [(blockOf (BitVec.ofNat 8 o.dst) r.w, ys.map (·.1))], flags := orFlags (ys.map (·.2)),
    tfill := r.tfill }

/-- sld.bwd (R178). -/
def applyBwd (c : Chip) (r : Region) (o : SoftOp) : Applied :=
  let dws := (List.range r.n).map fun i =>
    fmaChain o.rnd ((List.range r.w).map fun j => (opAt o.x j, c.softElem r o.frames i j))
  let gs := if r.gv then (touched o.w).flatMap fun i => (List.range r.w).map fun j =>
      let v := fmaTo fmtF32 o.rnd (opAt o.w i) (opAt o.x j) (c.softGrad r o.frames i j)
      (r.gbase.toNat + 4 * (i * r.w + j), v)
    else []
  { tape := [], puts := gs.map fun g => (g.1, leBytes 4 g.2.1, g.2.2),
    outs := [(blockOf (BitVec.ofNat 8 o.dst) r.n, dws.map (·.1))], flags := orFlags (dws.map (·.2)), tfill := r.tfill }

/-- The bytes of a tape record (R176). TKT is the ticket that the sst drew, whatever operations drew the earlier ones: R189
calls the tape of its program the same whichever sld is accepted first, while by R172 an earlier one moves the tickets
and so the TKT fields (a choice of the model, log 99). -/
def Chip.tapeRecord (c : Chip) (r : Region) (o : SoftOp) (form : Nat) : List Byte :=
  let ts := touched o.w
  let pre := ts.flatMap fun i => (List.range r.w).flatMap fun j =>
    leBytes r.esize (c.softNat r o.frames (r.base.toNat + r.esize * (i * r.w + j)) r.esize)
  pre ++ List.replicate (o.bytes - 48 - pre.length) 0#8 ++ leBytes 32 ((ts.map fun i => 2 ^ i).sum)
    ++ leBytes 4 o.ticket.toNat ++ leBytes 1 form ++ [0#8] ++ leBytes 2 (o.bytes / 16) ++ leBytes 2 ts.length
    ++ leBytes 6 0

/-- sst.blend, sst.write and sst.add (R171, R176). `form` is the tape's code of the form. -/
def applySst (c : Chip) (r : Region) (o : SoftOp) (form : Nat) : Applied :=
  let fe := if r.bf16 then fmtBF16 else fmtF32
  let e := fun j => match form with | 1 => opAt o.y j | 2 => 0x3F800000 | _ => 0
  let ms := (touched o.w).flatMap fun i => (List.range r.w).map fun j =>
    let m := c.softElem r o.frames i j
    let d := fmaTo fmtF32 o.rnd (negF (e j)) m (opAt o.x j)
    let v := fmaTo fe o.rnd (opAt o.w i) d.1 m
    (r.base.toNat + r.esize * (i * r.w + j), v.1, d.2 ||| v.2)
  let tape : Puts := if o.tape then [(r.tbase.toNat + r.tfill, c.tapeRecord r o form)] else []
  { tape, puts := ms.map fun m => (m.1, leBytes r.esize m.2.1, m.2.2), outs := [], flags := 0#5,
    tfill := r.tfill + if o.tape then o.bytes else 0 }

/-- sst.bwd (R179). Where its D block and its C block share registers, da and de stand: they are written after dw, an
order that R179 does not state (a choice of the model, log 84). -/
def applySstBwd (c : Chip) (r : Region) (o : SoftOp) (gw : Nat) : Applied :=
  let top := r.tbase.toNat + r.tfill
  let form := (c.tapeTop r o.frames).1
  let sm := fun i => c.softNat r o.frames (top - 48 + i / 8) 1 / 2 ^ (i % 8) % 2 == 1
  let hit := (List.range r.n).filter sm
  let slot := fun i => (hit.takeWhile (· != i)).length
  let preAddr := fun i j => top - o.bytes + r.esize * (slot i * r.w + j)
  let raw := fun i j => c.softNat r o.frames (preAddr i j) r.esize
  let P := fun i j => if sm i then (if r.bf16 then raw i j * 65536 else raw i j) else c.softElem r o.frames i j
  let G := c.softGrad r o.frames
  let e := fun j => match form with | 1 => opAt o.y j | 2 => 0x3F800000 | _ => 0
  let dws := (List.range r.n).map fun i =>
    (List.range r.w).foldl (fun (s : Nat × Flags) j =>
      let d := fmaTo fmtF32 o.rnd (negF (e j)) (P i j) (opAt o.x j)
      let v := fmaTo fmtF32 o.rnd (G i j) d.1 s.1
      (v.1, s.2 ||| d.2 ||| v.2)) (0, 0#5)
  let das := (List.range r.w).map fun j => fmaChain o.rnd (hit.map fun i => (opAt o.w i, G i j))
  let des := (List.range r.w).map fun j =>
    let ps := hit.map fun i => (fmtF32.product o.rnd (opAt o.w i) (P i j), G i j)
    let t := fmaChain o.rnd (ps.map fun p => (p.1.1, p.2))
    (if (fmtF32.decode t.1).isNaN then fmtF32.nan else negF t.1, orFlags (t.2 :: ps.map fun p => p.1.2))
  let gs := if r.gv then hit.flatMap fun i => (List.range r.w).map fun j =>
      let p := fmtF32.product o.rnd (opAt o.w i) (e j)
      let v := fmaTo fmtF32 o.rnd (negF p.1) (G i j) (G i j)
      (r.gbase.toNat + 4 * (i * r.w + j), v.1, p.2 ||| v.2)
    else []
  let ms := hit.flatMap fun i => (List.range r.w).map fun j =>
    (r.base.toNat + r.esize * (i * r.w + j), leBytes r.esize (raw i j), 0#5)
  let cv := blockOf (BitVec.ofNat 8 o.dst2) r.w
  { tape := [], puts := gs.map (fun g => (g.1, leBytes 4 g.2.1, g.2.2)) ++ ms,
    outs := [(blockOf (BitVec.ofNat 8 o.dst) r.n, dws.map (·.1)), (cv, das.map (·.1))]
      ++ (if form = 1 then [(cv.after gw r.w, des.map (·.1))] else []),
    flags := orFlags (dws.map (·.2) ++ das.map (·.2) ++ (if form = 1 then des.map (·.2) else [])),
    tfill := r.tfill - o.bytes
    reads := gs.map (·.1) ++ hit.flatMap fun i => (List.range r.w).map fun j => preAddr i j }

/-- What an operation comes to; a null operation comes to nothing (R169). -/
def Chip.applied (c : Chip) (r : Region) (o : SoftOp) (gw : Nat) : Applied :=
  if o.nullOp then { tape := [], puts := [], outs := [], flags := 0#5, tfill := r.tfill }
  else
    match o.form with
    | .sldFwd => applyFwd c r o
    | .sldBwd => applyBwd c r o
    | .blend => applySst c r o 1
    | .write => applySst c r o 2
    | .add => applySst c r o 3
    | .sstBwd => applySstBwd c r o gw
    | .null => { tape := [], puts := [], outs := [], flags := 0#5, tfill := r.tfill }

/-- The slots that the newest tape record names (R176). -/
def Chip.popSlots (c : Chip) (r : Region) (o : SoftOp) : List Nat :=
  let top := r.tbase.toNat + r.tfill
  (List.range r.n).filter fun i => c.softNat r o.frames (top - 48 + i / 8) 1 / 2 ^ (i % 8) % 2 == 1

/-- Ranges that an operation reads (R171, R178, R179): an sst.bwd reads the elements of the slots that its record does
not name, and of the others the record. -/
def Chip.softReads (c : Chip) (r : Region) (o : SoftOp) : List (Nat × Nat) :=
  let row := r.w * r.esize
  let rows := fun (is : List Nat) => is.map fun i => (r.base.toNat + i * row, row)
  let grads := fun (is : List Nat) => if r.gv then is.map fun i => (r.gbase.toNat + 4 * i * r.w, 4 * r.w) else []
  let all := List.range r.n
  if o.nullOp then []
  else
    match o.form with
    | .sldFwd | .blend | .write | .add => rows (touched o.w)
    | .sldBwd => rows all ++ grads (touched o.w)
    | .sstBwd =>
      let hit := c.popSlots r o
      let len := max o.bytes (min 48 r.tfill)
      (r.tbase.toNat + r.tfill - len, len) :: rows (all.filter fun i => !hit.contains i) ++ grads all
    | .null => []

/-- The first lost word that an operation would read: the value of its report (R160, R185, R376). -/
def Chip.softPoison (c : Chip) (r : Region) (o : SoftOp) : Option W64 := c.spanLost r o.frames (c.softReads r o)

/-- A result block written: lanes below its element count that were active at issue (R165). -/
def Group.putBlock (g : Group) (lanes : W64) (b : Block) (vals : List Nat) : Group :=
  match b.reg with
  | none => g
  | some r =>
    (List.range (blockRegs b.count g.width)).foldl (fun g k =>
      let ls := (List.range g.width).filter fun l => lanes.getLsbD l && decide (k * g.width + l < b.count)
      g.write 0 0 (.v (r + k)) (ls.map fun l => (l, BitVec.ofNat 64 (vals[k * g.width + l]?.getD 0)))) g

/-- The operation that a region applies next: the one of ticket APPL, unless a stape holds it (R173, R183). -/
def Chip.softNext (c : Chip) (r : Region) : Option SoftOp :=
  (r.ops.find? fun o => o.ticket == r.appl).filter fun o =>
    r.gates.all fun g => g.tickets.contains o.ticket || (c.group? g.group).isNone

/-- An operation applied and gone from its region: counter, registers, flags (R111, R170, R187). A null operation has kept no
register (R169). -/
def Chip.endSoft (c : Chip) (r : Region) (o : SoftOp) (gw : Nat) (outs : List (Block × List Nat)) (flags : Flags)
    (tfill : Nat) : Chip :=
  let c := c.onSoft r.id fun r =>
    { r with
      ops := r.ops.filter fun p => p.ticket != o.ticket
      appl := r.appl + 1
      ticket := if r.ordered then r.appl + 1 else r.ticket
      tfill }
  let dst := (softBlocks o.form (BitVec.ofNat 8 o.dst) 0xFF#8 (BitVec.ofNat 8 o.dst2) r gw).2
  let regs := dst.flatMap fun b => b.regs gw 256
  let c := c.onGroup o.group fun g =>
    let g := { g with busy := if o.nullOp then g.busy else g.busy.filter fun n => !regs.contains n }
    (outs.foldl (fun g p => g.putBlock o.lanes p.1 p.2) g).raiseFlags flags
  c.lower o.group .blend

/-- A lost word that a soft operation of a group would have read is to be reported to its team (R160, R185). -/
def Chip.softLost (c : Chip) (gid : Nat) (v : W64) : Chip :=
  match c.group? gid with
  | none => c
  | some g => c.onTeam g.team fun t =>
      { t with lostWords := t.lostWords ++ [{ word := none, val := v, met := some c.cyc, reported := false }] }

/-- The next element of an operation: its read-modify-write, on what its home holds now, is indivisible (R174, R233). After
the last one the operation has been applied. A lost word is never data (R376): where a word that the element needs is lost,
the operation ends there. Only its first element meets that, before it has written anything: before a word is lost, an
operation under way is applied to its end (settleSoft; R185). -/
def Chip.stepSoft (c : Chip) (r : Region) (o : SoftOp) (gw : Nat) (p : SoftProgress) : Chip :=
  let a := c.applied r o gw
  match a.puts[p.next]? with
  | none => c.endSoft r o gw p.outs p.flags a.tfill
  | some q =>
    match c.spanLost r o.frames [((a.reads[p.next]?).getD q.1, q.2.1.length)] with
    | some v => (c.endSoft r o gw [] 0#5 r.tfill).softLost o.group v
    | none =>
      let c := c.softPutAll r o.frames q.1 q.2.1
      let p := { p with next := p.next + 1, flags := p.flags ||| q.2.2 }
      if a.puts.length ≤ p.next then c.endSoft r o gw p.outs p.flags a.tfill
      else c.onSoft r.id fun r => { r with ops := updWhere (fun s => s.ticket == o.ticket) (fun s => { s with progress := some p }) r.ops }

/-- One step of an operation's application. The first one computes its results and writes its tape record; an operation
that would read a lost word writes nothing (R185). -/
def Chip.applySoft (c : Chip) (r : Region) (o : SoftOp) : Chip :=
  let gw := ((c.group? o.group).map (·.width)).getD 64
  match o.progress with
  | some p => c.stepSoft r o gw p
  | none =>
    match c.softPoison r o with
    | some v => (c.endSoft r o gw [] 0#5 r.tfill).softLost o.group v
    | none =>
      let a := c.applied r o gw
      (a.tape.foldl (fun c p => c.softPutAll r o.frames p.1 p.2) (c.softRead r o.frames (c.softReads r o))).stepSoft r o gw
        { next := 0, outs := a.outs, flags := a.flags }

/-- The operation that a region is applying, applied to its end in at most so many steps. -/
def Chip.endUnderWay : Nat → Chip → Nat → Chip
  | 0, c, _ => c
  | fuel + 1, c, id =>
    match c.regions.find? fun r => r.id == id with
    | none => c
    | some r =>
      match (c.softNext r).filter fun o => o.progress.isSome with
      | none => c
      | some o => Chip.endUnderWay fuel (c.applySoft r o) id

/-- Every operation under way applied to its end: what comes before the loss of a word, so that an operation that would read
the word has written nothing (R185; log 118). -/
def Chip.settleSoft (c : Chip) : Chip := c.regions.foldl (fun c r => c.endUnderWay (2 * r.n * r.w + 1) r.id) c

/-- The operations of a region applied whole, one after another, as far as their numbers have come (R187). -/
def Chip.finishSoft : Nat → Chip → Nat → Chip
  | 0, c, _ => c
  | fuel + 1, c, id =>
    match c.regions.find? fun r => r.id == id with
    | none => c
    | some r =>
      match c.softNext r with
      | none => c
      | some o => Chip.finishSoft fuel (c.applySoft r o) id

/-- The most steps that the application of a region's operations takes. -/
def Region.stepBound (r : Region) : Nat := r.ops.length * (2 * r.n * r.w + 1)

/-- Whether a region has accepted operations whose tickets have come, a stape before them or not: all in arrival mode,
and in ordered mode those not held behind a missing number (R168, R173, R370). -/
def Region.out (r : Region) : Bool := if r.ordered then r.ops.any fun o => o.ticket == r.appl else !r.ops.isEmpty

/-! ## hard (R180) -/

/-- A weight as hard orders it: a NaN counts as −∞, and −0 equals +0. -/
def hardKey (w : W32) : Int :=
  let v := fmtF32.decode w.toNat
  if v.isNaN then -(2 ^ 31) else if zeroWeight w then 0 else if w.msb then -((w.toNat % 2 ^ 31 : Nat) : Int) else (w.toNat : Int)

/-- The order of −∞ is that of a NaN. -/
def hardOrder (w : W32) : Int := if w = 0xFF800000#32 then -(2 ^ 31) else hardKey w

/-- The winning slot; ties go to the lowest. -/
def hardWinner (ws : List W32) : Nat :=
  (List.range ws.length).foldl (fun best i =>
    if hardOrder (ws[best]?.getD 0#32) < hardOrder (ws[i]?.getD 0#32) then i else best) 0

/-- hard.idx. -/
def execHardIdx (e : Enc) (s : State) : Host.Outcome State Fault Refusal :=
  issueOk (.hardIdx e) s fun x =>
    x.putS x.g e.d (BitVec.ofNat 64 (hardWinner (x.g.blockVals (blockOf e.a e.imm.toNat))))
/-- hard.onehot. -/
def execHardOnehot (e : Enc) (s : State) : Host.Outcome State Fault Refusal :=
  issueOk (.hardOnehot e) s fun x =>
    let k := hardWinner (x.g.blockVals (blockOf e.a e.imm.toNat))
    x.g.putBlock x.act (blockOf e.d e.imm.toNat)
      ((List.range e.imm.toNat).map fun i => if i = k then 0x3F800000 else 0)

/-! ## sinit, sfence and stape (R181 to R183) -/

/-- A region from its descriptor's bytes, with the checks of R181 that they decide: the region, or a status. A TCAP that is no
multiple of 16, which R162 asks for and items 3 and 4 of R181 do not name, gives status 2 (a choice of the model, log 115). -/
def regionOf (x : Issue) (addr : W64) (descPa : Phys) (id : Nat) (b : List Byte) : Except Nat Region :=
  let f := fun o n => leNat ((b.drop o).take n)
  let w3 := f 0x18 8
  let n := fieldOf w3 7 0 + 1
  let w := fieldOf w3 13 8 + 1
  let e := if fieldOf w3 16 16 = 1 then 2 else 4
  let gv := fieldOf w3 19 19 == 1
  let tv := fieldOf w3 20 20 == 1
  let home := fieldOf w3 17 17
  let tcap := fieldOf w3 63 32
  let ranges := [(f 0 8, n * w * e)] ++ (if gv then [(f 8 8, 4 * n * w)] else []) ++ if tv then [(f 0x10 8, tcap)] else []
  if fieldOf w3 31 21 ≠ 0 ∨ fieldOf w3 15 14 ≠ 0 ∨ f 0x30 16 ≠ 0 ∨ n = 1 ∨ (home = 1) = (addr.msb = true) then .error 1
  else if f 0 8 % 4 ≠ 0 ∨ (gv = true ∧ f 8 8 % 4 ≠ 0) ∨ (tv = true ∧ (f 0x10 8 % 16 ≠ 0 ∨ tcap % 16 ≠ 0))
      ∨ (if addr.msb then ranges.any fun p => decide (x.spSize < p.1 + p.2) else f 0 8 != addr.toNat + 64) then .error 2
  else .ok
    { id, team := if addr.msb then some x.team.id else none, ctx := x.ctx, desc := addr, descPa,
      base := BitVec.ofNat 64 (f 0 8), gbase := BitVec.ofNat 64 (f 8 8), tbase := BitVec.ofNat 64 (f 0x10 8), tcap, tv, gv,
      ordered := fieldOf w3 18 18 == 1, bf16 := e == 2, w, n, ticket := 0, appl := 0, tfill := 0, ops := [], gates := [] }

/-- The ranges of a region's data, gradient array and tape, each to be read and written: R181 does not say with which rights
sinit translates them (a choice of the model, log 111). -/
def Region.spans (r : Region) : List (Nat × Nat × Access) :=
  [(r.base.toNat, r.n * r.w * r.esize, .both)] ++ (if r.gv then [(r.gbase.toNat, 4 * r.n * r.w, .both)] else [])
    ++ if r.tv then [(r.tbase.toNat, r.tcap, .both)] else []

/-- The pages of a device-memory region, up to the first with CP = 0b11 (R181 item 5): whether there was one. -/
def Chip.regionPages (c : Chip) (x : Issue) (r : Region) : Chip × Except (BitVec 8 × W64) Bool :=
  (r.spans.flatMap fun s => (pagesOf s.1 s.2.1).map fun a => (a, s.2.2)).foldl
    (fun (acc : Chip × Except (BitVec 8 × W64) Bool) p =>
      match acc with
      | (c, .ok false) =>
        match c.translate (corePlaces x.core) x.ctx p.1 1 p.2 with
        | (c, .error f) => (c, .error (BitVec.ofNat 8 f, BitVec.ofNat 64 p.1))
        | (c, .ok q) => (c, .ok (q.cp == 3))
      | done => done) (c, .ok false)

/-- A full team or slice (R164). -/
def Chip.regionsFull (c : Chip) (r : Region) : Bool :=
  if r.team.isSome then decide (8 ≤ (c.regions.filter fun q => q.team == r.team).length)
  else decide (64 ≤ (c.regions.filter fun q => q.team.isNone && homeSlice q.descPa.pa == homeSlice r.descPa.pa).length)

/-- The descriptor's 64 bytes as its home reads them, after the core's dirty copies of them have gone home, as for a load of
the core (R212); none where a word is poisoned. -/
def Chip.readDesc (c : Chip) (x : Issue) (addr : W64) (p : Phys) : Chip × Option (List Byte) :=
  if addr.msb then (c, some (bytesAt x.team.sp (addr.toNat % 2 ^ 21) 64))
  else
    let c := c.sendWords x.core ((List.range 16).map fun i => p.pa / 4 + i)
    (c.l2Access p 64, if c.poisoned p.pa 64 then none else some (c.bytes p.pa 64))

/-- An instruction that reads a descriptor: one in scratchpad with a lost word makes it write nothing, and the word is to be
reported (R160, R185). -/
def Issue.meetsDesc (x : Issue) (c : Chip) (addr : W64) (k : Eff Chip) : Eff Chip :=
  if addr.msb then x.meets c (spReads [addr.toNat % 2 ^ 21] 64) k else k

/-- The shared beginning of the instructions that name a descriptor: its address checked and its page translated. -/
def Chip.descriptor (c : Chip) (x : Issue) (addr : W64) : Chip × Except (BitVec 8 × W64) Phys :=
  match x.descFail addr with
  | some f => (c, .error f)
  | none =>
    if addr.msb then (c, .ok { pa := 0, cp := 0, cmp := 0 })
    else
      match c.translate (corePlaces x.core) x.ctx addr.toNat 64 .both with
      | (c, .error f) => (c, .error (BitVec.ofNat 8 f, addr))
      | (c, .ok p) => (c, .ok p)

/-- A status written, and the region closed for a device-memory home (R181, R186). -/
def Chip.softStatus (c : Chip) (x : Issue) (e : Enc) (addr : W64) (st : Nat) : Chip :=
  let c := if addr.msb then c else c.closeRegion x.team.id
  c.onGroup x.g.id fun g => x.putS g e.d (BitVec.ofNat 64 st)

/-- sinit (R181). -/
def execSinit (e : Enc) (s : State) : Host.Outcome State Fault Refusal :=
  issueC (.sinit e) s fun x c =>
    let addr := x.g.scalar e.a.toNat
    match c.descriptor x addr with
    | (_, .error f) => .trap f.1 f.2 x.act
    | (c, .ok p) =>
      if (c.softAt x addr).isSome then .ok (c.softStatus x e addr 4)
      else
        x.meetsDesc c addr <|
        match c.readDesc x addr p with
        | (c, none) => .teamTrap c 0x0E addr
        | (c, some b) =>
          match regionOf x addr p c.nextId b with
          | .error st => .ok (c.softStatus x e addr st)
          | .ok r =>
            match (if addr.msb then (c, .ok false) else c.regionPages x r) with
            | (_, .error f) => .trap f.1 f.2 x.act
            | (c, .ok host) =>
              if host then .ok (c.softStatus x e addr 2)
              else if c.regionsFull r then .ok (c.softStatus x e addr 3)
              else
                let c := ({ c with regions := c.regions ++ [r], nextId := c.nextId + 1 } : Chip).writeBack r true
                .ok (c.softStatus x e addr 0)

/-- Whether an sfence's point has been reached (R182). -/
def Region.reached (r : Region) (point : Option W32) (before : List W32) : Bool :=
  match point with
  | some b => decide ((r.appl - b).toNat < 2 ^ 31)
  | none => !(r.ops.any fun o => before.contains o.ticket)

/-- Whether it is the turn, at a region's home, of a stape or sfence with an arrival number, or of an instruction that arrives
now with the next one: those that arrived before it and whose waits are over act first (R170). -/
def Chip.softTurn (c : Chip) (r : Region) (number : Nat) : Bool :=
  !(r.gates.any fun q => decide (q.number < number) && !(r.ops.any fun o => q.tickets.contains o.ticket))
    && !(c.groups.any fun g => match g.wait with
      | some (.softPoint id n p b _) => id == r.id && decide (n < number) && r.reached p b
      | _ => false)

/-- sinit.rel (R181): behind the stapes and sfences that have arrived before it and wait no longer (R170). -/
def execSinitRel (e : Enc) (s : State) : Host.Outcome State Fault Refusal :=
  issueC (.sinitRel e) s fun x c =>
    let addr := x.g.scalar e.a.toNat
    match c.descriptor x addr with
    | (_, .error f) => .trap f.1 f.2 x.act
    | (c, .ok p) =>
      match c.softAt x addr with
      | none => .ok (c.softStatus x e addr 5)
      | some r =>
        if !r.ops.isEmpty then .ok (c.softStatus x e addr 4)
        else if !c.softTurn r c.nextId then .stall
        else
          let c := c.writeBack { r with descPa := p } false
          .ok (({ c with regions := c.regions.filter fun q => q.id != r.id } : Chip).softStatus x e addr 0)

/-- The completion of an sfence: write-back, TICKET to s[D], acquire (R182). A region that is gone, released while the sfence
waited for tickets not yet drawn, gives it nothing to write back or acquire: the manual does not state this case, and the
wait then just ends (a choice of the model, log 98). -/
def Chip.finishFence (c : Chip) (gid core region dst : Nat) : Chip :=
  match c.regions.find? fun r => r.id == region with
  | none => c
  | some r =>
    let c := c.writeBack r true
    let c := if r.team.isSome then c else c.acquire core .dev
    c.onGroup gid fun g => g.setScalar dst (r.ticket.setWidth 64)

/-- sfence (R182). -/
def execSfence (e : Enc) (s : State) : Host.Outcome State Fault Refusal :=
  issueC (.sfence e) s fun x c =>
    let addr := x.g.scalar e.a.toNat
    match c.descriptor x addr with
    | (_, .error f) => .trap f.1 f.2 x.act
    | (c, .ok p) =>
      match c.softAt x addr with
      | none => .trap 0x08 addr x.act
      | some r =>
        let c := c.onSoft r.id fun r => { r with descPa := p }
        let point : Option W32 := if e.b = 0xFF#8 then none else some ((x.g.scalar e.b.toNat).setWidth 32)
        let before := r.ops.map (·.ticket)
        if r.reached point before && c.softTurn r c.nextId then .ok (c.finishFence x.g.id x.core r.id e.d.toNat)
        else .ok ({ c with nextId := c.nextId + 1 }.onGroup x.g.id fun g =>
          { g with wait := some (.softPoint r.id c.nextId point before e.d.toNat) })

/-- TFILL as a stape leaves it: as it is, or what it sets; none for a value that breaks R183. -/
def Region.newFill (r : Region) (set : Option W64) : Option Nat :=
  match set with
  | none => some r.tfill
  | some v => let fill := v.toNat % 2 ^ 32; if fill % 16 ≠ 0 ∨ r.tfill < fill then none else some fill

/-- Whether a stape waits no longer: the operations accepted before its arrival are applied, and the instructions that
arrived before it have acted (R170, R183). -/
def Chip.tapeFree (c : Chip) (r : Region) (g : Gate) : Bool :=
  !(r.ops.any fun o => g.tickets.contains o.ticket) && c.softTurn r g.number

/-- The completion of a stape: TFILL set, the operations behind it let go, write-back, and the old TFILL to s[D]. -/
def Chip.finishTape (c : Chip) (gid : Nat) (r : Region) (fill dst : Nat) : Chip :=
  let r' := { r with tfill := fill, gates := r.gates.filter fun q => q.group != gid }
  ((c.onSoft r.id fun _ => r').writeBack r' true).onGroup gid fun g => g.setScalar dst (BitVec.ofNat 64 r.tfill)

/-- stape (R183): it waits for the operations accepted before its arrival, and for the instructions that arrived before it
(R170), and holds the operations accepted after it. The group issues nothing meanwhile. A setting one of a device-memory
region closes the group's region as it issues (R186, R316), also where it waits and its new TFILL then takes the trap, which R30
would have without effect (a choice of the model, log 123). -/
def execStape (e : Enc) (s : State) : Host.Outcome State Fault Refusal :=
  issueC (.stape e) s fun x c =>
    let addr := x.g.scalar e.a.toNat
    match c.descriptor x addr with
    | (_, .error f) => .trap f.1 f.2 x.act
    | (c, .ok p) =>
      match c.softAt x addr with
      | none => .trap 0x08 addr x.act
      | some r =>
        let set := if e.b = 0xFF#8 then none else some (x.g.scalar e.b.toNat)
        let gate : Gate := { group := x.g.id, number := c.nextId, tickets := r.ops.map (·.ticket) }
        let c := if addr.msb ∨ e.b = 0xFF#8 then c else c.closeRegion x.team.id
        if c.tapeFree r gate then
          match r.newFill set with
          | none => .trap 0x08 (set.getD 0#64) x.act
          | some fill => .ok (c.finishTape x.g.id { r with descPa := p } fill e.d.toNat)
        else
          let c := { c with nextId := c.nextId + 1 }.onSoft r.id fun r =>
            { r with descPa := p, gates := r.gates.filter (fun (q : Gate) => q.group != x.g.id) ++ [gate] }
          .ok (c.onGroup x.g.id fun g =>
            { g with wait := some (.tape r.id { set, dst := e.d.toNat, ia := x.ia, here := x.here, act := x.act }) })

end Sys2Proof.Machine
end

