-- ==== Sys2Proof/Machine/Hash.lean ====
section
/-! DEFINITION. Scratchpad hash tables (R270 to R293). -/
namespace Sys2Proof.Machine

/-! ## Shape of a table (R271 to R273) -/

/-- Buckets, entries of a bucket, and bytes of a key. -/
def Table.buckets (t : Table) : Nat := 2 ^ t.logb
def Table.entries (t : Table) : Nat := if t.wide then 4 else 8
def Table.ks (t : Table) : Nat := if t.wide then 8 else 4
/-- Bytes of the table's memory (R272). -/
def Table.bytes (t : Table) : Nat := 64 * t.buckets + 64 * ((t.buckets + 511) / 512)
/-- Bits of a key. -/
def Table.kbits (t : Table) : Nat := 8 * t.ks
/-- The key that marks an empty entry, and the one that marks a tombstone (R272). -/
def Table.emptyKey (t : Table) : Nat := 2 ^ t.kbits - 1
def Table.tombKey (t : Table) : Nat := 2 ^ t.kbits - 2

/-- Address of a key, of its value, and of the byte that holds an overflow bit (R272). -/
def Table.keyAt (t : Table) (b i : Nat) : Nat := t.base + 64 * b + t.ks * i
def Table.valAt (t : Table) (b i : Nat) : Nat := t.base + 64 * b + 32 + t.ks * i
def Table.ovfAt (t : Table) (b : Nat) : Nat := t.base + 64 * t.buckets + b / 8

/-- Hash32 (R277). -/
def hash32 (k : W32) : W32 :=
  let x := k ^^^ k >>> 16
  let x := x * 0x45D9F3B5#32
  let x := x ^^^ x >>> 13
  let x := x * 0x2C1B3C6D#32
  x ^^^ x >>> 16

/-- Home(k) (R277). -/
def Table.home (t : Table) (k : W64) : Nat :=
  let lo : W32 := k.setWidth 32
  let w := if t.wide then lo ^^^ (k >>> 32).setWidth 32 * 0x61C88647#32 else lo
  (hash32 w).toNat % t.buckets

/-- The buckets of a key's window, in order (R278). -/
def Table.window (t : Table) (k : W64) : List Nat :=
  (List.range (min 4 t.buckets)).map fun d => (t.home k + d) % t.buckets

/-- The entries of a key's window, in order. -/
def Table.places (t : Table) (k : W64) : List (Nat × Nat) :=
  (t.window k).flatMap fun b => (List.range t.entries).map fun i => (b, i)

/-- A table of a team changed. -/
def Team.onTable (t : Team) (h : Nat) (f : Table → Table) : Team :=
  { t with tables := updWhere (fun u => u.handle == h) f t.tables }

/-- The table of a handle. -/
def Team.table? (t : Team) (h : Nat) : Option Table := t.tables.find? fun u => u.handle == h

/-- An overflow bit. -/
def Team.ovf (m : Team) (t : Table) (b : Nat) : Bool := (SMap.get 0#8 m.sp (t.ovfAt b)).getLsbD (b % 8)

/-- A counter of 32 bits counted down (R291). -/
def down32 (n : Nat) : Nat := (n + 2 ^ 32 - 1) % 2 ^ 32

/-! ## The spill array (R273, R283) -/

/-- What a spill access comes to: the place, or the status of a step that fails there (R283, R376). One through a page with CMP 0b10
or 0b11 gives status 3 and takes no trap (a choice of the model, log 132). -/
def Chip.spillPlace (c : Chip) (core ctx va n : Nat) (acc : Access) : Chip × Except Nat Phys :=
  match c.translate (corePlaces core) ctx va n acc with
  | (c, .error k) => (c, .error (if k = 14 then 6 else 3))
  | (c, .ok p) =>
    if p.cp = 3 then (c, .error 3)
    else if acc ≠ .write ∧ c.poisoned p.pa n then (c, .error 6) else (c, .ok p)

/-- The count word of a table. -/
def Chip.spillCount (c : Chip) (core ctx : Nat) (t : Table) : Chip × Except Nat Nat :=
  if t.scap = 0 then (c, .ok 0)
  else
    match c.spillPlace core ctx t.cnta.toNat 4 .read with
    | (c, .error e) => (c, .error e)
    | (c, .ok p) => (c.l2Access p 4, .ok (min (c.homeNat p.pa 4) t.scap))

/-- Address of a spill entry. -/
def Table.spillAt (t : Table) (n : Nat) : Nat := t.sbase.toNat + 2 * t.ks * n

/-- A spill entry read: its key and its value. -/
def Chip.spillRead (c : Chip) (core ctx : Nat) (t : Table) (n : Nat) : Chip × Except Nat (Nat × Nat) :=
  match c.spillPlace core ctx (t.spillAt n) (2 * t.ks) .read with
  | (c, .error e) => (c, .error e)
  | (c, .ok p) => (c.l2Access p (2 * t.ks), .ok (c.homeNat p.pa t.ks, c.homeNat (p.pa + t.ks) t.ks))

/-- What a lookup finds (R282). -/
inductive Found where
  | bucket (b i : Nat)
  | spill (n value : Nat)
  | nowhere
  | failed (status : Nat)
  deriving DecidableEq, Repr

/-- The search of spill entries from n on. -/
def Chip.searchSpill (c : Chip) (core ctx : Nat) (t : Table) (k : W64) : Nat → Nat → Chip × Found
  | 0, _ => (c, .nowhere)
  | fuel + 1, n =>
    match c.spillRead core ctx t n with
    | (c, .error e) => (c, .failed e)
    | (c, .ok (key, value)) => if key = k.toNat then (c, .spill n value) else Chip.searchSpill c core ctx t k fuel (n + 1)

/-- The lookup of a key (R282). -/
def Chip.lookup (c : Chip) (m : Team) (ctx : Nat) (t : Table) (k : W64) : Chip × Found :=
  match (t.places k).find? fun p => natAt m.sp (t.keyAt p.1 p.2) t.ks == k.toNat with
  | some p => (c, .bucket p.1 p.2)
  | none =>
    if !m.ovf t (t.home k) then (c, .nowhere)
    else
      match c.spillCount m.core ctx t with
      | (c, .error e) => (c, .failed e)
      | (c, .ok n) => c.searchSpill m.core ctx t k n 0

/-- A spill of a new entry: 2, or the status of its failure (R283). The overflow bit of the key's home is then set. Where
it writes device memory it closes the region of its instruction (R293). -/
def Chip.spillNew (c : Chip) (m : Team) (ctx : Nat) (t : Table) (k : W64) (value region : Nat) : Chip × Nat :=
  if t.scap = 0 then (c, 3)
  else
    match c.spillPlace m.core ctx t.cnta.toNat 4 .both with
    | (c, .error e) => (c, e)
    | (c, .ok p) =>
      let n := c.homeNat p.pa 4
      let c := (c.pageWrite p (leBytes 4 (min (n + 1) 0xFFFFFFFF))).closeInstance m.id region
      if t.scap ≤ n then (c, 3)
      else
        match c.spillPlace m.core ctx (t.spillAt n) (2 * t.ks) .write with
        | (c, .error e) => (c, e)
        | (c, .ok q) =>
          let c := c.pageWrite q (leBytes t.ks k.toNat ++ leBytes t.ks value)
          let b := t.home k
          (c.onTeam m.id fun m =>
            let old := SMap.get 0#8 m.sp (t.ovfAt b)
            (m.spPut (t.ovfAt b) [old ||| BitVec.ofNat 8 (2 ^ (b % 8))]).onTable t.handle fun t =>
              { t with ovf := t.ovf + if old.getLsbD (b % 8) then 0 else 1, spills := (t.spills + 1) % 2 ^ 32 }, 2)

/-! ## Combination (R284) -/

/-- Op of an accumulate. -/
def HopAcc.op (o : HopAcc) (x y : Nat) : Nat × Flags :=
  let s := fun (v : Nat) => (BitVec.ofNat 32 v).toInt
  match o with
  | .addS32 => ((x + y) % 2 ^ 32, 0#5)
  | .addF32 => fmtF32.add .rn x y
  | .minS32 => (if s x ≤ s y then x else y, 0#5)
  | .maxS32 => (if s x ≤ s y then y else x, 0#5)
  | .minF32 => fmtF32.minMax false x y
  | .maxF32 => fmtF32.minMax true x y

/-- Op of a step's form. -/
def HashOp.combine (o : HashOp) (x y : Nat) : Nat × Flags :=
  match o with
  | .acc a => HopAcc.op a x y
  | _ => ((x + y) % 2 ^ 64, 0#5)

/-- c of a key group, with the flags of its combination (R284). The value of a single lane stands as it is, a NaN too, with no flag (a
choice of the model, log 130). -/
def HashStep.combined (st : HashStep) : Nat × Flags :=
  match st.lanes.map fun l => l.2.toNat with
  | [] => (0, 0#5)
  | v :: vs => vs.foldl (fun (s : Nat × Flags) v => let r := st.op.combine s.1 v; (r.1, s.2 ||| r.2)) (v, 0#5)

/-! ## A step (R282, R283) -/

/-- What a step gives its lanes: the status of the lead and of the others, D of the lead, and D of the others where
they get one. -/
structure StepOut where
  lead   : Nat
  others : Nat
  dLead  : Nat
  dOther : Option Nat
  flags  : Flags
  deriving DecidableEq, Repr

/-- An entry of a bucket written with a live key. -/
def Team.placeEntry (m : Team) (t : Table) (b i : Nat) (k : W64) (value : Nat) (wasTomb : Bool) : Team :=
  ((m.spPut (t.keyAt b i) (leBytes t.ks k.toNat)).spPut (t.valAt b i) (leBytes t.ks value)).onTable t.handle fun t =>
    { t with live := (t.live + 1) % 2 ^ 32, tomb := if wasTomb then down32 t.tomb else t.tomb }

/-- The outcome of a failed step or spill (R283): status 3 to every lane, 0 in every D the form writes. -/
def failOut (op : HashOp) (status : Nat) (fl : Flags) : StepOut :=
  { lead := status, others := status, dLead := 0, dOther := if op = .probe then some 0 else none, flags := fl }

/-- A step on a key that was found in a bucket. -/
def Chip.stepBucket (c : Chip) (m : Team) (t : Table) (st : HashStep) (b i : Nat) : Chip × StepOut :=
  let old := natAt m.sp (t.valAt b i) t.ks
  let comb := st.combined
  match st.op with
  | .ins => (c, { lead := 1, others := 1, dLead := old, dOther := none, flags := 0#5 })
  | .probe => (c, { lead := 1, others := 1, dLead := old, dOther := some old, flags := 0#5 })
  | .del =>
    (c.onTeam m.id fun m => (m.spPut (t.keyAt b i) (leBytes t.ks t.tombKey)).onTable t.handle fun t =>
        { t with live := down32 t.live, tomb := (t.tomb + 1) % 2 ^ 32 },
      { lead := 1, others := 1, dLead := old, dOther := none, flags := 0#5 })
  | _ =>
    let r := st.op.combine old comb.1
    (c.onTeam m.id fun m => m.spPut (t.valAt b i) (leBytes t.ks r.1),
      { lead := 1, others := 1, dLead := old, dOther := none, flags := comb.2 ||| r.2 })

/-- A step on a key that was found in the spill array. -/
def Chip.stepSpill (c : Chip) (m : Team) (ctx : Nat) (t : Table) (st : HashStep) (n value : Nat) : Chip × StepOut :=
  let comb := st.combined
  match st.op with
  | .ins => (c, { lead := 1, others := 1, dLead := value, dOther := none, flags := 0#5 })
  | .probe => (c, { lead := 1, others := 1, dLead := value, dOther := some value, flags := 0#5 })
  | .del =>
    match c.spillPlace m.core ctx (t.spillAt n) t.ks .write with
    | (c, .error e) => (c, failOut st.op e 0#5)
    | (c, .ok p) =>
      ((c.pageWrite p (leBytes t.ks t.tombKey)).closeInstance m.id st.region,
        { lead := 1, others := 1, dLead := value, dOther := none, flags := 0#5 })
  | _ =>
    match c.spillPlace m.core ctx (t.spillAt n + t.ks) t.ks .both with
    | (c, .error e) => (c, failOut st.op e comb.2)
    | (c, .ok p) =>
      let old := c.homeNat p.pa t.ks
      ((c.pageWrite p (leBytes t.ks (st.op.combine old comb.1).1)).closeInstance m.id st.region,
        { lead := 2, others := 2, dLead := old, dOther := none, flags := comb.2 })

/-- A step on a key that was not found. -/
def Chip.stepNew (c : Chip) (m : Team) (ctx : Nat) (t : Table) (st : HashStep) : Chip × StepOut :=
  let comb := st.combined
  let isIns := decide (st.op = .ins)
  let value := if isIns then ((st.lanes.head?.map fun l => l.2.toNat).getD 0) else comb.1
  let fl := if isIns then 0#5 else comb.2
  let key := fun (p : Nat × Nat) => natAt m.sp (t.keyAt p.1 p.2) t.ks
  match (t.places st.key).find? fun p => key p == t.emptyKey || key p == t.tombKey with
  | some p =>
    (c.onTeam m.id fun m => m.placeEntry t p.1 p.2 st.key value (key p == t.tombKey),
      { lead := 0, others := if isIns then 1 else 0, dLead := 0, dOther := none, flags := fl })
  | none =>
    let r := c.spillNew m ctx t st.key value st.region
    let c := r.1
    if r.2 = 2 then (c, { lead := 2, others := if isIns then 1 else 2, dLead := 0, dOther := none, flags := fl })
    else (c, failOut st.op r.2 fl)

/-- A step's effect on its table (R282). -/
def Chip.stepTable (c : Chip) (m : Team) (ctx : Nat) (t : Table) (st : HashStep) : Chip × StepOut :=
  match c.lookup m ctx t st.key with
  | (c, .failed e) =>
    (c, failOut st.op e (match st.op with | .acc _ => st.combined.2 | _ => 0#5))
  | (c, .bucket b i) => c.stepBucket m t st b i
  | (c, .spill n v) => c.stepSpill m ctx t st n v
  | (c, .nowhere) =>
    match st.op with
    | .probe => (c, { lead := 4, others := 4, dLead := 0, dOther := some 0, flags := 0#5 })
    | .del => (c, { lead := 4, others := 4, dLead := 0, dOther := none, flags := 0#5 })
    | _ => c.stepNew m ctx t st

/-- A value written to a lane of a result vector, a pair where the table is wide. -/
def Group.putHash (g : Group) (d : Nat) (wide : Bool) (vals : List (Nat × Nat)) : Group :=
  if d = 0xFF ∨ vals.isEmpty then g
  else
    let g := g.write 0 0 (.v d) (vals.map fun p => (p.1, BitVec.ofNat 64 (p.2 % 2 ^ 32)))
    if wide then g.write 0 0 (.v (d + 1)) (vals.map fun p => (p.1, BitVec.ofNat 64 (p.2 / 2 ^ 32))) else g

/-- Registers of a hop's results. -/
def hashRegs (wide : Bool) (d st : Nat) : List RegName :=
  (if d = 0xFF then [] else vecRegs d (if wide then 2 else 1)) ++ if st = 0xFF then [] else [.v st]

/-- Table memory that a step reads (R282): the keys of its window up to the one it looks for, with that entry's value, or all
of them and the overflow bit of the key's home. -/
def Team.stepReads (m : Team) (t : Table) (k : W64) : List (Nat × Nat) :=
  let ps := t.places k
  let hit := fun (p : Nat × Nat) => natAt m.sp (t.keyAt p.1 p.2) t.ks == k.toNat
  let keys := fun (ps : List (Nat × Nat)) => ps.map fun p => (t.keyAt p.1 p.2, t.ks)
  match ps.find? hit with
  | some p => keys (ps.takeWhile fun q => !hit q) ++ [(t.keyAt p.1 p.2, t.ks), (t.valAt p.1 p.2, t.ks)]
  | none => keys ps ++ [(t.ovfAt (t.home k), 1)]

/-- One step applied: the table, then the results of its lanes (R280 to R284). Where C names a register of D's, the status
stands: the manual does not say which of the two is written last (a choice of the model, log 113). A step that would read a
lost word of the table writes nothing, and the word is to be reported (R160, R376; log 119). -/
def Chip.applyStep (c : Chip) (m : Team) (ctx : Nat) (st : HashStep) : Chip :=
  match m.table? st.handle with
  | none => c
  | some t =>
    if m.loses (spRanges (m.stepReads t st.key)) then c.meetWords m.id (spRanges (m.stepReads t st.key))
    else
    let (c, o) := c.stepTable m ctx t st
    let c := if o.lead = 3 then c.onTeam m.id fun m => m.onTable st.handle fun t => { t with fails := min 0xFFFF (t.fails + 1) }
      else c
    let ls := st.lanes.map (·.1)
    let others := ls.drop 1
    c.onGroup st.group fun g =>
      let g := g.putHash st.dst st.wide ((ls.take 1).map (fun l => (l, o.dLead))
        ++ match o.dOther with | some v => others.map fun l => (l, v) | none => [])
      let g := g.putHash st.st false ((ls.take 1).map (fun l => (l, o.lead)) ++ others.map fun l => (l, o.others))
      g.raiseFlags o.flags

/-! ## The cursor and the steps of hdrain (R289, R290) -/

/-- A cursor. -/
structure Cursor where
  fin   : Bool
  spill : Bool
  pos   : Nat
  deriving DecidableEq, Repr

/-- A cursor's word (R289). -/
def Cursor.word (k : Cursor) : W64 :=
  if k.fin then BitVec.allOnes 64 else BitVec.ofNat 64 (k.spill.toNat * 2 ^ 62 + k.pos % 2 ^ 32)

/-- A cursor of a table, if its word keeps the layout (R289). One with bit 63 set and some other bit clear breaks it: bit 63 is
0 unless every other bit is 1, though R289's list of breaks does not name this one (a choice of the model, log 106). -/
def cursorOf (t : Table) (w : W64) : Option Cursor :=
  if w = BitVec.allOnes 64 then some { fin := true, spill := false, pos := 0 }
  else if w.msb ∨ fieldOf w.toNat 61 32 ≠ 0 then none
  else
    let sp := w.getLsbD 62
    let pos := fieldOf w.toNat 31 0
    if !sp && decide (t.buckets * t.entries ≤ pos) then none else some { fin := false, spill := sp, pos }

/-- Where a drain stands: its cursor, the lanes not yet filled, and what the others got: key, value and status. -/
structure DrainState where
  k     : Cursor
  lanes : List Nat
  got   : List (Nat × Nat × Nat × Nat)
  deriving DecidableEq, Repr

/-- The next lane filled. -/
def DrainState.give (d : DrainState) (key value status : Nat) : DrainState :=
  match d.lanes with
  | [] => d
  | l :: ls => { d with lanes := ls, got := d.got ++ [(l, key, value, status)] }

/-- The cursor after the entry it names in the bucket phase. -/
def Cursor.next (k : Cursor) (t : Table) : Cursor :=
  if k.pos + 1 = t.buckets * t.entries then { k with spill := true, pos := 0 } else { k with pos := k.pos + 1 }

/-- Entries of bucket `b` examined from the cursor on, until the bucket or the lanes end: one step (R278, R290). -/
def Team.drainBucket (t : Table) (clear : Bool) (b : Nat) : Nat → Team → DrainState → Team × DrainState
  | 0, m, d => (m, d)
  | fuel + 1, m, d =>
    if d.lanes.isEmpty ∨ d.k.spill = true ∨ d.k.pos / t.entries ≠ b then (m, d)
    else
      let i := d.k.pos % t.entries
      let key := natAt m.sp (t.keyAt b i) t.ks
      let value := natAt m.sp (t.valAt b i) t.ks
      let d := { d with k := d.k.next t }
      if key ≠ t.emptyKey ∧ key ≠ t.tombKey then
        let m := if clear then
            ((m.spPut (t.keyAt b i) (leBytes t.ks t.emptyKey)).spPut (t.valAt b i) (leBytes t.ks 0)).onTable t.handle fun t =>
              { t with live := down32 t.live } else m
        Team.drainBucket t clear b fuel m (d.give key value 1)
      else
        let m := if clear ∧ key = t.tombKey then
            (m.spPut (t.keyAt b i) (leBytes t.ks t.emptyKey)).onTable t.handle fun t => { t with tomb := down32 t.tomb }
          else m
        Team.drainBucket t clear b fuel m d

/-- The end of an hdrain.clear: no overflow bit, and the count word zero (R290, R291, R293). A count word that can be read
and not written stays, and nothing reports it: R290 does not state this case (a choice of the model, log 107). -/
def Chip.drainEnd (c : Chip) (m : Team) (ctx : Nat) (t : Table) (region : Nat) : Chip :=
  let c := c.onTeam m.id fun m =>
    (m.spPut (t.base + 64 * t.buckets) (List.replicate (t.bytes - 64 * t.buckets) 0#8)).onTable t.handle fun t =>
      { t with ovf := 0, spills := 0 }
  if t.scap = 0 then c
  else match c.translate (corePlaces m.core) ctx t.cnta.toNat 4 .write with
    | (c, .ok p) => (c.pageWrite p (leBytes 4 0)).closeInstance m.id region
    | (c, .error _) => c

/-- One read of the count word with the spill entry that follows it: one step on the spill array (R290). -/
def Chip.drainSpill (c : Chip) (m : Team) (ctx : Nat) (t : Table) (clear : Bool) (region : Nat) (d : DrainState) :
    Chip × DrainState :=
  let fin := { d with k := { d.k with fin := true } }
  match c.spillCount m.core ctx t with
  | (c, .error e) => (c, fin.give t.emptyKey 0 e)
  | (c, .ok n) =>
    if n ≤ d.k.pos then (if clear then c.drainEnd m ctx t region else c, fin)
    else
      match c.spillRead m.core ctx t d.k.pos with
      | (c, .error e) => (c, fin.give t.emptyKey 0 e)
      | (c, .ok (key, value)) =>
        let d := { d with k := { d.k with pos := d.k.pos + 1 } }
        (c, if key ≠ t.emptyKey ∧ key ≠ t.tombKey then d.give key value 1 else d)

/-- The next step of a drain (R290): a bucket's entries, a step on the spill array, or the lanes left once the cursor is
finished. -/
def Chip.drainStep (c : Chip) (m : Team) (ctx : Nat) (t : Table) (clear : Bool) (region : Nat) (d : DrainState) :
    Chip × DrainState :=
  if d.k.fin then (c, { d with lanes := [], got := d.got ++ d.lanes.map fun l => (l, t.emptyKey, 0, 6) })
  else if d.k.spill then c.drainSpill m ctx t clear region d
  else
    let r := Team.drainBucket t clear (d.k.pos / t.entries) t.entries m d
    (c.onTeam m.id fun _ => r.1, r.2)

/-- Registers that an hdrain writes, but for its cursor's. -/
def drainRegs (wide : Bool) (d val st : Nat) : List RegName := hashRegs wide d 0xFF ++ hashRegs wide val st

/-- The results of a drain's step, and, once every lane is filled, its cursor; its registers are then free again. Where its
vectors share a register, the value stands over the key and the status over both: R290 gives no order (a choice of the
model, log 114). -/
def Group.drained (g : Group) (t : Table) (st : HashStep) (d : DrainState) : Group :=
  let g := g.putHash st.dst t.wide (d.got.map fun p => (p.1, p.2.1))
  let g := g.putHash st.val t.wide (d.got.map fun p => (p.1, p.2.2.1))
  let g := g.putHash st.st false (d.got.map fun p => (p.1, p.2.2.2))
  if d.lanes.isEmpty then
    let regs := drainRegs t.wide st.dst st.val st.st ++ scalarRegs st.cur 1
    { g.setScalar st.cur d.k.word with busy := g.busy.filter fun r => !regs.contains r }
  else g

/-- Table memory that a drain's step reads in the bucket phase: the keys and values of the entries that it examines, from its
cursor on to where it leaves it. -/
def DrainState.reads (d : DrainState) (t : Table) (last : Cursor) : List (Nat × Nat) :=
  if d.k.fin || d.k.spill then []
  else
    let stop := if last.spill then t.buckets * t.entries else last.pos
    (List.range (stop - d.k.pos)).flatMap fun i =>
      let n := d.k.pos + i
      [(t.keyAt (n / t.entries) (n % t.entries), t.ks), (t.valAt (n / t.entries) (n % t.entries), t.ks)]

/-- A drain that meets a lost word of its table ends there: this step writes nothing, its cursor keeps its value, its
registers are free again, and the word is to be reported (R160, R376; log 119). -/
def Chip.drainLost (c : Chip) (m : Team) (before after : List HashStep) (t : Table) (st : HashStep)
    (reads : PoolWord → Bool) : Chip :=
  let regs := drainRegs t.wide st.dst st.val st.st ++ scalarRegs st.cur 1
  ((c.onTeam m.id fun t => { t with steps := before ++ after }).onGroup st.group fun g =>
    { g with busy := g.busy.filter fun r => !regs.contains r }).meetWords m.id reads

/-- A drain's next step applied: `before` and `after` are the team's other steps. -/
def Chip.drainNext (c : Chip) (m : Team) (before after : List HashStep) (st : HashStep) (clear : Bool) : Chip :=
  match m.table? st.handle with
  | none => c.onTeam m.id fun t => { t with steps := before ++ after }
  | some t =>
    let k := (cursorOf t st.key).getD { fin := true, spill := false, pos := 0 }
    let d : DrainState := { k, lanes := st.lanes.map (·.1), got := [] }
    let r := c.drainStep m (c.ctxOf m) t clear st.region d
    let reads := spRanges (d.reads t r.2.k)
    if m.loses reads then c.drainLost m before after t st reads
    else
    let left := if r.2.lanes.isEmpty then [] else [{ st with key := r.2.k.word, lanes := r.2.lanes.map fun l => (l, 0#64) }]
    (r.1.onTeam m.id fun t => { t with steps := before ++ left ++ after }).onGroup st.group fun g => g.drained t st r.2

/-- The next step of a hash instruction, taken from its team and applied on the scratchpad as the hash unit sees it; its
registers are free again after its last step (R278, R281, R286, R292). -/
def Chip.hashNext (c : Chip) (id : Nat) : Option Chip :=
  (c.teams.find? fun t => t.steps.any fun s => s.id == id).map fun m =>
    c.asHash m.id (((m.steps.find? fun s => s.id == id).map (·.group)).getD 0) fun c =>
    match (c.team? m.id).bind fun m => (m.steps.find? fun s => s.id == id).map fun st => (m, st) with
    | none => c
    | some (m, st) =>
      let before := m.steps.takeWhile fun s => s.id != id
      let after := (m.steps.dropWhile fun s => s.id != id).drop 1
      match st.op with
      | .drain clear => c.drainNext m before after st clear
      | _ =>
        let rest := before ++ after
        let c := c.onTeam m.id fun t => { t with steps := rest }
        let c := if st.lanes.isEmpty then c else c.applyStep { m with steps := rest } (c.ctxOf m) st
        let regs := hashRegs st.wide st.dst st.st
        if st.last then c.onGroup st.group fun g => { g with busy := g.busy.filter fun r => !regs.contains r } else c

/-- Whether a hash instruction's next step may be applied: a hop completes no sooner than 30 cycles after its issue (R292). -/
def Chip.hashDue (c : Chip) (id : Nat) : Bool :=
  c.teams.any fun m =>
    match m.steps.find? fun s => s.id == id with
    | none => false
    | some st => !st.last || decide (st.since + 30 ≤ c.cyc)

/-- The hash instructions that have steps to be applied. The steps of one are applied in their order; those of two, of one group
or of several, in any (R278, R281). -/
def Chip.hashOps (c : Chip) : List Nat := ((c.teams.flatMap (·.steps)).map (·.id)).eraseDups

/-! ## The region at the issue of a hash operation (R293, R316) -/

/-- The steps of a group applied one after another in the order of its instructions, at most so many. -/
def Chip.hashRun : Nat → Chip → Nat → Chip
  | 0, c, _ => c
  | fuel + 1, c, gid =>
    match ((c.teams.flatMap (·.steps)).find? fun s => s.group == gid).bind fun st => c.hashNext st.id with
    | some c => Chip.hashRun fuel c gid
    | none => c

/-- The most steps that a team's formed steps can come to. -/
def Team.stepBound (m : Team) : Nat :=
  (m.steps.map fun st => match st.op, m.table? st.handle with
    | .drain _, some t => t.buckets + t.scap + st.lanes.length + 4
    | _, _ => 1).sum

/-- The team's region closed at the issue of a hash operation that will write device memory, which the model finds by
applying the group's steps on what the table and the spill array hold now (DEDUCED; log 85). -/
def Chip.closeForHash (c : Chip) (team gid : Nat) : Chip :=
  match c.team? team with
  | none => c
  | some m =>
    let after := Chip.hashRun m.stepBound (c.onTeam team fun t => { t with rec_ := { t.rec_ with open_ := true } }) gid
    if ((after.team? team).map (·.rec_.open_)).getD true then c else c.closeRegion team

/-! ## hop (R279 to R285) -/

/-- The key groups of the lanes, each with its lanes' values, in ascending order of their leads (R281). -/
def keyGroups (ls : List Nat) (key : Nat → W64) : List (List Nat) :=
  ((ls.map key).eraseDups).map fun k => ls.filter fun l => key l == k

/-- The handle that IMM32 names. -/
def handleOf (e : Enc) : Nat := e.imm.toNat % 8

/-- hop: it is checked, and its steps are formed. One that forms none keeps its time all the same, in a step without lanes
(R292). -/
def runHop (i : Instr) (e : Enc) (wide : Bool) (op : HashOp) (s : State) : Host.Outcome State Fault Refusal :=
  issueC i s fun x c =>
    let h := handleOf e
    let hv := BitVec.ofNat 64 h
    match x.team.table? h with
    | none => .trap 0x08 hv x.act
    | some t =>
      if t.wide ≠ wide then .trap 0x01 hv x.act
      else
        let key := fun l => if wide then x.g.vec2 e e.a l else (x.g.vec e e.a l).setWidth 64
        let value := fun l => if wide then x.g.vec2 e e.b l else (x.g.vec e e.b l).setWidth 64
        let isRes := fun l => (key l).toNat == t.emptyKey || (key l).toNat == t.tombKey
        let dead := x.lanes.filter isRes
        let groups := keyGroups (x.lanes.filter fun l => !isRes l) key
        let steps := (List.range groups.length).map fun n =>
          let ls := groups[n]?.getD []
          ({ id := c.nextId, group := x.g.id, handle := h, op, wide, key := key (ls.headD 0), lanes := ls.map fun l => (l, value l),
             dst := e.d.toNat, st := e.c.toNat, last := n + 1 == groups.length, since := x.now
             region := x.team.regionNo } : HashStep)
        let regs := hashRegs wide e.d.toNat e.c.toNat
        let none_ : HashStep :=
          { id := c.nextId, group := x.g.id, handle := h, op, wide, key := 0#64, lanes := [], dst := 0xFF, st := 0xFF, last := true
            since := x.now, region := x.team.regionNo }
        let c := { c with nextId := c.nextId + 1 }.onTeam x.team.id fun m => { m with steps := m.steps ++ if steps.isEmpty then [none_] else steps }
        let c := c.closeForHash x.team.id x.g.id
        .ok (c.onGroup x.g.id fun g =>
          let g := (g.putHash e.d.toNat wide (dead.map fun l => (l, 0))).putHash e.c.toNat false (dead.map fun l => (l, 5))
          let g := { g with busy := g.busy ++ if steps.isEmpty then [] else regs }
          g.hold x.now (x.now + 30) regs)

/-- hop.ins. -/
def execHopIns (e : Enc) (s : State) : Host.Outcome State Fault Refusal := runHop (.hopIns e) e false .ins s
/-- hop.probe. -/
def execHopProbe (e : Enc) (s : State) : Host.Outcome State Fault Refusal := runHop (.hopProbe e) e false .probe s
/-- hop.del. -/
def execHopDel (e : Enc) (s : State) : Host.Outcome State Fault Refusal := runHop (.hopDel e) e false .del s
/-- hop.acc, six operations. -/
def execHopAcc (acc : HopAcc) (e : Enc) (s : State) : Host.Outcome State Fault Refusal :=
  runHop (.hopAcc acc e) e false (.acc acc) s
/-- hop.ins64. -/
def execHopIns64 (e : Enc) (s : State) : Host.Outcome State Fault Refusal := runHop (.hopIns64 e) e true .ins s
/-- hop.probe64. -/
def execHopProbe64 (e : Enc) (s : State) : Host.Outcome State Fault Refusal := runHop (.hopProbe64 e) e true .probe s
/-- hop.del64. -/
def execHopDel64 (e : Enc) (s : State) : Host.Outcome State Fault Refusal := runHop (.hopDel64 e) e true .del s
/-- hop.acc64.add.s64. -/
def execHopAcc64 (e : Enc) (s : State) : Host.Outcome State Fault Refusal := runHop (.hopAcc64 e) e true .acc64 s

/-! ## Claiming, clearing and releasing (R274 to R276) -/

/-- The shape that a claim word gives; none for a bad one (R275 item 1). -/
def tableOf (h : Nat) (w : W64) : Option Table :=
  let f := fun hi lo => fieldOf w.toNat hi lo
  if f 63 53 ≠ 0 ∨ f 31 30 ≠ 0 ∨ f 24 21 ≠ 0 ∨ 14 < f 28 25 ∨ f 20 0 % 64 ≠ 0 ∨ f 52 32 % 32 ≠ 0 then none
  else some { handle := h, base := f 20 0, sda := f 52 32, wide := f 29 29 == 1, logb := f 28 25, sbase := 0, scap := 0,
              cnta := 0, tomb := 0, live := 0, fails := 0, ovf := 0, spills := 0 }

/-- A spill address that hclaim refuses (R275 item 2). -/
def Chip.spillBad (c : Chip) (x : Issue) (va al n : Nat) : Chip × Bool :=
  if va % al ≠ 0 then (c, true)
  else
    match c.translate (corePlaces x.core) x.ctx va n .both with
    | (c, .error _) => (c, true)
    | (c, .ok p) => (c, p.cp == 3)

/-- A table's spill descriptor read and checked: the table with it, or none for a bad address (R275 item 2). -/
def Chip.withSpill (c : Chip) (x : Issue) (t : Table) : Chip × Option Table :=
  if x.spSize < t.base + t.bytes ∨ x.spSize < t.sda + 32 then (c, none)
  else
    let f := fun o n => natAt x.team.sp (t.sda + o) n
    let t := { t with sbase := BitVec.ofNat 64 (f 0 8), scap := f 8 4, cnta := BitVec.ofNat 64 (f 16 8) }
    if f 12 4 ≠ 0 ∨ f 24 8 ≠ 0 then (c, none)
    else if t.scap = 0 then (c, some t)
    else
      match c.spillBad x (f 0 8) 16 (2 * t.ks) with
      | (c, true) => (c, none)
      | (c, false) =>
        match c.spillBad x (f 16 8) 4 4 with
        | (c, true) => (c, none)
        | (c, false) => (c, some t)

/-- Two ranges of bytes overlap. -/
def overlaps (a n b m : Nat) : Bool := decide (a < b + m ∧ b < a + n)

/-- A table meets another, or its own spill descriptor (R275 item 4). -/
def tableClash (t : Table) (others : List Table) : Bool :=
  overlaps t.base t.bytes t.sda 32 || others.any fun u =>
    overlaps t.base t.bytes u.base u.bytes || overlaps t.base t.bytes u.sda 32
      || overlaps t.sda 32 u.base u.bytes || overlaps t.sda 32 u.sda 32

/-- The effect of hclaim: an empty table, its count word zero (R275). -/
def Chip.freshTable (c : Chip) (x : Issue) (t : Table) : Chip :=
  let bucket := List.replicate 32 0xFF#8 ++ List.replicate 32 0#8
  let c := c.onTeam x.team.id fun m =>
    let m := (List.range t.buckets).foldl (fun m b => m.spPut (t.base + 64 * b) bucket) m
    let m := m.spPut (t.base + 64 * t.buckets) (List.replicate (t.bytes - 64 * t.buckets) 0#8)
    { m with tables := m.tables.filter (fun u => u.handle != t.handle) ++ [t] }
  if t.scap = 0 then c
  else
    match c.translate (corePlaces x.core) x.ctx t.cnta.toNat 4 .both with
    | (c, .ok p) => c.pageWrite p (leBytes 4 0)
    | (c, .error _) => c

/-- A group's hash operations that are not complete. -/
def Team.stepsOf (t : Team) (gid : Nat) : Bool := t.steps.any fun s => s.group == gid

/-- A claim status written. -/
def Issue.hashStatus (x : Issue) (c : Chip) (e : Enc) (st : Nat) : Eff Chip :=
  .ok (c.onGroup x.g.id fun g => x.putS g e.d (BitVec.ofNat 64 st))

/-- hclaim (R275). One whose spill descriptor has a lost word writes nothing, and the word is to be reported (R160, R376). -/
def execHclaim (e : Enc) (s : State) : Host.Outcome State Fault Refusal :=
  issueHash (.hclaim e) s fun x c =>
    match tableOf (handleOf e) (x.g.scalar e.a.toNat) with
    | none => x.hashStatus c e 1
    | some t =>
      x.meets c (spRanges [(t.sda, 32)]) <|
      match c.withSpill x t with
      | (c, none) => x.hashStatus c e 2
      | (c, some t) =>
        if (x.team.table? t.handle).isSome then x.hashStatus c e 3
        else if tableClash t x.team.tables then x.hashStatus c e 4
        else x.hashStatus (c.freshTable x t) e 0

/-- hrel (R276). -/
def execHrel (e : Enc) (s : State) : Host.Outcome State Fault Refusal :=
  issueC (.hrel e) s fun x c =>
    let h := handleOf e
    if (x.team.table? h).isNone then x.hashStatus c e 5
    else if x.team.steps.any fun st => st.handle == h then .stall
    else x.hashStatus (c.onTeam x.team.id fun m => { m with tables := m.tables.filter fun u => u.handle != h }) e 0

/-- hclr (R276). -/
def execHclr (e : Enc) (s : State) : Host.Outcome State Fault Refusal :=
  issueHash (.hclr e) s fun x c =>
    let h := handleOf e
    match x.team.table? h with
    | none => x.hashStatus c e 5
    | some t =>
      if x.team.steps.any fun st => st.handle == h then .stall
      else
        x.meets c (spRanges [(t.sda, 32)]) <|
        match c.withSpill x { t with tomb := 0, live := 0, fails := 0, ovf := 0, spills := 0 } with
        | (c, none) => x.hashStatus c e 2
        | (c, some t) => x.hashStatus (c.freshTable x t) e 0

/-! ## hdrain (R288 to R290) -/

/-- The high registers that an hdrain of a wide table writes beside those its encoding names (R288). -/
def drainMore (e : Enc) (x : Issue) : List RegName × List RegName :=
  let high := fun (v : BitVec 8) => if v = 0xFF#8 then [] else [RegName.v (v.toNat + 1)]
  ([], if ((x.team.table? (handleOf e)).map (·.wide)).getD false then high e.d ++ high e.b else [])

/-- hdrain: it is checked, and its steps follow those the group has formed before (R278, R290, R292). -/
def runHdrain (i : Instr) (e : Enc) (clear : Bool) (s : State) : Host.Outcome State Fault Refusal :=
  issueMore i s (fun _ x => drainMore e x) fun x c =>
    let h := handleOf e
    match x.team.table? h with
    | none => .trap 0x08 (BitVec.ofNat 64 h) x.act
    | some t =>
      let bad := fun (v : BitVec 8) => v ≠ 0xFF#8 ∧ (v.toNat % 2 ≠ 0 ∨ x.desc.regs < v.toNat + 2)
      if t.wide = true ∧ (bad e.d ∨ bad e.b) then .trap 0x01 (BitVec.ofNat 64 h) x.act
      else
        match cursorOf t (x.g.scalar e.a.toNat) with
        | none => .trap 0x01 (x.g.scalar e.a.toNat) x.act
        | some k =>
          if x.act = 0#64 then .ok c
          else
            let st : HashStep :=
              { id := c.nextId, group := x.g.id, handle := h, op := .drain clear, wide := t.wide, key := k.word
                lanes := x.lanes.map fun l => (l, 0#64), dst := e.d.toNat, st := e.c.toNat, last := false
                val := e.b.toNat, cur := e.a.toNat, since := x.now, region := x.team.regionNo }
            let c := { c with nextId := c.nextId + 1 }.onTeam x.team.id fun m => { m with steps := m.steps ++ [st] }
            let c := c.closeForHash x.team.id x.g.id
            .ok (c.onGroup x.g.id fun g =>
              { g with busy := g.busy ++ drainRegs t.wide e.d.toNat e.b.toNat e.c.toNat ++ scalarRegs e.a.toNat 1 })

/-- hdrain.keep. -/
def execHdrainKeep (e : Enc) (s : State) : Host.Outcome State Fault Refusal := runHdrain (.hdrainKeep e) e false s
/-- hdrain.clear. -/
def execHdrainClear (e : Enc) (s : State) : Host.Outcome State Fault Refusal := runHdrain (.hdrainClear e) e true s

/-! ## hstat (R291) -/

/-- hstat. It reads the counters once the group's own earlier steps have been applied (DEDUCED; log 37). -/
def execHstat (e : Enc) (s : State) : Host.Outcome State Fault Refusal :=
  issueG (.hstat e) s fun x =>
    let h := handleOf e
    match x.team.table? h with
    | none => .trap 0x08 (BitVec.ofNat 64 h) x.act
    | some t =>
      if x.team.stepsOf x.g.id then .stall
      else
      let g := x.putS x.g e.d (BitVec.ofNat 64 (t.tomb % 2 ^ 32 * 2 ^ 32 + t.live % 2 ^ 32))
      .ok (x.putS g (e.d + 1)
        (BitVec.ofNat 64 (min t.fails 0xFFFF * 2 ^ 48 + t.ovf % 2 ^ 16 * 2 ^ 32 + t.spills % 2 ^ 32)))

end Sys2Proof.Machine
end

