-- ==== Sys2Proof/Machine/Engine.lean ====
section
/-! DEFINITION. Sleep, engine operations and their commands, counters, barriers and mailboxes (R242 to R268). -/
namespace Sys2Proof.Machine

/-! ## sleep (R251, R252) -/

/-- The active lanes of an issue fall asleep; with none, nothing happens. -/
def Issue.sleep (x : Issue) (c : Chip) (deadline : W64) (prm : Option (EngClass × Nat)) (mask : BitVec 5) : Chip :=
  if x.act = 0#64 then c
  else
    let z : Sleep :=
      { id := c.nextId, deadline, prm, mask, happened := [], gated := false, from_ := x.now }
    let g := x.g.onLanes x.act fun l => { l with st := .asleep c.nextId }
    let c := { c with nextId := c.nextId + 1 }
    (c.setGroup { g with sleeps := g.sleeps ++ [z] }).activate x.core

/-- sleep.until. -/
def execSleepUntil (e : Enc) (s : State) : Host.Outcome State Fault Refusal :=
  issueC (.sleepUntil e) s fun x c => .ok (x.sleep c (x.g.immA e) none (e.c.setWidth 5))
/-- sleep.cyc. -/
def execSleepCyc (e : Enc) (s : State) : Host.Outcome State Fault Refusal :=
  issueC (.sleepCyc e) s fun x c => .ok (x.sleep c (BitVec.ofNat 64 x.now + x.g.immA e) none (e.c.setWidth 5))

/-- The class that a number names (R247). -/
def classOfNat : Nat → EngClass
  | 0 => .copy | 1 => .index | 2 => .drain | 3 => .blend | 4 => .attn | _ => .coll

/-- sleep.prm. -/
def execSleepPrm (e : Enc) (s : State) : Host.Outcome State Fault Refusal :=
  issueC (.sleepPrm e) s fun x c =>
    .ok (x.sleep c (x.g.scalar e.a.toNat) (some (classOfNat e.b.toNat, e.imm.toNat % 64)) (e.c.setWidth 5))

/-! ## Engine operations (R242 to R248, R255) -/

/-- Header fields of a command (R242). -/
def EngOp.code (o : EngOp) : Nat := cmdNat o.cmd 0 1
def EngOp.cnt (o : EngOp) : Bool := (BitVec.ofNat 8 (cmdNat o.cmd 1 1)).getLsbD 1
def EngOp.park (o : EngOp) : Bool := (BitVec.ofNat 8 (cmdNat o.cmd 1 1)).getLsbD 2
def EngOp.bar (o : EngOp) : Nat := cmdNat o.cmd 2 1
def EngOp.len (o : EngOp) : Nat := cmdNat o.cmd 4 4

/-- Bytes that an operation's command has delivered, and units that it parks or that leave the fault queue, counted on
its barrier; a team that is gone has none (R245, R260, R266). The barrier is tested with the cycle's other changes of
this kind (R264 step 1). -/
def Chip.countOp (c : Chip) (o : EngOp) (bytes up down : Nat) : Chip :=
  if o.cnt then
    c.changeBarrier o.team o.bar fun b =>
      { b with bytes := b.bytes - BitVec.ofNat 64 bytes, parked := b.parked + up - down }
  else c

/-- Whether an operation has units in a fault queue. -/
def Chip.hasParked (c : Chip) (o : EngOp) : Bool := c.parked.any fun p => p.op == o.id && !p.void

/-- An operation's end: its entry is free, its counter falls, and a failure enters the status word (R246 to R248). -/
def Chip.completeOp (c : Chip) (o : EngOp) : Chip :=
  let c := { c with ops := c.ops.filter fun q => q.id != o.id }
  let c := match o.failed with
    | some (_, st) =>
      if st = 0x10 then c
      else c.onGroup o.group fun g =>
        { g with status := g.status.set (statusFail (g.status.get o.cls) o.seq o.code st) o.cls }
    | none => c
  c.lower o.group o.cls

/-- The operations of one class of a group that have run complete in issue order (R246). -/
def Chip.settleOps : Nat → Chip → Nat → EngClass → Chip
  | 0, c, _, _ => c
  | fuel + 1, c, gid, cls =>
    match c.ops.find? fun o => o.group == gid && o.cls == cls with
    | none => c
    | some o => if o.started && !c.hasParked o then Chip.settleOps fuel (c.completeOp o) gid cls else c

/-- An operation has run, with the status of its failed unit if one failed. -/
def Chip.ranOp (c : Chip) (o : EngOp) (failed : Option (Nat × Nat)) : Chip :=
  let c := { c with ops := updWhere (fun q => q.id == o.id) (fun q => { q with started := true, failed }) c.ops }
  c.settleOps (c.ops.length + 1) o.group o.cls

/-- A byte's place: in the issuing team's scratchpad, or at a physical address (R255). -/
inductive Loc where
  | sp (a : Nat)
  | phys (p : Phys)
  deriving DecidableEq, Repr

/-- What tells two bytes apart: the scratchpad or physical memory, and the address in it. -/
def Loc.key : Loc → Bool × Nat
  | .sp a => (false, a)
  | .phys p => (true, p.pa)

/-- Scratchpad size and contents of an operation's team; of one that is gone, those it left with (R354). -/
def Chip.opMemory (c : Chip) (o : EngOp) : Nat × SMap Byte :=
  match (c.team? o.team).bind fun t => (c.launchOf t).map fun l => (1024 * l.desc.spg, t.sp) with
  | some m => m
  | none => o.space.getD (0, [])

/-- Scratchpad bytes of an operation's team. -/
def Chip.opSpace (c : Chip) (o : EngOp) : Nat := (c.opMemory o).1

/-- A failed address: its status, and the cause of a failed translation. -/
structure AddrFail where
  status : Nat
  cause  : Nat
  deriving DecidableEq, Repr

/-- One byte's address checked and translated as the engine reaches it (R255). `host` admits host memory. -/
def Chip.place (c : Chip) (o : EngOp) (acc : Access) (host : Bool) (a : W64) : Chip × Except AddrFail Loc :=
  if a.msb then
    let off := a.toNat % 2 ^ 21
    if fieldOf a.toNat 62 21 ≠ 0 ∨ c.opSpace o ≤ off then (c, .error { status := 2, cause := 0 }) else (c, .ok (.sp off))
  else
    match c.translate (diePlaces (dieOf o.core)) o.ctx a.toNat 1 acc with
    | (c, .error k) => (c, .error { status := if k = 14 then 6 else 3, cause := k })
    | (c, .ok p) => (c, if p.cp = 3 ∧ host = false then .error { status := 2, cause := 0 } else .ok (.phys p))

/-- The bytes of a list of addresses; the first that fails decides. -/
def Chip.placeAll (c : Chip) (o : EngOp) (acc : Access) (host : Bool) (as : List W64) :
    Chip × Except AddrFail (List Loc) :=
  as.foldl (fun (r : Chip × Except AddrFail (List Loc)) a =>
    match r with
    | (c, .error f) => (c, .error f)
    | (c, .ok ls) =>
      match c.place o acc host a with
      | (c, .error f) => (c, .error f)
      | (c, .ok l) => (c, .ok (ls ++ [l]))) (c, .ok [])

/-- The addresses of `n` bytes from one on. -/
def span (a : W64) (n : Nat) : List W64 := (List.range n).map fun i => a + BitVec.ofNat 64 i

/-- What a byte's place holds. -/
def Chip.locByte (c : Chip) (o : EngOp) : Loc → Byte
  | .sp a => SMap.get 0#8 (c.opMemory o).2 a
  | .phys p => c.byte p.pa

/-- The bytes of places are read: those of memory through their slices, as the CP of their pages has it (R206). -/
def Chip.l2Reads (c : Chip) (ls : List Loc) : Chip :=
  (ls.filterMap fun l => match l with | .phys p => some { p with pa := p.pa / 128 * 128 } | .sp _ => none).eraseDups.foldl
    (fun c p => c.l2Access p 128) c

/-- The scratchpad words of places. -/
def locReads (ls : List Loc) : PoolWord → Bool
  | .sp a => ls.any fun l => match l with | .sp b => decide (b / 4 = a / 4) | .phys _ => false
  | _ => false

/-- A lost word at a byte's place: a poisoned one of memory, or a lost one of the team's scratchpad, also where the team is
gone (R160, R354, R376). -/
def Chip.locPoison (c : Chip) (o : EngOp) : Loc → Bool
  | .sp a => match c.team? o.team with
    | some t => t.loses (locReads [.sp a])
    | none => o.lost.contains (a / 4)
  | .phys p => c.poison.contains (p.pa / 4)

/-- The lost scratchpad words among places that an operation reads are to be reported to its team (R160, R376; log 119). -/
def Chip.meetLocs (c : Chip) (o : EngOp) (ls : List Loc) : Chip := c.meetWords o.team (locReads ls)

/-- Neighbouring bytes of pages with the same attributes gathered into runs. -/
def runsOf : List (Phys × Byte) → List (Phys × List Byte)
  | [] => []
  | (p, b) :: rest =>
    match runsOf rest with
    | (q, bs) :: more =>
      if q.pa = p.pa + 1 ∧ q.cp = p.cp ∧ q.cmp = p.cmp then (p, b :: bs) :: more else (p, [b]) :: (q, bs) :: more
    | [] => [(p, [b])]

/-- Bytes written in order, each at its place: scratchpad bytes of a team that is there, and home bytes with no owner
(R223, R232); an operation that counts names their words to its barrier (R231). -/
def Chip.putLocs (c : Chip) (o : EngOp) (ps : List (Loc × Byte)) : Chip :=
  let sp := ps.filterMap fun p => match p.1 with | .sp a => some (a, p.2) | .phys _ => none
  let home := ps.filterMap fun p => match p.1 with | .phys q => some (q, p.2) | .sp _ => none
  let c := c.onTeam o.team fun t => sp.foldl (fun t p => t.spPut p.1 [p.2]) t
  let c := (runsOf home).foldl (fun c r => c.pageWrite r.1 r.2) c
  let words := (home.map fun p => p.1.pa / 4).eraseDups
  if o.cnt && !words.isEmpty then
    c.changeBarrier o.team o.bar fun b => { b with wrote := (b.wrote ++ words).eraseDups }
  else c

/-! ## push (R243 to R245, R250) -/

/-- Reserved bytes of a command are zero. -/
def bytesClear (cmd : List Byte) (ranges : List (Nat × Nat)) : Bool := ranges.all fun r => cmdNat cmd r.1 r.2 == 0

/-- A queue's codes, its reserved bytes by code, and the limits that its commands state (R242, R256, R258, R261, R342,
R345). Bytes 32 to 63 of cl.allgat, cl.send and cl.recv count as reserved, which R261's table says of cl.allred's (a choice of the
model, log 133). -/
def bodyOk (cls : EngClass) (cmd : List Byte) : Bool :=
  let f := fun o n => cmdNat cmd o n
  let code := f 0 1
  match cls with
  | .copy =>
    (code == 1 || code == 2 || code == 3) && bytesClear cmd (if code = 2 then [(28, 4), (48, 16)] else [(24, 40)])
  | .index =>
    (code == 0x10 || code == 0x11 || code == 0x12)
      && decide (2 ^ 63 ≤ f 8 8 ∧ f 16 8 < 2 ^ 63 ∧ 2 ^ 63 ≤ f 24 8 ∧ f 24 8 % 4 = 0)
      && (if code = 0x10 then
            decide (4 ≤ f 32 4 ∧ f 32 4 ≤ 65536 ∧ f 32 4 % 4 = 0 ∧ f 40 8 % 4 = 0 ∧ f 48 4 % 4 = 0)
              && bytesClear cmd [(52, 12)]
          else [1, 2, 4, 8].contains (f 32 1) && bytesClear cmd [(33, 3), (40, 24)])
  | .attn =>
    match code with
    | 0x20 => bytesClear cmd [(4, 4), (22, 42)] && decide (f 19 1 < 64 ∧ f 16 1 ≤ 1 ∧ f 17 1 ≤ 1)
        && !(f 17 1 == 1 && f 19 1 % 2 == 0)
    | 0x21 => bytesClear cmd [(24, 40)] && decide (1 ≤ f 4 4 ∧ f 4 4 ≤ 4096)
    | 0x22 => bytesClear cmd [(4, 4), (26, 38)]
    | 0x23 => bytesClear cmd [(4, 4), (20, 44)]
    | 0x24 => bytesClear cmd [(4, 4), (21, 43)]
    | 0x25 => bytesClear cmd [(28, 4), (56, 8)] && decide (f 22 1 < 16 ∧ f 23 1 < 2)
    | 0x26 => bytesClear cmd [(22, 2), (28, 4), (40, 24)]
    | _ => false
  | .coll =>
    match code with
    | 0x30 => bytesClear cmd [(27, 1), (32, 32)]
        && decide (f 24 2 < 256 ∧ f 26 1 < 5 ∧ f 4 4 % (if f 26 1 = 1 then 2 else 4) = 0)
    | 0x31 => bytesClear cmd [(26, 2), (32, 32)] && decide (f 24 2 < 256)
    | 0x32 => bytesClear cmd [(16, 8), (26, 2), (32, 32)] && decide (f 24 2 < 4096)
    | 0x33 => bytesClear cmd [(8, 8), (26, 2), (32, 32)] && decide (f 24 2 < 4096)
    | _ => false
  | _ => false

/-- The header of a command (R245): PRM for copies alone, PARK for index commands alone, CNT with a barrier of the
team. -/
def headerOk (cls : EngClass) (nb : Nat) (cmd : List Byte) : Bool :=
  let b := BitVec.ofNat 8 (cmdNat cmd 1 1)
  let bar := cmdNat cmd 2 1
  decide (b.toNat < 8) && cmdNat cmd 3 1 == 0 && (!b.getLsbD 0 || cls == .copy) && (!b.getLsbD 2 || cls == .index)
    && (if b.getLsbD 1 then decide (bar < nb) else bar == 0xFF)

/-- Bytes of one unit of an index command (R259). -/
def EngOp.unitBytes (o : EngOp) : Nat := if o.code = 0x10 then cmdNat o.cmd 32 4 else cmdNat o.cmd 32 1

/-- Word `k` of a context's device set (R385). -/
def Chip.setWord (c : Chip) (ctx set k : Nat) : W64 := SMap.get 0#64 c.devSets (1024 * ctx + 4 * set + k)

/-- The bytes that a command counts on its barrier, from its fields as given (R245, R257, R259, R344; for collectives,
log 31). `bf16` names the format of a kv.read's sequence. A bad command whose CODE is none of its queue's has no
form to count by, and R245 names no amount: LEN in the copy queue, LEN times byte 32 in the index queue and the 16 bytes of the
record in the attention queue are a choice of the model (log 120). -/
def Chip.countOf (c : Chip) (o : EngOp) (bf16 : Bool) : Nat :=
  match o.cls with
  | .copy => if o.code = 2 then o.len * cmdNat o.cmd 24 4 else o.len
  | .index => o.len * o.unitBytes
  | .attn =>
    16 + match o.code with
      | 0x25 => (cmdNat o.cmd 22 1 % 16 + 1) * (512 + 8 * (cmdNat o.cmd 23 1 % 2))
      | 0x26 => o.len * (if bf16 then 513 else 1025)
      | _ => 0
  | _ =>
    match o.code with
    | 0x31 => o.len * (fieldOf (c.setWord o.ctx (cmdNat o.cmd 24 2 % 256) 0).toNat 15 0)
    | 0x32 => 0
    | _ => o.len

/-- The 16-byte record of an attention command's end (R343). -/
def resultRecord (status a b : Nat) : List Byte := [BitVec.ofNat 8 status, 0#8, 0#8, 0#8] ++ leBytes 4 a ++ leBytes 8 b

/-- The place of a command's result record: its alignment, then its translation (R343). -/
def Chip.resPlace (c : Chip) (o : EngOp) : Chip × Except AddrFail (List Loc) :=
  let a := BitVec.ofNat 64 (cmdNat o.cmd 8 8)
  if a.toNat % 16 ≠ 0 then (c, .error { status := 2, cause := 0 }) else c.placeAll o .write false (span a 16)

/-- An operation that has run with a failure, its barrier counted (R245). -/
def Chip.failOp (c : Chip) (o : EngOp) (st : Nat) : Chip := (c.countOp o (c.countOf o true) 0 0).ranOp o (some (0, st))

/-- The end of an attention command that has taken no effect, with a status and so many bytes for its barrier: its record says
the status where its RES passes (R343, R344). -/
def Chip.endAttn (c : Chip) (o : EngOp) (st count : Nat) : Chip :=
  let (c, st) := match c.resPlace o with
    | (c, .error f) => (c, f.status)
    | (c, .ok ls) => (c.putLocs o (ls.zip (resultRecord st 0 0)), st)
  (c.countOp o count 0 0).ranOp o (some (0, st))

/-- A bad command's end: it counts on a barrier of its team, and an attention command's record says so, in the command's
turn (R245, R246, R343). -/
def Chip.badOp (c : Chip) (o : EngOp) : Chip := if o.cls = .attn then c.endAttn o 1 (c.countOf o true) else c.failOp o 1

/-- Entries of a core's queue (R244). -/
def queueEntries : EngClass → Nat
  | .copy => 128 | .index => 64 | .attn => 64 | .coll => 32 | _ => 0

/-- What the device adds to the least promise of R250: any amount with which P is still a 64-bit cycle. -/
def promiseExtra (now n : Nat) : Nat := min (Config.promiseSlack n) (2 ^ 64 - 1 - (now + 64))

/-- An accepted command (R243): its release, the end of the open region, and a bad command's end at once, but for a bad
attention command, whose record keeps its place in the order (R246). -/
def Chip.acceptOp (c : Chip) (x : Issue) (e : Enc) (cls : EngClass) (cmd : List Byte) : Chip :=
  let ok := headerOk cls x.desc.nb cmd && bodyOk cls cmd
  let c := (c.quenchDrain x.core).closeRegion x.team.id
  let prm := (BitVec.ofNat 8 (cmdNat cmd 1 1)).getLsbD 0 && cls == .copy
  let slack := if ok then promiseExtra x.now c.fresh else 0
  let c := if prm && ok then { c with fresh := c.fresh + 1 } else c
  let c := c.onGroup x.g.id fun g =>
    let g := { g.raise cls with seq := g.seq.set (g.seq.get cls + 1) cls }
    let g := x.putS g e.d 0#64
    if prm then g.writeOne x.pos 0 (.s (e.d.toNat + 1)) (BitVec.ofNat 64 (x.now + 64 + slack)) else g
  let o : EngOp :=
    { id := c.nextId, cls, core := x.core, ctx := x.ctx, team := x.team.id, group := x.g.id, cmd,
      seq := x.g.seq.get cls + 1, since := x.now, started := false, failed := none, dropped := false, bad := !ok }
  let c := { c with ops := c.ops ++ [o], nextId := c.nextId + 1 }
  if ok || cls == .attn then c else c.badOp o

/-- push. -/
def runPush (i : Instr) (e : Enc) (cls : EngClass) (s : State) : Host.Outcome State Fault Refusal :=
  issueC i s fun x c =>
    if 63 ≤ x.g.counters.get cls then .stall
    else if queueEntries cls ≤ (c.ops.filter fun o => o.core == x.core && o.cls == cls).length then
      .ok (c.setGroup (x.putS x.g e.d 1#64))
    else if c.atomsOut x.g then .stall
    else .ok (c.acceptOp x e cls ((List.range 8).flatMap fun k => leBytes 8 (x.g.sreg (e.a.toNat + k)).toNat))

/-- push.copy. -/
def execPushCopy (e : Enc) (s : State) : Host.Outcome State Fault Refusal := runPush (.pushCopy e) e .copy s
/-- push.index. -/
def execPushIndex (e : Enc) (s : State) : Host.Outcome State Fault Refusal := runPush (.pushIndex e) e .index s
/-- push.attn. -/
def execPushAttn (e : Enc) (s : State) : Host.Outcome State Fault Refusal := runPush (.pushAttn e) e .attn s
/-- push.coll. -/
def execPushColl (e : Enc) (s : State) : Host.Outcome State Fault Refusal := runPush (.pushColl e) e .coll s

/-! ## wcnt (R249) -/

/-- A wcnt passes: it acquires, and its status word is read and cleared. `d` is a scalar field. -/
def Chip.passCounter (c : Chip) (core gid : Nat) (cls : EngClass) (d : Nat) : Chip :=
  (c.acquire core .dev).onGroup gid fun g =>
    { g.setScalar d (g.status.get cls) with status := g.status.set 0#64 cls }

/-- wcnt. -/
def execWcnt (cls : EngClass) (e : Enc) (s : State) : Host.Outcome State Fault Refusal :=
  issueC (.wcnt cls e) s fun x c =>
    let n := e.imm.toNat % 64
    if x.g.counters.get cls ≤ n then .ok (c.passCounter x.core x.g.id cls e.d.toNat)
    else .ok (c.setGroup { x.g with wait := some (.counter cls n e.d.toNat) })

/-! ## Named barriers (R265) -/

/-- The barrier that A names (R73). -/
def barOf (e : Enc) : Nat := e.a.toNat - 0xC0

/-- A group's hash steps that are not yet applied (R286). -/
def Chip.stepsOut (c : Chip) (g : Group) : Bool := c.teams.any fun t => t.stepsOf g.id

/-- bar.init. -/
def execBarInit (e : Enc) (s : State) : Host.Outcome State Fault Refusal :=
  issueC (.barInit e) s fun x c =>
    let v := x.g.op2 e
    if v = 0#64 ∨ 65535 < v.toNat then .trap 0x01 v x.act
    else .ok (c.onBarrier x.team.id (barOf e) fun b => { b with expect := v.toNat, arrived := 0, bytes := 0#64 })

/-- An arrival: the hash unit sees the group's own stores from now on, and ordinary accesses what the unit has written for the group
(R286), s[D] takes the phase as step 1 of R264 has left it,
then the barrier counts it; `stay` has the group wait for the end of that phase. -/
def runArrive (i : Instr) (e : Enc) (stay : Bool) (s : State) : Host.Outcome State Fault Refusal :=
  issueC i s fun x c =>
    if c.stepsOut x.g || c.releaseWaits x.core x.g .team then .stall
    else
      let c := c.onTeam x.team.id fun t => t.groupSeen x.g.id
      let c := c.testBarrier x.team.id (barOf e)
      let phase := ((c.barrier? x.team.id (barOf e)).map (·.phase)).getD false
      let c := c.onGroup x.g.id fun g =>
        { x.putS g e.d (if phase then 1#64 else 0#64) with wait := if stay then some (.barrier (barOf e) phase) else none }
      .ok (c.arrive x.team.id (barOf e))

/-- bar.arrive. -/
def execBarArrive (e : Enc) (s : State) : Host.Outcome State Fault Refusal := runArrive (.barArrive e) e false s
/-- bar.sync. -/
def execBarSync (e : Enc) (s : State) : Host.Outcome State Fault Refusal := runArrive (.barSync e) e true s

/-- bar.wait: it passes at once where the phase it names has passed. -/
def execBarWait (e : Enc) (s : State) : Host.Outcome State Fault Refusal :=
  issueOk (.barWait e) s fun x =>
    let p := (x.g.op2 e).getLsbD 0
    let phase := ((x.team.bars[barOf e]?).map (·.phase)).getD false
    if phase == p then { x.g with wait := some (.barrier (barOf e) p) } else x.g

/-- bar.expect: a change of step 1 of R264. -/
def execBarExpect (e : Enc) (s : State) : Host.Outcome State Fault Refusal :=
  issueC (.barExpect e) s fun x c =>
    .ok (c.changeBarrier x.team.id (barOf e) fun b => { b with bytes := b.bytes + x.g.op2 e })

/-- bar.query. -/
def execBarQuery (e : Enc) (s : State) : Host.Outcome State Fault Refusal :=
  issueOk (.barQuery e) s fun x => x.putS x.g e.d (((x.team.bars[barOf e]?).map (·.word0)).getD 0#64)

/-! ## Mailboxes (R267, R268) -/

/-- A mailbox changed. -/
def Chip.setMailbox (c : Chip) (core m : Nat) (b : Mailbox) : Chip :=
  { c with mailboxes := SMap.put Mailbox.reset c.mailboxes (16 * core + m) b }

/-- mbx.send. -/
def execMbxSend (e : Enc) (s : State) : Host.Outcome State Fault Refusal :=
  issueC (.mbxSend e) s fun x c =>
    let target := x.g.scalar e.a.toNat
    if 4096 ≤ target.toNat then .trap 0x01 target x.act
    else if c.atomsOut x.g then .stall
    else
      let core := target.toNat / 16
      let m := target.toNat % 16
      let c := (c.release x.core .dev).closeRegion x.team.id
      if (c.mailbox core m x.ctx).full then .ok (c.onGroup x.g.id fun g => x.putS g e.d 1#64)
      else
        let c := c.setMailbox core m { value := x.g.op2 e, full := true, ctx := x.ctx }
        let c := c.onGroup x.g.id fun g => x.putS g e.d 0#64
        .ok (c.noteWhere (fun g => c.coreOf g == core
          && ((c.team? g.team).map fun t => c.ctxOf t == x.ctx).getD false) 4 (some 2))

/-- A receive: s[D] takes the value and s[D+1] whether there was one; a full mailbox acquires, and mbx.recv
clears FULL alone (R268). -/
def runReceive (i : Instr) (e : Enc) (take : Bool) (s : State) : Host.Outcome State Fault Refusal :=
  issueC i s fun x c =>
    let m := x.g.immA e
    if 16 ≤ m.toNat then .trap 0x01 m x.act
    else
      let b := c.mailbox x.core m.toNat x.ctx
      let g := (x.putS x.g e.d (if b.full then b.value else 0#64)).writeOne x.pos 0 (.s (e.d.toNat + 1)) (if b.full then 1#64 else 0#64)
      let c := c.setGroup g
      if b.full then
        let c := c.acquire x.core .dev
        .ok (if take then c.setMailbox x.core m.toNat { b with full := false } else c)
      else .ok c

/-- mbx.recv. -/
def execMbxRecv (e : Enc) (s : State) : Host.Outcome State Fault Refusal := runReceive (.mbxRecv e) e true s
/-- mbx.peek. -/
def execMbxPeek (e : Enc) (s : State) : Host.Outcome State Fault Refusal := runReceive (.mbxPeek e) e false s

end Sys2Proof.Machine
end

