-- ==== Sys2Proof/Machine/Copy.lean ====
section
/-! DEFINITION. What copy, index and collective operations do as their engine runs them (R255 to R262, R269). -/
namespace Sys2Proof.Machine

/-! ## An operation's turn -/

/-- An event: the chip changes, or nothing where its condition does not hold. -/
def onChip (s : State) (f : Chip → Option Chip) : Host.Outcome State Fault Refusal :=
  .next (match f s.chip with | some c => { s with chip := c } | none => s)

/-- An operation that may run: it has the code, and the earlier ones of its class and group have run (R246, R352). -/
def Chip.opDue (c : Chip) (id code : Nat) : Option EngOp :=
  match c.ops.find? fun o => o.id == id with
  | none => none
  | some o =>
    if o.code == code && !o.started && !o.bad
        && !(c.ops.any fun q => q.group == o.group && q.cls == o.cls && !q.started && decide (q.id < id)) then some o
    else none

/-- A bad attention command whose turn it is (R246, R343). -/
def Chip.badDue (c : Chip) (o : EngOp) : Bool :=
  o.bad && !o.started && !(c.ops.any fun q => q.group == o.group && q.cls == o.cls && !q.started && decide (q.id < o.id))

/-- An operation dropped: it writes nothing more (R269). -/
def Chip.dropOp (c : Chip) (o : EngOp) : Chip := { c with ops := c.ops.filter fun q => q.id != o.id }

/-- An operation that meets the scratchpad of a team that is gone (R269). -/
def Chip.orphaned (c : Chip) (o : EngOp) (as : List W64) : Bool := (c.team? o.team).isNone && as.any (·.msb)

/-! ## Copies (R256, R257) -/

/-- A signed field of a command as an address difference. -/
def EngOp.word (o : EngOp) (at_ : Nat) : W64 := BitVec.ofNat 64 (cmdNat o.cmd at_ 8)

/-- Whether a scratchpad address of an operation meets the hearth window or leaves the team's scratchpad (R88, R255). -/
def Chip.badSpace (c : Chip) (o : EngOp) (a : W64) : Bool :=
  a.msb && (fieldOf a.toNat 62 21 != 0 || decide (c.opSpace o ≤ a.toNat % 2 ^ 21))

/-- One byte of a copy: its destination, and its source address or its value. -/
structure CopyByte where
  dst : W64
  src : W64 ⊕ Byte

/-- The bytes of a copy command (R257). -/
def EngOp.copyBytes (o : EngOp) : List CopyByte :=
  let n := o.len
  match o.code with
  | 0x02 => (List.range (cmdNat o.cmd 24 4)).flatMap fun r => (List.range n).map fun i =>
      { dst := o.word 8 + BitVec.ofNat 64 r * o.word 32 + BitVec.ofNat 64 i
        src := .inl (o.word 16 + BitVec.ofNat 64 r * o.word 40 + BitVec.ofNat 64 i) }
  | 0x03 => (List.range n).map fun i =>
      { dst := o.word 8 + BitVec.ofNat 64 i, src := .inr (BitVec.ofNat 8 (cmdNat o.cmd (16 + i % 8) 1)) }
  | _ => (List.range n).map fun i =>
      { dst := o.word 8 + BitVec.ofNat 64 i, src := .inl (o.word 16 + BitVec.ofNat 64 i) }

/-- A byte of a copy with its places: where it goes, and where it comes from or its value. -/
structure Move where
  dst : Loc
  src : Loc ⊕ Byte

/-- One byte's checks as the engine reaches it: status 2, 3 or 6 (R255, R257, R376). -/
def Chip.checkMove (c : Chip) (o : EngOp) (b : CopyByte) : Chip × Except Nat Move :=
  let (c, src) : Chip × Except Nat (Loc ⊕ Byte) :=
    match b.src with
    | .inr v => (c, .ok (.inr v))
    | .inl a =>
      match c.place o .read true a with
      | (c, .error f) => (c, .error f.status)
      | (c, .ok l) => if c.locPoison o l then (c.meetLocs o [l], .error 6) else (c, .ok (.inl l))
  match src with
  | .error st => (c, .error st)
  | .ok src =>
    match c.place o .write true b.dst with
    | (c, .error f) => (c, .error f.status)
    | (c, .ok dst) => (c, .ok { dst, src })

/-- Whether the bytes of a copy meet each other: a source that is also a destination, or two bytes with one place. -/
def clash (ms : List Move) : Bool :=
  let ds := ms.map (·.dst.key)
  ms.any (fun m => match m.src with | .inl l => ds.contains l.key | .inr _ => false) || ds.eraseDups.length != ds.length

/-- What the bytes of a copy come to, in the order in which they are moved: a byte reads its source as it was, or as
this command has written it (R257). -/
def Chip.moved (c : Chip) (o : EngOp) (ms : List (Nat × Move)) : List (Loc × Byte) :=
  ms.foldl (fun out m =>
    let v := match m.2.src with
      | .inr v => v
      | .inl l =>
        match (if Config.readsEarly c.fresh m.1 then none else out.reverse.find? fun p => p.1.key == l.key) with
        | some p => p.2
        | none => c.locByte o l
    out ++ [(m.2.dst, v)]) []

/-- The addresses that a byte of a copy names. -/
def CopyByte.addresses (b : CopyByte) : List W64 :=
  match b.src with
  | .inl a => [a, b.dst]
  | .inr _ => [b.dst]

/-- A copy runs: all its bytes are moved; or, where bytes fail or its transfer is `cut` with a status (R388), some are,
and it ends with the status of a failure that it met (R257). A bad scratchpad range leaves nothing written (R88). -/
def Chip.copyRun (c : Chip) (o : EngOp) (cut : Option Nat) : Chip :=
  let bs := o.copyBytes
  if c.orphaned o (bs.flatMap CopyByte.addresses) then c.dropOp o
  else if (bs.flatMap CopyByte.addresses).any (c.badSpace o) then
    (c.countOp o (c.countOf o true) 0 0).ranOp o (some (0, 2))
  else
    let (c, rs) := bs.foldl (fun (r : Chip × List (Except Nat Move)) b =>
      let q := r.1.checkMove o b; (q.1, r.2 ++ [q.2])) (c, [])
    let good := (List.range rs.length).filterMap fun k => (rs[k]?.bind fun r => r.toOption).map fun m => (k, m)
    let bad := rs.filterMap (fun (r : Except Nat Move) => match r with | .error st => some st | .ok _ => none) ++ cut.toList
    let good := if bad.isEmpty then good else good.filter fun m => Config.partialCopy c.fresh m.1
    let order := if clash (good.map (·.2)) then sortBy (fun m => Config.moveOrder c.fresh m.1) good
      else good
    let read := (good.filterMap fun m => match m.2.src with | .inl l => some l | .inr _ => none)
    let c' := { (c.l2Reads read).putLocs o (c.moved o order) with fresh := c.fresh + 1 }
    let failed := if bad.isEmpty then none else (bad[Config.firstFailure c.fresh % bad.length]?).map fun st => (0, st)
    (c'.countOp o (c'.countOf o true) 0 0).ranOp o failed

/-- A copy runs. -/
def Chip.runCopy (c : Chip) (o : EngOp) : Chip := c.copyRun o none

/-- A copy command's event. -/
def execCopy (code : Nat) (s : State) : Host.Outcome State Fault Refusal :=
  onChip s fun c => (c.opDue s.event.a code).map fun o => c.runCopy o

/-- cp.lin runs. -/
def execCpLin (s : State) : Host.Outcome State Fault Refusal := execCopy 0x01 s
/-- cp.2d runs. -/
def execCp2d (s : State) : Host.Outcome State Fault Refusal := execCopy 0x02 s
/-- cp.fill runs. -/
def execCpFill (s : State) : Host.Outcome State Fault Refusal := execCopy 0x03 s

/-! ## Index commands (R258 to R260) -/

/-- What a unit comes to: delivered, failed with a status, or to be parked with a reason. -/
inductive UnitEnd where
  | delivered
  | failed (status : Nat)
  | parks (reason : Nat)
  deriving DecidableEq, Repr

/-- The index of a unit, from the list in scratchpad (R258), or the status of the unit: 2 where the list leaves the
scratchpad, 6 where the word is lost (R376). -/
def Chip.unitIndex (c : Chip) (o : EngOp) (u : Nat) : Except Nat Int :=
  let a := cmdNat o.cmd 24 8 + 4 * u
  if fieldOf (cmdNat o.cmd 24 8) 62 21 ≠ 0 ∨ c.opSpace o < a % 2 ^ 63 + 4 then .error 2
  else if c.locPoison o (.sp (a % 2 ^ 63)) then .error 6
  else .ok (wordAt (c.opMemory o).2 (a % 2 ^ 63)).toInt

/-- The device-memory and scratchpad addresses of a unit with index x (R259). -/
def EngOp.unitAddr (o : EngOp) (u : Nat) (x : Int) : W64 × W64 :=
  let k := BitVec.ofInt 64 x
  if o.code = 0x10 then (o.word 16 + k * o.word 40, o.word 8 + BitVec.ofNat 64 (u * cmdNat o.cmd 48 4))
  else (o.word 16 + k * BitVec.ofNat 64 o.unitBytes, o.word 8 + BitVec.ofNat 64 (u * o.unitBytes))

/-- A unit moved between its two addresses once its index has passed; `va` is the device-memory address. The
scratchpad is checked before the page is (DEDUCED, log 32). -/
def Chip.moveUnit (c : Chip) (o : EngOp) (va sp : W64) : Chip × UnitEnd :=
  let n := o.unitBytes
  let store := o.code == 0x12
  if va.toNat % (if o.code = 0x10 then 4 else n) ≠ 0 then (c, .failed 2)
  else
    match c.placeAll o (if store then .read else .write) false (span sp n) with
    | (c, .error f) => (c, .failed f.status)
    | (c, .ok sps) =>
      match c.placeAll o (if store then .write else .read) false (span va n) with
      | (c, .error f) => (c, if f.status = 3 then .parks (if f.cause = 7 then 1 else 2) else .failed f.status)
      | (c, .ok mems) =>
        let from_ := if store then sps else mems
        if from_.any (c.locPoison o) then (c.meetLocs o from_, .failed 6)
        else if store then (c.putLocs o (mems.zip (sps.map (c.locByte o))), .delivered)
        else ((c.l2Reads mems).putLocs o (sps.zip (mems.map (c.locByte o))), .delivered)

/-- A unit performed (R259): its index checked, then moved. `va` overrides the address at a replay. -/
def Chip.runUnit (c : Chip) (o : EngOp) (u : Nat) (va : Option W64) : Chip × UnitEnd × W64 :=
  match c.unitIndex o u with
  | .error st => (c.meetLocs o [.sp ((cmdNat o.cmd 24 8 + 4 * u) % 2 ^ 63)], .failed st, 0#64)
  | .ok x =>
    let a := o.unitAddr u x
    let va := va.getD a.1
    let limit := cmdNat o.cmd 36 4
    if x < 0 ∨ (limit ≠ 0 ∧ (limit : Int) ≤ x) then (c, .parks 3, va)
    else
      let r := c.moveUnit o va a.2
      (r.1, r.2, va)

/-- A fault-queue entry (R260). -/
def entryBytes (o : EngOp) (va : W64) (u reason : Nat) (token : W64) : List Byte :=
  leBytes 8 va.toNat ++ leBytes 4 u ++ [BitVec.ofNat 8 o.code, BitVec.ofNat 8 reason, if o.code = 0x12 then 1#8 else 0#8, 0#8]
    ++ leBytes 8 token.toNat ++ leBytes 2 o.core ++ leBytes 2 o.ctx ++ leBytes 4 0

/-- A unit parked in its die's fault queue, if the queue has room (R260, R372, R381). -/
def Chip.parkUnit (c : Chip) (o : EngOp) (u reason : Nat) (va : W64) : Option Chip :=
  let d := dieOf o.core
  let r := (c.die d).fq
  if r.full ∨ 2 ^ r.log2n ≤ (c.parked.filter fun p => p.die == d && !p.void).length then none
  else
    let token := BitVec.ofNat 64 c.nextId + Config.tokenSalt
    let c := c.unitWrite (r.slotAddr 32) (entryBytes o va u reason token) 0
    let c := { c with
      parked := c.parked ++ [({ token, die := d, op := o.id, unit := u, va, reason, slot := r.tail, void := false } : ParkedUnit)]
      nextId := c.nextId + 1 }
    some ((c.onDie d fun k => { k with fq := k.fq.advance }).msi (64 + d))

/-- The status of a unit that would park and does not (R259, R260). -/
def parkStatus (reason : Nat) : Nat := if reason = 3 then 5 else 3

/-- The lower-numbered of a failed unit and those before it (R259). -/
def worse (old : Option (Nat × Nat)) (u st : Nat) : Option (Nat × Nat) :=
  match old with
  | some (v, s) => if u < v then some (u, st) else some (v, s)
  | none => some (u, st)

/-- One unit of a running index operation: it is delivered, fails, or is parked where PARK = 1 and the queue has room.
The last part says whether it is parked. -/
def Chip.takeUnit (c : Chip) (o : EngOp) (u : Nat) (va : Option W64) : Chip × Option Nat × Bool :=
  match c.runUnit o u va with
  | (c, .delivered, _) => (c, none, false)
  | (c, .failed st, _) => (c, some st, false)
  | (c, .parks reason, va) =>
    match (if o.park then c.parkUnit o u reason va else none) with
    | some c => (c, none, true)
    | none => (c, some (parkStatus reason), false)

/-- The units of an index operation in the order in which they are delivered: ascending where the manual or disjoint
places fix what they leave, else an order that it does not state (R259). -/
def Chip.unitOrder (c : Chip) (o : EngOp) : List Nat :=
  let us := List.range o.len
  let pitch := if o.code = 0x10 then cmdNat o.cmd 48 4 else o.unitBytes
  let spd := cmdNat o.cmd 8 8
  let meets := overlaps spd (o.len * pitch + o.unitBytes) (cmdNat o.cmd 24 8) (4 * o.len)
  if o.code != 0x12 && (meets || decide (pitch < o.unitBytes)) then sortBy (Config.moveOrder c.fresh) us else us

/-- The first and last scratchpad addresses of an index operation's units and of its list. -/
def EngOp.indexSpace (o : EngOp) : List W64 :=
  let n := o.unitBytes
  if o.len = 0 then []
  else
    ((List.range o.len).flatMap fun u => let a := (o.unitAddr u 0).2; [a, a + BitVec.ofNat 64 (n - 1)])
      ++ [o.word 24, o.word 24 + BitVec.ofNat 64 (4 * o.len - 1)]

/-- An index operation runs (R259, R260). A bad scratchpad range leaves nothing written (R88). -/
def Chip.runIndex (c : Chip) (o : EngOp) : Chip :=
  if (c.team? o.team).isNone then c.dropOp o
  else if o.indexSpace.any (c.badSpace o) then (c.countOp o (o.len * o.unitBytes) 0 0).ranOp o (some (0, 2))
  else
    let order := c.unitOrder o
    let (c, failed, parks) := order.foldl (fun (r : Chip × Option (Nat × Nat) × Nat) u =>
      match r.1.takeUnit o u none with
      | (c, some st, _) => (c, worse r.2.1 u st, r.2.2)
      | (c, none, parked) => (c, r.2.1, r.2.2 + parked.toNat)) ({ c with fresh := c.fresh + 1 }, none, 0)
    (c.countOp o ((o.len - parks) * o.unitBytes) parks 0).ranOp o failed

/-- A unit that leaves the fault queue is delivered or fails for good: its bytes count and PARKED falls; the operation
completes where it was the last (R260). -/
def Chip.endUnit (c : Chip) (o : EngOp) (u : Nat) (st : Option Nat) : Chip :=
  let failed := match st with | some st => worse o.failed u st | none => o.failed
  (c.countOp o o.unitBytes 0 1).ranOp o failed

/-- sys.fqreplay on a token: its status, 1 for an unknown or replayed token and 2 for a VOID one (R260, R373). -/
def Chip.replay (c : Chip) (token : W64) (discard : Bool) : Chip × Nat :=
  match c.parked.find? fun p => p.token == token with
  | none => (c, 1)
  | some p =>
    if p.void then (c, 2)
    else
      match c.ops.find? fun o => o.id == p.op with
      | none => (c, 2)
      | some o =>
        let c := { c with parked := c.parked.filter fun q => q.token != token }
        if discard then (c.endUnit o p.unit (some (parkStatus p.reason)), 0)
        else
          match c.takeUnit o p.unit (some p.va) with
          | (c, _, true) => (c, 0)
          | (c, st, false) => (c.endUnit o p.unit st, 0)

/-- An index command's event. -/
def execIndex (code : Nat) (s : State) : Host.Outcome State Fault Refusal :=
  onChip s fun c => (c.opDue s.event.a code).map fun o => c.runIndex o

/-- ga.rows runs. -/
def execGaRows (s : State) : Host.Outcome State Fault Refusal := execIndex 0x10 s
/-- ga.elems runs. -/
def execGaElems (s : State) : Host.Outcome State Fault Refusal := execIndex 0x11 s
/-- sc.elems runs. -/
def execScElems (s : State) : Host.Outcome State Fault Refusal := execIndex 0x12 s

end Sys2Proof.Machine
end

