-- ==== Sys2Proof/Machine/Coll.lean ====
section
/-! DEFINITION. Collective commands within device sets and their links (R261, R262, R384, R385). -/
namespace Sys2Proof.Machine

/-- A device set of a context (R385). -/
structure DeviceSet where
  valid   : Bool
  members : Nat
  rank    : Nat
  timeout : Nat
  table   : Nat
  deriving DecidableEq, Repr

/-- A device set as its three words give it. -/
def Chip.deviceSet (c : Chip) (ctx set : Nat) : DeviceSet :=
  let w := (c.setWord ctx set 0).toNat
  { valid := (c.setWord ctx set 2).getLsbD 0, members := fieldOf w 15 0, rank := fieldOf w 31 16,
    timeout := fieldOf w 63 32, table := (c.setWord ctx set 1).toNat }

/-- The set that an operation's command names. -/
def Chip.setOf (c : Chip) (o : EngOp) : DeviceSet := c.deviceSet o.ctx (cmdNat o.cmd 24 2)

/-- Whether a command runs within a set (R261). -/
def EngOp.inSet (o : EngOp) : Bool := o.code == 0x30 || o.code == 0x31

/-- The devices that an operation sends to. -/
def Chip.destinations (c : Chip) (o : EngOp) : List Nat :=
  match o.code with
  | 0x32 => [cmdNat o.cmd 24 2]
  | 0x33 => []
  | _ =>
    let s := c.setOf o
    ((List.range s.members).filter (· != s.rank)).map fun k => c.homeNat (s.table + 2 * k) 2

/-- Whether a storage error has lost part of the member table that an operation reads (R376). -/
def Chip.tableLost (c : Chip) (o : EngOp) : Bool :=
  o.inSet && c.poisoned (c.setOf o).table (2 * (c.setOf o).members)

/-- A port. -/
def Chip.port (c : Chip) (p : Nat) : Port := SMap.get Port.reset c.ports p
/-- A port changed. -/
def Chip.onPort (c : Chip) (p : Nat) (f : Port → Port) : Chip :=
  { c with ports := SMap.put Port.reset c.ports p (f (c.port p)) }

/-- The ports of a device's route that are up (R384). -/
def Chip.routePorts (c : Chip) (d : Nat) : List Nat :=
  (leBytes 8 (SMap.get (BitVec.allOnes 64) c.routes d).toNat).filterMap fun b =>
    if b.toNat < 144 ∧ (c.port b.toNat).up then some b.toNat else none

/-- The port that carries an operation's traffic to a device, if its route has one up (R384). -/
def Chip.portTo (c : Chip) (o : EngOp) (d : Nat) : Option Nat :=
  let ps := c.routePorts d
  ps[Config.routeHash c.devid.toNat d (cmdNat o.cmd 24 2) (cmdNat o.cmd 28 4) % ps.length]?

/-- Whether an operation sends to a device to which no port of its route is up (R384). -/
def Chip.unrouted (c : Chip) (o : EngOp) : Bool := (c.destinations o).any fun d => (c.portTo o d).isNone

/-- A data flit sent and kept until it is acknowledged; it returns the credits of the flits received (R383). -/
def Port.send (p : Port) (bs : List Byte) : Port :=
  let f : Flit := { seq := p.txSeq, cred := BitVec.ofNat 16 p.owed, payload := (bs ++ List.replicate 56 0#8).take 56 }
  { p with txSeq := p.txSeq + 1, owed := 0, kept := p.kept ++ [f], sent := p.sent ++ [(1, f)] }

/-- The payloads of a transfer's flits: the first one begins with the source and destination device numbers; the bytes
after them are not in the manual (R383). -/
def transferPayloads (src dst n : Nat) : List (List Byte) :=
  match Config.transferFlits n with
  | [] => [leBytes 2 src ++ leBytes 2 dst]
  | p :: ps => (leBytes 2 src ++ leBytes 2 dst ++ p) :: ps

/-- An operation's traffic leaves on the ports that carry it. -/
def Chip.transmit (c : Chip) (o : EngOp) : Chip :=
  (c.destinations o).foldl (fun (c : Chip) d =>
    match c.portTo o d with
    | none => c
    | some p =>
      { c.onPort p fun q => (transferPayloads c.devid.toNat d c.fresh).foldl Port.send q with fresh := c.fresh + 1 }) c

/-- An element of a reduction (R262). -/
def reduce (op : Nat) (x y : Nat) : Nat :=
  match op with
  | 0 => (fmtF32.add .rn x y).1
  | 1 => (fmtBF16.add .rn x y).1
  | 2 => (x + y) % 2 ^ 32
  | 3 => (fmtF32.minMax true x y).1
  | _ => (fmtF32.minMax false x y).1

/-- The elements of a member's bytes. -/
def elemsOf (n : Nat) (bs : List Byte) : List Nat := (List.range (bs.length / n)).map fun i => leNat ((bs.drop (n * i)).take n)

/-- The fold over the members' elements in ascending rank (R262). The elements of a one-member set stand as they are, a NaN too (a
choice of the model, log 130). -/
def allreduce (op : Nat) (members : List (List Byte)) : List Byte :=
  let n := if op = 1 then 2 else 4
  match members.map (elemsOf n) with
  | [] => []
  | x :: rest => (rest.foldl (fun acc y => List.zipWith (reduce op) acc y) x).flatMap fun v => leBytes n v

/-- A collective's bytes read, checked and written: what it writes is a function of what its source holds. A link that
fails leaves some of them unwritten (R262). Where its source fails and its scratchpad destination lies outside the team's
scratchpad, the source's status stands: R88 and R255 do not order the two (a choice of the model, log 109). -/
def Chip.deliver (c : Chip) (o : EngOp) (src dst : List W64) (result : List Byte → List Byte) (linkOk : Bool) : Chip :=
  if c.orphaned o (src ++ dst) then c.dropOp o
  else
    match c.placeAll o .read false src with
    | (c, .error f) => c.failOp o f.status
    | (c, .ok ss) =>
      if ss.any (c.locPoison o) then (c.meetLocs o ss).failOp o 6
      else
        match c.placeAll o .write false dst with
        | (c, .error f) => c.failOp o f.status
        | (c, .ok ds) =>
          let ps := ds.zip (result (ss.map (c.locByte o)))
          let c := (c.l2Reads ss).transmit o
          if linkOk then ((c.putLocs o ps).countOp o (c.countOf o true) 0 0).ranOp o none
          else
            let some_ := (List.range ps.length).filterMap fun k => if Config.partialCopy c.fresh k then ps[k]? else none
            ({ c.putLocs o some_ with fresh := c.fresh + 1 }).failOp o 7

/-- The tag of a collective command (R261). -/
def EngOp.tag (o : EngOp) : Nat := cmdNat o.cmd 28 4

/-- Whether the other side's command with a tag matches a cl.send or cl.recv: the tag is its own, and no command of the
same kind, peer and tag that was pushed before it still waits (R262). -/
def Chip.matched (c : Chip) (o : EngOp) (tag : Nat) : Bool :=
  o.tag == tag && !(c.ops.any fun q => decide (q.id < o.id) && !q.started && !q.bad && q.code == o.code
    && cmdNat q.cmd 24 2 == cmdNat o.cmd 24 2 && q.tag == tag)

/-- A collective command runs: its set is valid and has joined under the command's tag, which the event brings. `make`
gives the bytes written from the members' bytes in ascending rank. An unequal LEN gives status 9 as R262 has it of
cl.send and cl.recv (a choice of the model for cl.allred and cl.allgat, log 86). -/
def Chip.runSet (c : Chip) (o : EngOp) (peers : CollPeers) (dst : Nat → List W64) (make : List (List Byte) → List Byte) :
    Option Chip :=
  let s := c.setOf o
  if !s.valid then some (c.failOp o 1)
  else if c.tableLost o then some (c.failOp o 6)
  else if c.unrouted o then some (c.failOp o 7)
  else if peers.data.length + 1 ≠ s.members ∨ (s.members ≠ 1 ∧ peers.tag ≠ o.tag) then none
  else if peers.data.any (fun b => b.length != o.len) then some (c.failOp o 9)
  else
    some (c.deliver o (span (o.word 8) o.len) (dst s.members)
      (fun own => make (peers.data.take s.rank ++ [own] ++ peers.data.drop s.rank)) peers.linkOk)

/-- cl.allred runs. -/
def execClAllred (s : State) : Host.Outcome State Fault Refusal :=
  onChip s fun c => (c.opDue s.event.a 0x30).bind fun o =>
    c.runSet o s.event.peers (fun _ => span (o.word 16) o.len) (allreduce (cmdNat o.cmd 26 1))
/-- cl.allgat runs: member k's bytes go to DST + k × LEN. -/
def execClAllgat (s : State) : Host.Outcome State Fault Refusal :=
  onChip s fun c => (c.opDue s.event.a 0x31).bind fun o =>
    c.runSet o s.event.peers (fun n => span (o.word 16) (n * o.len)) List.flatten

/-- The bytes of the other side's command. -/
def CollPeers.other (p : CollPeers) : List Byte := p.data.headD []

/-- cl.send runs: its peer's cl.recv is there (R262). The event brings as many bytes as that command takes. With no port
of its route up it ends without its peer (R384). -/
def execClSend (s : State) : Host.Outcome State Fault Refusal :=
  onChip s fun c => (c.opDue s.event.a 0x32).bind fun o =>
    let p := s.event.peers
    if c.unrouted o then some (c.failOp o 7)
    else if !c.matched o p.tag then none
    else if (CollPeers.other p).length ≠ o.len then some (c.failOp o 9)
    else some (c.deliver o (span (o.word 8) o.len) [] (fun _ => []) p.linkOk)
/-- cl.recv runs: its peer's bytes have come (R262). -/
def execClRecv (s : State) : Host.Outcome State Fault Refusal :=
  onChip s fun c => (c.opDue s.event.a 0x33).bind fun o =>
    let p := s.event.peers
    if !c.matched o p.tag then none
    else if (CollPeers.other p).length ≠ o.len then some (c.failOp o 9)
    else some (c.deliver o [] (span (o.word 16) o.len) (fun _ => (CollPeers.other p)) p.linkOk)

/-- A collective operation that needs nothing from outside to run: its set is not valid, has one member or has lost its
table, or no port of a route is up (R262, R376, R384, R385). -/
def Chip.runsAlone (c : Chip) (o : EngOp) : Bool :=
  c.unrouted o || c.tableLost o || (o.inSet && (!(c.setOf o).valid || (c.setOf o).members == 1))

/-- Whether a set's time to join has run out for an operation (R262, R385): it runs from the acceptance of this member's command
(a choice of the model, log 134). -/
def Chip.timedOut (c : Chip) (o : EngOp) : Bool :=
  let t := (c.setOf o).timeout
  o.cls == .coll && o.inSet && !o.started && (c.setOf o).valid && t != 0 && decide (o.since + t * Config.cyclesPerMicro ≤ c.cyc)

/-- A member whose set has not joined in time completes with status 8. -/
def execCollectiveTimeout (s : State) : Host.Outcome State Fault Refusal :=
  onChip s fun c => (c.ops.find? fun o => o.id == s.event.a && c.timedOut o).map fun o => c.failOp o 8

end Sys2Proof.Machine
end

