-- ==== Sys2Proof/Machine/Attention.lean ====
section
/-! DEFINITION. The attention dies: sequences, blocks and the attention commands (R332 to R354). -/
namespace Sys2Proof.Machine

/-! ## Sequences (R332 to R335) -/

/-- Physical blocks of a token block for each layer (R333). -/
def Sequence.nhb (q : Sequence) : Nat := if q.lg6 then q.nh / 2 else q.nh
/-- P: physical blocks of a token block (R333). -/
def Sequence.p (q : Sequence) : Nat := q.nl * q.nhb

/-- A live sequence of a context (R332). -/
def Chip.seq? (c : Chip) (ctx n : Nat) : Option Sequence := c.sequences.find? fun q => q.num == n && q.live && q.ctx == ctx

/-- A sequence changed. -/
def Chip.onSeq (c : Chip) (n : Nat) (f : Sequence → Sequence) : Chip :=
  { c with sequences := updWhere (fun q => q.num == n) f c.sequences }

/-- Children of a sequence that have not been freed (R333). -/
def Chip.children (c : Chip) (n : Nat) : List Sequence := c.sequences.filter fun q => q.parent == some n
/-- NCHILD (R333). -/
def Chip.nchild (c : Chip) (n : Nat) : Nat := (c.children n).length
/-- HELD (R333, R335). -/
def Chip.heldOf (c : Chip) (n : Nat) : Nat := ((c.children n).map (·.f)).foldl max 0

/-- The lowest number that no live or held sequence uses (R332). -/
def Chip.newSeq (c : Chip) : Option Nat :=
  (leastWhere (c.sequences.length + 1) fun n => !(c.sequences.any fun q => q.num == n)).filter (· < Config.maxSequences)

/-- The owner of a token block of a sequence (R334). -/
def Sequence.ownerOf (q : Sequence) (tb : Nat) : Nat :=
  if q.own0 ≤ tb then q.num
  else ((q.spans.find? fun s => decide (s.2.1 ≤ tb ∧ tb ≤ s.2.2)).map (·.1)).getD q.num

/-- A job counter that an attention command may name (R343). -/
def Chip.jobOk (c : Chip) (ctx job : Nat) : Bool :=
  (c.context ctx).inRange job && (c.counter job).level == 3#2 && !(c.counter job).cancelled

/-! ## Blocks (R336 to R341) -/

/-- The home bucket of (owner, lb) (R338). -/
def kvHome (owner lb : Nat) : Nat := (hash32 (BitVec.ofNat 32 lb ^^^ BitVec.ofNat 32 (owner * 0x61C88647))).toNat % 524288

/-- The entries of a window, in their order (R338, R339). -/
def kvWindow (owner lb : Nat) : List Nat :=
  (List.range 4).flatMap fun k => (List.range 8).map fun i => 8 * ((kvHome owner lb + k) % 524288) + i

/-- The block of (owner, lb) on a die (R339). -/
def Chip.block? (c : Chip) (die owner lb : Nat) : Option KvBlock :=
  c.blocks.find? fun b => b.die == die && b.owner == owner && b.lb == lb

/-- KVHELD: blocks that a context holds on a die (R341). -/
def Chip.kvHeld (c : Chip) (ctx die : Nat) : Nat := (c.blocks.filter fun b => b.die == die && b.ctx == ctx).length

/-- Free blocks of a context on a die (R341). -/
def Chip.kvFree (c : Chip) (ctx die : Nat) : Nat :=
  let quota := if die = 0 then (c.context ctx).kvquota0 else (c.context ctx).kvquota1
  min (Config.dieBlocks - (c.blocks.filter fun b => b.die == die).length) (quota - c.kvHeld ctx die)

/-- A block allocated for (owner, lb), empty (R339, R340). -/
def Chip.allocBlock (c : Chip) (q : Sequence) (lb : Nat) : Option Chip :=
  let here := c.blocks.filter fun b => b.die == q.die
  let free := fun n => !(here.any fun b => b.phys == n)
  let add := fun n spill => { c with
    blocks := c.blocks ++ [({ die := q.die, phys := n, spill, owner := q.num, lb, ctx := q.ctx, data := [], lost := false } : KvBlock)] }
  if c.kvFree q.ctx q.die = 0 then none
  else
    match (kvWindow q.num lb).find? free with
    | some n => some (add n false)
    | none =>
      if Config.dieOverflow ≤ (here.filter (·.spill)).length then none
      else (leastWhere (here.length + 1) free).map fun n => add n true

/-- The blocks of several logical numbers allocated, all or none. -/
def Chip.allocBlocks (c : Chip) (q : Sequence) (lbs : List Nat) : Option Chip :=
  lbs.foldl (fun c lb => c.bind fun c => c.allocBlock q lb) (some c)

/-- A block's bytes changed. -/
def Chip.onBlock (c : Chip) (die owner lb : Nat) (f : SMap Byte → SMap Byte) : Chip :=
  { c with
    blocks := updWhere (fun b => b.die == die && b.owner == owner && b.lb == lb) (fun b => { b with data := f b.data })
      c.blocks }

/-- The blocks that a sequence owns at token block `tb` or above are freed; how many (R335, R339). -/
def Chip.freeFrom (c : Chip) (q : Sequence) (tb : Nat) : Chip × Nat :=
  let gone := fun (b : KvBlock) => b.die == q.die && b.owner == q.num && decide (tb ≤ b.lb / q.p)
  ({ c with blocks := c.blocks.filter fun b => !gone b }, (c.blocks.filter gone).length)

/-- A sequence's blocks and record are freed, and R335 is applied up the tree; how many blocks (R335, R347). -/
def Chip.freeSeq : Nat → Chip → Sequence → Chip × Nat
  | 0, c, _ => (c, 0)
  | fuel + 1, c, q =>
    let (c, n) := c.freeFrom q 0
    let c := { c with sequences := c.sequences.filter (fun r => r.num != q.num), releases := c.releases.filter fun p => p.1 != q.num }
    match c.sequences.find? fun r => some r.num == q.parent with
    | none => (c, n)
    | some r =>
      if r.live then (c, n)
      else if c.nchild r.num = 0 then let (c, m) := Chip.freeSeq fuel c r; (c, n + m)
      else let (c, m) := c.freeFrom r (c.heldOf r.num / 64); (c, n + m)

/-- A live sequence released (R347): blocks freed. -/
def Chip.releaseSeq (c : Chip) (q : Sequence) : Chip × Nat :=
  let c := { c.onSeq q.num fun r => { r with live := false } with releases := c.releases.filter fun p => p.1 != q.num }
  if c.nchild q.num = 0 then c.freeSeq (c.sequences.length + 1) q else c.freeFrom q (c.heldOf q.num / 64)

/-- Payload offsets of a slot's K and V rows of head part `i` (R336). -/
def rowAt (lg6 : Bool) (i s : Nat) (isV : Bool) : Nat :=
  if lg6 then 12288 * i + (if isV then 6144 else 0) + 96 * s else (if isV then 16384 else 0) + 256 * s

/-- Bytes of a row as it is stored. -/
def rowBytes (lg6 : Bool) : Nat := if lg6 then 96 else 256

/-- The rows of a slot: the offset of each. -/
def slotRows (lg6 : Bool) (s : Nat) : List Nat :=
  if lg6 then (List.range 2).flatMap fun i => [rowAt true i s false, rowAt true i s true]
  else [rowAt false 0 s false, rowAt false 0 s true]

/-- Offsets of the side bytes (R336). -/
def retAt (s : Nat) : Nat := 32768 + s
def scaleAt (i r q : Nat) : Nat := 32768 + 0x48 + 8 * i + 4 * r + q

/-- VALID with one slot's bit set. -/
def setValid (d : SMap Byte) (s : Nat) : SMap Byte :=
  let a := 32768 + 0x40 + s / 8
  SMap.put 0#8 d a (SMap.get 0#8 d a ||| BitVec.ofNat 8 (2 ^ (s % 8)))

/-- A slot of one block copied to a slot of another, with its retention byte and its VALID bit. -/
def copySlot (lg6 : Bool) (from_ : SMap Byte) (s : Nat) (into : SMap Byte) (t : Nat) : SMap Byte :=
  let rows := (slotRows lg6 s).zip (slotRows lg6 t)
  let d := rows.foldl (fun d r => putBytes d r.2 (bytesAt from_ r.1 (rowBytes lg6))) into
  setValid (SMap.put 0#8 d (retAt t) (SMap.get 0#8 from_ (retAt s))) t

/-- The SCALE bytes of a block. -/
def scalesOf (d : SMap Byte) : List Byte := bytesAt d (32768 + 0x48) 16

/-- Slots 0 to n − 1 of a block with their side bytes, the other slots empty (R346). -/
def keepSlots (lg6 : Bool) (d : SMap Byte) (n : Nat) : SMap Byte :=
  (List.range n).foldl (fun out s => copySlot lg6 d s out s) (putBytes [] (32768 + 0x48) (scalesOf d))

/-- The bytes of the block that holds a token block of a sequence: its owner's (R334). -/
def Chip.blockOf (c : Chip) (q : Sequence) (tb k : Nat) : Option KvBlock := c.block? q.die (q.ownerOf tb) (tb * q.p + k)

/-- Its bytes; an absent one is empty. -/
def Chip.blockData (c : Chip) (q : Sequence) (tb k : Nat) : SMap Byte := ((c.blockOf q tb k).map (·.data)).getD []

/-! ## The frame of an attention command (R343, R344) -/

/-- What a command comes to at its die: the chip, its status, words A and B, and the output bytes. -/
structure KvEnd where
  chip   : Chip
  status : Nat
  a      : Nat := 0
  b      : Nat := 0
  outs   : List (Loc × Byte) := []

/-- A command that fails (R343). -/
def kvFail (c : Chip) (status : Nat) : KvEnd := { chip := c, status }

/-- An attention command runs (R343, R344): its RES, then its own checks and effect, then its record, its barrier and its
end. `bf16` is the format its count takes. A command whose team is gone writes no record to that scratchpad (R354). -/
def Chip.runKv (c : Chip) (o : EngOp) (bf16 : Chip → Bool) (f : Chip → KvEnd) : Chip :=
  match c.resPlace o with
  | (c, .error e) => (c.countOp o (c.countOf o true) 0 0).ranOp o (some (0, e.status))
  | (c, .ok rec_) =>
    let n := c.countOf o (bf16 c)
    let r := f c
    let st := if o.dropped then 4 else r.status
    let c := r.chip.putLocs o (if o.dropped then [] else r.outs)
    let c := c.putLocs o (rec_.zip (resultRecord st r.a r.b))
    (c.countOp o n 0 0).ranOp o (if st = 0 then none else some (0, st))

/-- An attention command's event. -/
def execKv (code : Nat) (f : EngOp → Chip → KvEnd) (s : State) : Host.Outcome State Fault Refusal :=
  onChip s fun c => (c.opDue s.event.a code).map fun o => c.runKv o (fun _ => true) (f o)

/-! ## kv.new, kv.fork, kv.release, kv.compact (R345 to R347, R349) -/

/-- kv.new at its die (R345). -/
def kvNew (o : EngOp) (c : Chip) : KvEnd :=
  let f := fun at_ n => cmdNat o.cmd at_ n
  let job := f 20 2
  if !c.jobOk o.ctx job then kvFail c 0x26
  else
    match c.newSeq with
    | none => kvFail c 0x23
    | some n =>
      let q : Sequence :=
        { num := n, ctx := o.ctx, die := f 16 1, lg6 := f 17 1 == 1, nl := f 18 1 + 1, nh := f 19 1 + 1, job, length := 0,
          parent := none, f := 0, spans := [], own0 := 0, live := true }
      { chip := { c with sequences := c.sequences ++ [q] }, status := 0, a := n }

/-- kv.new runs. -/
def execKvNew (s : State) : Host.Outcome State Fault Refusal := execKv 0x20 kvNew s

/-- The spans of a fork at token block f (R346). -/
def Sequence.forkSpans (q : Sequence) (f : Nat) : List (Nat × Nat × Nat) :=
  (q.spans.filter fun s => decide (s.2.1 < f)).map (fun s => (s.1, s.2.1, min s.2.2 (f - 1)))
    ++ if q.own0 + 1 ≤ f then [(q.num, q.own0, f - 1)] else []

/-- kv.fork at its die (R346). -/
def kvFork (o : EngOp) (c : Chip) : KvEnd :=
  let F := cmdNat o.cmd 20 4
  let job := cmdNat o.cmd 24 2
  match c.seq? o.ctx (cmdNat o.cmd 16 4) with
  | none => kvFail c 0x20
  | some q =>
    let f := F / 64
    let spans := q.forkSpans f
    if q.length < F then kvFail c 0x24
    else if !c.jobOk o.ctx job then kvFail c 0x26
    else if 64 < spans.length then kvFail c 0x21
    else
      match c.newSeq with
      | none => kvFail c 0x23
      | some n =>
        let child : Sequence := { q with num := n, job, length := F, parent := some q.num, f := F, spans, own0 := f }
        let c1 := { c with sequences := c.sequences ++ [child] }
        if F % 64 = 0 then { chip := c1, status := 0, a := n }
        else
          match c1.allocBlocks child ((List.range q.p).map fun k => f * q.p + k) with
          | none => kvFail c 0x22
          | some c2 =>
            let c3 := (List.range q.p).foldl (fun (d : Chip) k =>
              d.onBlock q.die n (f * q.p + k) fun _ => keepSlots q.lg6 (c.blockData q f k) (F % 64)) c2
            let lost := (List.range q.p).any fun k => ((c.blockOf q f k).map (·.lost)).getD false
            if lost then kvFail c 6 else { chip := c3, status := 0, a := n, b := q.p }

/-- kv.fork runs. -/
def execKvFork (s : State) : Host.Outcome State Fault Refusal := execKv 0x22 kvFork s

/-- kv.release at its die (R347). -/
def kvRelease (o : EngOp) (c : Chip) : KvEnd :=
  match c.seq? o.ctx (cmdNat o.cmd 16 4) with
  | none => kvFail c 0x20
  | some q =>
    let kids := c.nchild q.num
    let (c, n) := c.releaseSeq q
    { chip := c, status := 0, a := n, b := kids }

/-- kv.release runs. -/
def execKvRelease (s : State) : Host.Outcome State Fault Refusal := execKv 0x23 kvRelease s

/-- A cancellation's release of a sequence (R353): the event names it. -/
def execKvCancelRelease (s : State) : Host.Outcome State Fault Refusal :=
  onChip s fun c =>
    if c.releases.any fun p => p.1 == s.event.a then
      (c.sequences.find? fun q => q.num == s.event.a && q.live).map fun q => (c.releaseSeq q).1
    else none

/-- kv.compact at its die (R349). Blocks of ancestors are shared and stay as they are (DEDUCED, log 33). -/
def kvCompact (o : EngOp) (c : Chip) : KvEnd :=
  let thr := cmdNat o.cmd 20 1
  match c.seq? o.ctx (cmdNat o.cmd 16 4) with
  | none => kvFail c 0x20
  | some q =>
    let tb0 := max (c.heldOf q.num / 64) q.own0
    let h := min q.length (64 * tb0)
    let tokens := (List.range (q.length - h)).map (h + ·)
    let ret := fun t => (SMap.get 0#8 (c.blockData q (t / 64) 0) (retAt (t % 64))).toNat
    let kept := tokens.filter fun t => decide (thr ≤ ret t)
    let n := h + kept.length
    let top := (q.length + 63) / 64
    let lost := (List.range (top - tb0)).any fun i => (List.range q.p).any fun k => ((c.blockOf q (tb0 + i) k).map (·.lost)).getD false
    if lost then kvFail c 6
    else
      let c1 := (List.range (top - tb0)).foldl (fun (d : Chip) i =>
        (List.range q.p).foldl (fun (d : Chip) k =>
          d.onBlock q.die q.num ((tb0 + i) * q.p + k) fun old =>
            let base := putBytes [] (32768 + 0x48) (scalesOf old)
            (List.range 64).foldl (fun out s =>
              match kept[64 * i + s]? with
              | some t => copySlot q.lg6 (c.blockData q (t / 64) k) (t % 64) out s
              | none => out) base) d) c
      let (c2, freed) := (c1.onSeq q.num fun r => { r with length := n }).freeFrom q (max ((n + 63) / 64) tb0)
      { chip := c2, status := 0, a := n, b := freed }

/-- kv.compact runs. -/
def execKvCompact (s : State) : Host.Outcome State Fault Refusal := execKv 0x24 kvCompact s

/-! ## kv.append (R348) -/

/-- An entry of an append list. -/
structure AppendEntry where
  seq  : Nat
  n    : Nat
  data : W64
  ret  : W64
  scl  : W64
  deriving DecidableEq, Repr

/-- An entry's fields. -/
def AppendEntry.ofBytes (bs : List Byte) : AppendEntry :=
  { seq := cmdNat bs 0 4, n := cmdNat bs 4 4, data := BitVec.ofNat 64 (cmdNat bs 8 8),
    ret := BitVec.ofNat 64 (cmdNat bs 16 8), scl := BitVec.ofNat 64 (cmdNat bs 24 8) }

/-- Source bytes read, or the status of the first that fails (R348, R376). -/
def Chip.readSource (c : Chip) (o : EngOp) (a : W64) (n : Nat) : Chip × Except Nat (List Byte) :=
  match c.placeAll o .read false (span a n) with
  | (c, .error f) => (c, .error f.status)
  | (c, .ok ls) => if ls.any (c.locPoison o) then (c.meetLocs o ls, .error 6) else (c.l2Reads ls, .ok (ls.map (c.locByte o)))

/-- One token's rows stored (R348): `row` gives a layer's and head's K or V row. -/
def Chip.storeToken (c : Chip) (q : Sequence) (t : Nat) (ret : Byte) (row : Nat → Nat → Bool → List Byte) : Chip :=
  (List.range q.nl).foldl (fun (c : Chip) l =>
    (List.range q.nh).foldl (fun (c : Chip) h =>
      let hb := if q.lg6 then h / 2 else h
      let i := if q.lg6 then h % 2 else 0
      c.onBlock q.die q.num (t / 64 * q.p + l * q.nhb + hb) fun d =>
        let d := putBytes d (rowAt q.lg6 i (t % 64) false) (row l h false)
        let d := putBytes d (rowAt q.lg6 i (t % 64) true) (row l h true)
        setValid (SMap.put 0#8 d (retAt (t % 64)) ret) (t % 64)) c) c

/-- One entry served: the blocks it allocates, or the status it stops with (R348). Its DATA is read first, then RET, then SCL (a choice
of the model, log 137). -/
def Chip.serve (c : Chip) (o : EngOp) (e : AppendEntry) : Chip × Except Nat Nat :=
  match c.seq? o.ctx e.seq with
  | none => (c, .error 0x20)
  | some q =>
    let len := q.length
    if 65536 < e.n ∨ 2 ^ 24 < len + e.n then (c, .error 0x24)
    else
      let tbs := (len + 63) / 64
      let more := (len + e.n + 63) / 64 - tbs
      let rb := 2 * rowBytes q.lg6
      let tr := q.nl * q.nh * rb
      match c.readSource o e.data (e.n * tr) with
      | (c, .error st) => (c, .error st)
      | (c, .ok data) =>
        match c.readSource o e.ret e.n with
        | (c, .error st) => (c, .error st)
        | (c, .ok rets) =>
          match c.readSource o e.scl (if q.lg6 && more != 0 then 16 * q.p else 0) with
          | (c, .error st) => (c, .error st)
          | (c, .ok scl) =>
            let lbs := (List.range (q.p * more)).map fun i => tbs * q.p + i
            match c.allocBlocks q lbs with
            | none => (c, .error 0x22)
            | some c =>
              let c := lbs.foldl (fun (c : Chip) lb =>
                c.onBlock q.die q.num lb fun d => putBytes d (32768 + 0x48) ((scl.drop (16 * (lb % q.p))).take 16)) c
              let c := (List.range e.n).foldl (fun (c : Chip) j =>
                c.storeToken q (len + j) (rets[j]?.getD 0#8) fun l h isV =>
                  (data.drop (j * tr + (l * q.nh + h) * rb + (if isV then rowBytes q.lg6 else 0))).take (rowBytes q.lg6)) c
              (c.onSeq q.num fun r => { r with length := len + e.n }, .ok (q.p * more))

/-- Entries served in their order until one stops (R348). -/
def Chip.serveAll (c : Chip) (o : EngOp) : List AppendEntry → Nat → Nat → KvEnd
  | [], i, blocks => { chip := c, status := 0, a := i, b := i + blocks * 2 ^ 32 }
  | e :: es, i, blocks =>
    match c.serve o e with
    | (c, .error st) => { chip := c, status := st, a := i, b := i + blocks * 2 ^ 32 }
    | (c, .ok n) => Chip.serveAll c o es (i + 1) (blocks + n)

/-- kv.append at its die (R348). A failure before its first entry gives words of zero. -/
def kvAppend (o : EngOp) (c : Chip) : KvEnd :=
  let list := o.word 16
  if list.toNat % 32 ≠ 0 then kvFail c 2
  else
    match c.readSource o list (32 * o.len) with
    | (c, .error st) => kvFail c st
    | (c, .ok bs) => c.serveAll o ((List.range o.len).map fun i => AppendEntry.ofBytes (bs.drop (32 * i))) 0 0

/-- kv.append runs. -/
def execKvAppend (s : State) : Host.Outcome State Fault Refusal := execKv 0x21 kvAppend s

/-! ## kv.attn (R350) -/

/-- The 128 elements of a stored row, exactly (R336). -/
def rowVals (q : Sequence) (d : SMap Byte) (h s : Nat) (isV : Bool) : List FVal :=
  let i := if q.lg6 then h % 2 else 0
  let a := rowAt q.lg6 i s isV
  (List.range 128).map fun e =>
    if q.lg6 then
      let code := natAt d (a + 12 * (e / 16)) 12 / 2 ^ (6 * (e % 16)) % 64
      lgDecode (BitVec.ofNat 6 code) (SMap.get 0#8 d (scaleAt i isV.toNat (e / 32))).toInt
    else fmtBF16.decode (natAt d (a + 2 * e) 2)

/-- The block in a token block for a layer and head. -/
def Sequence.headBlock (q : Sequence) (l h : Nat) : Nat := l * q.nhb + (if q.lg6 then h / 2 else h)

/-- Row of token t of a layer and head. -/
def Chip.tokenRow (c : Chip) (q : Sequence) (l h t : Nat) (isV : Bool) : List FVal :=
  rowVals q (c.blockData q (t / 64) (q.headBlock l h)) h (t % 64) isV

/-- RoundF32(ExactSum(…)) of exact products. -/
def sumOf (ts : List (FVal × FVal)) : Nat := (fmtF32.sum .rn (ts.map fun p => (p.1.mul p.2).1)).1

/-- −∞ and 1 in f32. -/
def negInf : Nat := fmtF32.inf true
def fone : FVal := .fin false 1 0

/-- The greatest of f32 values; the canonical NaN if any is NaN (R350). -/
def greatest (xs : List Nat) : Nat :=
  if xs.any (fun x => (fmtF32.decode x).isNaN) then fmtF32.nan
  else xs.foldl (fun m x => (fmtF32.minMax true m x).1) negInf

/-- RoundF32(a / b) (R350). -/
def divF32 (a b : Nat) : Nat :=
  match fmtF32.decode a, fmtF32.decode b with
  | .nan _, _ => fmtF32.nan
  | _, .nan _ => fmtF32.nan
  | .inf _, .inf _ => fmtF32.nan
  | .inf n, .fin k _ _ => fmtF32.inf (n != k)
  | .fin n _ _, .inf k => fmtF32.signBit (n != k)
  | .fin n m e, .fin k d g =>
    if d = 0 then (if m = 0 then fmtF32.nan else fmtF32.inf (n != k))
    else (fmtF32.roundFin .rn (n != k) (m * 2 ^ 64 / d) (e - g - 64) (m * 2 ^ 64 % d != 0)).1

/-- What a query row has gathered: m, ℓ and o (R350). -/
structure AttnRow where
  m : Nat
  l : Nat
  o : List Nat
  deriving DecidableEq, Repr

/-- A row before its first tile. -/
def AttnRow.start : AttnRow := { m := negInf, l := 0, o := List.replicate 128 0 }

/-- One tile: its scores and the rows of V of its 64 tokens (R350). -/
def AttnRow.tile (r : AttnRow) (z : List Nat) (v : List (List FVal)) : AttnRow :=
  let m' := greatest (r.m :: z)
  if m' = negInf then r
  else
    let exp := fun x => if x = negInf then 0 else (sfuExp2Of (fmtF32.sub .rn x m').1).1
    let al := fmtF32.decode (exp r.m)
    let ps := z.map fun x => fmtF32.decode (exp x)
    { m := m'
      l := sumOf ((al, fmtF32.decode r.l) :: ps.map fun p => (p, fone))
      o := (List.range 128).map fun d =>
        sumOf ((al, fmtF32.decode (r.o[d]?.getD 0)) :: (ps.zip v).map fun p => (p.1, p.2[d]?.getD (.fin false 0 0))) }

/-- A row's outputs (R350). -/
def AttnRow.out (r : AttnRow) : List Nat := r.o.map fun x => if r.l = 0 then 0 else divF32 x r.l

/-- Attention of one query row over tokens 0 to L − 1 (R350). -/
def Chip.attend (c : Chip) (q : Sequence) (l h L scale : Nat) (query : List FVal) : AttnRow :=
  (List.range ((L + 63) / 64)).foldl (fun (r : AttnRow) n =>
    let z := (List.range 64).map fun i =>
      let t := 64 * n + i
      if t < L then (fmtF32.product .rn scale (sumOf (query.zip (c.tokenRow q l h t false)))).1 else negInf
    let v := (List.range 64).map fun i => c.tokenRow q l h (64 * n + i) true
    r.tile z v) .start

/-- Places checked: alignment to 16 of every address first, then translations in turn (R342, R343). -/
def Chip.checkSpans (c : Chip) (o : EngOp) (ss : List (W64 × Nat × Access)) : Chip × Except Nat (List (List Loc)) :=
  if ss.any (fun s => s.1.toNat % 16 != 0) then (c, .error 2)
  else
    ss.foldl (fun (r : Chip × Except Nat (List (List Loc))) s =>
      match r with
      | (c, .error st) => (c, .error st)
      | (c, .ok out) =>
        match c.placeAll o s.2.2 false (span s.1 s.2.1) with
        | (c, .error f) => (c, .error f.status)
        | (c, .ok ls) => (c, .ok (out ++ [ls]))) (c, .ok [])

/-- Whether a storage error has lost a block that tokens first to last − 1 of a head lie in (R376). -/
def Chip.headLost (c : Chip) (q : Sequence) (l h first last : Nat) : Bool :=
  (List.range ((last + 63) / 64)).any fun tb =>
    decide (first < 64 * tb + 64) && ((c.blockOf q tb (q.headBlock l h)).map (·.lost)).getD false

/-- kv.attn at its die (R350). With L = 0 the queries are not used (R342). -/
def kvAttn (o : EngOp) (c : Chip) : KvEnd :=
  let l := cmdNat o.cmd 20 1
  let h := cmdNat o.cmd 21 1
  let G := cmdNat o.cmd 22 1 % 16 + 1
  let stats := cmdNat o.cmd 23 1 % 2 == 1
  let L := o.len
  match c.seq? o.ctx (cmdNat o.cmd 16 4) with
  | none => kvFail c 0x20
  | some q =>
    if q.nl ≤ l ∨ q.nh ≤ h then kvFail c 0x25
    else if q.length < L then kvFail c 0x24
    else if o.dropped then { chip := c, status := 4 }
    else
      let spans := (if L = 0 then [] else [(o.word 32, 256 * G, Access.read)]) ++ [(o.word 40, 512 * G, Access.write)]
        ++ if stats then [(o.word 48, 8 * G, Access.write)] else []
      match c.checkSpans o spans with
      | (c, .error st) => kvFail c st
      | (c, .ok ls) =>
        let qs := if L = 0 then [] else ls.headD []
        if qs.any (c.locPoison o) || c.headLost q l h 0 L then kvFail (c.meetLocs o qs) 6
        else
          let bytes := qs.map (c.locByte o)
          let rows := (List.range G).map fun g =>
            let query := (List.range 128).map fun d => fmtBF16.decode (leNat ((bytes.drop (256 * g + 2 * d)).take 2))
            c.attend q l h L (cmdNat o.cmd 24 4) query
          let outs := rows.flatMap fun r => r.out.flatMap fun x => leBytes 4 x
          let st := rows.flatMap fun r => leBytes 4 r.l ++ leBytes 4 r.m
          let places := (if L = 0 then ls else ls.drop 1).flatten
          { chip := c.l2Reads qs, status := if L = 0 then 0x10 else 0, a := L, b := (L + 63) / 64, outs := places.zip (outs ++ st) }

/-- kv.attn runs. -/
def execKvAttn (s : State) : Host.Outcome State Fault Refusal := execKv 0x25 kvAttn s

/-! ## kv.read (R351) -/

/-- The record of a token (R351): both rows as bf16, or decoded to f32. -/
def Chip.tokenRecord (c : Chip) (q : Sequence) (l h t : Nat) : List Byte :=
  if q.lg6 then
    [false, true].flatMap fun isV => (c.tokenRow q l h t isV).flatMap fun x => leBytes 4 (fmtF32.round .rn x).1
  else
    let d := c.blockData q (t / 64) (q.headBlock l h)
    [false, true].flatMap fun isV => bytesAt d (rowAt false 0 (t % 64) isV) 256

/-- kv.read at its die (R351). -/
def kvRead (o : EngOp) (c : Chip) : KvEnd :=
  let l := cmdNat o.cmd 20 1
  let h := cmdNat o.cmd 21 1
  let first := cmdNat o.cmd 24 4
  let N := o.len
  match c.seq? o.ctx (cmdNat o.cmd 16 4) with
  | none => kvFail c 0x20
  | some q =>
    if q.nl ≤ l ∨ q.nh ≤ h then kvFail c 0x25
    else if q.length < first + N then kvFail c 0x24
    else if o.dropped then { chip := c, status := 4 }
    else
      let spans := if N = 0 then [] else [(o.word 32, N * (if q.lg6 then 1025 else 513), Access.write)]
      match c.checkSpans o spans with
      | (c, .error st) => kvFail c st
      | (c, .ok ls) =>
        if N ≠ 0 ∧ c.headLost q l h first (first + N) then kvFail c 6
        else
          let ts := (List.range N).map (first + ·)
          let rets := ts.map fun t => SMap.get 0#8 (c.blockData q (t / 64) (q.headBlock l h)) (retAt (t % 64))
          { chip := c, status := 0, a := q.length
            b := c.heldOf q.num + c.nchild q.num % 2 ^ 16 * 2 ^ 32 + q.spans.length * 2 ^ 48
            outs := ls.flatten.zip (ts.flatMap (c.tokenRecord q l h) ++ rets) }

/-- Whether a kv.read counts records of bf16: the sequence that it finds holds bf16, or it finds none (R344). -/
def Chip.readsBf16 (c : Chip) (o : EngOp) : Bool := ((c.seq? o.ctx (cmdNat o.cmd 16 4)).map fun q => !q.lg6).getD true

/-- The bytes that an attention command counts on its barrier (R344). -/
def Chip.kvCount (c : Chip) (o : EngOp) : Nat := c.countOf o (o.code != 0x26 || c.readsBf16 o)

/-- kv.read runs; its count takes the format of the sequence it finds (R344). -/
def execKvRead (s : State) : Host.Outcome State Fault Refusal :=
  onChip s fun c => (c.opDue s.event.a 0x26).map fun o => c.runKv o (fun c => c.readsBf16 o) (kvRead o)

end Sys2Proof.Machine
end

