-- ==== Sys2Proof/Machine/FloatOps.lean ====
section
/-! DEFINITION. Floating-point instructions on lanes (R113 to R116, R121 to R127). -/
namespace Sys2Proof.Machine

/-- The operand of a floating-point type: bits [15:0] for a 16-bit one (R114). -/
def fpOf (ty : Ty) (w : W32) : Nat := w.toNat % 2 ^ (Fmt.ofTy ty).bits

/-- A result of A and B with flags. -/
def fxF2 (f : Fmt → Nat → Nat → Nat × Flags) : Fx := fun x e g =>
  x.putF g e.d fun l =>
    let (r, fl) := f (Fmt.ofTy e.ty) (fpOf e.ty (x.g.opA e l)) (fpOf e.ty (x.g.opB e l))
    (BitVec.ofNat 32 r, fl)

/-- A result of A with flags. -/
def fxF1 (f : Fmt → Nat → Nat × Flags) : Fx := fun x e g =>
  x.putF g e.d fun l =>
    let (r, fl) := f (Fmt.ofTy e.ty) (fpOf e.ty (x.g.opA e l))
    (BitVec.ofNat 32 r, fl)

def fxFadd : Fx := fun x e g => fxF2 (fun f a b => f.add e.rnd a b) x e g
def fxFsub : Fx := fun x e g => fxF2 (fun f a b => f.sub e.rnd a b) x e g
def fxFmul : Fx := fun x e g => fxF2 (fun f a b => f.product e.rnd a b) x e g

/-- fma: one rounding (R122). -/
def fxFma : Fx := fun x e g =>
  x.putF g e.d fun l =>
    let (r, fl) := (Fmt.ofTy e.ty).fma e.rnd (fpOf e.ty (x.g.opA e l)) (fpOf e.ty (x.g.opB e l))
      (fpOf e.ty (x.g.opC e l))
    (BitVec.ofNat 32 r, fl)

def fxFmin : Fx := fxF2 fun f a b => f.minMax false a b
def fxFmax : Fx := fxF2 fun f a b => f.minMax true a b

/-- fneg: the sign bit inverted (R125). -/
def fxFneg : Fx := fxF1 fun f a => (a ^^^ f.signBit true, 0#5)
/-- fabs: the sign bit cleared (R125). -/
def fxFabs : Fx := fxF1 fun f a => (a % f.signBit true, 0#5)
/-- fcopysign (R125). -/
def fxFcopysign : Fx := fxF2 fun f a b => (a % f.signBit true + b / f.signBit true * f.signBit true, 0#5)

/-- fdot2: two exact products and an f32 accumulator, rounded once (R126). -/
def fxFdot2 : Fx := fun x e g =>
  x.putF g e.d fun l =>
    let f := Fmt.ofTy e.ty
    let a := (x.g.opA e l).toNat
    let b := (x.g.opB e l).toNat
    let (lo, f0) := (f.decode (a % 65536)).mul (f.decode (b % 65536))
    let (hi, f1) := (f.decode (a / 65536)).mul (f.decode (b / 65536))
    let (r, fr) := fmtF32.sum e.rnd [lo, hi, fmtF32.decode (x.g.opC e l).toNat]
    (BitVec.ofNat 32 r, f0 ||| f1 ||| fr)

/-- fclass (R127). -/
def fxFclass : Fx := fxF1 fun f a => (2 ^ f.classOf a, 0#5)
/-- frnd (R122). -/
def fxFrnd : Fx := fun x e g => fxF1 (fun f a => f.integral e.rnd a) x e g
/-- fscale: k is OpB[31:0], signed, as R122 says; for a 16-bit type R18 and R113 would give a scalar or literal B only
its bits [15:0], and the model follows R122 (a choice of the model, log 79). -/
def fxFscale : Fx := fun x e g =>
  x.putF g e.d fun l =>
    let (r, fl) := (Fmt.ofTy e.ty).scale e.rnd (fpOf e.ty (x.g.opA e l)) (x.g.opB e l).toInt
    (BitVec.ofNat 32 r, fl)

/-- fcmp (R124). -/
def fxFcmp (rel : FRel) : Fx := fun x e g =>
  let r := fun l => (Fmt.ofTy e.ty).compare rel (fpOf e.ty (x.g.opA e l)) (fpOf e.ty (x.g.opB e l))
  (x.putS g e.d (x.laneMask fun l => (r l).1)).raiseFlags (orFlags (x.lanes.map fun l => (r l).2))

/-! ## Meanings -/

/-- fadd (R122). -/
def execFadd (e : Enc) (s : State) : Host.Outcome State Fault Refusal := runFx (.fadd e) e fxFadd s
/-- fadd, B form (R19). -/
def execFaddB (b : BEnc) (s : State) : Host.Outcome State Fault Refusal :=
  runFx (.faddB b) (shortEnc 0x30 .e b) fxFadd s
/-- fsub (R122). -/
def execFsub (e : Enc) (s : State) : Host.Outcome State Fault Refusal := runFx (.fsub e) e fxFsub s
/-- fsub, B form (R19). -/
def execFsubB (b : BEnc) (s : State) : Host.Outcome State Fault Refusal :=
  runFx (.fsubB b) (shortEnc 0x31 .e b) fxFsub s
/-- fmul (R122). -/
def execFmul (e : Enc) (s : State) : Host.Outcome State Fault Refusal := runFx (.fmul e) e fxFmul s
/-- fmul, B form (R19). -/
def execFmulB (b : BEnc) (s : State) : Host.Outcome State Fault Refusal :=
  runFx (.fmulB b) (shortEnc 0x32 .e b) fxFmul s
/-- fma (R122). -/
def execFma (e : Enc) (s : State) : Host.Outcome State Fault Refusal := runFx (.fma e) e fxFma s
/-- fmin (R123). -/
def execFmin (e : Enc) (s : State) : Host.Outcome State Fault Refusal := runFx (.fmin e) e fxFmin s
/-- fmin, B form (R19). -/
def execFminB (b : BEnc) (s : State) : Host.Outcome State Fault Refusal :=
  runFx (.fminB b) (shortEnc 0x34 .e b) fxFmin s
/-- fmax (R123). -/
def execFmax (e : Enc) (s : State) : Host.Outcome State Fault Refusal := runFx (.fmax e) e fxFmax s
/-- fmax, B form (R19). -/
def execFmaxB (b : BEnc) (s : State) : Host.Outcome State Fault Refusal :=
  runFx (.fmaxB b) (shortEnc 0x35 .e b) fxFmax s
/-- fneg (R125). -/
def execFneg (e : Enc) (s : State) : Host.Outcome State Fault Refusal := runFx (.fneg e) e fxFneg s
/-- fabs (R125). -/
def execFabs (e : Enc) (s : State) : Host.Outcome State Fault Refusal := runFx (.fabs e) e fxFabs s
/-- fcopysign (R125). -/
def execFcopysign (e : Enc) (s : State) : Host.Outcome State Fault Refusal := runFx (.fcopysign e) e fxFcopysign s
/-- fdot2 (R126). -/
def execFdot2 (e : Enc) (s : State) : Host.Outcome State Fault Refusal := runFx (.fdot2 e) e fxFdot2 s
/-- fclass (R127). -/
def execFclass (e : Enc) (s : State) : Host.Outcome State Fault Refusal := runFx (.fclass e) e fxFclass s
/-- frnd (R122). -/
def execFrnd (e : Enc) (s : State) : Host.Outcome State Fault Refusal := runFx (.frnd e) e fxFrnd s
/-- fscale (R122). -/
def execFscale (e : Enc) (s : State) : Host.Outcome State Fault Refusal := runFx (.fscale e) e fxFscale s
/-- fcmp (R124). -/
def execFcmp (rel : FRel) (e : Enc) (s : State) : Host.Outcome State Fault Refusal := runFx (.fcmp rel e) e (fxFcmp rel) s

end Sys2Proof.Machine
end

