-- ==== Sys2Proof/Machine/Convert.lean ====
section
/-! DEFINITION. Conversions, packing, special functions, LG6 instructions, and the P form (R25 to R28, R128 to R134). -/
namespace Sys2Proof.Machine

/-! ## Conversions (R128, R129) -/

/-- A conversion between floating-point formats (R99). -/
def fxCvtFF (src dst : Fmt) : Fx := fun x e g =>
  x.putF g e.d fun l =>
    let (r, fl) := convertFmt src dst e.rnd ((x.g.opA e l).toNat % 2 ^ src.bits)
    (BitVec.ofNat 32 r, fl)

/-- A conversion to a 32-bit integer (R98). -/
def fxCvtFI (src : Fmt) (signed : Bool) : Fx := fun x e g =>
  x.putF g e.d fun l =>
    let (r, fl) := src.toInt e.rnd signed 32 ((x.g.opA e l).toNat % 2 ^ src.bits)
    (BitVec.ofInt 32 r, fl)

/-- A conversion from f32 to a 64-bit integer (R98). -/
def fxCvtFL (signed : Bool) : Fx := fun x e g =>
  let r := fun l => fmtF32.toInt e.rnd signed 64 (x.g.opA e l).toNat
  (x.put2 g e.d fun l => BitVec.ofInt 64 (r l).1).raiseFlags (orFlags (x.lanes.map fun l => (r l).2))

/-- A conversion from a 32-bit integer (R99). -/
def fxCvtIF (dst : Fmt) (signed : Bool) : Fx := fun x e g =>
  x.putF g e.d fun l =>
    let (r, fl) := dst.ofInt e.rnd (intOf signed (x.g.opA e l))
    (BitVec.ofNat 32 r, fl)

/-- A conversion from a 64-bit integer to f32 (R99). -/
def fxCvtLF (signed : Bool) : Fx := fun x e g =>
  x.putF g e.d fun l =>
    let (r, fl) := fmtF32.ofInt e.rnd (intOf signed (x.g.opA64 e l))
    (BitVec.ofNat 32 r, fl)

/-- The effect of a conversion pair (R128). -/
def fxCvt : CvtPair → Fx
  | .f16F32 => fxCvtFF fmtF32 fmtF16
  | .bf16F32 => fxCvtFF fmtF32 fmtBF16
  | .f32F16 => fxCvtFF fmtF16 fmtF32
  | .f32Bf16 => fxCvtFF fmtBF16 fmtF32
  | .bf16F16 => fxCvtFF fmtF16 fmtBF16
  | .f16Bf16 => fxCvtFF fmtBF16 fmtF16
  | .s32F32 => fxCvtFI fmtF32 true
  | .z32F32 => fxCvtFI fmtF32 false
  | .s64F32 => fxCvtFL true
  | .z64F32 => fxCvtFL false
  | .s32F16 => fxCvtFI fmtF16 true
  | .s32Bf16 => fxCvtFI fmtBF16 true
  | .f32S32 => fxCvtIF fmtF32 true
  | .f32Z32 => fxCvtIF fmtF32 false
  | .f32S64 => fxCvtLF true
  | .f32Z64 => fxCvtLF false
  | .f16S32 => fxCvtIF fmtF16 true
  | .bf16S32 => fxCvtIF fmtBF16 true
  | .s64S32 => fun x e g => x.put2 g e.d fun l => (x.g.opA e l).signExtend 64
  | .z64Z32 => fun x e g => x.put2 g e.d fun l => (x.g.opA e l).setWidth 64
  | .s32S64 => fun x e g => x.put g e.d fun l => narrow 32 true e.sat (intOf true (x.g.opA64 e l))
  | .z32Z64 => fun x e g => x.put g e.d fun l => narrow 32 false e.sat (intOf false (x.g.opA64 e l))

/-- cvt (R128). -/
def execCvt (pair : CvtPair) (e : Enc) (s : State) : Host.Outcome State Fault Refusal :=
  runFx (.cvt pair e) e (fxCvt pair) s

/-! ## Packing (R130) -/

/-- pack of two halves. -/
def execPack16 (half : Half) (e : Enc) (s : State) : Host.Outcome State Fault Refusal :=
  runFx (.pack16 half e) e (fun x e g =>
    x.put g e.d fun l => (x.g.opB e l).extractLsb' 0 16 ++ (x.g.opA e l).extractLsb' 0 16) s

/-- A register of a pack read as s32 and narrowed to a byte. -/
def packByte (sg : Sign) (sat : Bool) (w : W32) : Byte := narrow 8 (sg == .s) sat w.toInt

/-- pack of four bytes. -/
def execPack8 (sg : Sign) (e : Enc) (s : State) : Host.Outcome State Fault Refusal :=
  runFx (.pack8 sg e) e (fun x e g =>
    x.put g e.d fun l =>
      let reg := fun i => if e.a = 0xFF#8 then x.g.vec e e.a l else x.g.vreg (e.a.toNat + i) l
      BitVec.ofNat 32 (leNat ((List.range 4).map fun i => packByte sg e.sat (reg i)))) s

/-- unpk of two halves. -/
def execUnpk16 (half : Half) (e : Enc) (s : State) : Host.Outcome State Fault Refusal :=
  runFx (.unpk16 half e) e (fun x e g =>
    x.putN g e.d 2 fun i l => ((x.g.opA e l).extractLsb' (16 * i) 16).setWidth 32) s

/-- unpk of four bytes. -/
def execUnpk8 (sg : Sign) (e : Enc) (s : State) : Host.Outcome State Fault Refusal :=
  runFx (.unpk8 sg e) e (fun x e g =>
    x.putN g e.d 4 fun i l =>
      let b := (x.g.opA e l).extractLsb' (8 * i) 8
      if sg = .s then b.signExtend 32 else b.setWidth 32) s

/-! ## Special functions (R131) -/

/-- A special function of A. -/
def fxSfu (f : Nat → Nat × Flags) : Fx := fun x e g =>
  x.putF g e.d fun l => let (r, fl) := f (x.g.opA e l).toNat; (BitVec.ofNat 32 r, fl)

/-- sfu.rcp. -/
def execSfuRcp (e : Enc) (s : State) : Host.Outcome State Fault Refusal := runFx (.sfuRcp e) e (fxSfu sfuRcpOf) s
/-- sfu.rsqrt. -/
def execSfuRsqrt (e : Enc) (s : State) : Host.Outcome State Fault Refusal := runFx (.sfuRsqrt e) e (fxSfu sfuRsqrtOf) s
/-- sfu.sqrt. -/
def execSfuSqrt (e : Enc) (s : State) : Host.Outcome State Fault Refusal := runFx (.sfuSqrt e) e (fxSfu sfuSqrtOf) s
/-- sfu.exp2. -/
def execSfuExp2 (e : Enc) (s : State) : Host.Outcome State Fault Refusal := runFx (.sfuExp2 e) e (fxSfu sfuExp2Of) s
/-- sfu.log2. -/
def execSfuLog2 (e : Enc) (s : State) : Host.Outcome State Fault Refusal := runFx (.sfuLog2 e) e (fxSfu sfuLog2Of) s

/-! ## LG6 (R132 to R134) -/

/-- The scale of a lane: OpB[7:0], signed (R132). -/
def lgScale (x : Issue) (e : Enc) (l : Nat) : Int := ((x.g.opB e l).extractLsb' 0 8).toInt

/-- lgq.code (R132). -/
def execLgqCode (e : Enc) (s : State) : Host.Outcome State Fault Refusal :=
  runFx (.lgqCode e) e (fun x e g =>
    x.putF g e.d fun l => let (c, fl) := lgQuant (x.g.opA e l) (lgScale x e l); (c.setWidth 32, fl)) s

/-- lgq.pairs (R132). -/
def execLgqPairs (e : Enc) (s : State) : Host.Outcome State Fault Refusal :=
  runFx (.lgqPairs e) e (fun x e g =>
    x.putF g e.d fun l =>
      let v := x.g.vec2 e e.a l
      let lo := if e.a = 0xFF#8 then x.g.vec e e.a l else v.setWidth 32
      let hi := if e.a = 0xFF#8 then x.g.vec e e.a l else v.extractLsb' 32 32
      let (c0, f0) := lgQuant lo (lgScale x e l)
      let (c1, f1) := lgQuant hi (lgScale x e l)
      (BitVec.ofNat 32 (c1.toNat * 256 + c0.toNat), f0 ||| f1)) s

/-- lgx (R133): exact, no flag. -/
def execLgx (e : Enc) (s : State) : Host.Outcome State Fault Refusal :=
  runFx (.lgx e) e (fun x e g =>
    x.put g e.d fun l =>
      BitVec.ofNat 32 (fmtF32.round .rn (lgDecode ((x.g.opA e l).extractLsb' 0 6) (lgScale x e l))).1) s

/-- Sixteen codes packed into 96 bits, normalized (R105, R134). -/
def lgPack (code : Nat → BitVec 6) : Nat :=
  ((List.range 16).map fun i => (lgNorm (code i)).toNat * 2 ^ (6 * i)).sum

/-- lgpk.pack (R134). -/
def execLgpkPack (e : Enc) (s : State) : Host.Outcome State Fault Refusal :=
  runFx (.lgpkPack e) e (fun x e g =>
    x.putN g e.d 3 fun j l =>
      let reg := fun i => if e.a = 0xFF#8 then x.g.vec e e.a l else x.g.vreg (e.a.toNat + i) l
      BitVec.ofNat 32 (lgPack (fun i => (reg (i / 4)).extractLsb' (8 * (i % 4)) 6) / 2 ^ (32 * j))) s

/-- lgpk.unpack (R134). -/
def execLgpkUnpack (e : Enc) (s : State) : Host.Outcome State Fault Refusal :=
  runFx (.lgpkUnpack e) e (fun x e g =>
    x.putN g e.d 4 fun j l =>
      let reg := fun i => if e.a = 0xFF#8 then x.g.vec e e.a l else x.g.vreg (e.a.toNat + i) l
      let p := ((List.range 3).map fun i => (reg i).toNat * 2 ^ (32 * i)).sum
      BitVec.ofNat 32 (((List.range 4).map fun k =>
        (lgNorm (BitVec.ofNat 6 (p / 2 ^ (6 * (4 * j + k))))).toNat * 256 ^ k).sum)) s

/-! ## The P form (R25 to R28) -/

/-- The effect of a pair code (R26); none for the codes that name no operation. -/
def pairFx (p : Nat) : Fx :=
  match p with
  | 0x00 => fxAdd | 0x01 => fxSub | 0x02 => fxMul | 0x03 => fxMulh | 0x04 => fxMad | 0x05 => fxMin | 0x06 => fxMax
  | 0x07 => fxAbs | 0x08 => fxAnd | 0x09 => fxOr | 0x0A => fxXor | 0x0B => fxNot | 0x0C => fxShl | 0x0D => fxShr
  | 0x0E => fxSar | 0x0F => fxFsh | 0x10 => fxBfx | 0x11 => fxBfi | 0x12 => fxPopc | 0x13 => fxClz | 0x14 => fxBrev
  | 0x15 => fxPerm | 0x17 => fxSel | 0x18 => fxMov | 0x19 => fxLea | 0x1A => fxSad
  | 0x20 => fxFadd | 0x21 => fxFsub | 0x22 => fxFmul | 0x23 => fxFma | 0x24 => fxFmin | 0x25 => fxFmax
  | _ => fun _ _ g => g

/-- The E fields that an operation of a P form runs with (R26, R116): a third operand is read from the destination, sel
selects A through m0, and lea has scale code 0. -/
def pairEnc (p : Nat) (d a b : BitVec 8) : Enc :=
  { form := .e, q := 0, stall := 0, d, a, b := if pairUnary p then 0xFF#8 else b,
    c := if p = 0x17 then 0x40#8 else if p = 0x19 then 0#8 else d, as_ := false, bs := false, sat := false,
    rnd := .rn, ty := pairType p, imm := 0 }

/-- pair (R28): both operations read before either writes; each has its own latency. -/
def execPair (p : PEnc) (s : State) : Host.Outcome State Fault Refusal :=
  issueOk (.pair p) s fun x =>
    let p1 := p.p1.toNat
    let p2 := p.p2.toNat
    let g := pairFx p1 { x with lat := latencyOf (p1 + 0x10) } (pairEnc p1 p.d1 p.a1 p.b1) x.g
    pairFx p2 { x with lat := latencyOf (p2 + 0x10) } (pairEnc p2 p.d2 p.a2 p.b2) g

/-- illegal (R31): the illegal-instruction trap, with xval as R30 gives and xmask the running lanes at the issue
address. -/
def execIllegal (ws : List W32) (s : State) : Host.Outcome State Fault Refusal :=
  issueG (.illegal ws) s fun x => .trap 0x01 (xvalWords (.illegal ws)) x.here

end Sys2Proof.Machine
end

