-- ==== Sys2Proof/Machine/WorkOps.lean ====
section
/-! DEFINITION. spawn, fw, rgn.enter and the job instructions (R312 to R316, R322 to R325). -/
namespace Sys2Proof.Machine

/-! ## spawn (R312) -/

/-- spawn: it releases, closes the region and submits. -/
def execSpawn (e : Enc) (s : State) : Host.Outcome State Fault Refusal :=
  issueC (.spawn e) s fun x c =>
    if c.atomsOut x.g then .stall
    else
      let c := (c.release x.core .dev).closeRegion x.team.id
      let ws := (List.range 8).map fun k => x.g.sreg (e.a.toNat + k)
      let (c, st) := c.submit x.ctx (e.imm.toNat % 64) ws false
      .ok (c.onGroup x.g.id fun g => x.putS g e.d (BitVec.ofNat 64 st))

/-! ## fw (R313) -/

/-- fw: its record is checked and zeroed, and its request is on its way. -/
def execFw (e : Enc) (s : State) : Host.Outcome State Fault Refusal :=
  issueC (.fw e) s fun x c =>
    let a := (if e.a = 0xFF#8 then 0#64 else x.g.scalar e.a.toNat) + e.imm.signExtend 64
    match spCheck x.spSize true 16 a.toNat with
    | some k => .trap k a x.act
    | none =>
      if x.g.fwOut.isSome then .stall
      else
        let c := (c.onTeam x.team.id fun t => t.spPut a.toNat (List.replicate 16 0#8)).closeRegion x.team.id
        .ok (c.onGroup x.g.id fun g => { g with fwOut := some a.toNat })

/-- Coordinates of a linear team number (R301). -/
def Desc.coords (d : Desc) (n : Nat) : Nat × Nat × Nat :=
  (n % (d.dxm1 + 1), n / (d.dxm1 + 1) % (d.dym1 + 1), n / ((d.dxm1 + 1) * (d.dym1 + 1)))

/-- The lowest-numbered unplaced team of a launch (R313). -/
def Launch.lowest (l : Launch) : Option Nat := leastOf (l.nextNew.toList ++ l.returned.map (·.number))

/-- A team number withdrawn: how many ended teams it stands for, and the cores on which it has run (R224, R305). -/
def Chip.withdraw (c : Chip) (l : Launch) (n : Nat) : Chip × Nat × List Nat :=
  match l.returned.find? fun r => r.number == n with
  | some r => (c.onLaunch l.id fun l => { l with returned := l.returned.filter fun r => r.number != n }, 1 + r.withdrew, r.cores)
  | none => (c.onLaunch l.id fun l => { l with taken := l.taken ++ [n] }, 1, [])

/-! ## rgn.enter (R315, R320) -/

/-- The rendezvous of a team, if every group of it that has not retired waits for it with its fw replied: the region is
recorded and opened, and the groups go on, or the team is discarded where a request is held or has come in this cycle
(R320, R321). -/
def Chip.rendezvous (c : Chip) (team : Nat) : Chip :=
  match c.team? team with
  | none => c
  | some t =>
    let gs := c.groupsOf team
    let waits := fun (g : Group) => match g.wait with | some (.rendezvous _ _) => g.fwOut.isNone | _ => false
    match gs with
    | [] => c
    | g :: _ =>
      if !gs.all waits then c
      else
        match g.wait, c.launchOf t with
        | some (.rendezvous entry arg), some l =>
          let mask := fun i => match gs.find? fun g => g.grpidx == i with
            | some g => g.exited
            | none => fullMask l.desc.width
          let r : RegionRecord := { entry, arg, masks := (List.range l.desc.groups).map mask, open_ := true }
          let c := c.onTeam team fun t => { t with rec_ := r, regionNo := t.regionNo + 1, deciding := false }
          if t.request.isSome then c.discardReturned { t with rec_ := r }
          else { c with groups := updWhere (fun g => g.team == team) (fun g => { g with wait := none }) c.groups }
        | _, _ => c

/-- rgn.enter. -/
def execRgnEnter (e : Enc) (s : State) : Host.Outcome State Fault Refusal :=
  issueC (.rgnEnter e) s fun x c =>
    let arg := if e.a = 0xFF#8 then 0#64 else x.g.scalar e.a.toNat
    .ok ((c.setGroup { x.g with wait := some (.rendezvous (BitVec.ofNat 64 (x.ia + x.len)) arg) }).rendezvous x.team.id)

/-- The reply to a group's fw (R313): a team is withdrawn if one is left, the record is written whole, and the team's
sleepers that wait for it may wake. Where no team is left its x, y and z are 0 (a choice of the model, log 135). -/
def Chip.fwReply (c : Chip) (gid : Nat) : Option Chip :=
  match c.group? gid with
  | none => none
  | some g =>
    match g.fwOut, (c.team? g.team).bind fun t => c.launchOf t with
    | some a, some l =>
      let (c, xyz, flag) := match l.lowest with
        | none => (c, (0, 0, 0), 2)
        | some n =>
          let (c, k, cores) := c.withdraw l n
          (c.onTeam g.team fun t => { t with withdrew := t.withdrew + k, pastCores := (t.pastCores ++ cores).eraseDups },
            l.desc.coords n, 1)
      let record := leBytes 2 xyz.1 ++ leBytes 2 xyz.2.1 ++ leBytes 2 xyz.2.2 ++ leBytes 2 0 ++ leBytes 4 flag ++ leBytes 4 0
      let c := (c.onTeam g.team fun t => t.spPut a record).onGroup gid fun g => { g with fwOut := none }
      some ((c.noteWhere (fun h => h.team == g.team) 5 (some 3)).rendezvous g.team)
    | _, _ => none

/-- A fetch-work reply arrives; the event names the group. -/
def execFwReply (s : State) : Host.Outcome State Fault Refusal := onChip s fun c => c.fwReply s.event.a

/-! ## Jobs (R322 to R325) -/

/-- The checks of a job instruction's counter, and the closing of the region (R311, R316, R322). -/
def runJob (i : Instr) (e : Enc) (s : State) (f : Issue → Chip → Nat → Eff Chip) : Host.Outcome State Fault Refusal :=
  issueC i s fun x c =>
    let a := x.g.scalar e.a.toNat
    let n := a.toNat
    if 65536 ≤ n then .trap 0x01 a x.act
    else if !(c.context x.ctx).inRange n then .trap 0x08 a x.act
    else f x (c.closeRegion x.team.id) n

/-- A status in s[D] of the issuing group, where it is still there. -/
def Issue.status (x : Issue) (c : Chip) (e : Enc) (st : Nat) : Chip :=
  c.onGroup x.g.id fun g => x.putS g e.d (BitVec.ofNat 64 st)

/-- Whether a job.cwait may return (R323). -/
def Chip.jobReached (c : Chip) (n : Nat) (threshold : W32) : Bool :=
  (c.counter n).cancelled || decide (threshold.toNat ≤ (c.counter n).value.toNat)

/-- job.cwait returns: s[D] takes word 0 of the record, and it acquires (R323). -/
def Chip.passJob (c : Chip) (core gid n d : Nat) : Chip :=
  (c.acquire core .dev).onGroup gid fun g => g.setScalar d (c.counter n).word0

/-- job.cwait. -/
def execJobCwait (e : Enc) (s : State) : Host.Outcome State Fault Refusal :=
  runJob (.jobCwait e) e s fun x c n =>
    let t : W32 := (x.g.op2 e).setWidth 32
    if c.jobReached n t then .ok (c.passJob x.core x.g.id n e.d.toNat)
    else .ok (c.onGroup x.g.id fun g => { g with wait := some (.jobCounter n t e.d.toNat) })

/-- A counter that may not be made anew: the CCTR of a launch not yet complete, or a job that is not done (R323). -/
def Chip.counterBusy (c : Chip) (n : Nat) : Bool :=
  c.launches.any (fun l => l.desc.cctr == n) || ((c.counter n).level == 3#2 && !(c.counter n).done)

/-- job.cadd: it releases, then adds (R323). -/
def execJobCadd (e : Enc) (s : State) : Host.Outcome State Fault Refusal :=
  runJob (.jobCadd e) e s fun x c n =>
    if c.atomsOut x.g then .stall
    else
      let c := c.release x.core .dev
      if (c.counter n).cancelled then .ok (x.status c e 3)
      else
        let c := Chip.bump 65536 c n fun r => { r with value := r.value + (x.g.op2 e).setWidth 32 }
        .ok (x.status c e 0)

/-- The record that an init word gives (R323). -/
def initRecord (w : W64) : Counter :=
  { value := 0, target := w.setWidth 32, parent := (w >>> 32).setWidth 16, faults := 0, level := (w >>> 48).setWidth 2,
    done := false, cancelled := false }

/-- job.cadd.init (R323). -/
def execJobCaddInit (e : Enc) (s : State) : Host.Outcome State Fault Refusal :=
  runJob (.jobCaddInit e) e s fun x c n =>
    if c.atomsOut x.g then .stall
    else
      let c := c.release x.core .dev
      let w := x.g.op2 e
      let r := initRecord w
      if w >>> 50 ≠ 0#64 ∨ (r.level ≠ 1#2 ∧ r.level ≠ 2#2) then .ok (x.status c e 1)
      else if c.counterBusy n then .ok (x.status c e 2)
      else .ok (x.status (c.setCounter n r) e 0)

/-- job.cancel: the instruction completes first; its own team may then be gone (R325). -/
def execJobCancel (e : Enc) (s : State) : Host.Outcome State Fault Refusal :=
  runJob (.jobCancel e) e s fun x c n =>
    let (c, st) := c.cancel n (e.imm.toNat % 4)
    .ok (x.status c e st)

/-- How deep a job lies below its root (R324). -/
def Chip.jobDepth (c : Chip) : Nat → Nat → Nat
  | 0, _ => 0
  | fuel + 1, n =>
    let r := c.counter n
    if r.level = 3#2 ∧ r.parent ≠ 0xFFFF#16 then 1 + Chip.jobDepth c fuel r.parent.toNat else 0

/-- Whether a job or an ancestor of it is cancelled (R324). -/
def Chip.jobCancelled (c : Chip) : Nat → Nat → Bool
  | 0, _ => false
  | fuel + 1, n =>
    let r := c.counter n
    r.cancelled || (decide (r.level = 3#2 ∧ r.parent ≠ 0xFFFF#16) && Chip.jobCancelled c fuel r.parent.toNat)

/-- job.fork (R324). -/
def execJobFork (e : Enc) (s : State) : Host.Outcome State Fault Refusal :=
  runJob (.jobFork e) e s fun x c n =>
    let job := x.desc.job
    if c.counterBusy n then .ok (x.status c e 2)
    else if c.jobCancelled 257 job then .ok (x.status c e 3)
    else if 255 < c.jobDepth 257 job + 1 then .ok (x.status c e 4)
    else
      let r : Counter :=
        { value := 0, target := (x.g.op2 e).setWidth 32, parent := BitVec.ofNat 16 job, faults := 0, level := 3,
          done := false, cancelled := false }
      let c := c.setCounter n r
      let c := { c with liveKids := SMap.put 0 c.liveKids job (SMap.get 0 c.liveKids job + 1) }
      .ok (x.status c e 0)

end Sys2Proof.Machine
end

