-- ==== Sys2Proof/Machine/Sched.lean ====
section
/-! DEFINITION. The distributor: placement, aging, pre-emption, and the retirement of groups and teams (R57 to R59, R77
to R79, R305 to R310, R318 to R320). -/
namespace Sys2Proof.Machine

/-! ## The next team (R306, R309) -/

/-- A launch may place teams (R306): it stands first in its queue, its dependency is met and its context runs. -/
def Chip.eligible (c : Chip) (l : Launch) : Bool :=
  let k := c.context l.ctx
  k.en && !k.susp && !k.suspending && ((c.queued l.ctx l.queue).head?.map fun h => h.id == l.id).getD false
    && (l.desc.dthr == 0 || decide (l.desc.dthr ≤ (c.counter l.desc.dctr).value.toNat))

/-- The order of queues in the round-robin of a level: those after the one that placed last come first (R309). -/
def Chip.queueRank (c : Chip) (l : Launch) : Nat :=
  let key := 64 * l.ctx + l.queue + 1
  if SMap.get 0 c.lastPlaced l.level < key then key else key + 64 * 64

/-- The launch whose team is placed next (R309): one that has been eligible since before this cycle, so that one that
becomes eligible in the cycle of its cancellation places none (R327). -/
def Chip.nextLaunch (c : Chip) : Option Launch :=
  let ls := c.launches.filter fun l => l.unplaced && c.eligible l && l.agedFrom.isSome
  let top := (ls.map (·.level)).foldl max 0
  (sortBy c.queueRank (ls.filter fun l => l.level == top)).head?

/-- What a team to be placed is: its number, and its record where it has been placed before. -/
structure NextTeam where
  launch   : Launch
  number   : Nat
  returned : Option Returned
  deriving DecidableEq, Repr

/-- The next team of a launch: returned ones first, in their order (R308). -/
def Launch.nextTeam (l : Launch) : Option NextTeam :=
  match l.returned with
  | r :: _ => some { launch := l, number := r.number, returned := some r }
  | [] => l.nextNew.map fun n => { launch := l, number := n, returned := none }

/-- The exited lanes with which a group is created (R319). -/
def NextTeam.gone (t : NextTeam) (i : Nat) : W64 := (t.returned.bind fun r => r.rec_.masks[i]?).getD 0#64

/-- The groups that are created (R319). -/
def NextTeam.groups (t : NextTeam) : List Nat :=
  let d := t.launch.desc
  (List.range d.groups).filter fun i => t.gone i &&& fullMask d.width != fullMask d.width

/-- Slices of a group that hold a lane outside its mask (R319). -/
def NextTeam.slices (t : NextTeam) (i : Nat) : Nat :=
  ((List.range (t.launch.desc.width / 8)).filter fun k => (t.gone i).extractLsb' (8 * k) 8 != 0xFF#8).length

/-- Granules that the team needs (R75, R319). -/
def NextTeam.granules (t : NextTeam) : Nat :=
  let d := t.launch.desc
  (t.groups.map fun i => t.slices i * d.rq).sum + d.spg + 4 * d.tl

/-! ## Room (R77, R310) -/

/-- Teams resident on a core. -/
def Chip.teamsOn (c : Chip) (core : Nat) : List Team := c.teams.filter fun t => t.core == core

/-- The slot and slot index that each group of a team holds, resident or, in a maintenance launch, kept for its successor
(R59). -/
def Chip.placesOf (c : Chip) (t : Team) : List (Nat × Nat) :=
  let maint := ((c.launchOf t).map (·.desc.maint)).getD false
  if maint then t.places.filterMap id else (c.groupsOf t.id).map fun g => (g.slot, g.slotIdx)

/-- Entries of a slot that the teams of a core hold. -/
def Chip.inSlot (c : Chip) (core slot : Nat) : Nat :=
  (((c.teamsOn core).flatMap c.placesOf).filter fun p => p.1 == slot).length

/-- Barrier objects that a team holds. -/
def Chip.barsOf (t : Team) : Nat := t.bars.length

/-- The slots that new groups go to, one after another: the fewest resident groups, the lowest number (R310). -/
def slotsFor : Nat → List Nat → Option (List Nat)
  | 0, _ => some []
  | n + 1, used =>
    match sortBy (fun s => used[s]?.getD 0) (List.range 4) with
    | s :: _ =>
      if (used[s]?.getD 0) < Config.groupsPerSlot then (slotsFor n (used.set s ((used[s]?.getD 0) + 1))).map (s :: ·) else none
    | [] => none

/-- Whether a team has room on a core once some teams have left it; `clear` counts granules still to be cleared as
free (R77, R79, R310). -/
def Chip.roomFor (c : Chip) (t : NextTeam) (core : Nat) (leaving : List Team) (clear : Bool) : Bool :=
  let stay := (c.teamsOn core).filter fun u => !(leaving.any fun v => v.id == u.id)
  let freed := (leaving.map fun u => match c.launchOf u with | some l => c.granulesHeld u l.desc | none => 0).sum
  let granules := c.freeGranules core + freed + (if clear then SMap.get 0 c.uncleared core else 0)
  let used := (List.range 4).map fun s => ((stay.flatMap c.placesOf).filter fun p => p.1 == s).length
  decide (t.granules ≤ granules) && decide ((stay.map Chip.barsOf).sum + t.launch.desc.nb ≤ Config.barrierObjects)
    && decide (stay.length < Config.teamsPerCore) && (slotsFor t.groups.length used).isSome

/-- Cores that hold a team, have granules to clear, or wait for a pre-emption; all others are alike. -/
def Chip.touched (c : Chip) : List Nat := c.teams.map (·.core) ++ c.uncleared.map (·.1) ++ c.preempting.map (·.1)

/-- The cores that may differ as places for a team, in ascending order: those touched, and the lowest of the others. -/
def Chip.placeCores (c : Chip) : List Nat :=
  let t := c.touched
  let idle := ((List.range Config.cores).find? fun k => !t.contains k).toList
  (List.range Config.cores).filter fun k => t.contains k || idle.contains k

/-- The core that takes a team: room at once, the fewest resident teams, the lowest number; a core on which
pre-emption makes room for another team takes none while requests on it are pending (R310, R318). -/
def Chip.coreFor (c : Chip) (t : NextTeam) : Option Nat :=
  let shut := fun k => c.preempting.any (fun p => p.1 == k && p.2 != some t.launch.id)
    && (c.teamsOn k).any fun u => u.request.isSome
  let ok := c.placeCores.filter fun k => c.roomFor t k [] false && !shut k
  (sortBy (fun k => (c.teamsOn k).length) ok).head?

/-! ## Placement (R42, R77 to R80, R310, R319) -/

/-- The slots and slot indices of new groups, from their slots in order: the lowest index that no entry of the slot has
(R37). `held` are the entries that stand. -/
def placeIndices : List (Nat × Nat) → List Nat → List (Nat × Nat)
  | _, [] => []
  | held, s :: ss =>
    let i := ((List.range Config.groupsPerSlot).find? fun i => !held.contains (s, i)).getD 0
    (s, i) :: placeIndices (held ++ [(s, i)]) ss

/-- Groups created for a team, each at its slot and slot index, in ascending grpidx. -/
def Chip.createGroups (c : Chip) (team : Nat) (d : Desc) (gs : List (Nat × Nat × Nat)) (entry arg : W64)
    (gone : Nat → W64) : Chip :=
  gs.foldl (fun (c : Chip) g =>
    { c with
      groups := c.groups ++ [Group.create c.nextId team g.1 g.2.1 g.2.2 d entry d.param arg (gone g.1)]
      nextId := c.nextId + 1 }) c

/-- A team placed on a core. Before the first one of a launch the core's instruction cache is invalidated (R34). -/
def Chip.placeTeam (c : Chip) (t : NextTeam) (core : Nat) : Chip :=
  let l := t.launch
  let d := l.desc
  let xyz := d.coords t.number
  let used := (List.range 4).map fun s => c.inSlot core s
  let slots := (slotsFor t.groups.length used).getD []
  let gs := t.groups.zip (placeIndices ((c.teamsOn core).flatMap c.placesOf) slots)
  let rec_ := match t.returned with
    | some r => r.rec_
    | none => { entry := d.entry, arg := 0#64, masks := [], open_ := true }
  let id := c.nextId
  let team : Team :=
    { id, launch := l.id, number := t.number, core, x := xyz.1, y := xyz.2.1, z := xyz.2.2, sp := [], tiles := []
      bars := List.replicate d.nb { phase := false, parked := 0, arrived := 0, expect := 0, bytes := 0#64 }
      tables := [], steps := [], rec_, request := none, successor := [], reserve := 0, placedAt := c.cyc
      retired := (List.range d.groups).filter fun i => !t.groups.contains i
      withdrew := (t.returned.map (·.withdrew)).getD 0
      places := (List.range d.groups).map fun i => (gs.find? fun g => g.1 == i).map (·.2)
      pastCores := ((t.returned.map (·.cores)).getD []).filter (· != core) }
  let c := { c with teams := c.teams ++ [team], nextId := id + 1, lastPlaced := SMap.put 0 c.lastPlaced l.level (64 * l.ctx + l.queue + 1) }
  let c := if l.entered.contains core then c else { c with icache := c.icache.filter fun p => p.1 / 2 ^ 50 != core }
  let c := c.createGroups id d gs rec_.entry rec_.arg t.gone
  let c := c.onLaunch l.id fun m =>
    { m with
      next := if t.returned.isSome then m.next else t.number + 1
      returned := if t.returned.isSome then m.returned.drop 1 else m.returned
      level := d.prio
      agedFrom := some c.cyc
      waitFrom := none
      entered := if m.entered.contains core then m.entered else m.entered ++ [core] }
  { c with preempting := c.preempting.map fun (p : Nat × Option Nat) => if p.2 == some l.id then (p.1, none) else p }.activate core

/-- The placement that may happen now: the next team and its core. -/
def Chip.nextPlacement (c : Chip) : Option (NextTeam × Nat) :=
  match c.nextLaunch.bind fun l => l.nextTeam with
  | none => none
  | some t => (c.coreFor t).map fun k => (t, k)

/-- The distributor places a team. -/
def execTeamPlace (s : State) : Host.Outcome State Fault Refusal :=
  onChip s fun c => c.nextPlacement.map fun p => c.placeTeam p.1 p.2

/-! ## Aging (R309) -/

/-- Whether an aging step of a launch is due. -/
def Chip.agingDue (c : Chip) (l : Launch) : Bool :=
  let limit := (c.context l.ctx).ageLimit
  match l.agedFrom with
  | some t => limit != 0 && decide (t + limit ≤ c.cyc) && c.eligible l
  | none => false

/-- An aging step; the event names the launch. -/
def execAgingStep (s : State) : Host.Outcome State Fault Refusal :=
  onChip s fun c => (c.launches.find? fun l => l.id == s.event.a && c.agingDue l).map fun l =>
    c.onLaunch l.id fun m =>
      { m with level := min 7 (m.level + 1), agedFrom := m.agedFrom.map fun t => t + (c.context l.ctx).ageLimit }

/-! ## Pre-emption (R318) -/

/-- The sublists of a list with `n` elements. -/
def choose {α : Type} : Nat → List α → List (List α)
  | 0, _ => [[]]
  | _ + 1, [] => []
  | n + 1, x :: xs => (choose n xs).map (x :: ·) ++ choose (n + 1) xs

/-- A choice of teams to be discarded on a core. -/
structure Choice where
  core  : Nat
  teams : List Team
  deriving DecidableEq, Repr

/-- The smallest sets of lower-priority teams whose discard gives room on a core; a team that holds a request already is
one of them as any other (R318). -/
def Chip.choicesOn (c : Chip) (t : NextTeam) (core : Nat) : List Choice :=
  let low := (c.teamsOn core).filter fun u =>
    ((c.launchOf u).map fun l => decide (l.desc.prio < t.launch.desc.prio)).getD false
  let fits := fun n => (choose n low).filter fun us => c.roomFor t core us true
  match (List.range low.length).find? fun n => !(fits (n + 1)).isEmpty with
  | some n => (fits (n + 1)).map fun us => { core, teams := us }
  | none => []

/-- The greatest priority of a choice. -/
def Chip.topPrio (c : Chip) (ch : Choice) : Nat :=
  (ch.teams.map fun u => ((c.launchOf u).map (·.desc.prio)).getD 0).foldl max 0

/-- Placement cycles of a choice's teams, the oldest first. -/
def Choice.ages (ch : Choice) : List Nat := sortBy id (ch.teams.map (·.placedAt))

/-- Whether one list of ages is the later one (R318). -/
def later : List Nat → List Nat → Bool
  | x :: xs, y :: ys => decide (y < x) || (x == y && later xs ys)
  | _, _ => false

/-- The preferred of two choices: fewer teams, the lower top priority, the younger teams, then the earlier one, which
has the lower core. -/
def Chip.prefer (c : Chip) (a b : Choice) : Choice :=
  if b.teams.length < a.teams.length then b
  else if a.teams.length < b.teams.length then a
  else if c.topPrio b < c.topPrio a then b
  else if c.topPrio a < c.topPrio b then a
  else if later b.ages a.ages then b else a

/-- The choice that R318 makes for the next team, where it has waited long enough and none is pending for it. -/
def Chip.preemption (c : Chip) : Option (NextTeam × Choice) :=
  match c.nextLaunch with
  | none => none
  | some l =>
    let wait := (c.context l.ctx).preWait
    let waited := match l.waitFrom with | some t => wait != 0 && decide (t + wait ≤ c.cyc) | none => false
    if !waited || c.preempting.any fun p => p.2 == some l.id then none
    else
      l.nextTeam.bind fun t =>
        match c.placeCores.flatMap fun k => c.choicesOn t k with
        | [] => none
        | ch :: rest => some (t, rest.foldl c.prefer ch)

/-- The distributor requests pre-emption (R318): of the teams of a context that is being suspended; with none left, of
those it has chosen for the next placement. -/
def execPreemptRequest (s : State) : Host.Outcome State Fault Refusal :=
  onChip s fun c =>
    match c.suspendees with
    | [] => c.preemption.map fun p =>
      let c := { c with preempting := c.preempting ++ [(p.2.core, some p.1.launch.id)] }
      p.2.teams.foldl (fun c u => c.requestTeam u.id) c
    | ts => some (ts.foldl (fun c u => c.requestTeam u.id) c)

/-- Whether a team's held request has run out (R320). -/
def Chip.overrun (c : Chip) (t : Team) : Bool :=
  match t.request with
  | some r => decide (r + (c.context (c.ctxOf t)).preLimit ≤ c.cyc)
  | none => false

/-- A trap that every group of a team takes at its next issue. -/
def Chip.pendTrap (c : Chip) (team : Nat) (cause : BitVec 8) (val : W64) : Chip :=
  { c with
    groups := updWhere (fun g => g.team == team) (fun g => { g with pendTraps := g.pendTraps ++ [{ cause, val, mask := 0 }] })
      c.groups }

/-- A region overrun: every group of the team has the trap to take at its next issue, with the request's cycle in xval, and
the request is withdrawn (R320). The event names the team. -/
def execRegionOverrun (s : State) : Host.Outcome State Fault Refusal :=
  onChip s fun c => (c.teams.find? fun t => t.id == s.event.a && c.overrun t).map fun t =>
    (c.onTeam t.id fun u => { u with request := none, deciding := false }).pendTrap t.id 0x0D
      (BitVec.ofNat 64 (t.request.getD 0))

/-- A team whose discard has been decided in this cycle is discarded and returned to its launch, its region open, at the
end of the cycle (R319, R321). -/
def Chip.discardDecided (c : Chip) (team : Nat) : Chip :=
  match c.team? team with
  | some t => if t.deciding then c.discardReturned t else c
  | none => c

/-! ## Retirement (R57 to R59) -/

/-- A group that has exited and drained may retire (R57; log 21). -/
def Chip.drained (c : Chip) (g : Group) : Bool :=
  g.lanes.all (·.st.isExited) && !c.olderPending g && g.fwOut.isNone
    && [EngClass.copy, .index, .drain, .blend, .attn, .coll].all fun k => g.counters.get k == 0

/-- A group that is not its team's last retires: its slot entry is free (R57, R200, R315). -/
def Chip.retireGroup (c : Chip) (g : Group) : Chip :=
  let c := { c with
    groups := c.groups.filter fun h => h.id != g.id
    victims := c.victims.filter fun v => v.owner != LineOwner.group g.id }
  (c.onTeam g.team fun t => { t with retired := t.retired ++ [g.grpidx] }).rendezvous g.team

/-- The slot and slot index of every group of a team, those that were never created among them: they take the lowest
free index of the emptiest slots, or, where no entry of the core is free, slot 0 and index 0 beside the group that holds
it: the manual says nothing of either case (a choice of the model, logs 41 and 97). -/
def Chip.allPlaces (c : Chip) (t : Team) (d : Desc) : List (Nat × Nat × Nat) :=
  let new := (List.range d.groups).filter fun i => ((t.places[i]?).bind id).isNone
  let used := (List.range 4).map fun s => c.inSlot t.core s
  let more := new.zip (placeIndices ((c.teamsOn t.core).flatMap c.placesOf) ((slotsFor new.length used).getD []))
  (List.range d.groups).map fun i =>
    (i, ((((t.places[i]?).bind id)).or ((more.find? fun p => p.1 == i).map (·.2))).getD (0, 0))

/-- An exitc successor (R59): the team's groups are created again, each in its own place, at the recorded target. It
passes no test for room: the reserve of R78 holds the granules of the slices that exited after the target was recorded,
and those of slices that had exited before are taken without one (a choice of the model, log 57). -/
def Chip.succeed (c : Chip) (t : Team) (d : Desc) (target : W64) : Chip :=
  let mine := (c.groupsOf t.id).map (·.id)
  let gs := c.allPlaces t d
  let c := { c with
    groups := c.groups.filter fun g => g.team != t.id
    victims := c.victims.filter fun v => match v.owner with | .group g => !mine.contains g | .reserve => true }
  let c := c.onTeam t.id fun u =>
    { u with successor := [], reserve := 0, retired := [], places := gs.map fun g => some g.2 }
  (c.createGroups t.id d gs target 0#64 fun _ => 0#64).activate t.core

/-- A team retires once all its groups may (R57, R58): its writes are released, then it counts, or its successor
starts. -/
def Chip.retireTeam (c : Chip) (t : Team) : Option Chip :=
  match c.launchOf t with
  | none => none
  | some l =>
    if !(c.groupsOf t.id).all c.drained then none
    else
      let c := c.releasePast t
      match sortBy (·.1) t.successor with
      | (_, target) :: _ => some (c.succeed t l.desc target)
      | [] =>
        let c := c.removeTeam t
        let c := c.count l.desc.cctr (1 + t.withdrew) 0
        some ((c.endTeams t.launch (1 + t.withdrew)).settleSuspend l.ctx)

/-- A team retires; the event names it. -/
def execTeamRetire (s : State) : Host.Outcome State Fault Refusal :=
  onChip s fun c => (c.team? s.event.a).bind c.retireTeam

/-! ## The pool (R79) -/

/-- Returned granules are cleared, four a cycle on each core. -/
def execPoolGranuleClear (s : State) : Host.Outcome State Fault Refusal :=
  onChip s fun c =>
    if c.hadEvents.contains 1 || c.uncleared.isEmpty then none
    else some { c with
      hadEvents := c.hadEvents ++ [1]
      uncleared := c.uncleared.foldl (fun m p => SMap.put 0 m p.1 (p.2 - 4)) c.uncleared }

end Sys2Proof.Machine
end

