-- ==== Sys2Proof/Machine/System.lean ====
section
/-! DEFINITION. trap, brk, rft, the sys instructions, configuration space and contexts (R362, R363, R369 to R374). -/
namespace Sys2Proof.Machine

/-! ## trap, brk and rft (R362, R363) -/

/-- trap: after issue, where a lane is active. -/
def execTrap (e : Enc) (s : State) : Host.Outcome State Fault Refusal :=
  issueG (.trap e) s fun x => if x.act = 0#64 then .ok x.g else .after x.g 0x10 (e.imm.setWidth 64) x.act
/-- brk. -/
def execBrk (e : Enc) (s : State) : Host.Outcome State Fault Refusal :=
  issueG (.brk e) s fun x => if x.act = 0#64 then .ok x.g else .after x.g 0x11 0#64 x.act
/-- rft: the return from a trap. -/
def execRft (e : Enc) (s : State) : Host.Outcome State Fault Refusal :=
  issueG (.rft e) s fun x =>
    if !x.g.inh then .trap 0x01 (xvalWords (.rft e)) x.act
    else if x.g.xpc.toNat % 4 ≠ 0 then .trap 0x09 x.g.xpc x.act
    else .ok x.g.returnFromTrap

/-! ## Rings and fields of configuration space (R371, R372) -/

/-- A ring's CTL register (R372). -/
def Ring.ctl (r : Ring) : Nat := r.head * 2 ^ 40 + r.tail * 2 ^ 16 + r.log2n

/-- A ring with nothing between HEAD and TAIL. -/
def Ring.empty (r : Ring) : Bool := r.head == r.tail

/-- A write of a ring's BASE: its new contents, or the status (R371, R372). -/
def Ring.setBase (r : Ring) (align v : Nat) : Except Nat Ring :=
  if !r.empty then .error 2 else if v % align ≠ 0 ∨ 2 ^ 52 ≤ v then .error 3 else .ok { r with base := v }

/-- A write of a ring's CTL: TAIL keeps its value (R372). -/
def Ring.setCtl (r : Ring) (v : Nat) : Except Nat Ring :=
  let n := fieldOf v 4 0
  if n ≠ r.log2n ∧ r.empty = false then .error 2
  else if fieldOf v 15 5 ≠ 0 ∨ 20 < n then .error 3
  else .ok { r with head := fieldOf v 63 40, log2n := n }

/-- A field of `n` bits that is the whole of a register: a reserved bit set gives status 3. -/
def fits (n v : Nat) : Except Nat Nat := if v < 2 ^ n then .ok v else .error 3

/-- A physical address aligned as its register asks. -/
def aligned (a v : Nat) : Except Nat Nat := if v % a = 0 ∧ v < 2 ^ 52 then .ok v else .error 3

/-! ## Context registers (R371) -/

/-- The value of a context register, or its status; ARENAADD, which is write only, reads 0 (R7). -/
def Chip.ctxRead (c : Chip) (x i : Nat) : Except Nat Nat :=
  let k := c.context x
  match i with
  | 0x00 => .ok (k.maint.toNat * 8 + k.susp.toNat * 4 + k.priv.toNat * 2 + k.en.toNat)
  | 0x01 => .ok k.ptroot
  | 0x02 => .ok k.xhandler.toNat
  | 0x03 => .ok k.wdStarve
  | 0x04 => .ok k.wcbWait
  | 0x05 => .ok k.ageLimit
  | 0x06 => .ok k.preWait
  | 0x07 => .ok k.preLimit
  | 0x08 => .ok (k.cnum * 2 ^ 16 + k.cbase)
  | 0x09 => .ok k.kvquota0
  | 0x0A => .ok k.kvquota1
  | 0x0B => .ok (c.kvHeld x 0)
  | 0x0C => .ok (c.kvHeld x 1)
  | 0x0D => .ok k.ctxsave
  | 0x0E => .ok (1048576 + 16 * k.cnum)
  | 0x0F => .ok k.flog.base
  | 0x10 => .ok k.flog.ctl
  | 0x11 => .ok k.arena.base
  | 0x12 => .ok k.arena.ctl
  | 0x13 => .ok 0
  | _ => .error 1

/-- Whether a counter range meets another context's (R371). -/
def Chip.rangeMeets (c : Chip) (x base n : Nat) : Bool :=
  c.contexts.any fun p => p.1 != x && decide (base < p.2.cbase + p.2.cnum ∧ p.2.cbase < base + n ∧ n ≠ 0 ∧ p.2.cnum ≠ 0)

/-- A page attached to a job's arena (R324, R371); a page attached already is a bad one (log 34), and so is one whose entries
are lost (R376). -/
def Chip.arenaAdd (c : Chip) (x : Nat) (v : W64) : Chip × Nat :=
  let page := fieldOf v.toNat 40 0
  let job := fieldOf v.toNat 63 48
  let leafOk := match c.walkRoot x (page * 65536) with
    | .ok e => e.size == 65536
    | .error _ => false
  if fieldOf v.toNat 47 41 ≠ 0 ∨ leafOk = false ∨ c.jobOk x job = false
      ∨ (c.arenaPages.any fun p => p.ctx == x && p.page == page) = true then (c, 3)
  else if Config.maxArenaPages ≤ c.arenaPages.length then (c, 4)
  else ({ c with arenaPages := c.arenaPages ++ [{ ctx := x, job, page }] }, 0)

/-- A context register written: the chip and the status. -/
def Chip.ctxWrite (c : Chip) (x i : Nat) (w : W64) : Chip × Nat :=
  let k := c.context x
  let v := w.toNat
  let put := fun (r : Except Nat Context) => match r with
    | .ok k => (c.onContext x fun _ => k, 0)
    | .error st => (c, st)
  match i with
  | 0x00 => put (if v < 16 then .ok { k with maint := w.getLsbD 3, priv := w.getLsbD 1 } else .error 3)
  | 0x01 => put ((aligned 0x4000 v).map fun v => { k with ptroot := v })
  | 0x02 => put (if v % 4 = 0 then .ok { k with xhandler := w } else .error 3)
  | 0x03 => put ((fits 32 v).map fun v => { k with wdStarve := v })
  | 0x04 => put ((fits 12 v).map fun v => { k with wcbWait := v })
  | 0x05 => put ((fits 32 v).map fun v => { k with ageLimit := v })
  | 0x06 => put ((fits 32 v).map fun v => { k with preWait := v })
  | 0x07 => put ((fits 32 v).map fun v => { k with preLimit := v })
  | 0x08 =>
    let base := fieldOf v 15 0
    let n := fieldOf v 32 16
    put (if 2 ^ 33 ≤ v ∨ 65535 < n ∨ 0xFFFF < base + n ∨ c.rangeMeets x base n = true then .error 3
      else .ok { k with cbase := base, cnum := n })
  | 0x09 => put ((fits 23 v).map fun v => { k with kvquota0 := v })
  | 0x0A => put ((fits 23 v).map fun v => { k with kvquota1 := v })
  | 0x0B | 0x0C | 0x0E => (c, 2)
  | 0x0D => put ((aligned 64 v).map fun v => { k with ctxsave := v })
  | 0x0F => put ((k.flog.setBase 32 v).map fun r => { k with flog := r })
  | 0x10 => put ((k.flog.setCtl v).map fun r => { k with flog := r })
  | 0x11 => put ((k.arena.setBase 8 v).map fun r => { k with arena := r })
  | 0x12 =>
    let r := put ((k.arena.setCtl v).map fun r => { k with arena := r })
    (r.1.arenaDrain (k.arenaHeld.length + 1) x, r.2)
  | 0x13 => c.arenaAdd x w
  | _ => (c, 1)

/-! ## Counter records, dies, devices and sets (R303, R371, R384, R385) -/

/-- A counter record with new contents; NOTIFY follows a DONE or CANCELLED that becomes 1 (R380). -/
def Chip.putCounter (c : Chip) (n : Nat) (r : Counter) : Chip :=
  let old := c.counter n
  let c := c.setCounter n r
  if (r.done && !old.done) || (r.cancelled && !old.cancelled) then c.notify n else c

/-- A counter record word written whole (R371). -/
def Chip.counterWrite (c : Chip) (n word : Nat) (w : W64) : Chip × Nat :=
  let r := c.counter n
  if word = 0 then
    if fieldOf w.toNat 59 48 ≠ 0 then (c, 3)
    else
      (c.putCounter n { r with
        value := w.setWidth 32, faults := fieldOf w.toNat 47 32, level := (w >>> 60).setWidth 2, done := w.getLsbD 62
        cancelled := w.getLsbD 63 }, 0)
  else if fieldOf w.toNat 63 48 ≠ 0 then (c, 3)
  else (c.setCounter n { r with target := w.setWidth 32, parent := (w >>> 32).setWidth 16 }, 0)

/-- The value of a die register, or its status. -/
def Die.read (d : Die) : Nat → Except Nat Nat
  | 0 => .ok d.fq.base
  | 1 => .ok d.fq.ctl
  | 2 => .ok d.eccCe.toNat
  | 3 => .ok d.eccUe.toNat
  | 4 => .ok d.eccUlog.toNat
  | _ => .error 1

/-- A die register written. -/
def Die.write (d : Die) (i : Nat) (w : W64) : Except Nat Die :=
  match i with
  | 0 => (d.fq.setBase 32 w.toNat).map fun r => { d with fq := r }
  | 1 => (d.fq.setCtl w.toNat).map fun r => { d with fq := r }
  | 2 => .ok { d with eccCe := w }
  | 3 => .ok { d with eccUe := w }
  | 4 => .error 2
  | _ => .error 1

/-- LINKSTAT (R384). -/
def Port.linkstat (p : Port) : Nat := p.crcerr.toNat * 2 ^ 32 + p.replay % 2 ^ 16 * 2 ^ 16 + p.up.toNat

/-- The value of a device register, or its status. -/
def Chip.devRead (c : Chip) (i : Nat) : Except Nat Nat :=
  if i = 0 then .ok c.devid.toNat
  else if 0x0100 ≤ i ∧ i ≤ 0x018F then .ok (c.port (i - 0x0100)).linkstat
  else if 0x1000 ≤ i ∧ i ≤ 0x1FFF then .ok (SMap.get (BitVec.allOnes 64) c.routes (i - 0x1000)).toNat
  else .error 1

/-- A device register written (R371, R384). -/
def Chip.devWrite (c : Chip) (i : Nat) (w : W64) : Chip × Nat :=
  if i = 0 then (if w.toNat < 4096 then ({ c with devid := w.setWidth 12 }, 0) else (c, 3))
  else if 0x0100 ≤ i ∧ i ≤ 0x018F then
    if fieldOf w.toNat 15 1 ≠ 0 then (c, 3)
    else (c.onPort (i - 0x0100) fun p => { p with crcerr := (w >>> 32).setWidth 32, replay := fieldOf w.toNat 31 16 }, 0)
  else if 0x1000 ≤ i ∧ i ≤ 0x1FFF then
    if (leBytes 8 w.toNat).all fun b => decide (b.toNat < 144) || b == 0xFF#8 then
      ({ c with routes := SMap.put (BitVec.allOnes 64) c.routes (i - 0x1000) w }, 0)
    else (c, 3)
  else (c, 1)

/-- A device-set word written (R385). -/
def Chip.setWrite (c : Chip) (x i : Nat) (w : W64) : Chip × Nat :=
  let set := i / 4
  let busy := (c.setWord x set 2).getLsbD 0
    || c.ops.any fun o => o.ctx == x && o.cls == .coll && o.inSet && cmdNat o.cmd 24 2 == set
  let ok := match i % 4 with
    | 0 => decide (1 ≤ fieldOf w.toNat 15 0 ∧ fieldOf w.toNat 15 0 ≤ 4096 ∧ fieldOf w.toNat 31 16 < fieldOf w.toNat 15 0)
    | 1 => decide (w.toNat % 64 = 0 ∧ w.toNat < 2 ^ 52)
    | _ => decide (w.toNat < 2)
  if 1024 ≤ i ∨ i % 4 = 3 then (c, 1)
  else if i % 4 ≠ 2 ∧ busy = true then (c, 2)
  else if !ok then (c, 3)
  else ({ c with devSets := SMap.put 0#64 c.devSets (1024 * x + i) w }, 0)

/-! ## Configuration accesses (R371) -/

/-- A config number's block, middle field and index; none where bits [63:32] are not zero. -/
def cfgParts (n : W64) : Option (Nat × Nat × Nat) :=
  if 2 ^ 32 ≤ n.toNat then none else some (fieldOf n.toNat 31 24, fieldOf n.toNat 23 16, fieldOf n.toNat 15 0)

/-- A configuration read: the value, or the status. -/
def Chip.cfgRead (c : Chip) (n : W64) : Except Nat Nat :=
  match cfgParts n with
  | some (0x00, x, i) => if x < 64 then c.ctxRead x i else .error 1
  | some (0x01, f, k) =>
    if 2 ≤ f then .error 1
    else .ok (if f = 0 then (c.counter k).word0 else (c.counter k).word1).toNat
  | some (0x02, d, i) => if d < 2 then (c.die d).read i else .error 1
  | some (0x03, f, i) => if f = 0 then c.devRead i else .error 1
  | some (0x04, x, i) =>
    if x < 64 ∧ i < 1024 ∧ i % 4 < 3 then .ok (c.setWord x (i / 4) (i % 4)).toNat else .error 1
  | _ => .error 1

/-- A configuration write: the status. Failures change nothing. A reserved bit set gives status 3, as R371 says of
these registers; R5 by itself would have sys.cfgwr take the reserved-field trap (a choice of the model, log 81). -/
def Chip.cfgWrite (c : Chip) (n : W64) (w : W64) : Chip × Nat :=
  match cfgParts n with
  | some (0x00, x, i) => if x < 64 then c.ctxWrite x i w else (c, 1)
  | some (0x01, f, k) => if 2 ≤ f then (c, 1) else c.counterWrite k f w
  | some (0x02, d, i) =>
    if 2 ≤ d then (c, 1)
    else match (c.die d).write i w with
      | .ok e => (c.onDie d fun _ => e, 0)
      | .error st => (c, st)
  | some (0x03, f, i) => if f = 0 then c.devWrite i w else (c, 1)
  | some (0x04, x, i) => if x < 64 then c.setWrite x i w else (c, 1)
  | _ => (c, 1)

/-- The bits of a configuration register that its map does not reserve (R303, R371, R372, R384, R385). -/
def cfgDefined (n : W64) : W64 :=
  let ring : W64 := ~~~0xFFE0#64
  match cfgParts n with
  | some (0x00, _, i) =>
    match i with
    | 0x00 => 0xF#64
    | 0x03 | 0x05 | 0x06 | 0x07 => 0xFFFFFFFF#64
    | 0x04 => 0xFFF#64
    | 0x08 => 0x1FFFFFFFF#64
    | 0x09 | 0x0A => 0x7FFFFF#64
    | 0x10 | 0x12 => ring
    | 0x13 => 0xFFFF01FFFFFFFFFF#64
    | _ => BitVec.allOnes 64
  | some (0x01, f, _) => if f = 0 then 0xF000FFFFFFFFFFFF#64 else 0xFFFFFFFFFFFF#64
  | some (0x02, _, i) => if i = 1 then ring else BitVec.allOnes 64
  | some (0x03, _, i) =>
    if i = 0 then 0xFFF#64 else if 0x0100 ≤ i ∧ i ≤ 0x018F then 0xFFFFFFFFFFFF0001#64 else BitVec.allOnes 64
  | some (0x04, _, i) => if i % 4 = 2 then 1#64 else BitVec.allOnes 64
  | _ => BitVec.allOnes 64

/-! ## Translation invalidated (R370) -/

/-- Accesses translated for a context (or any) that have not been performed at their homes: a waiting sfence or stape, whose
write-back is to come, and a soft operation that waits for its acceptance among them, but none held behind a missing number (R168,
R182, R370). Atoms name no context and are all waited for. -/
def Chip.walksOut (c : Chip) (x : Option Nat) : Bool :=
  let here := fun y => match x with | some x => x == y | none => true
  c.drains.any (fun d => here d.ctx) || !c.atoms.isEmpty || c.held.any (fun h => here h.ctx)
    || c.regions.any fun r => r.team.isNone && here r.ctx && (r.out || !r.gates.isEmpty
      || c.groups.any fun g => match g.wait with
        | some (.softPoint id _ _ _ _) => id == r.id
        | some (.accept id w) => id == r.id && (!r.ordered || w.op.ticket == r.appl)
        | _ => false)

/-- The stores of a context (or any) that stand in L1s and quench buffers, in whatever line or entry, reach their homes
(R370). The lines and entries that hold none of them stay (R212). -/
def Chip.flushContext (c : Chip) (x : Option Nat) : Chip :=
  let here := fun y => match x with | some x => x == y | none => true
  let from_ := fun (ss : List (Nat × Nat)) => ss.any fun p => here p.2
  let mine := fun (q : QuenchEntry) => here q.ctx || from_ q.stores
  let c := (c.l1.filter fun l => here l.ctx || from_ l.stores).foldl (fun c l => c.cleanLine l) c
  ((c.quench.filter mine).map (·.core)).eraseDups.foldl (fun c k => c.quenchSome k mine fun _ => true) c

/-- Cached leaves gone: of kind 0 the leaf that maps `va`, of kind 1 the context's, of kind 2 every one (R370). -/
def Chip.invalidate (c : Chip) (kind x : Nat) (va : W64) : Chip :=
  let gone := fun (e : TlbEntry) => match kind with
    | 0 => e.ctx == x && e.va == va.toNat / e.size * e.size
    | 1 => e.ctx == x
    | _ => true
  { c with tlb := c.tlb.filter fun e => !gone e }

/-- An arena page whose accesses are over: the stores of its context reach their homes, and its frame goes on the free list
(R325, R370). -/
def Chip.freePage (c : Chip) (p : ArenaPage × Nat) : Chip :=
  ({ c with leaving := c.leaving.filter (· != p) }.flushContext (some p.1.ctx)).arenaPush p.1.ctx p.2

/-- Whether the frame of a page that leaves an arena may go on the free list. -/
def Chip.pageFree (c : Chip) (p : ArenaPage × Nat) : Bool := !c.walksOut (some p.1.ctx)

/-! ## sys (R369) -/

/-- xval of the privileged-instruction trap: word 0 ‖ word 1, the left one the more significant (R359). -/
def privWords (i : Instr) : W64 :=
  let ws := encode i
  (ws.headD 0#32 ++ (ws.drop 1).headD 0#32 : W64)

/-- A sys instruction: privileged, between a release and an acquire at .sys. -/
def runSys (i : Instr) (s : State) (f : Issue → Chip → Eff Chip) : Host.Outcome State Fault Refusal :=
  issueC i s fun x c =>
    if !(c.context x.ctx).priv then .trap 0x13 (privWords i) x.act
    else if c.atomsOut x.g then .stall
    else (f x (c.release x.core .sys)).map fun c => c.acquire x.core .sys

/-- The end of a teardown whose accesses are over: what they have left in L1s, quench buffers and TLBs goes too (R370,
R374). -/
def Chip.endTeardown (c : Chip) (x : Nat) : Chip := (c.flushContext (some x)).invalidate 1 x 0#64

/-- sys.tlbinv of a kind; kind 3 has no effect and gives status 1. -/
def runTlbinv (i : Instr) (e : Enc) (kind : Nat) (s : State) : Host.Outcome State Fault Refusal :=
  runSys i s fun x c =>
    let ctx := x.g.scalar e.b.toNat
    if 64 ≤ ctx.toNat ∨ 3 ≤ kind then .ok (x.status c e 1)
    else
      let who := if kind = 2 then none else some ctx.toNat
      if c.walksOut who then .stall
      else .ok (x.status ((c.flushContext who).invalidate kind ctx.toNat (x.g.scalar e.a.toNat)) e 0)

/-- sys.tlbinv, kind 0; the words of kind 3 decode to it too. -/
def execSysTlbinvLeaf (e : Enc) (s : State) : Host.Outcome State Fault Refusal :=
  runTlbinv (.sysTlbinvLeaf e) e (if e.imm = 3#32 then 3 else 0) s
/-- sys.tlbinv, kind 1. -/
def execSysTlbinvContext (e : Enc) (s : State) : Host.Outcome State Fault Refusal := runTlbinv (.sysTlbinvContext e) e 1 s
/-- sys.tlbinv, kind 2. -/
def execSysTlbinvAll (e : Enc) (s : State) : Host.Outcome State Fault Refusal := runTlbinv (.sysTlbinvAll e) e 2 s

/-- sys.cfgrd: s[D] takes the value, and s[D+1] the status; a failure changes nothing else (R371). -/
def execSysCfgrd (e : Enc) (s : State) : Host.Outcome State Fault Refusal :=
  runSys (.sysCfgrd e) s fun x c =>
    let put := fun (st : Nat) (g : Group) => g.writeOne x.pos 0 (.s (e.d.toNat + 1)) (BitVec.ofNat 64 st)
    .ok (match c.cfgRead (x.g.scalar e.a.toNat) with
      | .ok v => c.onGroup x.g.id fun g => put 0 (x.putS g e.d (BitVec.ofNat 64 v))
      | .error st => c.onGroup x.g.id (put st))

/-- sys.cfgwr. -/
def execSysCfgwr (e : Enc) (s : State) : Host.Outcome State Fault Refusal :=
  runSys (.sysCfgwr e) s fun x c =>
    let (c, st) := c.cfgWrite (x.g.scalar e.a.toNat) (x.g.scalar e.b.toNat)
    .ok (x.status c e st)

/-- sys.fqreplay. -/
def runReplay (i : Instr) (e : Enc) (discard : Bool) (s : State) : Host.Outcome State Fault Refusal :=
  runSys i s fun x c =>
    let (c, st) := c.replay (x.g.scalar e.a.toNat) discard
    .ok (x.status c e st)

/-- sys.fqreplay, action 0. -/
def execSysFqreplayRetry (e : Enc) (s : State) : Host.Outcome State Fault Refusal := runReplay (.sysFqreplayRetry e) e false s
/-- sys.fqreplay, action 1. -/
def execSysFqreplayDiscard (e : Enc) (s : State) : Host.Outcome State Fault Refusal := runReplay (.sysFqreplayDiscard e) e true s

/-! ## Contexts (R374) -/

/-- Mode 0: a context's queues emptied, and it is enabled. -/
def Chip.enableCtx (c : Chip) (x : Nat) : Chip × Nat :=
  if (c.context x).en then (c, 2)
  else (({ c with launches := c.launches.filter fun l => l.ctx != x }).onContext x fun k => { k with en := true }, 0)

/-- Whether the save area holds what the device wrote at the suspension (R374). -/
def Chip.areaKept (c : Chip) (k : Context) : Bool :=
  match k.saved with
  | some n => (List.range (1048576 + 16 * k.cnum)).all fun i => c.byte (k.ctxsave + i) == Config.saveArea n i
  | none => false

/-- Queue contents and counter records of a changed save area: any values, of that context alone (R374). -/
def Chip.restoreAny (c : Chip) (x : Nat) : Chip :=
  let k := c.context x
  let c := (List.range k.cnum).foldl (fun (c : Chip) i =>
    let w := fun j => Config.restored c.fresh (k.cbase + i) j
    c.putCounter (k.cbase + i)
      { value := (w 0).setWidth 32, target := (w 1).setWidth 32, parent := ((w 1) >>> 32).setWidth 16
        faults := fieldOf (w 0).toNat 47 32, level := ((w 0) >>> 60).setWidth 2, done := (w 0).getLsbD 62
        cancelled := (w 0).getLsbD 63 }) c
  let qs := Config.restoredQueue c.fresh
  let c := { c with launches := c.launches.filter (fun l => l.ctx != x), fresh := c.fresh + 1 }
  qs.foldl (fun (c : Chip) q =>
    { c with
      launches := c.launches ++ [Launch.ofDesc c.nextId x (q.1 % 64) (Desc.ofWords q.2)]
      nextId := c.nextId + 1 }) c

/-- The queues and counters of an unchanged save area, as they stood at the suspension, with the launches that were
queued since, whose counters stay (R374; log 14). -/
def Chip.restoreSaved (c : Chip) (x : Nat) : Chip :=
  let k := c.context x
  let later := c.launches.filter fun l => l.ctx == x && !(k.savedLaunches.any fun m => m.id == l.id)
    && decide ((k.savedLaunches.map (·.id)).all fun n => decide (n < l.id))
  let cs := k.savedCounters.filter fun p => !(later.any fun l => l.desc.cctr == p.1)
  let c := { c with launches := sortBy (·.id) (c.launches.filter (fun l => l.ctx != x) ++ k.savedLaunches ++ later) }
  cs.foldl (fun (c : Chip) p => c.putCounter p.1 p.2) c

/-- Mode 2: a suspended context resumes: the save area gives its queues and counters back. -/
def Chip.resumeCtx (c : Chip) (x : Nat) : Chip × Nat :=
  let k := c.context x
  if !k.susp then (c, 2)
  else
    ((if c.areaKept k then c.restoreSaved x else c.restoreAny x).onContext x fun k =>
      { k with susp := false, saved := none, savedLaunches := [], savedCounters := [] }, 0)

/-- The device-memory regions of a context freed, once every accepted operation of theirs whose number has come is applied
whole (R187, R374). -/
def Chip.freeRegions (c : Chip) (x : Nat) : Chip :=
  let mine := fun (r : Region) => r.team.isNone && r.ctx == x
  let c := (c.regions.filter mine).foldl (fun c r => Chip.finishSoft r.stepBound c r.id) c
  { c with regions := c.regions.filter fun r => !mine r }

/-- Mode 3: all work of a context is cancelled and its resources are freed. The instruction completes once the invalidation
of its translations has (Chip.teardownDone). -/
def Chip.teardownCtx (c : Chip) (x : Nat) : Chip × Nat :=
  let k := c.context x
  if !k.en then (c, 2)
  else
    let range := (List.range k.cnum).map (k.cbase + ·)
    let c := range.foldl (fun (c : Chip) n => c.cancelCounter n) c
    let c := (c.launches.filter fun l => l.ctx == x).foldl (fun (c : Chip) l => c.dropLaunch l) c
    let c := (c.sequences.filter fun q => q.ctx == x && q.live).foldl (fun (c : Chip) q => (c.releaseSeq q).1) c
    let c := (c.arenaPages.filter fun p => p.ctx == x).foldl (fun (c : Chip) p => c.returnPage p) c
    let c := range.foldl (fun (c : Chip) n =>
      { c with
        counters := SMap.put Counter.reset c.counters n
          { value := 0, target := 0, parent := 0, faults := 0, level := 0, done := false, cancelled := false }
        liveKids := SMap.put 0 c.liveKids n 0 }) c
    let c := { c.freeRegions x with mailboxes := c.mailboxes.filter fun p => p.2.ctx != x }.endTeardown x
    (c.onContext x fun k =>
      { k with en := false, susp := false, suspending := false, saved := none, savedLaunches := [], savedCounters := [] }, 0)

/-- Whether a teardown's invalidation is complete: no access uses a translation of the context, and no page of it is still
to be freed (R370, R374). -/
def Chip.teardownDone (c : Chip) (x : Nat) : Bool := !c.walksOut (some x) && !c.leaving.any fun p => p.1.ctx == x

/-- Mode 1: whether a suspension may begin. One under way is joined. -/
def Chip.suspendOk (c : Chip) (x : Nat) : Bool := (c.context x).en && !(c.context x).susp

/-- sys.halt: the checks of its context, then its mode. -/
def runHalt (i : Instr) (e : Enc) (s : State) (f : Chip → Nat → Chip × Nat) : Host.Outcome State Fault Refusal :=
  runSys i s fun x c =>
    let y := (x.g.scalar e.a.toNat).toNat
    if 64 ≤ y ∨ y = x.ctx then .ok (x.status c e 1)
    else
      let (c, st) := f c y
      .ok (x.status c e st)

/-- sys.halt, mode 0. -/
def execSysHaltEnable (e : Enc) (s : State) : Host.Outcome State Fault Refusal :=
  runHalt (.sysHaltEnable e) e s fun c y => c.enableCtx y
/-- sys.halt, mode 1: the group waits until no team of the context is resident. -/
def execSysHaltSuspend (e : Enc) (s : State) : Host.Outcome State Fault Refusal :=
  runSys (.sysHaltSuspend e) s fun x c =>
    let y := (x.g.scalar e.a.toNat).toNat
    if 64 ≤ y ∨ y = x.ctx then .ok (x.status c e 1)
    else if !c.suspendOk y then .ok (x.status c e 2)
    else
      let c := if (c.context y).suspending then c else c.beginSuspend y
      if (c.context y).suspending then
        .ok (c.onGroup x.g.id fun g => { g with wait := some (.suspension y e.d.toNat) })
      else .ok (x.status c e 0)
/-- sys.halt, mode 2. -/
def execSysHaltResume (e : Enc) (s : State) : Host.Outcome State Fault Refusal :=
  runHalt (.sysHaltResume e) e s fun c y => c.resumeCtx y
/-- sys.halt, mode 3: the group waits until the invalidation is complete. -/
def execSysHaltTeardown (e : Enc) (s : State) : Host.Outcome State Fault Refusal :=
  runSys (.sysHaltTeardown e) s fun x c =>
    let y := (x.g.scalar e.a.toNat).toNat
    if 64 ≤ y ∨ y = x.ctx then .ok (x.status c e 1)
    else
      let (c, st) := c.teardownCtx y
      if st = 0 ∧ c.teardownDone y = false then
        .ok (c.onGroup x.g.id fun g => { g with wait := some (.teardown y e.d.toNat) })
      else .ok (x.status c e st)

/-- A suspension or a teardown has ended: s[D] takes status 0, and sys.halt acquires. -/
def Chip.passSuspension (c : Chip) (core gid d : Nat) : Chip :=
  (c.acquire core .sys).onGroup gid fun g => g.setScalar d 0#64

end Sys2Proof.Machine
end

