-- ==== Sys2Proof/Machine/Events.lean ====
section
/-! DEFINITION. What happens at the cores, the memory and the units without an instruction: joins, wakes, starvation,
drains, soft operations, hash steps, lease windows, the quench buffer, atoms and storage errors (R46, R53, R79, R155,
R160, R171, R198 to R201, R212, R235 to R237, R252, R253, R278, R375, R376). -/
namespace Sys2Proof.Machine

/-! ## Joins (R53) -/

/-- Whether a join episode of a group has run out. -/
def Group.joinDue (g : Group) (cyc j : Nat) : Bool :=
  g.episodes.any fun e => e.join == j && e.t != 0 && decide (e.t0 + e.t ≤ cyc)

/-- A join times out; the event names the group and the join. -/
def execJoinTimeout (s : State) : Host.Outcome State Fault Refusal :=
  onChip s fun c => (c.group? s.event.a).bind fun g =>
    if g.joinDue c.cyc s.event.b then some (c.setGroup (g.releaseJoin s.event.b true).settleJoins) else none

/-! ## Waking (R252, R253) -/

/-- The lowest-numbered condition of a sleep that holds, if one does. -/
def Group.wakeReasonOf (g : Group) (z : Sleep) (cyc : Nat) : Option Nat :=
  if cyc ≤ z.from_ then none
  else
    leastOf ((if z.deadline.toNat ≤ cyc then [1] else [])
      ++ (match z.prm with | some p => if g.counters.get p.1 ≤ p.2 then [2] else [] | none => []) ++ z.happened)

/-- The number of a class (R247). -/
def classNum : EngClass → Nat
  | .copy => 0 | .index => 1 | .drain => 2 | .blend => 3 | .attn => 4 | .coll => 5

/-- The trap of a promise that was missed (R253). -/
def Group.missed (g : Group) (z : Sleep) (reason : Nat) (woke : W64) : Option TrapInfo :=
  match z.prm with
  | some (k, n) =>
    if reason = 1 ∧ n < g.counters.get k then
      some { cause := 0x05, val := BitVec.ofNat 64 (classNum k * 256 + g.counters.get k), mask := woke }
    else none
  | none => none

/-- The lanes of a sleep wake for a reason; where no lane runs or sleeps then, parked ones are let go (R54). -/
def Group.wake (g : Group) (z : Sleep) (reason : Nat) : Group :=
  let woke := g.maskBy fun l => l.st == .asleep z.id
  let lanes := (List.range g.lanes.length).filterMap fun l =>
    (g.lanes[l]?).map fun (x : Lane) => bif x.st == .asleep z.id then { x with st := g.resumed l } else x
  { g with
    lanes
    sleeps := g.sleeps.filter fun y => y.id != z.id
    wakeReason := BitVec.ofNat 3 reason
    wakeGated := z.gated
    pendTraps := g.pendTraps ++ (g.missed z reason woke).toList }.settleJoins

/-- Sleeping lanes wake; the event names the group and the sleep. -/
def execSleepWake (s : State) : Host.Outcome State Fault Refusal :=
  onChip s fun c => (c.group? s.event.a).bind fun g =>
    match g.sleeps.find? fun z => z.id == s.event.b with
    | none => none
    | some z => (g.wakeReasonOf z c.cyc).map fun r => (c.setGroup (g.wake z r)).activate (c.coreOf g)

/-! ## Traps that wait for the next issue (R46, R160, R253, R320) -/

/-- The lanes that a trap taken before the next issue names: for divergence starvation the waiting ones, for a missed
promise those that woke, and for a trap of the whole team those of the issue. -/
def Group.pendMask (g : Group) (t : TrapInfo) (ia : Nat) : W64 :=
  if t.cause = 0x04#8 then g.maskBy fun l => l.st.isRunning && decide (ia < l.pc.toNat)
  else if t.cause = 0x05#8 then t.mask
  else g.at_ ia

/-- The oldest of the traps that a group has to take, taken before its next issue, at its issue address. -/
def Chip.takePending (c : Chip) (g : Group) (t : TrapInfo) : Option Chip :=
  g.issueAddress.map fun ia =>
    c.takeTrap { g with pendTraps := g.pendTraps.drop 1 }
      { cause := t.cause, pc := BitVec.ofNat 64 ia, val := t.val, mask := g.pendMask t ia }

/-- Divergence starvation: the trap goes to the fault policy; the event names the group. -/
def execDivergenceStarvation (s : State) : Host.Outcome State Fault Refusal :=
  onChip s fun c => (c.group? s.event.a).bind fun g =>
    g.pendTraps.head?.bind fun t => if t.cause = 0x04#8 then c.takePending g t else none

/-! ## Drains (R155 to R158) -/

/-- Rows that a drain has applied. -/
def Drain.applied (d : Drain) : Nat := 32 - d.rows.length

/-- Whether a drain-add may apply its next row: two of one base and pitch keep one order, the one that has begun first
going ahead (R157). -/
def Chip.rowFree (c : Chip) (d : Drain) : Bool :=
  d.add.isNone || c.drains.all fun q =>
    q.id == d.id || q.add.isNone || q.base != d.base || q.pitch != d.pitch || q.applied == 0
      || decide (d.applied + 1 < q.applied) || decide (q.applied < d.applied)

/-- A word of a row applied at its home: stored, or added to what is there; a lost word stays lost (R156, R376). -/
def Chip.applyWord (c : Chip) (add : Option Bool) (p : Phys) (w : W32) : Chip :=
  match add with
  | none => c.pageWrite p (leBytes 4 w.toNat)
  | some f =>
    if c.poison.contains (p.pa / 4) then c
    else
      let old := c.homeWord p.pa
      let v := if f then (fmtF32.add .rn old.toNat w.toNat).1 else (old + w).toNat
      c.pageWrite p (leBytes 4 v)

/-- A drain's next row is applied; the last one lowers the group's counter. The event names the drain. -/
def execDrainRowApply (s : State) : Host.Outcome State Fault Refusal :=
  onChip s fun c =>
    match c.drains.find? fun d => d.id == s.event.a with
    | none => none
    | some d =>
      match d.rows with
      | [] => none
      | r :: rest =>
        if !c.rowFree d then none
        else
          let c := r.words.foldl (fun c w => c.applyWord d.add w.1 w.2) c
          if rest.isEmpty then some ({ c with drains := c.drains.filter fun q => q.id != d.id }.lower d.group .drain)
          else some { c with drains := updWhere (fun q => q.id == d.id) (fun q => { q with rows := rest }) c.drains }

/-! ## Soft operations and hash steps (R171, R278) -/

/-- The next soft operation of a region is applied; the event names the region. -/
def execSoftOpApply (s : State) : Host.Outcome State Fault Refusal :=
  onChip s fun c => (c.regions.find? fun r => r.id == s.event.a).bind fun r =>
    (c.softNext r).map fun o => c.applySoft r o

/-- A hash instruction's next step is applied, a hop's last one no sooner than R292 lets it complete; the event names the
instruction. -/
def execHashStep (s : State) : Host.Outcome State Fault Refusal :=
  onChip s fun c => if c.hashDue s.event.a then c.hashNext s.event.a else none

/-! ## Lease windows (R198 to R201) -/

/-- MEAS at a window end (R201). -/
def Lease.measure (l : Lease) (occupancy : Nat) : Nat :=
  if l.misses < l.lost * 16 then min (l.meas + l.meas / 4 + 16) 1792
  else if l.lost = 0 ∧ occupancy * 2 < l.meas then max (l.meas - l.meas / 8) l.floor
  else l.meas

/-- A group's lease at a window end, steps 1 and 2 of R199. `inOrder` says whether the activation order holds it. -/
def Lease.window (l : Lease) (cyc occupancy : Nat) (inOrder : Bool) : Lease :=
  let l := { l with meas := if inOrder && l.mode != 0 then l.measure occupancy else l.meas, misses := 0, lost := 0 }
  if !inOrder then l
  else if l.active then { l with parkCount := 0, aged := none }
  else { l with parkCount := l.parkCount + 1, aged := if l.parkCount = 3 then some cyc else l.aged }

/-- Whether a window ends in this cycle and has not been taken yet. -/
def Chip.windowDue (c : Chip) : Bool := c.cyc != 0 && c.cyc % Config.leaseWindow == 0 && !c.hadEvents.contains 0

/-- A lease window ends on every core. -/
def execLeaseWindowEnd (s : State) : Host.Outcome State Fault Refusal :=
  onChip s fun c =>
    if !c.windowDue then none
    else
      let groups := c.groups.map fun (g : Group) =>
        { g with lease := g.lease.window c.cyc (c.occupancy (c.coreOf g) (.group g.id)) g.ordered }
      let cores := (c.teams.map (·.core)).eraseDups
      some (cores.foldl (fun (c : Chip) k => c.activate k) { c with groups, hadEvents := c.hadEvents ++ [0] })

/-! ## The quench buffer (R212) -/

/-- Whether an open entry has stood for its context's WCB_WAIT. -/
def Chip.quenchDue (c : Chip) (q : QuenchEntry) : Bool := decide (q.opened + (c.context q.ctx).wcbWait ≤ c.cyc)

/-- An entry leaves after WCB_WAIT, with its context's older ones (R213); the event names its core and its block. -/
def execQuenchEntryTimeout (s : State) : Host.Outcome State Fault Refusal :=
  onChip s fun c =>
    (c.quench.find? fun q => q.core == s.event.a && q.block == s.event.b && c.quenchDue q).map fun q =>
      c.quenchTimed q.core q.ctx fun p => p.block == q.block

/-! ## Atoms (R235 to R237) -/

/-- A lane's result of an atom. -/
def Group.atomResult (g : Group) (op : AtomOp) (dst l : Nat) (old : W64) : Group :=
  if dst = 0xFF then g
  else if AtomOp.regs op = 2 then
    (g.poke (.v dst) [(l, old &&& 0xFFFFFFFF#64)]).poke (.v (dst + 1)) [(l, old >>> 32)]
  else g.poke (.v dst) [(l, old)]

/-- One part of an element as it is applied: the lanes in ascending order, each taking what it finds (R235). `op` acts
on the part. -/
def applyLanes (op : W64 → W64 → W64) (start : W64) (lanes : List (Nat × W64)) : W64 × SMap W64 :=
  lanes.foldl (fun (r : W64 × SMap W64) l => (op r.1 l.2, r.2 ++ [(l.1, r.1)])) (start, [])

/-- A unit of an atom without its lanes' work left; with none left, the atom is complete (R21). -/
def Chip.atomDone (c : Chip) (a : Atom) (units : List AtomUnit) : Chip :=
  if units.isEmpty then
    let regs := if a.dst = 0xFF then [] else vecRegs a.dst (AtomOp.regs a.op)
    { c with atoms := c.atoms.filter fun b => b.id != a.id }.onGroup a.group fun g =>
      { g with busy := g.busy.filter fun r => !regs.contains r }
  else { c with atoms := updWhere (fun b => b.id == a.id) (fun b => { b with units }) c.atoms }

/-- The written bytes of an atom's part at home, with no owner; the core's clean copy goes (R223, R235). -/
def Chip.atomWrite (c : Chip) (core : Nat) (p : Phys) (n : Nat) (v : W64) : Chip :=
  let c := c.pageWrite p (leBytes n v.toNat)
  (c.dropWord core (p.pa / 4)).dropWord core ((p.pa + n - 1) / 4)

/-- One unit of an atom applied at its home slice: for add.bf16x2 its low halves first, and its high halves in another
step (R235, R236). A poisoned word traps the team (R376). -/
def Chip.applyUnit (c : Chip) (a : Atom) (u : AtomUnit) : Chip :=
  let n := AtomOp.bytes a.op
  let rest := a.units.filter fun v => v.ea != u.ea
  if c.poisoned u.phys.pa n then
    let c := c.atomDone a []
    match c.group? a.group with
    | some g => c.teamTrap g 0x0E u.ea
    | none => c
  else if a.op = .addBf16x2 then
    let at_ := u.phys.pa + (if u.high then 2 else 0)
    let half := fun (x : W64) => if u.high then x.toNat / 65536 % 65536 else x.toNat % 65536
    let add := fun (x y : W64) => BitVec.ofNat 64 (fmtBF16.add .rn x.toNat (half y)).1
    let (v, olds) := applyLanes add (BitVec.ofNat 64 (c.homeNat at_ 2)) u.lanes
    let c := c.atomWrite a.core { u.phys with pa := at_ } 2 v
    if u.high then
      let c := olds.foldl (fun (c : Chip) o =>
        c.onGroup a.group fun g => g.atomResult a.op a.dst o.1 (o.2 * 65536#64 + SMap.get 0#64 u.olds o.1)) c
      c.atomDone a rest
    else c.atomDone a (updWhere (fun v => v.ea == u.ea) (fun v => { v with high := true, olds }) a.units)
  else
    let (v, olds) := applyLanes (AtomOp.apply a.op) (BitVec.ofNat 64 (c.homeNat u.phys.pa n)) u.lanes
    let c := c.atomWrite a.core u.phys n v
    (olds.foldl (fun (c : Chip) o => c.onGroup a.group fun g => g.atomResult a.op a.dst o.1 o.2) c).atomDone a rest

/-- Whether a unit of an atom must wait for an older atom of its group, or for a store of an older strl (R206, R222). -/
def Chip.laterUnit (c : Chip) (a : Atom) (u : AtomUnit) : Bool :=
  c.atoms.any (fun b => b.group == a.group && decide (b.id < a.id)
    && b.units.any fun v => v.ordered b.op u.phys (AtomOp.bytes a.op))
  || c.held.any fun h => h.group == a.group && decide (h.id < a.id) && h.ordered u.phys (AtomOp.bytes a.op)

/-- The units of an atom that a home slice of this module may apply now. -/
def Chip.unitsHere (c : Chip) (a : Atom) : List AtomUnit := a.units.filter fun u => u.phys.cp != 3 && !c.laterUnit a u

/-- A unit of an atom is applied, in an order that the manual does not fix; the event names the atom. -/
def execAtomApply (s : State) : Host.Outcome State Fault Refusal :=
  onChip s fun c =>
    match c.atoms.find? fun a => a.id == s.event.a with
    | none => none
    | some a =>
      let us := c.unitsHere a
      let k := if us.length = 1 then 0 else Config.addressOrder c.fresh % us.length
      (us[k]?).map fun u => (if us.length = 1 then c else { c with fresh := c.fresh + 1 }).applyUnit a u

/-- The host completes the AtomicOp of an atom's lowest lane still out: the old value it returns, or all ones where it
completes as unsupported, which HATOMIC counts (R237). The event names the atom, brings the old value, and says whether
the completion is unsupported. -/
def execHostAtomicopCompletion (s : State) : Host.Outcome State Fault Refusal :=
  onChip s fun c =>
    match c.atoms.find? fun a => a.id == s.event.a with
    | none => none
    | some a =>
      let host := a.units.filter fun u => u.phys.cp == 3
      match leastOf (host.flatMap fun u => u.lanes.map (·.1)) with
      | none => none
      | some l =>
        (host.find? fun u => u.lanes.any (fun p => p.1 == l) && !c.laterUnit a u).map fun u =>
          let n := AtomOp.bytes a.op
          let old := if n = 8 then s.event.w else s.event.w &&& 0xFFFFFFFF#64
          let d := SMap.get 0#64 u.lanes l
          let c := if s.event.yes then { c with hatomic := c.hatomic + 1 }
            else c.unitWrite u.phys.pa (leBytes n (AtomOp.apply a.op old d).toNat) 0
          let c := c.onGroup a.group fun g => g.atomResult a.op a.dst l (if s.event.yes then BitVec.allOnes 64 else old)
          let units := (updWhere (fun v => v.ea == u.ea) (fun (v : AtomUnit) => { v with lanes := v.lanes.filter fun p => p.1 != l })
            a.units).filter fun v => !v.lanes.isEmpty
          c.atomDone a units

/-! ## The arena (R324, R371) -/

/-- A write to ARENAADD: the event names the context and brings the value. -/
def execArenaAdd (s : State) : Host.Outcome State Fault Refusal :=
  onChip s fun c => some (c.arenaAdd (s.event.a % 64) s.event.w).1

/-! ## Storage errors (R160, R375, R376) -/

/-- A saturating count. -/
def countUp (x : W64) : W64 := if x = BitVec.allOnes 64 then x else x + 1

/-- An error corrected, or a copy fetched again (R375). -/
def Chip.corrected (c : Chip) (die : Nat) : Chip := c.onDie die fun d => { d with eccCe := countUp d.eccCe }

/-- An error that nothing corrects, with the PA of its word where it has one; vector 66 tells that ECC_UE has increased (R375,
R381). -/
def Chip.uncorrected (c : Chip) (die : Nat) (pa : Option Nat) : Chip :=
  let full := (c.die die).eccUe == BitVec.allOnes 64
  let c := c.onDie die fun d =>
    { d with eccUe := countUp d.eccUe, eccUlog := match pa with | some p => BitVec.ofNat 64 p | none => d.eccUlog }
  if full then c else c.msi 66

/-- A word poisoned at its home (R376). -/
def Chip.poisonWord (c : Chip) (wa : Nat) : Chip := { c with poison := (wa :: c.poison).eraseDups }

/-- A word of a core's L1 gone, dirty or not. -/
def Chip.loseWord (c : Chip) (core wa : Nat) : Chip :=
  let i := wa % 32
  { c with
    l1 := (c.l1.map fun (l : L1Line) =>
      bif l.core == core && l.line == wa / 32
      then { l with valid := l.valid &&& ~~~(1#32 <<< i), dirty := l.dirty &&& ~~~(1#32 <<< i)
                    words := SMap.put 0#32 l.words i 0#32 }
      else l).filter fun l => l.valid != 0#32 }

/-- A lost pool or barrier word of a team. A drain of a lost tile word that the array may still be reading, within 8
cycles of its acceptance, and that has applied no row applies none, and it has met the word (R155, R160). -/
def Chip.loseTeamWord (c : Chip) (team : Nat) (l : LostWord) : Chip :=
  let tile := match l.word with | some (.tile t _) => some t | _ => none
  let hit := c.drains.filter fun d => tile == some d.tile && d.applied == 0 && decide (c.cyc ≤ d.since + 8)
    && ((c.group? d.group).map (·.team)) == some team
  let l := if hit.isEmpty then l else { l with met := l.met.or (some c.cyc) }
  hit.foldl (fun (c : Chip) d => { c with drains := c.drains.filter fun q => q.id != d.id }.lower d.group .drain)
    (c.onTeam team fun t => { t with lostWords := t.lostWords ++ [l] })

/-- The Bexene die of a place where translations are cached: a core's, or the die's own (R368). -/
def placeDie (place : Nat) : Nat := if Config.cores ≤ place then (place - Config.cores) % 2 else dieOf place

/-- The die that counts an error: that of the core, of the word's home slice, or of the Gelrad block (R375). -/
def Chip.eccDie (c : Chip) (ev : EvArg) : Nat :=
  let ofTeam := fun t => dieOf (((c.team? t).map (·.core)).getD 0)
  match ev.site with
  | .pool _ _ => ofTeam ev.a
  | .barrier team _ => ofTeam team
  | .mailbox core _ | .l1 core _ | .instructionCache core => dieOf core
  | .tlb place => placeDie place
  | .l2 pa | .memory pa | .storeLink pa => homeDie pa
  | .gelradBlock owner lb => ((c.blocks.find? fun b => b.owner == owner && b.lb == lb).map (·.die)).getD 0
  | .link op => ((c.ops.find? fun o => o.id == op).map fun o => dieOf o.core).getD 0

/-- A link's retry has failed under an engine operation: a copy ends in the middle of its bytes, any other operation has
moved none; its status is 7, which the record of an attention command says too (R343, R388; log 88). -/
def Chip.linkFails (c : Chip) (op : Nat) : Option Chip :=
  (c.ops.find? fun o => o.id == op).bind fun o => (c.opDue op o.code).map fun o =>
    if o.cls = .copy then c.copyRun o (some 7)
    else if o.cls = .attn then c.endAttn o (if o.dropped then 4 else 7) (c.kvCount o)
    else c.failOp o 7

/-- A detected storage error (R375, R376), or a link whose retry has failed (R388). The event brings its site and whether
it is correctable: of a pool word its team in a, of an instruction-cache word its PA in w, of a TLB entry its context in b
and its VA in w, of a barrier the value reported in w. -/
def execEccError (s : State) : Host.Outcome State Fault Refusal :=
  onChip s fun c =>
    let ev := s.event
    let die := c.eccDie ev
    match ev.site with
    | .link op => c.linkFails op
    | .storeLink pa => some (c.settleSoft.poisonWord (pa / 4))
    | site =>
      some <|
        if ev.yes then c.corrected die
        else
          let c := c.settleSoft
          match site with
          | .pool word byte =>
            (c.uncorrected die none).loseTeamWord ev.a
              { word := some word, val := BitVec.ofNat 64 byte, met := none, reported := false }
          | .barrier team _ =>
            (c.uncorrected die none).loseTeamWord team { word := none, val := ev.w, met := some c.cyc, reported := false }
          | .mailbox core m => (c.uncorrected die none).setMailbox core (m % 16) .reset
          | .l1 core pa =>
            let dirty := ((c.line? core (pa / 128)).map fun l => l.dirty.getLsbD (pa / 4 % 32)).getD false
            if dirty then ((c.uncorrected die (some pa)).loseWord core (pa / 4)).poisonWord (pa / 4)
            else (c.corrected die).loseWord core (pa / 4)
          | .l2 pa =>
            if c.l2.any fun l => l.line == pa / 128 && l.dirty.getLsbD (pa / 4 % 32) then
              (c.uncorrected die (some pa)).poisonWord (pa / 4)
            else c.corrected die
          | .memory pa => (c.uncorrected die (some pa)).poisonWord (pa / 4)
          | .instructionCache core =>
            { c.corrected die with icache := SMap.put none c.icache (icacheKey core ev.w.toNat) none }
          | .tlb place =>
            { c.corrected die with tlb := c.tlb.filter fun e => !(e.place == place && e.ctx == ev.b && e.va == ev.w.toNat) }
          | .gelradBlock owner lb =>
            let c := c.uncorrected die none
            { c with blocks := updWhere (fun b => b.owner == owner && b.lb == lb) (fun b => { b with lost := true }) c.blocks }
          | .link _ | .storeLink _ => c

/-- A lost word that an instruction met 256 cycles ago and more: its report can wait no longer (R160). -/
def LostWord.overdue (l : LostWord) (cyc : Nat) : Bool := match l.met with | some m => decide (m + 256 ≤ cyc) | none => false

/-- A lost word that has been met and is still to be reported. -/
def LostWord.waits (l : LostWord) : Bool := l.met.isSome && !l.reported

/-- The report of a lost word that has been met: every group of the team has the trap to take at its next issue; and once
256 cycles have passed the trap is taken whether a group issues or not, with the launch's policy (R160, R364). The event
names the team. -/
def execStorageErrorReport (s : State) : Host.Outcome State Fault Refusal :=
  onChip s fun c => (c.team? s.event.a).bind fun t =>
    match t.lostWords.find? fun l => l.overdue c.cyc with
    | some l =>
      let c := c.onTeam t.id fun u => { u with lostWords := u.lostWords.filter (· != l) }
      some (match c.groupsOf t.id with | g :: _ => c.teamTrap g 0x0E l.val | [] => c)
    | none =>
      (t.lostWords.find? LostWord.waits).map fun l =>
        (c.onTeam t.id fun u => { u with lostWords := updWhere (· == l) (fun l => { l with reported := true }) u.lostWords }).pendTrap
          t.id 0x0E l.val

end Sys2Proof.Machine
end

