-- ==== Sys2Proof/Machine/Exchange.lean ====
section
/-! DEFINITION. Lane exchange within segments (R60, R62 to R70). -/
namespace Sys2Proof.Machine

/-! ## Segments -/

/-- First lane of a lane's segment (R60). -/
def Group.segBase (g : Group) (l : Nat) : Nat := g.seg * (l / g.seg)

/-- The lanes of the segment that begins at a base. -/
def Group.segLanes (g : Group) (base : Nat) : List Nat := (List.range g.seg).map fun i => base + i

/-- The active lanes of a lane's segment. -/
def Issue.segActive (x : Issue) (l : Nat) : List Nat := (x.g.segLanes (x.g.segBase l)).filter fun k => x.act.getLsbD k

/-! ## vote (R63, R64) -/

/-- The predicate of a vote. -/
def votePred (x : Issue) (e : Enc) (l : Nat) : Bool :=
  if e.as_ then (x.g.scalar e.a.toNat).getLsbD l else x.g.vec e e.a l != 0#32

/-- vote.any. -/
def execVoteAny (e : Enc) (s : State) : Host.Outcome State Fault Refusal :=
  issueOk (.voteAny e) s fun x => x.put x.g e.d fun l => if (x.segActive l).any (votePred x e) then 1#32 else 0#32
/-- vote.all. -/
def execVoteAll (e : Enc) (s : State) : Host.Outcome State Fault Refusal :=
  issueOk (.voteAll e) s fun x => x.put x.g e.d fun l => if (x.segActive l).all (votePred x e) then 1#32 else 0#32
/-- vote.ballot. -/
def execVoteBallot (e : Enc) (s : State) : Host.Outcome State Fault Refusal :=
  issueOk (.voteBallot e) s fun x => x.putS x.g e.d (x.laneMask (votePred x e))
/-- vote.count. -/
def execVoteCount (e : Enc) (s : State) : Host.Outcome State Fault Refusal :=
  issueOk (.voteCount e) s fun x =>
    x.put x.g e.d fun l => BitVec.ofNat 32 ((x.segActive l).filter (votePred x e)).length

/-! ## lx (R65) -/

/-- The amount b of a lane. -/
def lxAmount (x : Issue) (e : Enc) (l : Nat) : Nat := (x.g.opB e l + (Enc.imm64 e).setWidth 32).toNat

/-- A lane's result from the source lane it selects: the fill, zero for an exited lane, or the source's value. -/
def lxRun (i : Instr) (e : Enc) (src : Issue → Nat → Option Nat) (s : State) : Host.Outcome State Fault Refusal :=
  issueOk i s fun x =>
    x.putTy x.g e
      (fun l => match src x l with
        | none => x.g.opC e l
        | some k => if x.g.exited.getLsbD k then 0#32 else x.g.vec e e.a k)
      (fun l => match src x l with
        | none => x.g.opC64 e l
        | some k => if x.g.exited.getLsbD k then 0#64 else x.g.vec2 e e.a k)

/-- lx.get. -/
def execLxGet (e : Enc) (s : State) : Host.Outcome State Fault Refusal :=
  lxRun (.lxGet e) e (fun x l => some (x.g.segBase l + lxAmount x e l % x.g.seg)) s
/-- lx.rise: values move toward higher lanes. -/
def execLxRise (e : Enc) (s : State) : Host.Outcome State Fault Refusal :=
  lxRun (.lxRise e) e (fun x l =>
    if lxAmount x e l ≤ l - x.g.segBase l then some (l - lxAmount x e l) else none) s
/-- lx.fall: values move toward lower lanes. -/
def execLxFall (e : Enc) (s : State) : Host.Outcome State Fault Refusal :=
  lxRun (.lxFall e) e (fun x l =>
    if l - x.g.segBase l + lxAmount x e l < x.g.seg then some (l + lxAmount x e l) else none) s
/-- lx.flip. -/
def execLxFlip (e : Enc) (s : State) : Host.Outcome State Fault Refusal :=
  lxRun (.lxFlip e) e (fun x l =>
    some (x.g.segBase l + Nat.xor (l - x.g.segBase l) (lxAmount x e l % x.g.seg))) s
/-- lx.turn. -/
def execLxTurn (e : Enc) (s : State) : Host.Outcome State Fault Refusal :=
  lxRun (.lxTurn e) e (fun x l =>
    some (x.g.segBase l + (l - x.g.segBase l + lxAmount x e l) % x.g.seg)) s

/-! ## match (R66) -/

/-- match: the active lanes of the segment whose value equals the lane's, bit for bit. -/
def execMatchLanes (sz : MatchSize) (e : Enc) (s : State) : Host.Outcome State Fault Refusal :=
  issueOk (.matchLanes sz e) s fun x =>
    let v := fun l => match sz with
      | .s32 => (x.g.vec e e.a l).setWidth 64
      | .s64 => x.g.vec2 e e.a l
    x.put2 x.g e.d fun l => maskOf ((x.segActive l).filter fun k => v k == v l)

/-! ## rdc and scan (R67, R68) -/

/-- One combination of two elements, with its flags (R67). -/
def rdcCombine (op : RdcOp) (rnd : Rnd) (a b : W32) : W32 × Flags :=
  match op with
  | .addS32 => (a + b, 0#5)
  | .addF32 => let (r, f) := fmtF32.add rnd a.toNat b.toNat; (BitVec.ofNat 32 r, f)
  | .minS32 => (if a.toInt ≤ b.toInt then a else b, 0#5)
  | .maxS32 => (if a.toInt ≤ b.toInt then b else a, 0#5)
  | .minF32 => let (r, f) := fmtF32.minMax false a.toNat b.toNat; (BitVec.ofNat 32 r, f)
  | .maxF32 => let (r, f) := fmtF32.minMax true a.toNat b.toNat; (BitVec.ofNat 32 r, f)
  | .and => (a &&& b, 0#5)
  | .or => (a ||| b, 0#5)
  | .xor => (a ^^^ b, 0#5)

/-- What an inactive lane brings; none where it is absent (R67). -/
def rdcInactive : RdcOp → Option W32
  | .addS32 => some 0
  | .addF32 => some 0x80000000
  | _ => none

/-- The result when no lane is active (R67). -/
def rdcEmpty : RdcOp → W32
  | .addS32 => 0
  | .addF32 => 0x80000000
  | .minS32 => 0x7FFFFFFF
  | .maxS32 => 0x80000000
  | .minF32 => 0x7F800000
  | .maxF32 => 0xFF800000
  | .and => 0xFFFFFFFF
  | .or => 0
  | .xor => 0

/-- One level of the tree (R67): absent with y gives y. -/
def rdcLevel (op : RdcOp) (rnd : Rnd) : List (Option W32 × Flags) → List (Option W32 × Flags)
  | (a, f) :: (b, h) :: rest =>
    (match a, b with
      | some p, some q => let (r, k) := rdcCombine op rnd p q; (some r, f ||| h ||| k)
      | some p, none => (some p, f ||| h)
      | none, y => (y, f ||| h)) :: rdcLevel op rnd rest
  | rest => rest

/-- What the last element of the tree comes to (R67). -/
def rdcRoot (op : RdcOp) : List (Option W32 × Flags) → W32 × Flags
  | (some r, f) :: _ => (r, f)
  | (none, f) :: _ => (rdcEmpty op, f)
  | [] => (rdcEmpty op, 0#5)

/-- The tree over a power of two of elements (R67). -/
def rdcTree (op : RdcOp) (rnd : Rnd) : Nat → List (Option W32 × Flags) → W32 × Flags
  | 0, xs => rdcRoot op xs
  | fuel + 1, xs =>
    match xs with
    | _ :: _ :: _ => rdcTree op rnd fuel (rdcLevel op rnd xs)
    | _ => rdcRoot op xs

/-- min.f32 and max.f32 (R67). -/
def RdcOp.isMinMaxF : RdcOp → Bool
  | .minF32 | .maxF32 => true
  | _ => false

/-- The reduction of the elements of a list of lanes, of which those of `on` take part (R67, R68). A NaN that min.f32 or
max.f32 gives is the canonical one, and a signalling NaN that they read raises invalid, also where it is the only element
and the tree combines nothing (R95; log 105). -/
def rdcOver (x : Issue) (e : Enc) (op : RdcOp) (ls : List Nat) (on : Nat → Bool) : W32 × Flags :=
  let part := fun l => x.act.getLsbD l && on l
  let r := rdcTree op e.rnd 6 (ls.map fun l => (if part l then some (x.g.vec e e.a l) else rdcInactive op, 0#5))
  if RdcOp.isMinMaxF op then
    (if (fmtF32.decode r.1.toNat).isNaN then BitVec.ofNat 32 fmtF32.nan else r.1,
      r.2 ||| flagIf ((ls.filter part).any fun l => (fmtF32.decode (x.g.vec e e.a l).toNat).isSig) flagNV)
  else r

/-- rdc over a list of lanes: the tree, or the exact sum (R67). -/
def rdcOf (x : Issue) (e : Enc) (op : RdcOp) (ls : List Nat) : W32 × Flags :=
  if e.sat then
    let act := ls.filter fun l => x.act.getLsbD l
    if act.isEmpty then (0x80000000#32, 0#5)
    else
      let (r, f) := fmtF32.sum e.rnd (act.map fun l => fmtF32.decode (x.g.vec e e.a l).toNat)
      (BitVec.ofNat 32 r, f)
  else rdcOver x e op ls fun _ => true

/-- Whether an rdc operation's scalar result is sign-extended (R67). -/
def RdcOp.isS32 : RdcOp → Bool
  | .addS32 | .minS32 | .maxS32 => true
  | _ => false

/-- rdc (R67): over all lanes into a scalar register, or over each segment into its active lanes. -/
def execRdc (rop : RdcOp) (e : Enc) (s : State) : Host.Outcome State Fault Refusal :=
  issueOk (.rdc rop e) s fun x =>
    if e.as_ then
      let r := fun l => rdcOf x e rop (x.g.segLanes (x.g.segBase l))
      (x.put x.g e.d fun l => (r l).1).raiseFlags (orFlags (x.lanes.map fun l => (r l).2))
    else
      let (r, f) := rdcOf x e rop (List.range x.g.width)
      (x.putS x.g e.d (if RdcOp.isS32 rop then r.signExtend 64 else r.setWidth 64)).raiseFlags f

/-- scan (R68). -/
def execScan (sop : ScanOp) (e : Enc) (s : State) : Host.Outcome State Fault Refusal :=
  issueOk (.scan sop e) s fun x =>
    let op := match sop with | .s32Inc | .s32Exc => RdcOp.addS32 | .f32Inc | .f32Exc => RdcOp.addF32
    let inc := match sop with | .s32Inc | .f32Inc => true | .s32Exc | .f32Exc => false
    let r := fun l => rdcOver x e op (x.g.segLanes (x.g.segBase l)) fun k =>
      if inc then decide (k ≤ l) else decide (k < l)
    (x.put x.g e.d fun l => (r l).1).raiseFlags (orFlags (x.lanes.map fun l => (r l).2))

/-! ## topk, rank and elect (R69, R70) -/

/-- A value as an integer of topk's order: a NaN below −∞, −0 below +0 (R69). -/
def topkKey (top : TopkOp) (w : W32) : Int :=
  match top with
  | .s32 | .s32Nz => w.toInt
  | .f32 | .f32Nz => if (fmtF32.decode w.toNat).isNaN then -(2 ^ 40) else fmtF32.key w.toNat

/-- Whether a value may be chosen: the .nz forms exclude zeros (R69). -/
def topkCandidate (top : TopkOp) (w : W32) : Bool :=
  match top with
  | .s32 | .f32 => true
  | .s32Nz => w != 0#32
  | .f32Nz => w &&& 0x7FFFFFFF#32 != 0#32

/-- Whether an active lane is among the k greatest candidates of its segment; equal values go to the lower lane. -/
def topkChosen (x : Issue) (e : Enc) (top : TopkOp) (k l : Nat) : Bool :=
  let v := fun i => x.g.vec e e.a i
  let cand := (x.segActive l).filter fun i => topkCandidate top (v i)
  let before := cand.filter fun i =>
    decide (topkKey top (v l) < topkKey top (v i)) || (decide (topkKey top (v i) = topkKey top (v l)) && decide (i < l))
  topkCandidate top (v l) && decide (before.length < k)

/-- topk (R69). -/
def execTopk (top : TopkOp) (e : Enc) (s : State) : Host.Outcome State Fault Refusal :=
  issueOk (.topk top e) s fun x =>
    let k := ((Enc.imm64 e).setWidth 32 : W32).toNat
    let g := x.put x.g e.c fun l => BitVec.ofNat 32 ((x.segActive l).filter (topkChosen x e top k)).length
    x.putS g e.d (x.laneMask (topkChosen x e top k))

/-- rank (R70). -/
def execRank (e : Enc) (s : State) : Host.Outcome State Fault Refusal :=
  issueOk (.rank e) s fun x =>
    x.put x.g e.d fun l => BitVec.ofNat 32 ((x.segActive l).filter fun k => decide (k < l)).length

/-- elect (R70). -/
def execElect (e : Enc) (s : State) : Host.Outcome State Fault Refusal :=
  issueOk (.elect e) s fun x => x.putS x.g e.d (x.laneMask fun l => (x.segActive l).head? == some l)

end Sys2Proof.Machine
end

