-- ==== Sys2Proof/Machine/Keccak.lean ====
section
/-! DEFINITION. SHAKE256, which R386 and R387 name: the permutation and the sponge are those of its standard, FIPS 202
(PRESUMED, log 35). Its round constants and rotation offsets are computed by the standard's own rules. -/
namespace Sys2Proof.Machine

/-- The element of a sponge state at column x and row y, both modulo 5. -/
def spongeAt (st : List W64) (x y : Nat) : W64 := (st.drop (y % 5 * 5 + x % 5)).headD 0#64

/-- A sponge state from its elements, row after row. -/
def spongeOf (f : Nat → Nat → W64) : List W64 :=
  (List.range 5).flatMap fun y => (List.range 5).map fun x => f x y

/-- θ: each element takes in the sums of the column before it and, turned by one bit, of the column behind it. -/
def stepTheta (st : List W64) : List W64 :=
  let sums := (List.range 5).map fun x => (List.range 5).foldl (fun s y => s ^^^ spongeAt st x y) 0#64
  spongeOf fun x y => spongeAt st x y ^^^ spongeAt sums (x + 4) 0 ^^^ (spongeAt sums (x + 1) 0).rotateLeft 1

/-- The standard's walk over the places other than (0, 0): the next n places from (x, y), the offset of the t-th being
(t + 1)(t + 2)/2. -/
def rhoWalk : Nat → Nat → Nat × Nat → List ((Nat × Nat) × Nat)
  | 0, _, _ => []
  | n + 1, t, (x, y) => ((x, y), (t + 1) * (t + 2) / 2) :: rhoWalk n (t + 1) (y, (2 * x + 3 * y) % 5)

/-- The rotation offset of a place. -/
def rhoOffset (x y : Nat) : Nat :=
  (((rhoWalk 24 0 (1, 0)).find? fun p => p.1 == (x % 5, y % 5)).map (·.2)).getD 0 % 64

/-- ρ, then π: the element that comes to (x, y) was at (x + 3y, x). -/
def stepRhoPi (offsets st : List W64) : List W64 :=
  spongeOf fun x y => (spongeAt st (x + 3 * y) x).rotateLeft (spongeAt offsets (x + 3 * y) x).toNat

/-- χ: each element takes in the one two columns on where the next column's bit is 0. -/
def stepChi (st : List W64) : List W64 :=
  spongeOf fun x y => spongeAt st x y ^^^ (spongeAt st (x + 2) y &&& ~~~spongeAt st (x + 1) y)

/-- The next state of the standard's 8-bit shift register, whose output is its bit 0. -/
def rcNext (r : Nat) : Nat := if r < 128 then 2 * r else (2 * r - 256) ^^^ 0x71

/-- The round constants of the next n rounds, from the register's state: seven outputs set bits 0, 1, 3, 7, 15, 31
and 63. -/
def iotaConstants : Nat → Nat → List W64
  | 0, _ => []
  | n + 1, r =>
    let run := (List.range 7).foldl (fun (a : W64 × Nat) j => (if a.2 % 2 = 1 then a.1 ||| bit (2 ^ j - 1) else a.1, rcNext a.2)) (0#64, r)
    run.1 :: iotaConstants n run.2

/-- The permutation: 24 rounds, ι taking the round's constant into the element at (0, 0). -/
def permute1600 (st : List W64) : List W64 :=
  let offsets := spongeOf fun x y => BitVec.ofNat 64 (rhoOffset x y)
  (iotaConstants 24 1).foldl (fun st rc =>
    match stepChi (stepRhoPi offsets (stepTheta st)) with
    | [] => []
    | e :: rest => (e ^^^ rc) :: rest) st

/-- Bytes per block of SHAKE256. -/
def shakeRate : Nat := 136

/-- The bytes that fill a message up to whole blocks: the suffix 1111 and the padding 10*1, least significant bit
first. -/
def shakeTail (length : Nat) : List Byte :=
  let n := shakeRate - length % shakeRate
  (List.range n).map fun i => (if i = 0 then 0x1F#8 else 0#8) ||| (if i + 1 = n then 0x80#8 else 0#8)

/-- One block taken into a state. -/
def takeBlock (st : List W64) (block : List Byte) : List W64 :=
  permute1600 (spongeOf fun x y =>
    spongeAt st x y ^^^ BitVec.ofNat 64 (leNat ((block.drop (8 * (x + 5 * y))).take 8)))

/-- Blocks taken into a state one after another. -/
def takeBlocks : Nat → List W64 → List Byte → List W64
  | 0, st, _ => st
  | n + 1, st, m => takeBlocks n (takeBlock st (m.take shakeRate)) (m.drop shakeRate)

/-- The first 64 bytes of SHAKE256 of a message. -/
def shake256 (m : List Byte) : List Byte :=
  let whole := m ++ shakeTail m.length
  ((takeBlocks (whole.length / shakeRate) (spongeOf fun _ _ => 0#64) whole).take 8).flatMap fun w => leBytes 8 w.toNat

end Sys2Proof.Machine
end

