-- ==== Sys2Proof/Machine/Host.lean ====
section
/-! DEFINITION. The host's accesses, Lysob ports, start-up, attestation, power and temperature (R377 to R389). -/
namespace Sys2Proof.Machine

/-! ## What answers (R386, R389) -/

/-- Start-up is complete: the cores run, and BAR 2 and BAR 4 answer. -/
def Control.ready (k : Control) : Bool := k.bootState == 3

/-- A completion for the host or a peer. -/
def State.answer (s : State) (r : Reply) : State := { s with replies := s.replies ++ [r] }

/-- An unsupported request (R377, R386). -/
def Reply.refused : Reply := { bytes := [], unsupported := true, poisoned := false }

/-- An access to BAR 2 or BAR 4: unsupported unless start-up is complete (R386). -/
def State.whenReady (s : State) (f : State → State) : Host.Outcome State Fault Refusal :=
  .next (if s.control.ready then f s else s.answer .refused)

/-! ## Doorbell pages (R378 to R380) -/

/-- SUBST (R378). -/
def Context.subst (k : Context) : W64 := BitVec.ofNat 64 (k.subSeq.toNat * 2 ^ 32 + k.subStatus.toNat)

/-- A read of doorbell page x at an offset (R378). -/
def Chip.doorbellRead (c : Chip) (x off : Nat) : W64 :=
  let k := c.context x
  if off < 0x40 then SMap.get 0#64 k.desc (off / 8)
  else match off with
    | 0x048 => k.subst
    | 0x050 => k.cntsel
    | 0x058 => if k.inRange k.cntsel.toNat then (c.counter k.cntsel.toNat).word0 else BitVec.allOnes 64
    | 0x068 => k.canstat.setWidth 64
    | 0x070 => BitVec.ofNat 64 (k.notifyEn.toNat * 65536 + k.notifyCtr)
    | _ => 0#64

/-- What a read of a doorbell page returns: nothing while start-up is not complete or the module has stopped, where BAR 2
answers every request as unsupported (R386, R389). -/
def State.doorbellAnswer (s : State) (x off : Nat) : Reply :=
  if s.control.ready then { bytes := leBytes 8 (s.chip.doorbellRead x off).toNat, unsupported := false, poisoned := false }
  else .refused

/-- A submission through a doorbell: DESC as it stands, to queue `q` (R379). -/
def Chip.doorbellSubmit (c : Chip) (x q : Nat) : Chip :=
  let k := c.context x
  let ws := (List.range 8).map fun i => SMap.get 0#64 k.desc i
  let (c, st) := if k.en then c.submit x q ws k.maint else (c, 6)
  c.onContext x fun k => { k with subSeq := k.subSeq + 1, subStatus := BitVec.ofNat 8 st }

/-- A write to SUBMIT; the event names the context and brings the value. -/
def execDoorbellSubmit (s : State) : Host.Outcome State Fault Refusal :=
  s.whenReady fun s => { s with chip := s.chip.doorbellSubmit (s.event.a % 64) (fieldOf s.event.w.toNat 5 0) }

/-- A cancellation through a doorbell (R380). -/
def Chip.doorbellCancel (c : Chip) (x : Nat) (w : W64) : Chip :=
  let n := fieldOf w.toNat 15 0
  let (c, st) := if (c.context x).inRange n then c.cancel n (fieldOf w.toNat 17 16) else (c, 5)
  c.onContext x fun k => { k with canstat := BitVec.ofNat 8 st }

/-- A write to CANCEL; the event names the context and brings the value. -/
def execDoorbellCancel (s : State) : Host.Outcome State Fault Refusal :=
  s.whenReady fun s => { s with chip := s.chip.doorbellCancel (s.event.a % 64) s.event.w }

/-- A write to NOTIFY (R380): where the counter is done or cancelled already, the vector is raised at once. -/
def Chip.doorbellNotify (c : Chip) (x : Nat) (w : W64) : Chip :=
  let n := fieldOf w.toNat 15 0
  let en := w.getLsbD 16
  let r := c.counter n
  let hit := en && (r.done || r.cancelled)
  let c := c.onContext x fun k => { k with notifyEn := en && !hit, notifyCtr := n }
  if hit then c.msi x else c

/-- A write to NOTIFY; the event names the context and brings the value. -/
def execDoorbellNotify (s : State) : Host.Outcome State Fault Refusal :=
  s.whenReady fun s => { s with chip := s.chip.doorbellNotify (s.event.a % 64) s.event.w }

/-! ## CFGCMD (R382) -/

/-- CFGSTAT. -/
def Control.cfgstat (k : Control) : W64 := BitVec.ofNat 64 (k.cfgWait.isSome.toNat * 256 + k.cfgStatus.toNat)

/-- A CFGCMD write that is not ignored: BUSY is 0. -/
def State.command (s : State) (f : State → State) : Host.Outcome State Fault Refusal :=
  .next (if s.control.cfgWait.isSome then s else f s)

/-- CFGCMD 1: CFGVAL takes the register's value; a failure changes nothing but the status (R371). -/
def execCfgcmdRead (s : State) : Host.Outcome State Fault Refusal :=
  s.command fun s =>
    match s.chip.cfgRead s.control.cfgnum with
    | .ok v => { s with control := { s.control with cfgval := BitVec.ofNat 64 v, cfgStatus := 0 } }
    | .error st => { s with control := { s.control with cfgStatus := BitVec.ofNat 8 st } }

/-- CFGCMD 2. -/
def execCfgcmdWrite (s : State) : Host.Outcome State Fault Refusal :=
  s.command fun s =>
    let (c, st) := s.chip.cfgWrite s.control.cfgnum s.control.cfgval
    { s with chip := c, control := { s.control with cfgStatus := BitVec.ofNat 8 st } }

/-- sys.halt of a context as CFGCMD does it: the chip, the status, and whether it waits, for a suspension (false) or for a
teardown (true) (R374). -/
def Chip.hostHalt (c : Chip) (x mode : Nat) : Chip × Nat × Option Bool :=
  match mode with
  | 0 => let (c, st) := c.enableCtx x; (c, st, none)
  | 1 =>
    if !c.suspendOk x then (c, 2, none)
    else
      let c := if (c.context x).suspending then c else c.beginSuspend x
      (c, 0, if (c.context x).suspending then some false else none)
  | 2 => let (c, st) := c.resumeCtx x; (c, st, none)
  | _ =>
    let (c, st) := c.teardownCtx x
    (c, st, if st = 0 ∧ c.teardownDone x = false then some true else none)

/-- CFGCMD 3; the event brings the value written. -/
def execCfgcmdHalt (s : State) : Host.Outcome State Fault Refusal :=
  s.command fun s =>
    let x := fieldOf s.event.w.toNat 13 8
    let (c, st, waits) := s.chip.hostHalt x (fieldOf s.event.w.toNat 17 16)
    { s with
      chip := c
      control := match waits with
        | some t => { s.control with cfgWait := some (x, t) }
        | none => { s.control with cfgStatus := BitVec.ofNat 8 st } }

/-- A suspension or a teardown that CFGCMD waits for has ended. -/
def State.commandEnds (s : State) : Bool :=
  match s.control.cfgWait with
  | some (x, false) => !(s.chip.context x).suspending
  | some (x, true) => s.chip.teardownDone x
  | none => false

/-- CFGCMD completes after its wait, a teardown with its invalidation: BUSY falls with status 0 (R370, R374, R382). -/
def State.endCommand (s : State) : State :=
  { s with
    chip := match s.control.cfgWait with | some (x, true) => s.chip.endTeardown x | _ => s.chip
    control := { s.control with cfgWait := none, cfgStatus := 0 } }

/-! ## The window (R377) -/

/-- An address of device memory (R205, R377). -/
def deviceByte (pa : Nat) : Bool := populated pa && decide (pa < hostBase)

/-- Bytes that one access may have: BAR 4 is 256 MiB long. -/
def windowSize : Nat := 0x10000000

/-- The physical addresses of a window access (R377, R382). -/
def Control.windowBytes (k : Control) (off n : Nat) : List Nat :=
  (List.range n).map fun i => fieldOf k.hwinbase.toNat 51 28 * windowSize + (off + i) % windowSize

/-- HWINERR after an access: the first byte of it that lies outside device memory. -/
def Control.noteWindow (k : Control) (pas : List Nat) : Control :=
  match pas.find? fun p => !deviceByte p with
  | some p => { k with hwinerr := BitVec.ofNat 64 p }
  | none => k

/-- What a window read returns. -/
def Chip.windowReply (c : Chip) (pas : List Nat) : Reply :=
  if pas.any fun p => !deviceByte p then .refused
  else if pas.any fun p => c.poison.contains (p / 4) then
    { bytes := pas.map fun _ => 0xFF#8, unsupported := false, poisoned := true }
  else { bytes := pas.map c.byte, unsupported := false, poisoned := false }

/-- A read through BAR 4; the event brings the offset and the number of bytes. -/
def execHostWindowRead (s : State) : Host.Outcome State Fault Refusal :=
  s.whenReady fun s =>
    let pas := s.control.windowBytes s.event.a s.event.b
    { s with control := s.control.noteWindow pas }.answer (s.chip.windowReply pas)

/-- A window write applied: the bytes inside device memory, as one write with CMP = WCMP. -/
def Chip.windowWrite (c : Chip) (wcmp : Nat) (ps : List (Nat × Byte)) : Chip :=
  match ps.filter fun p => deviceByte p.1 with
  | [] => c
  | p :: rest => c.unitWrite p.1 (p.2 :: rest.map (·.2)) wcmp

/-- A write through BAR 4; the event brings the offset and the bytes. -/
def execHostWindowWrite (s : State) : Host.Outcome State Fault Refusal :=
  s.whenReady fun s =>
    let pas := s.control.windowBytes s.event.a s.event.bytes.length
    { s with
      chip := s.chip.windowWrite (s.control.hwinbase.toNat % 2) (pas.zip s.event.bytes)
      control := s.control.noteWindow pas }

/-! ## Start-up and attestation (R386, R387) -/

/-- The 64 bytes of a measurement or a digest. -/
def digestBytes (x : BitVec 512) : List Byte := leBytes 64 x.toNat

/-- MREG extended with a digest (R386). -/
def extendMreg (m d : BitVec 512) : BitVec 512 := BitVec.ofNat 512 (leNat (shake256 (digestBytes m ++ digestBytes d)))

/-- The first image whose signature fails. -/
def firstUnsigned : Option Nat := (List.range 5).find? fun k => !Config.imageSigned k

/-- The measurement registers once start-up has ended at an image, or has measured all. -/
def measured (stop : Option Nat) : List (BitVec 512) :=
  (List.range 8).map fun k =>
    if k < 5 then (if k < stop.getD 5 then extendMreg 0#512 (Config.imageDigest k) else 0#512)
    else
      let loaded := match stop with | none => true | some 0 => false | some i => Config.loaderEarly i
      if loaded then extendMreg 0#512 (Config.loaderDigest k) else 0#512

/-- Start-up: everything at reset, the five images verified and measured, and then ready or failed (R386). A reset of a
module that has started counts one more start. -/
def State.boot (s : State) : State :=
  let stop := firstUnsigned
  let again := s.control.bootState == 3 || s.control.bootState == 4 || s.control.bootState == 5
  { State.reset with
    chip := { Chip.reset with fresh := s.chip.fresh }
    control := { Control.reset with
      bootState := match stop with | none => 3 | some _ => 4
      bootErr := match stop with | none => 0 | some k => k + 1
      mreg := measured stop
      starts := s.control.starts + again.toNat }
    replies := s.replies
    agenda := s.agenda }

/-- A fundamental reset and the start-up after it. -/
def execFundamentalReset (s : State) : Host.Outcome State Fault Refusal := .next s.boot

/-- BOOTCNT (R386). -/
def Control.bootcnt (k : Control) : W32 := Config.bootCount + BitVec.ofNat 32 k.starts

/-- BOOTSTAT (R386). -/
def Control.bootstat (k : Control) : W64 :=
  BitVec.ofNat 64 (k.bootcnt.toNat * 2 ^ 32 + k.bootErr % 256 * 256 + k.bootState % 8)

/-- The signed part of a report. -/
def Control.reportBody (k : Control) (devid : BitVec 12) (nonce : List Byte) : List Byte :=
  leBytes 4 1 ++ leBytes 2 devid.toNat ++ leBytes 2 0 ++ leBytes 8 Config.serial.toNat ++ nonce
    ++ ((List.range 8).flatMap fun i => digestBytes (k.mreg[i]?.getD 0#512)) ++ leBytes 8 k.bootcnt.toNat ++ leBytes 8 0

/-- The 704 bytes of an attestation report (R387). -/
def Control.report (k : Control) (devid : BitVec 12) (nonce : List Byte) : List Byte :=
  let body := k.reportBody devid nonce
  let digest := shake256 body
  body ++ ((List.range 114).map fun i => Config.reportSignature digest i) ++ List.replicate 14 0#8

/-- Where ATTADDR places a report: host memory, or with bit 63 device memory; none where the address is bad. -/
def reportPlace (a : W64) : Option Nat :=
  let pa := a.toNat % 2 ^ 63
  let ok := (List.range 704).all fun i =>
    if a.msb then deviceByte (pa + i) else populated (pa + i) && decide (hostBase ≤ pa + i)
  if pa % 64 = 0 ∧ ok = true then some pa else none

/-- A write to ATTGO: the report is written, and ATTSTAT says so. -/
def execAttgo (s : State) : Host.Outcome State Fault Refusal :=
  .next <|
    if s.control.attstat = 1 then s
    else
      match reportPlace s.control.attaddr with
      | none => { s with control := { s.control with attstat := 3 } }
      | some pa =>
        let r := s.control.report s.chip.devid (leBytes 32 s.control.attnonce.toNat)
        { s with chip := s.chip.unitWrite pa r 0, control := { s.control with attstat := 2 } }

/-- A peer asks for a report; the event brings its nonce. -/
def execAttestationPeerRequest (s : State) : Host.Outcome State Fault Refusal :=
  s.whenReady fun s =>
    s.answer { bytes := s.control.report s.chip.devid ((s.event.bytes ++ List.replicate 32 0#8).take 32)
               unsupported := false, poisoned := false }

/-! ## Registers without behaviour of their own (R5, R378, R382) -/

/-- PWRLIM as a write leaves it: 1,000 to 3,200 (R389). -/
def clampLimit (v : Nat) : Nat := max 1000 (min 3200 v)

/-- Bits [51:28] and 0 of HWINBASE (R382). -/
def hwinMask : W64 := 0x000FFFFFF0000001

/-- A 64-bit write in the control block; reserved bits and registers that are read only ignore it (R5). -/
def State.bar0Write (s : State) (off : Nat) (w : W64) : State :=
  let k := s.control
  match off with
  | 0x0100 => { s with control := { k with cfgnum := w } }
  | 0x0108 => { s with control := { k with cfgval := w } }
  | 0x0200 => { s with control := { k with hwinbase := w &&& hwinMask } }
  | 0x0208 => { s with chip := { s.chip with hatomic := w } }
  | 0x0210 => { s with control := { k with hwinerr := w } }
  | 0x0320 => { s with control := { k with attaddr := w } }
  | 0x0600 => { s with control := { k with pwrlim := clampLimit (fieldOf w.toNat 11 0) } }
  | _ =>
    if 0x0300 ≤ off ∧ off < 0x0320 ∧ off % 8 = 0 then
      let at_ := 8 * (off - 0x0300)
      let keep := k.attnonce &&& ~~~((0xFFFFFFFFFFFFFFFF#256) <<< at_)
      { s with control := { k with attnonce := keep ||| (w.setWidth 256) <<< at_ } }
    else s

/-- A 64-bit read of the control block; it changes nothing. -/
def State.bar0Read (s : State) (off : Nat) : W64 :=
  let k := s.control
  match off with
  | 0x0000 => k.bootstat
  | 0x0100 => k.cfgnum
  | 0x0108 => k.cfgval
  | 0x0118 => k.cfgstat
  | 0x0200 => k.hwinbase
  | 0x0208 => s.chip.hatomic
  | 0x0210 => k.hwinerr
  | 0x0320 => k.attaddr
  | 0x0330 => BitVec.ofNat 64 k.attstat
  | 0x0600 => BitVec.ofNat 64 k.pwrlim
  | 0x0608 => BitVec.ofNat 64 (k.pwrnow % 4096)
  | _ =>
    if 0x0300 ≤ off ∧ off < 0x0320 ∧ off % 8 = 0 then (k.attnonce >>> (8 * (off - 0x0300))).setWidth 64
    else if 0x0400 ≤ off ∧ off < 0x0600 ∧ off % 8 = 0 then
      ((k.mreg[(off - 0x0400) / 64]?.getD 0#512) >>> (8 * ((off - 0x0400) % 64))).setWidth 64
    else 0#64

/-- A 64-bit write to a doorbell register that only holds what is written (R378). -/
def Chip.doorbellWrite (c : Chip) (x off : Nat) (w : W64) : Chip :=
  if off < 0x40 ∧ off % 8 = 0 then c.onContext x fun k => { k with desc := SMap.put 0#64 k.desc (off / 8) w }
  else if off = 0x050 then c.onContext x fun k => { k with cntsel := w &&& 0xFFFF#64 }
  else c

/-- A write to a register without behaviour of its own; the event brings the register and the value. Reserved bits are
ignored and the other bits written (R5). -/
def execRegisterWrite (s : State) : Host.Outcome State Fault Refusal :=
  match s.event.reg with
  | .bar0 off => .next (s.bar0Write off s.event.w)
  | .doorbell x off => s.whenReady fun s => { s with chip := s.chip.doorbellWrite (x % 64) off s.event.w }
  | .config n => .next { s with chip := (s.chip.cfgWrite n (s.event.w &&& cfgDefined n)).1 }

/-! ## Lysob ports (R383, R384) -/

/-- Ports of the module (R383). -/
def lysobPorts : Nat := 144

/-- A port's link changes: UP, and vector 67 (R381). -/
def Chip.setLink (c : Chip) (p : Nat) (up : Bool) : Chip :=
  if (c.port p).up == up then c else (c.onPort p fun q => { q with up }).msi 67

/-- One bit of a CRC-32C, the low bit first: the reflected polynomial 0x1EDC6F41 is 0x82F63B78. -/
def crcBit (r : W32) : W32 := if r.getLsbD 0 then (r >>> 1) ^^^ 0x82F63B78#32 else r >>> 1

/-- A byte taken into a CRC-32C. -/
def crcByte (r : W32) (b : Byte) : W32 :=
  crcBit (crcBit (crcBit (crcBit (crcBit (crcBit (crcBit (crcBit (r ^^^ b.setWidth 32))))))))

/-- CRC-32C of bytes: the manual gives its polynomial; that it begins at all ones, is reflected and is complemented at the
end is what the name stands for outside the manual (log 89). -/
def crc32c (bs : List Byte) : W32 := ~~~(bs.foldl crcByte (BitVec.allOnes 32))

/-- The 64 bytes of a flit (R383). -/
def flitBytes (type : Nat) (f : Flit) : List Byte :=
  let bs := leBytes 2 (type % 16 * 4096 + f.seq.toNat) ++ leBytes 2 f.cred.toNat
    ++ (f.payload ++ List.replicate 56 0#8).take 56
  bs ++ leBytes 4 (crc32c bs).toNat

/-- The TYPE and the fields of a received flit; none where its CRC is wrong (R383). -/
def flitOf (bs : List Byte) : Option (Nat × Flit) :=
  if bs.length = 64 ∧ leNat (bs.drop 60) = (crc32c (bs.take 60)).toNat then
    let h := leNat (bs.take 2)
    some (h / 4096, { seq := BitVec.ofNat 12 h, cred := BitVec.ofNat 16 (leNat ((bs.drop 2).take 2)), payload := (bs.drop 4).take 56 })
  else none

/-- A flit without payload that a port sends: 2 ack or 3 nak, naming a SEQ, and returning the credits that it owes. -/
def Port.reply (p : Port) (type : Nat) (seq : BitVec 12) : Port :=
  { p with owed := 0, sent := p.sent ++ [(type, { seq, cred := BitVec.ofNat 16 p.owed, payload := [] })] }

/-- Receive credits that a flit returns (R383). -/
def Port.credit (p : Port) (f : Flit) : Port := { p with credits := p.credits + f.cred.toNat }

/-- A received flit of a TYPE, its CRC found right, on a port that is up; the event names the port and brings the flit's
bytes. -/
def onFlit (s : State) (type : Nat) (f : Chip → Nat → Flit → Chip) : Host.Outcome State Fault Refusal :=
  onChip s fun c =>
    match flitOf s.event.bytes with
    | some (t, x) =>
      if t == type && decide (s.event.a < lysobPorts) && (c.port s.event.a).up then some (f c s.event.a x) else none
    | none => none

/-- A received flit that only its port deals with. -/
def onPortFlit (s : State) (type : Nat) (f : Port → Flit → Port) : Host.Outcome State Fault Refusal :=
  onFlit s type fun c p x => c.onPort p fun q => f (q.credit x) x

/-- A data flit: the one after the last good is delivered, acknowledged and owes a credit; one that is ahead leaves a gap
and is answered by a nak naming the last good SEQ; one delivered before is not delivered again (R383). -/
def Port.data (p : Port) (f : Flit) : Port :=
  if f.seq = p.rxLast + 1 then
    { p with rxLast := f.seq, received := p.received ++ [f], owed := p.owed + 1 }.reply 2 f.seq
  else if (f.seq - p.rxLast).toNat < 2048 ∧ f.seq ≠ p.rxLast then p.reply 3 p.rxLast
  else p.reply 2 p.rxLast

/-- A data flit. -/
def execLysobDataFlit (s : State) : Host.Outcome State Fault Refusal := onPortFlit s 1 Port.data

/-- Whether a SEQ lies at or before another, on the circle of 4,096. -/
def atOrBefore (x y : BitVec 12) : Bool := decide ((y - x).toNat < 2048)

/-- An ack: kept data flits up to the one it names are freed; the flit that was being replayed may be among them. -/
def Port.ack (p : Port) (f : Flit) : Port :=
  { p with
    kept := p.kept.filter fun k => !atOrBefore k.seq f.seq
    tries := if atOrBefore p.again f.seq then 0 else p.tries }

/-- An ack. -/
def execLysobAck (s : State) : Host.Outcome State Fault Refusal := onPortFlit s 2 Port.ack

/-- The flits that a nak asks for: those kept after the last good SEQ. -/
def Port.toReplay (p : Port) (f : Flit) : List Flit := p.kept.filter fun k => !atOrBefore k.seq f.seq

/-- A nak: the flits after the last good one are sent again, and the replay is counted (R383, R384). -/
def Port.nak (p : Port) (f : Flit) : Port :=
  match p.toReplay f with
  | [] => p
  | k :: rest =>
    { p with
      replay := min 0xFFFF (p.replay + 1)
      tries := if p.tries ≠ 0 ∧ p.again = k.seq then p.tries + 1 else 1
      again := k.seq
      sent := p.sent ++ (k :: rest).map fun k => (1, k) }

/-- Whether a nak says that the 16th replay of one flit has failed (R383). -/
def Port.exhausted (p : Port) (f : Flit) : Bool :=
  match p.toReplay f with
  | [] => false
  | k :: _ => decide (16 ≤ p.tries) && p.again == k.seq

/-- A port goes down: the operations that it carries complete with status 7 (R384). -/
def Chip.portDown (c : Chip) (p : Nat) : Chip :=
  let routed := c.ops.filter fun o =>
    o.cls == .coll && (c.opDue o.id o.code).isSome && (c.destinations o).any fun d => c.portTo o d == some p
  let c := (c.onPort p fun q => { q with kept := [], tries := 0 }).setLink p false
  routed.foldl (fun (c : Chip) o => c.failOp o 7) c

/-- A nak; after 16 failed replays of one flit the port goes down. -/
def execLysobNak (s : State) : Host.Outcome State Fault Refusal :=
  onFlit s 3 fun c p f => if (c.port p).exhausted f then c.portDown p else c.onPort p fun q => (q.credit f).nak f

/-- A credit flit. -/
def execLysobCredit (s : State) : Host.Outcome State Fault Refusal := onPortFlit s 4 fun p _ => p

/-- An idle flit: nothing but the credits it returns. -/
def execLysobIdle (s : State) : Host.Outcome State Fault Refusal := onPortFlit s 0 fun p _ => p

/-- Whether the bytes of a flit count as a CRC error: a wrong CRC, or a TYPE that is none (R383). -/
def badFlit (bs : List Byte) : Bool := match flitOf bs with | some (t, _) => decide (5 ≤ t) | none => true

/-- A flit whose CRC fails or whose TYPE is none: counted, and answered by a nak (R383). The event names the port and
brings the flit's bytes. -/
def execLysobCrcError (s : State) : Host.Outcome State Fault Refusal :=
  onChip s fun c =>
    if badFlit s.event.bytes && decide (s.event.a < lysobPorts) && (c.port s.event.a).up then
      some (c.onPort s.event.a fun p => { p with crcerr := p.crcerr + 1 }.reply 3 p.rxLast)
    else none

/-- A port has trained; the event names it. -/
def execLysobPortTrained (s : State) : Host.Outcome State Fault Refusal :=
  onChip s fun c => if s.event.a < lysobPorts then some (c.setLink s.event.a true) else none

/-! ## Power and temperature (R389) -/

/-- Power readings of the last 100 µs with a new one. -/
def Control.readings (k : Control) (w : Nat) : List Nat := (w :: k.power).take 100

/-- The average of the readings. -/
def average (l : List Nat) : Nat := l.sum / l.length

/-- The limit that holds: 1,000 W while the coolant is too warm. -/
def Control.limit (k : Control) : Nat := if k.thermal then 1000 else k.pwrlim

/-- A microsecond's reading taken in: throttling begins above the limit and ends below it. -/
def Control.powerStep (k : Control) (w : Nat) : Control :=
  let l := k.readings w
  let avg := average l
  { k with power := l, pwrnow := avg, throttled := decide (k.limit < avg) || (k.throttled && !decide (avg < k.limit)) }

/-- Whether a microsecond ends in this cycle and its reading has not been taken. -/
def Chip.powerDue (c : Chip) : Bool := c.cyc != 0 && c.cyc % Config.cyclesPerMicro == 0 && !c.hadEvents.contains 2

/-- The power average's step of one microsecond; vector 68 where throttling changes. -/
def execPowerAverageStep (s : State) : Host.Outcome State Fault Refusal :=
  .next <|
    if !s.chip.powerDue then s
    else
      let k := s.control.powerStep (Config.powerReading s.chip.fresh)
      let c := { s.chip with fresh := s.chip.fresh + 1, hadEvents := s.chip.hadEvents ++ [2] }
      { s with control := k, chip := if k.throttled == s.control.throttled then c else c.msi 68 }

/-- The coolant's temperature passes its limit (a = 0), rises still (a = 1), or is within it again (a = 2). -/
def execThermalLimit (s : State) : Host.Outcome State Fault Refusal :=
  .next <|
    let k := s.control
    let raised := { s.chip with msix := s.chip.msix ++ [68] }
    match s.event.a with
    | 0 => if k.ready && !k.thermal then { s with chip := raised, control := { k with thermal := true, throttled := true } } else s
    | 1 => if k.ready && k.thermal then { s with chip := raised, control := { k with bootState := 5 } } else s
    | _ => if k.thermal then { s with chip := raised, control := { k with thermal := false } } else s

end Sys2Proof.Machine
end

