-- ==== Sys2Proof/Machine/Dispatch.lean ====
section
/-! DEFINITION. The meaning of each instruction and event: one arm a constructor, each a direct call. -/
namespace Sys2Proof.Machine

/-- The meaning of an instruction, executed by the group that State.current names, or of an event, on what
State.event holds. -/
def exec (i : Instr) (s : State) : Host.Outcome State Fault Refusal :=
  match i with
  | .nop e => Sys2Proof.Machine.execNop e s
  | .nopB b => Sys2Proof.Machine.execNopB b s
  | .br e => Sys2Proof.Machine.execBr e s
  | .jmp e => Sys2Proof.Machine.execJmp e s
  | .call e => Sys2Proof.Machine.execCall e s
  | .ret e => Sys2Proof.Machine.execRet e s
  | .retB b => Sys2Proof.Machine.execRetB b s
  | .jsetM e => Sys2Proof.Machine.execJsetM e s
  | .jsetAct e => Sys2Proof.Machine.execJsetAct e s
  | .jclr e => Sys2Proof.Machine.execJclr e s
  | .jwait e => Sys2Proof.Machine.execJwait e s
  | .exit e => Sys2Proof.Machine.execExit e s
  | .exitB b => Sys2Proof.Machine.execExitB b s
  | .exitc e => Sys2Proof.Machine.execExitc e s
  | .seg e => Sys2Proof.Machine.execSeg e s
  | .segB b => Sys2Proof.Machine.execSegB b s
  | .sleepUntil e => Sys2Proof.Machine.execSleepUntil e s
  | .sleepCyc e => Sys2Proof.Machine.execSleepCyc e s
  | .sleepPrm e => Sys2Proof.Machine.execSleepPrm e s
  | .gsr e => Sys2Proof.Machine.execGsr e s
  | .ssr e => Sys2Proof.Machine.execSsr e s
  | .add e => Sys2Proof.Machine.execAdd e s
  | .addB b => Sys2Proof.Machine.execAddB b s
  | .sub e => Sys2Proof.Machine.execSub e s
  | .subB b => Sys2Proof.Machine.execSubB b s
  | .mul e => Sys2Proof.Machine.execMul e s
  | .mulB b => Sys2Proof.Machine.execMulB b s
  | .mulh e => Sys2Proof.Machine.execMulh e s
  | .mad e => Sys2Proof.Machine.execMad e s
  | .min e => Sys2Proof.Machine.execMin e s
  | .minB b => Sys2Proof.Machine.execMinB b s
  | .max e => Sys2Proof.Machine.execMax e s
  | .maxB b => Sys2Proof.Machine.execMaxB b s
  | .abs e => Sys2Proof.Machine.execAbs e s
  | .and e => Sys2Proof.Machine.execAnd e s
  | .andB b => Sys2Proof.Machine.execAndB b s
  | .or e => Sys2Proof.Machine.execOr e s
  | .orB b => Sys2Proof.Machine.execOrB b s
  | .xor e => Sys2Proof.Machine.execXor e s
  | .xorB b => Sys2Proof.Machine.execXorB b s
  | .not e => Sys2Proof.Machine.execNot e s
  | .notB b => Sys2Proof.Machine.execNotB b s
  | .shl e => Sys2Proof.Machine.execShl e s
  | .shlB b => Sys2Proof.Machine.execShlB b s
  | .shr e => Sys2Proof.Machine.execShr e s
  | .shrB b => Sys2Proof.Machine.execShrB b s
  | .sar e => Sys2Proof.Machine.execSar e s
  | .sarB b => Sys2Proof.Machine.execSarB b s
  | .fsh e => Sys2Proof.Machine.execFsh e s
  | .bfx e => Sys2Proof.Machine.execBfx e s
  | .bfi e => Sys2Proof.Machine.execBfi e s
  | .popc e => Sys2Proof.Machine.execPopc e s
  | .clz e => Sys2Proof.Machine.execClz e s
  | .brev e => Sys2Proof.Machine.execBrev e s
  | .perm e => Sys2Proof.Machine.execPerm e s
  | .cmp rel e => Sys2Proof.Machine.execCmp rel e s
  | .sel e => Sys2Proof.Machine.execSel e s
  | .mov e => Sys2Proof.Machine.execMov e s
  | .movB b => Sys2Proof.Machine.execMovB b s
  | .lea e => Sys2Proof.Machine.execLea e s
  | .sad e => Sys2Proof.Machine.execSad e s
  | .fadd e => Sys2Proof.Machine.execFadd e s
  | .faddB b => Sys2Proof.Machine.execFaddB b s
  | .fsub e => Sys2Proof.Machine.execFsub e s
  | .fsubB b => Sys2Proof.Machine.execFsubB b s
  | .fmul e => Sys2Proof.Machine.execFmul e s
  | .fmulB b => Sys2Proof.Machine.execFmulB b s
  | .fma e => Sys2Proof.Machine.execFma e s
  | .fmin e => Sys2Proof.Machine.execFmin e s
  | .fminB b => Sys2Proof.Machine.execFminB b s
  | .fmax e => Sys2Proof.Machine.execFmax e s
  | .fmaxB b => Sys2Proof.Machine.execFmaxB b s
  | .fneg e => Sys2Proof.Machine.execFneg e s
  | .fabs e => Sys2Proof.Machine.execFabs e s
  | .fcopysign e => Sys2Proof.Machine.execFcopysign e s
  | .fcmp rel e => Sys2Proof.Machine.execFcmp rel e s
  | .fdot2 e => Sys2Proof.Machine.execFdot2 e s
  | .fclass e => Sys2Proof.Machine.execFclass e s
  | .frnd e => Sys2Proof.Machine.execFrnd e s
  | .fscale e => Sys2Proof.Machine.execFscale e s
  | .cvt pair e => Sys2Proof.Machine.execCvt pair e s
  | .pack16 half e => Sys2Proof.Machine.execPack16 half e s
  | .pack8 sg e => Sys2Proof.Machine.execPack8 sg e s
  | .unpk16 half e => Sys2Proof.Machine.execUnpk16 half e s
  | .unpk8 sg e => Sys2Proof.Machine.execUnpk8 sg e s
  | .sfuRcp e => Sys2Proof.Machine.execSfuRcp e s
  | .sfuRsqrt e => Sys2Proof.Machine.execSfuRsqrt e s
  | .sfuSqrt e => Sys2Proof.Machine.execSfuSqrt e s
  | .sfuExp2 e => Sys2Proof.Machine.execSfuExp2 e s
  | .sfuLog2 e => Sys2Proof.Machine.execSfuLog2 e s
  | .lgqCode e => Sys2Proof.Machine.execLgqCode e s
  | .lgqPairs e => Sys2Proof.Machine.execLgqPairs e s
  | .lgx e => Sys2Proof.Machine.execLgx e s
  | .lgpkPack e => Sys2Proof.Machine.execLgpkPack e s
  | .lgpkUnpack e => Sys2Proof.Machine.execLgpkUnpack e s
  | .voteAny e => Sys2Proof.Machine.execVoteAny e s
  | .voteAll e => Sys2Proof.Machine.execVoteAll e s
  | .voteBallot e => Sys2Proof.Machine.execVoteBallot e s
  | .voteCount e => Sys2Proof.Machine.execVoteCount e s
  | .lxGet e => Sys2Proof.Machine.execLxGet e s
  | .lxRise e => Sys2Proof.Machine.execLxRise e s
  | .lxFall e => Sys2Proof.Machine.execLxFall e s
  | .lxFlip e => Sys2Proof.Machine.execLxFlip e s
  | .lxTurn e => Sys2Proof.Machine.execLxTurn e s
  | .matchLanes sz e => Sys2Proof.Machine.execMatchLanes sz e s
  | .rdc rop e => Sys2Proof.Machine.execRdc rop e s
  | .scan sop e => Sys2Proof.Machine.execScan sop e s
  | .topk top e => Sys2Proof.Machine.execTopk top e s
  | .rank e => Sys2Proof.Machine.execRank e s
  | .elect e => Sys2Proof.Machine.execElect e s
  | .saluAdd e => Sys2Proof.Machine.execSaluAdd e s
  | .saluSub e => Sys2Proof.Machine.execSaluSub e s
  | .saluMul e => Sys2Proof.Machine.execSaluMul e s
  | .saluAnd e => Sys2Proof.Machine.execSaluAnd e s
  | .saluOr e => Sys2Proof.Machine.execSaluOr e s
  | .saluXor e => Sys2Proof.Machine.execSaluXor e s
  | .saluShl e => Sys2Proof.Machine.execSaluShl e s
  | .saluShr e => Sys2Proof.Machine.execSaluShr e s
  | .saluSar e => Sys2Proof.Machine.execSaluSar e s
  | .saluMinS e => Sys2Proof.Machine.execSaluMinS e s
  | .saluMaxS e => Sys2Proof.Machine.execSaluMaxS e s
  | .saluMinZ e => Sys2Proof.Machine.execSaluMinZ e s
  | .saluMaxZ e => Sys2Proof.Machine.execSaluMaxZ e s
  | .saluMov e => Sys2Proof.Machine.execSaluMov e s
  | .saluLea e => Sys2Proof.Machine.execSaluLea e s
  | .saluNot e => Sys2Proof.Machine.execSaluNot e s
  | .scmp rel e => Sys2Proof.Machine.execScmp rel e s
  | .sbrNz e => Sys2Proof.Machine.execSbrNz e s
  | .sbrZ e => Sys2Proof.Machine.execSbrZ e s
  | .bcast e => Sys2Proof.Machine.execBcast e s
  | .pick e => Sys2Proof.Machine.execPick e s
  | .mmovAnd e => Sys2Proof.Machine.execMmovAnd e s
  | .mmovOr e => Sys2Proof.Machine.execMmovOr e s
  | .mmovXor e => Sys2Proof.Machine.execMmovXor e s
  | .mmovAndn e => Sys2Proof.Machine.execMmovAndn e s
  | .mmovNot e => Sys2Proof.Machine.execMmovNot e s
  | .mmovFroms e => Sys2Proof.Machine.execMmovFroms e s
  | .mmovTos e => Sys2Proof.Machine.execMmovTos e s
  | .mmovPopc e => Sys2Proof.Machine.execMmovPopc e s
  | .pair p => Sys2Proof.Machine.execPair p s
  | .illegal ws => Sys2Proof.Machine.execIllegal ws s
  | .lds ld e => Sys2Proof.Machine.execLds ld e s
  | .sts st e => Sys2Proof.Machine.execSts st e s
  | .ldsv e => Sys2Proof.Machine.execLdsv e s
  | .stsv e => Sys2Proof.Machine.execStsv e s
  | .movx e => Sys2Proof.Machine.execMovx e s
  | .ldh e => Sys2Proof.Machine.execLdh e s
  | .mmaBf16 e => Sys2Proof.Machine.execMmaBf16 e s
  | .mmaF16 e => Sys2Proof.Machine.execMmaF16 e s
  | .mmaS8 e => Sys2Proof.Machine.execMmaS8 e s
  | .mmaZ8 e => Sys2Proof.Machine.execMmaZ8 e s
  | .mmaLg6 e => Sys2Proof.Machine.execMmaLg6 e s
  | .tzero e => Sys2Proof.Machine.execTzero e s
  | .tld e => Sys2Proof.Machine.execTld e s
  | .tst e => Sys2Proof.Machine.execTst e s
  | .tcvt e => Sys2Proof.Machine.execTcvt e s
  | .tdrain e => Sys2Proof.Machine.execTdrain e s
  | .tdrainAdd e => Sys2Proof.Machine.execTdrainAdd e s
  | .tadd e => Sys2Proof.Machine.execTadd e s
  | .ksetFroms e => Sys2Proof.Machine.execKsetFroms e s
  | .ksetNonzero e => Sys2Proof.Machine.execKsetNonzero e s
  | .ksetAnd e => Sys2Proof.Machine.execKsetAnd e s
  | .ksetOr e => Sys2Proof.Machine.execKsetOr e s
  | .ksetNot e => Sys2Proof.Machine.execKsetNot e s
  | .sldFwd e => Sys2Proof.Machine.execSldFwd e s
  | .sldBwd e => Sys2Proof.Machine.execSldBwd e s
  | .sstBlend e => Sys2Proof.Machine.execSstBlend e s
  | .sstWrite e => Sys2Proof.Machine.execSstWrite e s
  | .sstAdd e => Sys2Proof.Machine.execSstAdd e s
  | .sstBwd e => Sys2Proof.Machine.execSstBwd e s
  | .hardIdx e => Sys2Proof.Machine.execHardIdx e s
  | .hardOnehot e => Sys2Proof.Machine.execHardOnehot e s
  | .sinit e => Sys2Proof.Machine.execSinit e s
  | .sinitRel e => Sys2Proof.Machine.execSinitRel e s
  | .sfence e => Sys2Proof.Machine.execSfence e s
  | .stape e => Sys2Proof.Machine.execStape e s
  | .sseq e => Sys2Proof.Machine.execSseq e s
  | .hclaim e => Sys2Proof.Machine.execHclaim e s
  | .hrel e => Sys2Proof.Machine.execHrel e s
  | .hclr e => Sys2Proof.Machine.execHclr e s
  | .hopIns e => Sys2Proof.Machine.execHopIns e s
  | .hopProbe e => Sys2Proof.Machine.execHopProbe e s
  | .hopDel e => Sys2Proof.Machine.execHopDel e s
  | .hopAcc acc e => Sys2Proof.Machine.execHopAcc acc e s
  | .hopIns64 e => Sys2Proof.Machine.execHopIns64 e s
  | .hopProbe64 e => Sys2Proof.Machine.execHopProbe64 e s
  | .hopDel64 e => Sys2Proof.Machine.execHopDel64 e s
  | .hopAcc64 e => Sys2Proof.Machine.execHopAcc64 e s
  | .hdrainKeep e => Sys2Proof.Machine.execHdrainKeep e s
  | .hdrainClear e => Sys2Proof.Machine.execHdrainClear e s
  | .hstat e => Sys2Proof.Machine.execHstat e s
  | .ldg ld e => Sys2Proof.Machine.execLdg ld e s
  | .stg st e => Sys2Proof.Machine.execStg st e s
  | .ldsc e => Sys2Proof.Machine.execLdsc e s
  | .stsc e => Sys2Proof.Machine.execStsc e s
  | .leaseSet e => Sys2Proof.Machine.execLeaseSet e s
  | .leaseGet e => Sys2Proof.Machine.execLeaseGet e s
  | .leaseMode e => Sys2Proof.Machine.execLeaseMode e s
  | .leasePref e => Sys2Proof.Machine.execLeasePref e s
  | .atom aop e => Sys2Proof.Machine.execAtom aop e s
  | .fenceAcq e => Sys2Proof.Machine.execFenceAcq e s
  | .fenceRel e => Sys2Proof.Machine.execFenceRel e s
  | .fenceAr e => Sys2Proof.Machine.execFenceAr e s
  | .ldac e => Sys2Proof.Machine.execLdac e s
  | .strl e => Sys2Proof.Machine.execStrl e s
  | .pushCopy e => Sys2Proof.Machine.execPushCopy e s
  | .pushIndex e => Sys2Proof.Machine.execPushIndex e s
  | .pushAttn e => Sys2Proof.Machine.execPushAttn e s
  | .pushColl e => Sys2Proof.Machine.execPushColl e s
  | .wcnt cls e => Sys2Proof.Machine.execWcnt cls e s
  | .barInit e => Sys2Proof.Machine.execBarInit e s
  | .barArrive e => Sys2Proof.Machine.execBarArrive e s
  | .barWait e => Sys2Proof.Machine.execBarWait e s
  | .barSync e => Sys2Proof.Machine.execBarSync e s
  | .barExpect e => Sys2Proof.Machine.execBarExpect e s
  | .barQuery e => Sys2Proof.Machine.execBarQuery e s
  | .mbxSend e => Sys2Proof.Machine.execMbxSend e s
  | .mbxRecv e => Sys2Proof.Machine.execMbxRecv e s
  | .mbxPeek e => Sys2Proof.Machine.execMbxPeek e s
  | .spawn e => Sys2Proof.Machine.execSpawn e s
  | .fw e => Sys2Proof.Machine.execFw e s
  | .rgnEnter e => Sys2Proof.Machine.execRgnEnter e s
  | .jobCwait e => Sys2Proof.Machine.execJobCwait e s
  | .jobCadd e => Sys2Proof.Machine.execJobCadd e s
  | .jobCaddInit e => Sys2Proof.Machine.execJobCaddInit e s
  | .jobCancel e => Sys2Proof.Machine.execJobCancel e s
  | .jobFork e => Sys2Proof.Machine.execJobFork e s
  | .trap e => Sys2Proof.Machine.execTrap e s
  | .brk e => Sys2Proof.Machine.execBrk e s
  | .rft e => Sys2Proof.Machine.execRft e s
  | .sysTlbinvLeaf e => Sys2Proof.Machine.execSysTlbinvLeaf e s
  | .sysTlbinvContext e => Sys2Proof.Machine.execSysTlbinvContext e s
  | .sysTlbinvAll e => Sys2Proof.Machine.execSysTlbinvAll e s
  | .sysCfgrd e => Sys2Proof.Machine.execSysCfgrd e s
  | .sysCfgwr e => Sys2Proof.Machine.execSysCfgwr e s
  | .sysFqreplayRetry e => Sys2Proof.Machine.execSysFqreplayRetry e s
  | .sysFqreplayDiscard e => Sys2Proof.Machine.execSysFqreplayDiscard e s
  | .sysHaltEnable e => Sys2Proof.Machine.execSysHaltEnable e s
  | .sysHaltSuspend e => Sys2Proof.Machine.execSysHaltSuspend e s
  | .sysHaltResume e => Sys2Proof.Machine.execSysHaltResume e s
  | .sysHaltTeardown e => Sys2Proof.Machine.execSysHaltTeardown e s
  | .joinTimeout => Sys2Proof.Machine.execJoinTimeout s
  | .sleepWake => Sys2Proof.Machine.execSleepWake s
  | .divergenceStarvation => Sys2Proof.Machine.execDivergenceStarvation s
  | .drainRowApply => Sys2Proof.Machine.execDrainRowApply s
  | .storageErrorReport => Sys2Proof.Machine.execStorageErrorReport s
  | .softOpApply => Sys2Proof.Machine.execSoftOpApply s
  | .hashStep => Sys2Proof.Machine.execHashStep s
  | .leaseWindowEnd => Sys2Proof.Machine.execLeaseWindowEnd s
  | .quenchEntryTimeout => Sys2Proof.Machine.execQuenchEntryTimeout s
  | .atomApply => Sys2Proof.Machine.execAtomApply s
  | .cpLin => Sys2Proof.Machine.execCpLin s
  | .cp2d => Sys2Proof.Machine.execCp2d s
  | .cpFill => Sys2Proof.Machine.execCpFill s
  | .gaRows => Sys2Proof.Machine.execGaRows s
  | .gaElems => Sys2Proof.Machine.execGaElems s
  | .scElems => Sys2Proof.Machine.execScElems s
  | .clAllred => Sys2Proof.Machine.execClAllred s
  | .clAllgat => Sys2Proof.Machine.execClAllgat s
  | .clSend => Sys2Proof.Machine.execClSend s
  | .clRecv => Sys2Proof.Machine.execClRecv s
  | .collectiveTimeout => Sys2Proof.Machine.execCollectiveTimeout s
  | .fwReply => Sys2Proof.Machine.execFwReply s
  | .teamPlace => Sys2Proof.Machine.execTeamPlace s
  | .teamRetire => Sys2Proof.Machine.execTeamRetire s
  | .agingStep => Sys2Proof.Machine.execAgingStep s
  | .preemptRequest => Sys2Proof.Machine.execPreemptRequest s
  | .regionOverrun => Sys2Proof.Machine.execRegionOverrun s
  | .kvNew => Sys2Proof.Machine.execKvNew s
  | .kvAppend => Sys2Proof.Machine.execKvAppend s
  | .kvFork => Sys2Proof.Machine.execKvFork s
  | .kvRelease => Sys2Proof.Machine.execKvRelease s
  | .kvCompact => Sys2Proof.Machine.execKvCompact s
  | .kvAttn => Sys2Proof.Machine.execKvAttn s
  | .kvRead => Sys2Proof.Machine.execKvRead s
  | .kvCancelRelease => Sys2Proof.Machine.execKvCancelRelease s
  | .arenaAdd => Sys2Proof.Machine.execArenaAdd s
  | .eccError => Sys2Proof.Machine.execEccError s
  | .poolGranuleClear => Sys2Proof.Machine.execPoolGranuleClear s
  | .doorbellSubmit => Sys2Proof.Machine.execDoorbellSubmit s
  | .doorbellCancel => Sys2Proof.Machine.execDoorbellCancel s
  | .doorbellNotify => Sys2Proof.Machine.execDoorbellNotify s
  | .cfgcmdRead => Sys2Proof.Machine.execCfgcmdRead s
  | .cfgcmdWrite => Sys2Proof.Machine.execCfgcmdWrite s
  | .cfgcmdHalt => Sys2Proof.Machine.execCfgcmdHalt s
  | .hostWindowRead => Sys2Proof.Machine.execHostWindowRead s
  | .hostWindowWrite => Sys2Proof.Machine.execHostWindowWrite s
  | .attgo => Sys2Proof.Machine.execAttgo s
  | .attestationPeerRequest => Sys2Proof.Machine.execAttestationPeerRequest s
  | .registerWrite => Sys2Proof.Machine.execRegisterWrite s
  | .lysobDataFlit => Sys2Proof.Machine.execLysobDataFlit s
  | .lysobAck => Sys2Proof.Machine.execLysobAck s
  | .lysobNak => Sys2Proof.Machine.execLysobNak s
  | .lysobCredit => Sys2Proof.Machine.execLysobCredit s
  | .lysobIdle => Sys2Proof.Machine.execLysobIdle s
  | .lysobPortTrained => Sys2Proof.Machine.execLysobPortTrained s
  | .powerAverageStep => Sys2Proof.Machine.execPowerAverageStep s
  | .thermalLimit => Sys2Proof.Machine.execThermalLimit s
  | .fundamentalReset => Sys2Proof.Machine.execFundamentalReset s
  | .lysobCrcError => Sys2Proof.Machine.execLysobCrcError s
  | .hostAtomicopCompletion => Sys2Proof.Machine.execHostAtomicopCompletion s

end Sys2Proof.Machine
end

