-- ==== Sys2Proof/Machine/Fetch.lean ====
section
/-! DEFINITION. Fetching an instruction (R30, R32 to R35), a group's turn to issue, and the choice of the groups that
issue in a cycle (R38 to R41, R141, R264). -/
namespace Sys2Proof.Machine

/-! ## Fetch (R30, R32, R35) -/

/-- Why an instruction is not executed: the cause of its decode trap and xval (R30). -/
structure FetchTrap where
  cause : BitVec 8
  val   : W64
  deriving DecidableEq, Repr

/-- Room for one more word in a core's instruction cache: a full one gives a word up (R3, R34; log 40). -/
def Chip.icacheRoom (c : Chip) (core : Nat) : Chip :=
  let mine := c.icache.filter fun p => p.1 / 2 ^ 50 == core
  if mine.length < Config.icacheWords then c
  else
    match mine[Config.icacheVictim c.fresh % mine.length]? with
    | some w => { c with icache := c.icache.filter fun p => p.1 != w.1, fresh := c.fresh + 1 }
    | none => c

/-- One instruction word: as its home holds it, or, where the core's instruction cache holds an earlier value, either of
the two (R34, R35; log 40). A poisoned word is never data (R376): a lost word of the team's program is a storage error
(log 36). -/
def Chip.fetchWord (c : Chip) (core ctx a : Nat) : Chip × Except FetchTrap W32 :=
  match c.translate (corePlaces core) ctx a 4 .fetch with
  | (c, .error k) => (c, .error { cause := BitVec.ofNat 8 k, val := BitVec.ofNat 64 a })
  | (c, .ok p) =>
    let now := c.homeWord p.pa
    let fresh := fun (c : Chip) =>
      let c := c.l2Access p 4
      if c.poisoned p.pa 4 then (c, .error { cause := 0x0E, val := BitVec.ofNat 64 a })
      else ({ c with icache := SMap.put none c.icache (icacheKey core p.pa) (some now) }, .ok now)
    match SMap.get none c.icache (icacheKey core p.pa) with
    | none => fresh (c.icacheRoom core)
    | some w =>
      if w = now ∧ c.poisoned p.pa 4 = false then (c, .ok now)
      else if Config.staleFetch c.cyc core (p.pa / 4) then (c, .ok w) else fresh c

/-- Words one after another. -/
def Chip.fetchWords (c : Chip) (core ctx a : Nat) : Nat → Chip × Except FetchTrap (List W32)
  | 0 => (c, .ok [])
  | n + 1 =>
    match c.fetchWord core ctx a with
    | (c, .error f) => (c, .error f)
    | (c, .ok w) =>
      match c.fetchWords core ctx (a + 4) n with
      | (c, .error f) => (c, .error f)
      | (c, .ok ws) => (c, .ok (w :: ws))

/-- The decode trap of words that are no instruction. -/
def decodeTrap (e : DecodeError) (ws : List W32) : FetchTrap :=
  { cause := match e with | .reserved => 0x02 | _ => 0x01, val := packWords ws }

/-- The instruction at an address, or its decode trap (R30 items 1 to 3). -/
def Chip.fetch (c : Chip) (l : Limits) (core ctx a : Nat) : Chip × Except FetchTrap Instr :=
  match c.fetchWord core ctx a with
  | (c, .error f) => (c, .error f)
  | (c, .ok w0) =>
    match c.fetchWords core ctx (a + 4) (lengthWords w0 - 1) with
    | (c, .error f) => (c, .error f)
    | (c, .ok ws) =>
      match decodeWords l (w0 :: ws) with
      | .ok i => (c, .ok i)
      | .error e => (c, .error (decodeTrap e (w0 :: ws)))

/-- What a launch allots to each team: the limits of its operands (R14, R15, R74). -/
def Desc.limits (d : Desc) : Limits :=
  { nRegs := 32 * d.rq, tiles := d.tl, bars := d.nb, hc := d.hc, width := d.width }

/-! ## A group's turn -/

/-- Where a group stands: core, context and limits. -/
def Chip.site (c : Chip) (g : Group) : Option (Nat × Nat × Limits) :=
  (c.team? g.team).bind fun t => (c.launchOf t).map fun l => (t.core, l.ctx, l.desc.limits)

/-- The instruction a group would issue: none where it has no issue address. -/
def Chip.nextInstr (c : Chip) (g : Group) : Option (Chip × Except FetchTrap Instr) :=
  match c.site g, g.issueAddress with
  | some (core, ctx, l), some ia => some (c.fetch l core ctx ia)
  | _, _ => none

/-- A decode trap (R30): an imprecise one of the whole team for a lost word, else precise on the instruction. -/
def Chip.trapFetch (c : Chip) (g : Group) (f : FetchTrap) : Chip :=
  if f.cause = 0x0E#8 then c.teamTrap g f.cause f.val
  else
    let ia := (g.issueAddress).getD 0
    c.takeTrap g { cause := f.cause, pc := BitVec.ofNat 64 ia, val := f.val, mask := g.at_ ia }

/-- The lane-register words that a group reads in some lanes. -/
def Group.regReads (g : Group) (rs : List RegName) (act : W64) : PoolWord → Bool
  | .reg i n l => i == g.grpidx && rs.contains (.v n) && act.getLsbD l
  | _ => false

/-- The form of a soft operation, with its fields. -/
def softOf : Instr → Option (SoftForm × Enc)
  | .sldFwd e => some (.sldFwd, e)
  | .sldBwd e => some (.sldBwd, e)
  | .sstBlend e => some (.blend, e)
  | .sstWrite e => some (.write, e)
  | .sstAdd e => some (.add, e)
  | .sstBwd e => some (.sstBwd, e)
  | .sseq e => some (.null, e)
  | _ => none

/-- Registers that an instruction reads and writes beside those its encoding names: the blocks of a soft operation, and the
high registers of an hdrain (R185, R288). -/
def moreOf (i : Instr) (c : Chip) (x : Issue) : List RegName × List RegName :=
  match softOf i with
  | some (f, e) => softMore i f e c x
  | none => match i with
    | .hdrainKeep e | .hdrainClear e => drainMore e x
    | _ => ([], [])

/-- The lane-register words of a block that a group reads: its elements in the lanes that have not exited (R165). -/
def Group.blockReads (g : Group) (b : Block) : PoolWord → Bool
  | .reg i n l => i == g.grpidx && !g.exited.getLsbD l && b.reg.any fun r =>
      decide (r ≤ n ∧ l < g.width ∧ (n - r) * g.width + l < b.count)
  | _ => false

/-- The lane-register words that an instruction reads: of a soft operation those of its blocks, but none of a null one, of a
hard instruction those of its pointer, and else the named registers in the active lanes (R160, R165, R169). -/
def Issue.regWords (x : Issue) (c : Chip) (i : Instr) : PoolWord → Bool :=
  match softOf i with
  | some (f, e) =>
    match c.softAt x (x.g.sreg e.a.toNat) with
    | some r => fun w => x.act != 0#64 && (softBlocks f e.d e.b e.c r x.g.width).1.any fun b => x.g0.blockReads b w
    | none => fun _ => false
  | none =>
    match i with
    | .hardIdx e | .hardOnehot e => x.g0.blockReads (blockOf e.a e.imm.toNat)
    | _ => x.g0.regReads (readsOf i x.g.width) x.act

/-- An instruction that issued and read a lost lane register has written nothing, and the word is to be reported (R160,
R185, R376); an MX instruction sees to that itself (issueMx). `t` is the state that its effect gives. -/
def State.checkLost (s : State) (g : Group) (i : Instr) (t : State) : State :=
  match s.chip.issueAt g.id i with
  | none => t
  | some x =>
    let reads := x.regWords s.chip i
    let issued := ((t.chip.group? g.id).map (·.dist)) == some x.g.dist
    if pipeOf i != .mx && issued && x.team.loses reads then
      { s with chip := (s.chip.setGroup x.g).meetWords g.team reads }
    else t

/-- Whether a job.cancel passes its checks, and so has its effect (R322). -/
def Chip.cancels (c : Chip) (gid : Nat) (i : Instr) : Bool :=
  match i, c.issueAt gid i with
  | .jobCancel e, some x => (c.context x.ctx).inRange (x.g.scalar e.a.toNat).toNat
  | _, _ => false

/-- What an instruction's effect comes to in the cycle of its issue: where the discard of the group's team has been
decided, with its region open, an instruction that would close the region does not issue, a job.cancel that takes its own
team away among them (R316, R321). -/
def State.afterEffect (s : State) (g : Group) (i : Instr) (t : State) : State :=
  match s.chip.team? g.team with
  | none => t
  | some m =>
    let closes := match t.chip.team? g.team with | some n => !n.rec_.open_ | none => s.chip.cancels g.id i
    if m.deciding && m.rec_.open_ && closes then
      { s with chip := s.chip.retry g.id }
    else if m.lostWords.isEmpty then t
    else s.checkLost g i t

/-- A group's turn: it takes the oldest trap that waits for its next issue, or its instruction's decode trap, or executes
the instruction. -/
def State.turn (s : State) (gid : Nat) : Host.Outcome State Fault Refusal :=
  match s.chip.group? gid with
  | none => .next s
  | some g =>
    match g.pendTraps with
    | t :: _ =>
      if t.cause = 0x04#8 then exec .divergenceStarvation { s with event := { a := gid }, current := none }
      else .next { s with chip := (s.chip.takePending g t).getD s.chip }
    | [] =>
      match s.chip.nextInstr g with
      | none => .next s
      | some (c, .error f) => .next { s with chip := c.trapFetch g f }
      | some (c, .ok i) =>
        let s := { s with chip := c, current := some gid }
        match exec i s with
        | .next t => .next (s.afterEffect g i t)
        | r => r

/-! ## Readiness (R39) -/

/-- The rank of an instruction within a cycle. -/
def rankOf : Instr → Nat
  | .barInit _ => 1
  | .barArrive _ | .barSync _ => 2
  | _ => 0

/-- The unit that accepts an instruction in slot order. -/
def unitOf (i : Instr) : Nat :=
  if pipeOf i = .mx then 1 else if 0x68 ≤ ((shapeOf i).map (·.op)).getD 0 ∧ ((shapeOf i).map (·.op)).getD 0 ≤ 0x6B then 2 else 0

/-- The class whose counter an instruction raises (R247). -/
def raisesOf : Instr → Option EngClass
  | .pushCopy _ => some .copy
  | .pushIndex _ => some .index
  | .pushAttn _ => some .attn
  | .pushColl _ => some .coll
  | .tdrain _ | .tdrainAdd _ => some .drain
  | .sldFwd _ | .sldBwd _ | .sstBlend _ | .sstWrite _ | .sstAdd _ | .sstBwd _ | .sseq _ => some .blend
  | _ => none

/-- An instruction that raises a counter waits while that stands at 63 (R170, R247). The wait is one of readiness (R39), and so
it comes before every trap of the instruction, though R185 lists it behind them (a choice of the model, log 116). -/
def Group.counterFull (g : Group) (i : Instr) : Bool := (raisesOf i).any fun k => decide (63 ≤ g.counters.get k)

/-- Whether a pending producer, or a fence that is not complete, keeps a group's next instruction back (R21, R39, R238). -/
def Chip.blocked (c : Chip) (g : Group) (i : Instr) : Bool :=
  let more := ((c.issueAt g.id i).map (moreOf i c)).getD ([], [])
  g.mustWait c.cyc (readsOf i g.width ++ more.1) (writesOf i g.width ++ more.2.map fun r => (r, 0)) || c.fenced g.id i

/-- A group that may issue in this cycle (R39). One that has a trap to take, or whose words are no instruction, takes
its trap; R40 does not say what such a turn takes up, and the model counts it as an issue of the CTL pipe in the group's
live slices (log 87). -/
def Chip.ready? (c : Chip) (g : Group) : Option Ready :=
  if !g.lease.active || g.wait.isSome || decide (c.cyc < g.readyAt) then none
  else
    let core := c.coreOf g
    let r : Ready := { group := g.id, core, slot := g.slot, idx := g.slotIdx, pipe := .ctl, need := g.liveSlices, rank := 0, unit := 0 }
    match c.nextInstr g with
    | none => none
    | some (_, .error _) => some r
    | some (_, .ok i) =>
      if !g.pendTraps.isEmpty then some r
      else if g.counterFull i || c.blocked g i then none
      else some { r with pipe := pipeOf i, rank := rankOf i, unit := unitOf i }

/-! ## The choice of a slot (R39, R40) -/

/-- A slot that has never had a primary. -/
def SlotState.fresh : SlotState := { primary := 15, run := 0, cycle := 0 }

/-- Distance of a slot index after another, 1 to 16, in ascending cyclic order. -/
def after (p i : Nat) : Nat := (i + 15 - p % 16) % 16 + 1

/-- The ready groups of a slot in the order that starts after a slot index. -/
def cyclic (p : Nat) (rs : List Ready) : List Ready := sortBy (fun r => after p r.idx) rs

/-- The primary of a slot (R39), and the slot's new state. The last primary stays only if it is the same group, and not
another one at its slot index; one that the cyclic order picks again has still been primary all the while. -/
def choosePrimary (cyc : Nat) (st : SlotState) (rs : List Ready) : Option (Ready × SlotState) :=
  let was := fun (r : Ready) => decide (st.cycle = cyc ∧ cyc ≠ 0) && st.who == some r.group
  let r? := match (if st.run < 16 then rs.find? was else none) with
    | some r => some r
    | none => (cyclic st.primary rs).head?
  r?.map fun r => (r, { primary := r.idx, run := (if was r then st.run else 0) + 1, cycle := cyc + 1, who := some r.group })

/-- The groups that issue beside a primary (R40). -/
def coIssue (pipe : Pipe) : Nat → List Ready → List Ready
  | _, [] => []
  | free, r :: rs => if r.pipe = pipe ∧ r.need ≤ free then r :: coIssue pipe (free - r.need) rs else coIssue pipe free rs

/-- The groups that a slot issues in this cycle. -/
def chooseSlot (cyc : Nat) (st : SlotState) (rs : List Ready) : List Ready × SlotState :=
  match choosePrimary cyc st rs with
  | none => ([], st)
  | some (p, st) =>
    let free := if p.pipe = .mx then 0 else 8 - p.need
    (p :: coIssue p.pipe free (cyclic p.idx (rs.filter fun r => r.idx != p.idx)), st)

/-- The number of a slot of the module. -/
def Ready.key (r : Ready) : Nat := 4 * r.core + r.slot

/-- The groups that issue in this cycle, and the slots' new states. A throttled slot may be withheld the cycle (R389). -/
def Chip.choose (c : Chip) (throttled : Bool) : Chip × List Ready :=
  let rs := c.groups.filterMap c.ready?
  let keys := (rs.map Ready.key).eraseDups
  let go := fun (acc : Chip × List Ready) (k : Nat) =>
    let c := acc.1
    let held := throttled && Config.withheld c.fresh
    let c := if throttled then { c with fresh := c.fresh + 1 } else c
    if held then (c, acc.2)
    else
      let (ps, st) := chooseSlot c.cyc (SMap.get SlotState.fresh c.slots k) (rs.filter fun r => r.key == k)
      ({ c with slots := SMap.put SlotState.fresh c.slots k st }, acc.2 ++ ps)
  keys.foldl go (c, [])

/-- The one of several that the manual leaves to the device: the chosen place and the chip (Config.arbiter). -/
def Chip.draw (c : Chip) (n : Nat) : Nat × Chip :=
  if n ≤ 1 then (0, c) else (Config.arbiter c.fresh % n, { c with fresh := c.fresh + 1 })

/-- Of the groups chosen for this cycle, those that may go first: bar.init before arrivals, and the slots of a core in
order before a unit that accepts in that order (R141, R264, R276). -/
def first (rs : List Ready) : List Ready :=
  let low := (leastOf (rs.map (·.rank))).getD 0
  rs.filter fun r =>
    r.rank == low && !(rs.any fun q => q.core == r.core && r.unit != 0 && q.unit == r.unit && q.slot < r.slot)

end Sys2Proof.Machine
end

