-- ==== Sys2Proof/Machine/Cycle.lean ====
section
/-! DEFINITION. What happens in a cycle and in which order: the actions that may come at any moment, the issues, what
falls due, and the end of the cycle (R39, R198, R254, R309, R318, R321, R386, R401). -/
namespace Sys2Proof.Machine

/-! ## Waits that end -/

/-- Whether what a group waits for has come about; a barrier and a rendezvous let their groups go themselves (R249,
R182, R323, R374). -/
def Chip.waitOver (c : Chip) (g : Group) : Bool :=
  match g.wait with
  | some (.counter cls n _) => decide (g.counters.get cls ≤ n)
  | some (.jobCounter n t _) => c.jobReached n t
  | some (.softPoint r n p b _) => (c.regions.find? fun q => q.id == r).all fun q => q.reached p b && c.softTurn q n
  | some (.tape r _) => (c.regions.find? fun q => q.id == r).all fun q =>
    (q.gates.find? fun d => d.group == g.id).all (c.tapeFree q)
  | some (.accept r w) => match c.tryAccept (c.coreOf g) g (c.regions.find? fun q => q.id == r) w with | .ok none => false | _ => true
  | some (.suspension x _) => !(c.context x).suspending
  | some (.teardown x _) => c.teardownDone x
  | _ => false

/-- A group whose waiting instruction traps, as it stood before it issued: its lanes back at the instruction, which has not
counted for the watchdog (R30, R46). -/
def Group.unissued (g : Group) (here : W64) (ia : Nat) : Group :=
  { g.onLanes here (fun l => { l with pc := BitVec.ofNat 64 ia }) with
    wait := none, pendTraps := g.pendTraps.filter fun t => t.cause != 0x04#8 }

/-- The wait of a stape ends: it completes, or, where what it sets breaks R183, it traps with none of its effect, its lanes
back at its address; it holds no operation any more. -/
def Chip.resumeTape (c : Chip) (g : Group) (region : Nat) (w : TapeWait) : Chip :=
  match c.regions.find? fun r => r.id == region with
  | none => c
  | some r =>
    match r.newFill w.set with
    | some fill => c.finishTape g.id r fill w.dst
    | none =>
      let c := c.onSoft region fun r => { r with gates := r.gates.filter fun q => q.group != g.id }
      c.takeTrap (g.unissued w.here w.ia) { cause := 0x08, pc := BitVec.ofNat 64 w.ia, val := w.set.getD 0#64, mask := w.act }

/-- A soft operation that has waited is tried again (R168, R173, R179): it is accepted, or it traps with none of its effect, its
blend counter as before it. -/
def Chip.resumeSoft (c : Chip) (g : Group) (region : Nat) (w : SoftWait) : Chip :=
  match c.tryAccept (c.coreOf g) g (c.regions.find? fun r => r.id == region) w with
  | .ok (some c) => c
  | .ok none => c.setGroup { g with wait := some (.accept region w) }
  | .error t =>
    let g := g.unissued w.here w.ia
    c.takeTrap { g with counters := g.counters.set (g.counters.get .blend - 1) .blend }
      { cause := t.1, pc := BitVec.ofNat 64 w.ia, val := t.2, mask := w.act }

/-- A group's wait ends: its instruction completes. -/
def Chip.resume (c : Chip) (g : Group) : Chip :=
  let core := c.coreOf g
  let c := c.onGroup g.id fun g => { g with wait := none }
  match g.wait with
  | some (.counter cls _ d) => c.passCounter core g.id cls d
  | some (.jobCounter n _ d) => c.passJob core g.id n d
  | some (.softPoint r _ _ _ d) => c.finishFence g.id core r d
  | some (.tape r w) => c.resumeTape { g with wait := none } r w
  | some (.accept r w) => c.resumeSoft { g with wait := none } r w
  | some (.suspension _ d) => c.passSuspension core g.id d
  | some (.teardown x d) => (c.endTeardown x).passSuspension core g.id d
  | _ => c

/-! ## Actions -/

/-- What the module may do at a moment. -/
inductive Action where
  /-- an event of the opcode table, on what it names -/
  | event (i : Instr) (a : EvArg)
  /-- the wait of a group ends -/
  | resume (group : Nat)
  /-- a group that is not its team's last retires -/
  | retire (group : Nat)
  /-- CFGCMD's suspension or teardown has ended -/
  | endCommand
  /-- a store of a strl is made -/
  | store (held : Nat)
  /-- a release or an acquire that has waited completes -/
  | fence (number : Nat)
  /-- the hash unit comes to see what ordinary stores have written to a doubleword of a team's scratchpad (R286) -/
  | hashSees (team doubleword : Nat)
  /-- ordinary accesses come to see what the hash unit has written to a doubleword of a team's scratchpad (R286) -/
  | loadsSee (team doubleword : Nat)
  /-- a bad attention command ends in its turn -/
  | badOp (op : Nat)
  /-- the frame of a page that left an arena goes on the free list -/
  | freePage (page : ArenaPage × Nat)
  /-- a team is discarded whose discard this cycle has decided -/
  | discard (team : Nat)
  /-- the oldest event from outside arrives -/
  | arrive
  deriving DecidableEq, Repr

/-- An action carried out. -/
def State.perform (s : State) : Action → Host.Outcome State Fault Refusal
  | .event i a => exec i { s with event := a, current := none }
  | .resume gid => .next (match s.chip.group? gid with | some g => { s with chip := s.chip.resume g } | none => s)
  | .retire gid => .next (match s.chip.group? gid with | some g => { s with chip := s.chip.retireGroup g } | none => s)
  | .endCommand => .next s.endCommand
  | .store id => onChip s fun c => (c.held.find? fun h => h.id == id && c.heldFree h).map c.performHeld
  | .fence n => onChip s fun c => (c.fences.find? fun f => f.number == n && !c.fenceWaits f).map c.endFence
  | .badOp id => onChip s fun c => (c.ops.find? fun o => o.id == id && c.badDue o).map c.badOp
  | .hashSees t k => onChip s fun c => some (c.onTeam t fun t => t.hashSees [k])
  | .loadsSee t k => onChip s fun c => some (c.onTeam t fun t => t.loadsSee [k])
  | .freePage p => onChip s fun c => some (c.freePage p)
  | .discard t => onChip s fun c => some (c.discardDecided t)
  | .arrive =>
    match s.agenda with
    | [] => .next s
    | (i, a) :: rest => exec i { s with agenda := rest, event := a, current := none }

/-- The event that runs an engine operation, from its code (R256, R258, R261, R342). -/
def opEvent : Nat → Option Instr
  | 0x01 => some .cpLin | 0x02 => some .cp2d | 0x03 => some .cpFill
  | 0x10 => some .gaRows | 0x11 => some .gaElems | 0x12 => some .scElems
  | 0x20 => some .kvNew | 0x21 => some .kvAppend | 0x22 => some .kvFork | 0x23 => some .kvRelease
  | 0x24 => some .kvCompact | 0x25 => some .kvAttn | 0x26 => some .kvRead
  | 0x30 => some .clAllred | 0x31 => some .clAllgat | 0x32 => some .clSend | 0x33 => some .clRecv
  | _ => none

/-- An operation that may run now. A collective one waits for its peers, whose event comes from outside, unless it needs
none (R262, R376, R384, R385). -/
def Chip.runnable (c : Chip) (o : EngOp) : Bool := (c.opDue o.id o.code).isSome && (o.cls != .coll || c.runsAlone o)

/-- The actions that the units may take now. -/
def Chip.unitActions (c : Chip) : List Action :=
  ((c.ops.filter c.runnable).filterMap fun o => (opEvent o.code).map fun i => .event i { a := o.id })
    ++ ((c.drains.filter c.rowFree).map fun d => .event .drainRowApply { a := d.id })
    ++ ((c.regions.filter fun r => (c.softNext r).isSome).map fun r => .event .softOpApply { a := r.id })
    ++ ((c.hashOps.filter c.hashDue).map fun n => .event .hashStep { a := n })
    ++ ((c.teams.flatMap fun t => ((t.lag.map fun l => l.at_ / 8).eraseDups).map fun k => .hashSees t.id k))
    ++ ((c.teams.flatMap fun t => ((t.old.map fun l => l.at_ / 8).eraseDups).map fun k => .loadsSee t.id k))
    ++ ((c.atoms.filter fun a => !(c.unitsHere a).isEmpty).map fun a => .event .atomApply { a := a.id })
    ++ ((c.sequences.filter fun q => q.live && c.releases.any fun r => r.1 == q.num).map fun q =>
      .event .kvCancelRelease { a := q.num })
    ++ ((c.held.filter c.heldFree).map fun h => .store h.id)
    ++ ((c.fences.filter fun f => !c.fenceWaits f).map fun f => .fence f.number)
    ++ ((c.ops.filter c.badDue).map fun o => .badOp o.id)
    ++ ((c.leaving.filter c.pageFree).map .freePage)

/-- Whether a group may retire before its team does. -/
def Chip.mayRetire (c : Chip) (g : Group) : Bool :=
  c.drained g && (c.groups.any fun h => h.team == g.team && !c.drained h)

/-- Whether a team may retire. -/
def Chip.teamMayRetire (c : Chip) (t : Team) : Bool := (c.groups.any fun g => g.team == t.id) && (c.groupsOf t.id).all c.drained

/-- The actions that the groups, the teams and the distributor may take now. -/
def Chip.workActions (c : Chip) : List Action :=
  ((c.groups.filter c.waitOver).map fun g => .resume g.id)
    ++ ((c.groups.filter fun g => g.fwOut.isSome).map fun g => .event .fwReply { a := g.id })
    ++ ((c.groups.filter c.mayRetire).map fun g => .retire g.id)
    ++ ((c.teams.filter c.teamMayRetire).map fun t => .event .teamRetire { a := t.id })
    ++ ((c.teams.filter fun t => t.lostWords.any LostWord.waits).map fun t => .event .storageErrorReport { a := t.id })
    ++ (if c.nextPlacement.isSome then [.event .teamPlace {}] else [])

/-- The actions that may be taken now, in an order the manual does not fix. -/
def State.actions (s : State) : List Action :=
  s.chip.unitActions ++ s.chip.workActions ++ (if s.commandEnds then [.endCommand] else [])
    ++ (if s.agenda.isEmpty then [] else [.arrive])

/-- What comes before the issues of a cycle: the readings and the decisions that govern readiness in it (R198, R321,
R389), and the failures that count on barriers before its arrivals do (R262, R264). -/
def Chip.early (c : Chip) : List Action :=
  (if c.powerDue then [.event .powerAverageStep {}] else [])
    ++ (if c.windowDue then [.event .leaseWindowEnd {}] else [])
    ++ (if !c.suspendees.isEmpty || c.preemption.isSome then [.event .preemptRequest {}] else [])
    ++ ((c.ops.filter c.timedOut).map fun o => .event .collectiveTimeout { a := o.id })

/-- Cancelled sequences whose blocks can be held no longer (R326). -/
def Chip.releasesDue (c : Chip) : List Nat :=
  (c.releases.filter fun r => decide (r.2 ≤ c.cyc) && c.sequences.any fun q => q.num == r.1 && q.live).map (·.1)

/-- What falls due in a cycle after its issues: first the discards that it has decided, the wakes last (R53, R79, R160,
R212, R252, R309, R320, R321, R326). -/
def Chip.due (c : Chip) : List Action :=
  ((c.teams.filter (·.deciding)).map fun t => .discard t.id)
    ++ (c.groups.flatMap fun g =>
      ((List.range 8).filter (g.joinDue c.cyc)).map fun j => Action.event .joinTimeout { a := g.id, b := j })
    ++ ((c.quench.filter c.quenchDue).map fun q => .event .quenchEntryTimeout { a := q.core, b := q.block })
    ++ ((c.launches.filter c.agingDue).map fun l => .event .agingStep { a := l.id })
    ++ (c.releasesDue.map fun n => .event .kvCancelRelease { a := n })
    ++ ((c.teams.filter fun t => t.lostWords.any fun l => l.overdue c.cyc).map fun t =>
      .event .storageErrorReport { a := t.id })
    ++ ((c.teams.filter c.overrun).map fun t => .event .regionOverrun { a := t.id })
    ++ (if c.hadEvents.contains 1 || c.uncleared.isEmpty then [] else [.event .poolGranuleClear {}])
    ++ (c.groups.flatMap fun g =>
      (g.sleeps.filter fun z => (g.wakeReasonOf z c.cyc).isSome).map fun z => .event .sleepWake { a := g.id, b := z.id })

/-! ## The end of a cycle -/

/-- A group that keeps its core's clock off (R254): asleep, waiting at a counter or a barrier, or drained of lanes. -/
def Group.quiet (g : Group) : Bool :=
  !g.ordered || (match g.wait with | some (.counter _ _ _) | some (.barrier _ _) => true | _ => false)

/-- A core is clock-gated in this cycle: all its groups are quiet and none issued (R254). -/
def Chip.gated (c : Chip) (core : Nat) : Bool :=
  (c.groups.filter fun g => c.coreOf g == core).all Group.quiet
    && (List.range 4).all fun k => (SMap.get SlotState.fresh c.slots (4 * core + k)).cycle != c.cyc + 1

/-- A launch's clocks at a cycle's end: from when it ages, and from when its next team waits for room (R309, R318). -/
def Chip.clock (c : Chip) (next : Option Launch) (room : Bool) (l : Launch) : Launch :=
  { l with
    agedFrom := if l.unplaced && c.eligible l then l.agedFrom.or (some c.cyc) else none
    waitFrom := if (next.map (·.id)) == some l.id && !room then l.waitFrom.or (some c.cyc) else none }

/-- The next cycle begins. -/
def Chip.tick (c : Chip) : Chip :=
  let next := c.nextLaunch
  let room := c.nextPlacement.isSome
  let asleep := fun (g : Group) => !g.sleeps.isEmpty && c.gated (c.coreOf g)
  { c with
    cyc := c.cyc + 1
    hadEvents := []
    groups := updWhere asleep (fun g => { g with sleeps := g.sleeps.map fun z => { z with gated := true } }) c.groups
    launches := c.launches.map (c.clock next room) : Chip }.tidyPreempting

/-! ## The step -/

/-- One of several actions, or none: `more` is how many further choices there are beside them. -/
def State.choose (s : State) (as : List Action) (more : Nat) : Option Action × State :=
  let (k, c) := s.chip.draw (as.length + more)
  (as[k]?, { s with chip := c })

/-- Events from outside that a module which is not ready does not answer: of the Lysob ports, of peers and of the host's
memory, where only BAR 0 answers (R386, R389). The doorbells, the window and the peers' attestation requests say so
themselves. -/
def unanswered : Instr → Bool
  | .lysobDataFlit | .lysobAck | .lysobNak | .lysobCredit | .lysobIdle | .lysobCrcError | .lysobPortTrained
  | .clSend | .clRecv | .clAllred | .clAllgat | .hostAtomicopCompletion => true
  | _ => false

/-- A cycle passes on a module whose cores have stopped (R389). -/
def State.idleCycle (s : State) : State := { s with chip := { s.chip with cyc := s.chip.cyc + 1, hadEvents := [] } }

/-- Before start-up is complete, and after it has failed or the module has stopped: events from outside, the start-up
itself, and once it has ended the power average, which goes on (R386, R389). -/
def State.idleStep (s : State) : Host.Outcome State Fault Refusal :=
  let ended := decide (3 ≤ s.control.bootState)
  let as := (if s.agenda.isEmpty then [] else [Action.arrive]) ++ (if ended then [] else [Action.event .fundamentalReset {}])
    ++ if ended && s.commandEnds then [.endCommand] else []
  if ended && s.chip.powerDue then s.perform (.event .powerAverageStep {})
  else
    match s.choose as ended.toNat, s.agenda with
    | (some .arrive, t), (i, _) :: rest => if unanswered i then .next { t with agenda := rest } else t.perform .arrive
    | (some a, t), _ => t.perform a
    | (none, t), _ => .next (if ended then t.idleCycle else t)

/-- The first part of a cycle: what comes before its issues, then actions until the device goes on to the issues. -/
def State.freeStep (s : State) : Host.Outcome State Fault Refusal :=
  match s.chip.early with
  | a :: _ => s.perform a
  | [] =>
    match s.choose s.actions 1 with
    | (some a, s) => s.perform a
    | (none, s) =>
      let (c, rs) := s.chip.choose s.control.throttled
      .next { s with chip := c, stage := .issue, picked := rs }

/-- The second part of a cycle: the chosen groups issue, one a step; then the barriers are tested whose arrivals have not
tested them (R264). -/
def State.issueStep (s : State) : Host.Outcome State Fault Refusal :=
  match first s.picked with
  | [] => .next { s with chip := s.chip.testBarriers, stage := .due, picked := [] }
  | r :: rs =>
    let (k, c) := s.chip.draw (r :: rs).length
    let q := (r :: rs)[k]?.getD r
    { s with chip := c, picked := s.picked.filter fun p => p.group != q.group }.turn q.group

/-- The third part of a cycle: what falls due in it, then the next cycle. -/
def State.dueStep (s : State) : Host.Outcome State Fault Refusal :=
  match s.chip.due with
  | a :: _ => s.perform a
  | [] => .next { s with chip := s.chip.tick, stage := .free }

/-! ## A place for one instruction -/

/-- The launch of a placed instruction: one team of one 64-lane group with the largest allotments (R74, R301). -/
def placedDesc : Desc :=
  { entry := 0#64, param := 0#64, part := 0x30C0001008#64, fpol := 0, maint := false, prio := 0, wc := 3, gm1 := 0
    dxm1 := 0, dym1 := 0, dzm1 := 0, dctr := 0, cctr := 0xFFFF, lmode := 0, decl := 64, phase := 0xFFFF, graph := 0xFFFF
    dthr := 0, job := 0xFFFF }

/-- Bytes at an address of device memory, and page tables that map VA 0 to them: four levels, one leaf with R, W and X
(R366). -/
def placedMemory (m : List Host.Cell) (bs : List Byte) : List Host.Cell :=
  let entry := fun (m : List Host.Cell) (a v : Nat) => putBytes m a (leBytes 8 v)
  entry (entry (entry (entry (putBytes m 0x20000 bs) 0x4000 0x8001) 0x8000 0xA001) 0xA000 0xC001) 0xC000 0x2001F

/-- The chip with an instruction's bytes where its one group issues next. -/
def Chip.placed (c : Chip) (bs : List Byte) : Chip :=
  let d := placedDesc
  let launch : Launch := { Launch.ofDesc 0 0 0 d with next := 1, entered := [0] }
  let team : Team :=
    { id := 1, launch := 0, number := 0, core := 0, x := 0, y := 0, z := 0, sp := [], tiles := []
      bars := List.replicate 48 { phase := false, parked := 0, arrived := 0, expect := 0, bytes := 0#64 }
      tables := [], steps := [], rec_ := { entry := 0#64, arg := 0#64, masks := [], open_ := true }, request := none
      successor := [], reserve := 0, placedAt := c.cyc, retired := [], withdrew := 0, places := [some (0, 0)] }
  let g := Group.create 2 1 0 0 0 d 0#64 0#64 0#64 0#64
  { c with
    groups := [{ g with lease := { g.lease with active := true } }]
    teams := [team]
    launches := [launch]
    contexts := SMap.put Context.reset c.contexts 0 { c.context 0 with en := true, ptroot := 0x4000 }
    tlb := []
    icache := []
    poison := []
    nextId := max c.nextId 3
    mem := placedMemory c.mem bs }

end Sys2Proof.Machine
end

