-- ==== Sys2Proof/Machine/Step.lean ====
section
/-! DEFINITION. The step of the module, and the placing of one instruction where the step fetches next. -/
namespace Sys2Proof.Machine

/-- One step. Before start-up is complete the cores stand still; then each cycle has its three parts. -/
def step (s : State) : Host.Outcome State Fault Refusal :=
  if s.control.ready then
    match s.stage with
    | .free => s.freeStep
    | .issue => s.issueStep
    | .due => s.dueStep
  else s.idleStep

/-- The state with start-up complete and one group chosen to issue, whose next instruction is the one whose bits are
`w`. -/
def State.withFetchWord (s : State) (nbits w : Nat) : State :=
  { s with
    chip := s.chip.placed (bytesOfNat 20 (w % 2 ^ nbits))
    control := { s.control with bootState := 3 }
    stage := .issue
    picked := [{ group := 2, core := 0, slot := 0, idx := 0, pipe := .ctl, need := 8, rank := 0, unit := 0 }]
    agenda := [] }

end Sys2Proof.Machine
end

