-- ==== Sys2Proof/Safety.lean ====
section
/-! DEFINITION. What a state that a run can reach looks like, in the terms the statements use. -/
namespace Sys2Proof.Machine

/-- The control block as the manual describes it: a start-up state of R386, eight measurement registers, a power limit
within 1,000 to 3,200 W, and at most the readings of 100 µs (R386, R389). -/
structure Control.Legal (k : Control) : Prop where
  state    : k.bootState ≤ 5
  measures : k.mreg.length = 8
  limit    : 1000 ≤ k.pwrlim ∧ k.pwrlim ≤ 3200
  readings : k.power.length ≤ 100

/-- Invariant of every step: the control block is legal. -/
def State.Inv (s : State) : Prop := s.control.Legal

/-- The memory of a state keeps its one canonical form. -/
def State.MemoryCanonical (s : State) : Prop := Memory.wf s.chip.mem

/-! ## Registers as they will read -/

/-- What a register holds now; `l` is the lane of a lane register (R80). -/
def Group.reg (g : Group) (r : RegName) (l : Nat) : W64 :=
  match r with
  | .v n => (g.vreg n l).setWidth 64
  | .s n => g.sreg n
  | .m n => g.mreg n
  | .j n => g.jreg n
  | .k n => g.kreg n

/-- What a register holds once every pending write of the group has completed (R21). -/
def Group.regEnd (g : Group) (r : RegName) (l : Nat) : W64 := g.commitAll.reg r l

/-- No write of a register is pending. -/
def Group.settled (g : Group) (r : RegName) : Bool := g.pend.all fun p => p.reg != r

/-- A step answers a next state: no fault and no refusal. -/
def Completes (o : Host.Outcome State Fault Refusal) : Prop := ∃ t, o = .next t

/-- An instruction issues: State.current names a resident group with a running lane, none of its registers is pending, the
scoreboard check is off or finds nothing too close, and no fence of the group keeps it back (R21, R22, R39, R238). -/
structure Issues (s : State) (i : Instr) (x : Issue) : Prop where
  group  : s.current.bind (fun gid => s.chip.issueAt gid i) = some x
  free   : x.g0.mustWait x.now (readsOf i x.g.width) (writesOf i x.g.width) = false
  spaced : (x.g0.sbchk && x.g0.stallShort x.pos (readsOf i x.g.width) (writesOf i x.g.width)) = false
  unfenced : s.chip.fenced x.g.id i = false

/-! ## What an instruction does, in the terms of the statements -/

/-- The chip as an issued instruction begins to act: a group's first issue acquires at device scope, and the
bookkeeping of the issue is done (R20, R43, R45, R306). -/
def Issue.chip0 (x : Issue) (s : State) : Chip :=
  (if x.g0.begun then s.chip else s.chip.acquire x.core .dev).setGroup x.g

/-- A group without its registers, its pending writes and its sticky flags. -/
def Group.bare (g : Group) : Group := { g with v := [], s := [], m := [], j := [], k := [], pend := [], fst := 0 }

/-- A group that differs from another in the registers of a list at most, in its pending writes, and, where `fl`, in
its sticky flags. -/
structure Group.FrameOf (g g0 : Group) (ws : List RegName) (fl : Bool) : Prop where
  regs  : ∀ r, r ∉ ws → ∀ l, l < 64 → g.regEnd r l = g0.regEnd r l
  flags : fl = false → g.fst = g0.fst
  rest  : g.bare = g0.bare

/-- The effect of an issued instruction that stays within its group: the step completes, the group changes as `P` says
and in nothing that its frame leaves out, no byte of memory changes, and nothing else of the machine does, but for the
L1 of the core at a group's first issue. -/
def GroupEffect (s : State) (i : Instr) (x : Issue) (ws : List RegName) (fl : Bool) (P : Group → Prop) : Prop :=
  ∃ g, exec i s = .next { s with chip := (x.chip0 s).setGroup g } ∧ g.FrameOf x.g ws fl ∧ P g
    ∧ ∀ a, ((x.chip0 s).setGroup g).byte a = s.chip.byte a

/-- The registers that a vector destination of `n` registers names; 0xFF discards (R14). -/
def dregs (d : BitVec 8) (n : Nat) : List RegName := if d = 0xFF#8 then [] else vecRegs d.toNat n

/-- The register that a scalar destination names; 0xFF discards (R15). -/
def sregs (d : BitVec 8) : List RegName := (scalarName d.toNat).toList

/-- Register `i` of a vector destination: the active lanes get their values, the other lanes keep theirs (R44, R115). -/
def LaneResult (x : Issue) (g : Group) (d : BitVec 8) (n : Nat) (f : Nat → Nat → W32) : Prop :=
  d ≠ 0xFF#8 → ∀ i, i < n → ∀ l, l < 64 →
    g.regEnd (.v (d.toNat + i)) l = if l ∈ x.lanes then (f i l).setWidth 64 else x.g.regEnd (.v (d.toNat + i)) l

/-- Register pairs, the low word first (R14). -/
def pairWord (f : Nat → W64) (i l : Nat) : W32 := (f l).extractLsb' (32 * i) 32

/-- A scalar destination: it gets the value, but m0 and k0 keep all ones (R80, R135). -/
def ScalarResult (g : Group) (d : BitVec 8) (v : W64) : Prop :=
  ∀ r, scalarName d.toNat = some r → (∀ n, r ≠ .j n) →
    g.regEnd r 0 = if r = .m 0 ∨ r = .k 0 then BitVec.allOnes 64 else v

/-- None of the registers has a write pending. -/
def Group.allSettled (g : Group) (ws : List RegName) : Prop := ∀ r ∈ ws, g.settled r = true

/-- A lane result of `n` registers that leaves the flags. -/
def LaneEffect (s : State) (i : Instr) (x : Issue) (d : BitVec 8) (n : Nat) (f : Nat → Nat → W32) : Prop :=
  x.g.allSettled (dregs d n) → GroupEffect s i x (dregs d n) false fun g => LaneResult x g d n f

/-- A lane result of `n` registers that raises the flags of its active lanes (R8, R110). -/
def FlagEffect (s : State) (i : Instr) (x : Issue) (d : BitVec 8) (n : Nat) (f : Nat → Nat → W32) (fl : Nat → Flags) :
    Prop :=
  x.g.allSettled (dregs d n) → GroupEffect s i x (dregs d n) true fun g =>
    LaneResult x g d n f ∧ g.fst = x.g.fst ||| orFlags (x.lanes.map fl)

/-- A group-scope result that leaves the flags. -/
def ScalarEffect (s : State) (i : Instr) (x : Issue) (d : BitVec 8) (v : W64) : Prop :=
  x.g.allSettled (sregs d) → GroupEffect s i x (sregs d) false fun g => ScalarResult g d v

end Sys2Proof.Machine
end

