-- ==== Sys2Proof/Certificates/Slice0/Obligations.lean ====
section
/-! DEFINITION. The statements for the provers. -/
open Sys2Proof Sys2Proof.Machine

namespace Sys2Proof.Expect

/-- A word's value at the type's reading, then an exact result narrowed: saturated to the type's range under SAT, else
modulo 2^n (R118). -/
def narrowed (n : Nat) (e : Enc) (x : Int) : BitVec n :=
  if e.sat then
    if e.ty.signed then BitVec.ofInt n (max (-(2 ^ (n - 1))) (min x (2 ^ (n - 1) - 1)))
    else BitVec.ofInt n (max 0 (min x (2 ^ n - 1)))
  else BitVec.ofInt n x

/-- X, Y or Z of R118. -/
def asInt {n : Nat} (e : Enc) (a : BitVec n) : Int := if e.ty.signed then a.toInt else a.toNat

/-- The arithmetic instructions of R118, what each computes from OpA, OpB and OpC at the type's width, and the fields
it runs with: a B form has those of its E form (R19). -/
def arithmetic (e : Enc) (b : BEnc) : List (Instr × Enc × ((n : Nat) → Enc → BitVec n → BitVec n → BitVec n → BitVec n)) :=
  let add := fun (n : Nat) (e : Enc) (a b _ : BitVec n) => narrowed n e (asInt e a + asInt e b)
  let sub := fun (n : Nat) (e : Enc) (a b _ : BitVec n) => narrowed n e (asInt e a - asInt e b)
  let mul := fun (n : Nat) (e : Enc) (a b _ : BitVec n) => narrowed n e (asInt e a * asInt e b)
  let least := fun (n : Nat) (e : Enc) (a b _ : BitVec n) => if asInt e a ≤ asInt e b then a else b
  let greatest := fun (n : Nat) (e : Enc) (a b _ : BitVec n) => if asInt e a ≤ asInt e b then b else a
  [(.add e, e, add), (.addB b, shortEnc 0x10 .e b, add), (.sub e, e, sub), (.subB b, shortEnc 0x11 .e b, sub),
   (.mul e, e, mul), (.mulB b, shortEnc 0x12 .e b, mul),
   (.mulh e, e, fun n e a b _ => BitVec.ofInt n (asInt e a * asInt e b / 2 ^ n)),
   (.mad e, e, fun n e a b c => narrowed n e (asInt e a * asInt e b + asInt e c)),
   (.min e, e, least), (.minB b, shortEnc 0x15 .e b, least), (.max e, e, greatest), (.maxB b, shortEnc 0x16 .e b, greatest),
   (.abs e, e, fun n e a _ _ => narrowed n e (if asInt e a < 0 then -asInt e a else asInt e a))]

/-- The bitwise, shift and move instructions of R118 and R119; k is OpB[31:0]. -/
def bitwise (e : Enc) (b : BEnc) : List (Instr × Enc × ((n : Nat) → Enc → BitVec n → BitVec n → BitVec n → BitVec n)) :=
  let k := fun {n : Nat} (b : BitVec n) => b.toNat % 2 ^ 32
  let and := fun (n : Nat) (_ : Enc) (a b _ : BitVec n) => a &&& b
  let or := fun (n : Nat) (_ : Enc) (a b _ : BitVec n) => a ||| b
  let xor := fun (n : Nat) (_ : Enc) (a b _ : BitVec n) => a ^^^ b
  let not := fun (n : Nat) (_ : Enc) (a _ _ : BitVec n) => ~~~a
  let mov := fun (n : Nat) (_ : Enc) (a _ _ : BitVec n) => a
  let shl := fun (n : Nat) (e : Enc) (a b _ : BitVec n) =>
    if e.sat then narrowed n e (asInt e a * 2 ^ k b) else if n ≤ k b then 0#n else a <<< k b
  let shr := fun (n : Nat) (_ : Enc) (a b _ : BitVec n) => if n ≤ k b then 0#n else BitVec.ofNat n (a.toNat / 2 ^ k b)
  let sar := fun (n : Nat) (_ : Enc) (a b _ : BitVec n) =>
    if n ≤ k b then (if a.toInt < 0 then BitVec.allOnes n else 0#n) else BitVec.ofInt n (a.toInt / 2 ^ k b)
  [(.and e, e, and), (.andB b, shortEnc 0x18 .e b, and), (.or e, e, or), (.orB b, shortEnc 0x19 .e b, or),
   (.xor e, e, xor), (.xorB b, shortEnc 0x1A .e b, xor), (.not e, e, not), (.notB b, shortEnc 0x1B .e b, not),
   (.mov e, e, mov), (.movB b, shortEnc 0x28 .e b, mov), (.shl e, e, shl), (.shlB b, shortEnc 0x1C .e b, shl),
   (.shr e, e, shr), (.shrB b, shortEnc 0x1D .e b, shr), (.sar e, e, sar), (.sarB b, shortEnc 0x1E .e b, sar)]

/-- The result of an instruction whose type fixes the width: one register or a pair (R114). -/
def Typed (s : State) (i : Instr) (x : Issue) (e : Enc) (f : (n : Nat) → Enc → BitVec n → BitVec n → BitVec n → BitVec n) :
    Prop :=
  if e.ty.is64 then
    LaneEffect s i x e.d 2 (pairWord fun l => f 64 e (x.g.opA64 e l) (x.g.opB64 e l) (x.g.opC64 e l))
  else LaneEffect s i x e.d 1 fun _ l => f 32 e (x.g.opA e l) (x.g.opB e l) (x.g.opC e l)

/-- A group-scope mask given bit by bit. -/
def MaskEffect (s : State) (i : Instr) (x : Issue) (d : BitVec 8) (p : Nat → Bool) : Prop :=
  ∃ v, ScalarEffect s i x d v ∧ ∀ l, l < 64 → v.getLsbD l = p l

/-- A 32-bit lane result given bit by bit. -/
def Bits32 (s : State) (i : Instr) (x : Issue) (d : BitVec 8) (p : Nat → Nat → Bool) : Prop :=
  ∃ f : Nat → W32, LaneEffect s i x d 1 (fun _ => f) ∧ ∀ l k, k < 32 → (f l).getLsbD k = p l k

/-- A 64-bit lane result given bit by bit. -/
def Bits64 (s : State) (i : Instr) (x : Issue) (d : BitVec 8) (p : Nat → Nat → Bool) : Prop :=
  ∃ f : Nat → W64, LaneEffect s i x d 2 (pairWord f) ∧ ∀ l k, k < 64 → (f l).getLsbD k = p l k

/-- Position of a field (R119). -/
def fieldP (c imm : W32) : Nat := (c.toNat % 256 + imm.toNat % 256) % 256
/-- Width of a field that begins below bit 32 (R119). -/
def fieldW (c imm : W32) : Nat :=
  if 32 ≤ fieldP c imm then 0 else min ((c.toNat / 256 % 256 + imm.toNat / 256 % 256) % 256) (32 - fieldP c imm)

/-- Output byte j of perm, from the eight source bytes (R119). -/
def permByte (src : Nat → Byte) (sel : Nat) : Nat → Byte
  | 0 => if sel.testBit 12 then 0#8 else src (sel % 8)
  | j + 1 =>
    if sel.testBit (12 + (j + 1)) then (if (permByte src sel j).getLsbD 7 then 0xFF#8 else 0#8)
    else src (sel / 2 ^ (3 * (j + 1)) % 8)

/-- The operand of a floating-point type: the low half of a register for a 16-bit one (R114). -/
def fpBits (ty : Ty) (w : W32) : Nat :=
  match ty with
  | .f16 | .bf16 => w.toNat % 2 ^ 16
  | _ => w.toNat

/-- The floating-point instructions of R122, R123, R125 and R127: each one's result and flags from OpA, OpB and OpC. -/
def floating (e : Enc) (b : BEnc) : List (Instr × Enc × (Fmt → Rnd → Nat → Nat → Nat → Nat × Flags)) :=
  let add := fun (f : Fmt) (r : Rnd) (a b _ : Nat) => f.sum r [f.decode a, f.decode b]
  let sub := fun (f : Fmt) (r : Rnd) (a b _ : Nat) => f.sum r [f.decode a, (f.decode b).neg]
  let mul := fun (f : Fmt) (r : Rnd) (a b _ : Nat) =>
    let p := (f.decode a).mul (f.decode b)
    ((f.round r p.1).1, p.2 ||| (f.round r p.1).2)
  let least := fun (f : Fmt) (_ : Rnd) (a b _ : Nat) =>
    (if (f.decode a).isNaN then (if (f.decode b).isNaN then f.nan else b)
      else if (f.decode b).isNaN then a else if f.key a ≤ f.key b then a else b,
      flagIf ((f.decode a).isSig || (f.decode b).isSig) flagNV)
  let greatest := fun (f : Fmt) (_ : Rnd) (a b _ : Nat) =>
    (if (f.decode a).isNaN then (if (f.decode b).isNaN then f.nan else b)
      else if (f.decode b).isNaN then a else if f.key a ≤ f.key b then b else a,
      flagIf ((f.decode a).isSig || (f.decode b).isSig) flagNV)
  [(.fadd e, e, add), (.faddB b, shortEnc 0x30 .e b, add), (.fsub e, e, sub), (.fsubB b, shortEnc 0x31 .e b, sub),
   (.fmul e, e, mul), (.fmulB b, shortEnc 0x32 .e b, mul),
   (.fma e, e, fun f r a b c =>
     let p := (f.decode a).mul (f.decode b)
     let q := f.sum r [p.1, f.decode c]
     (q.1, p.2 ||| q.2)),
   (.fmin e, e, least), (.fminB b, shortEnc 0x34 .e b, least), (.fmax e, e, greatest), (.fmaxB b, shortEnc 0x35 .e b, greatest),
   (.fneg e, e, fun f _ a _ _ => (a ^^^ 2 ^ (f.bits - 1), 0#5)),
   (.fabs e, e, fun f _ a _ _ => (a % 2 ^ (f.bits - 1), 0#5)),
   (.fcopysign e, e, fun f _ a b _ => (a % 2 ^ (f.bits - 1) + b / 2 ^ (f.bits - 1) * 2 ^ (f.bits - 1), 0#5)),
   (.fclass e, e, fun f _ a _ _ =>
     (2 ^ (match f.decode a with
       | .nan sg => if sg then 8 else 9
       | .inf n => if n then 0 else 7
       | .fin n m _ =>
         if m = 0 then (if n then 3 else 4) else if m < 2 ^ f.mb then (if n then 2 else 5) else (if n then 1 else 6)),
      0#5)),
   (.frnd e, e, fun f r a _ _ => f.integral r a)]

/-- The conversions between floating-point formats and integers (R98, R99, R128): destination and source. -/
inductive CvtKind where
  | ff (src dst : Fmt) | fi (src : Fmt) (signed : Bool) (n : Nat) | int_f (signed : Bool) (n : Nat) (dst : Fmt)
  | widen (signed : Bool) | narrow (signed : Bool)

/-- The pairs of R128. -/
def cvtKind : CvtPair → CvtKind
  | .f16F32 => .ff fmtF32 fmtF16 | .bf16F32 => .ff fmtF32 fmtBF16 | .f32F16 => .ff fmtF16 fmtF32
  | .f32Bf16 => .ff fmtBF16 fmtF32 | .bf16F16 => .ff fmtF16 fmtBF16 | .f16Bf16 => .ff fmtBF16 fmtF16
  | .s32F32 => .fi fmtF32 true 32 | .z32F32 => .fi fmtF32 false 32 | .s64F32 => .fi fmtF32 true 64
  | .z64F32 => .fi fmtF32 false 64 | .s32F16 => .fi fmtF16 true 32 | .s32Bf16 => .fi fmtBF16 true 32
  | .f32S32 => .int_f true 32 fmtF32 | .f32Z32 => .int_f false 32 fmtF32 | .f32S64 => .int_f true 64 fmtF32
  | .f32Z64 => .int_f false 64 fmtF32 | .f16S32 => .int_f true 32 fmtF16 | .bf16S32 => .int_f true 32 fmtBF16
  | .s64S32 => .widen true | .z64Z32 => .widen false | .s32S64 => .narrow true | .z32Z64 => .narrow false

/-- A word read as signed or unsigned. -/
def intIn {n : Nat} (signed : Bool) (a : BitVec n) : Int := if signed then a.toInt else a.toNat

/-- The active lanes of a lane's segment (R60, R62). -/
def peers (x : Issue) (l : Nat) : List Nat := x.lanes.filter fun k => k / x.g.seg == l / x.g.seg

/-- The value of a finite operand; 0 of the others (R94). -/
def valueOf : FVal → ℚ
  | .fin n m e => (if n then -1 else 1) * m * (2 : ℚ) ^ e
  | _ => 0

/-- The value of an f32 word. -/
def f32Value (a : W32) : ℚ := valueOf (fmtF32.decode a.toNat)

/-- A finite word. -/
def finiteF32 (a : W32) : Prop := ∃ n m e, fmtF32.decode a.toNat = .fin n m e

/-- A finite word to which no finite word is preferred for a real number: none is nearer (R8, R131). -/
def nearestF32 (r : W32) (y : ℝ) : Prop :=
  finiteF32 r ∧ ∀ c, finiteF32 c → |(f32Value r : ℝ) - y| ≤ |(f32Value c : ℝ) - y|

/-- What an rdc operation does with two values, what an inactive lane brings, and the empty result (R67). -/
def rdcTable (op : RdcOp) (rnd : Rnd) : (W32 → W32 → W32 × Flags) × Option W32 × W32 :=
  let plain := fun (f : W32 → W32 → W32) (a b : W32) => (f a b, (0#5 : Flags))
  let nan := fun a : W32 => (fmtF32.decode a.toNat).isNaN
  let pick := fun (first : W32 → W32 → Bool) (a b : W32) =>
    (if nan a then (if nan b then 0x7FC00000#32 else b) else if nan b then a else if first a b then a else b,
      flagIf ((fmtF32.decode a.toNat).isSig || (fmtF32.decode b.toNat).isSig) flagNV)
  let le := fun a b : W32 => decide (fmtF32.key a.toNat ≤ fmtF32.key b.toNat)
  match op with
  | .addS32 => (plain (· + ·), some 0#32, 0#32)
  | .addF32 => (fun a b =>
      let r := fmtF32.sum rnd [fmtF32.decode a.toNat, fmtF32.decode b.toNat]
      (BitVec.ofNat 32 r.1, r.2), some 0x80000000#32, 0x80000000#32)
  | .minS32 => (plain fun a b => if a.toInt ≤ b.toInt then a else b, none, 0x7FFFFFFF#32)
  | .maxS32 => (plain fun a b => if a.toInt ≤ b.toInt then b else a, none, 0x80000000#32)
  | .minF32 => (pick le, none, 0x7F800000#32)
  | .maxF32 => (pick fun a b => !le a b, none, 0xFF800000#32)
  | .and => (plain (· &&& ·), none, 0xFFFFFFFF#32)
  | .or => (plain (· ||| ·), none, 0#32)
  | .xor => (plain (· ^^^ ·), none, 0#32)

/-- Element i of level d of R67's tree over the elements `el`, with the flags raised below it; absent with y gives y. -/
def treeAt (comb : W32 → W32 → W32 × Flags) (el : Nat → Option W32) : Nat → Nat → Option W32 × Flags
  | 0, i => (el i, 0#5)
  | d + 1, i =>
    match treeAt comb el d (2 * i), treeAt comb el d (2 * i + 1) with
    | (some a, f), (some b, h) => (some (comb a b).1, f ||| h ||| (comb a b).2)
    | (some a, f), (none, h) => (some a, f ||| h)
    | (none, f), (b, h) => (b, f ||| h)

/-- The tree over 2^d lanes from a first lane, of which those of `on` take part. A NaN result of min.f32 or max.f32 is the
canonical one, and a signalling NaN among the elements raises invalid, be it the only element (R95, log 105). -/
def reduced (op : RdcOp) (rnd : Rnd) (v : Nat → W32) (d first : Nat) (on : Nat → Bool) : W32 × Flags :=
  let t := rdcTable op rnd
  let r := treeAt t.1 (fun i => if on (first + i) then some (v (first + i)) else t.2.1) d 0
  let w := r.1.getD t.2.2
  let sig := (List.range (2 ^ d)).any fun i => on (first + i) && (fmtF32.decode (v (first + i)).toNat).isSig
  if op = .minF32 ∨ op = .maxF32 then
    (if (fmtF32.decode w.toNat).isNaN then 0x7FC00000#32 else w, r.2 ||| flagIf sig flagNV)
  else (w, r.2)

/-- rdc.add.f32.exact: one rounding of the exact sum, or −0.0 where no lane is active. -/
def reducedExact (rnd : Rnd) (v : Nat → W32) (d first : Nat) (on : Nat → Bool) : W32 × Flags :=
  let ls := ((List.range (2 ^ d)).map (first + ·)).filter on
  let r := fmtF32.sum rnd (ls.map fun l => fmtF32.decode (v l).toNat)
  if ls = [] then (0x80000000#32, 0#5) else (BitVec.ofNat 32 r.1, r.2)

/-- topk's order: whether a stands before b (R69). -/
def topkAbove : TopkOp → W32 → W32 → Bool
  | .s32, a, b | .s32Nz, a, b => decide (b.toInt < a.toInt)
  | .f32, a, b | .f32Nz, a, b =>
    !(fmtF32.decode a.toNat).isNaN && ((fmtF32.decode b.toNat).isNaN || decide (fmtF32.key b.toNat < fmtF32.key a.toNat))

/-- Whether topk may choose a value: the .nz forms exclude zeros (R69). -/
def topkTakes : TopkOp → W32 → Bool
  | .s32, _ | .f32, _ => true
  | .s32Nz, a => a != 0#32
  | .f32Nz, a => a != 0#32 && a != 0x80000000#32

/-- Whether topk chooses an active lane: it is a candidate, and fewer than k candidates of its segment stand before it,
equal values in the order of their lanes (R69). -/
def topkTaken (x : Issue) (v : Nat → W32) (top : TopkOp) (k l : Nat) : Bool :=
  let before := (peers x l).filter fun i => topkTakes top (v i)
    && (topkAbove top (v i) (v l) || (!topkAbove top (v l) (v i) && decide (i < l)))
  topkTakes top (v l) && decide (before.length < k)

/-- The lane that an lx instruction reads for a lane: its segment base is S × ⌊l / S⌋ and its offset l mod S (R65). -/
def lxSources (e : Enc) : List (Instr × (Nat → Nat → Nat → Nat → Option Nat)) :=
  [(.lxGet e, fun S base _ b => some (base + b % S)),
   (.lxRise e, fun _ base o b => if b ≤ o then some (base + o - b) else none),
   (.lxFall e, fun S base o b => if o + b < S then some (base + o + b) else none),
   (.lxFlip e, fun S base o b => some (base + Nat.xor o (b % S))),
   (.lxTurn e, fun S base o b => some (base + (o + b) % S))]

/-- The operations of salu on A and Op2 (R136). -/
def saluTable (e : Enc) : List (Instr × (W64 → W64 → W64)) :=
  [(.saluAdd e, fun a b => a + b), (.saluSub e, fun a b => a - b), (.saluMul e, fun a b => a * b),
   (.saluAnd e, fun a b => a &&& b), (.saluOr e, fun a b => a ||| b), (.saluXor e, fun a b => a ^^^ b),
   (.saluShl e, fun a k => BitVec.ofNat 64 (if 64 ≤ k.toNat then 0 else a.toNat * 2 ^ k.toNat)),
   (.saluShr e, fun a k => BitVec.ofNat 64 (if 64 ≤ k.toNat then 0 else a.toNat / 2 ^ k.toNat)),
   (.saluSar e, fun a k => BitVec.ofInt 64 (if 64 ≤ k.toNat then (if a.toInt < 0 then -1 else 0) else a.toInt / 2 ^ k.toNat)),
   (.saluMinS e, fun a b => BitVec.ofInt 64 (min a.toInt b.toInt)), (.saluMaxS e, fun a b => BitVec.ofInt 64 (max a.toInt b.toInt)),
   (.saluMinZ e, fun a b => BitVec.ofNat 64 (min a.toNat b.toNat)), (.saluMaxZ e, fun a b => BitVec.ofNat 64 (max a.toNat b.toNat)),
   (.saluMov e, fun _ b => b), (.saluNot e, fun a _ => ~~~a)]

/-- A 64-bit mask limited to the lanes of the group (R136, R140). -/
def lowLanes (w : Nat) (v : W64) : W64 := if 64 ≤ w then v else BitVec.ofNat 64 (v.toNat % 2 ^ w)

/-- An operand of mmov: a mask register counts its lanes only (R140). -/
def maskOperand (x : Issue) (v : BitVec 8) : W64 :=
  if 0x40 ≤ v.toNat ∧ v.toNat < 0x50 then lowLanes x.g.width (x.g.scalar v.toNat) else x.g.scalar v.toNat

/-- The lanes of a mask moved to an address, all else of the group as it was. -/
def MovedTo (g g0 : Group) (m t : W64) : Prop :=
  g = { g0 with lanes := g.lanes } ∧
    ∀ l, g.lanes[l]? = (g0.lanes[l]?).map fun y => if m.getLsbD l then { y with pc := t } else y

/-- The effect of an instruction that transfers its active lanes to a target that is aligned or that no lane takes
(R33, R48). -/
def Transfers (s : State) (i : Instr) (x : Issue) (t : W64) : Prop :=
  x.act = 0#64 ∨ t.toNat % 4 = 0 →
    ∃ g, exec i s = .next { s with chip := (x.chip0 s).setGroup g } ∧ MovedTo g x.g x.act t

/-- The state after the issuing group's precise trap (R359, R360): the issue itself has happened in nothing but the
acquire of a first issue. -/
def trapAt (s : State) (x : Issue) (cause : BitVec 8) (val mask : W64) : State :=
  let c := if x.g0.begun then s.chip else s.chip.acquire x.core .dev
  { s with chip := c.takeTrap x.g0 { cause, pc := BitVec.ofNat 64 x.ia, val, mask } }

/-- The same, xmask holding the active lanes. -/
def trapState (s : State) (x : Issue) (cause : BitVec 8) (val : W64) : State := trapAt s x cause val x.act

/-- The misaligned trap of a transfer (R48). -/
def TransferTraps (s : State) (i : Instr) (x : Issue) (t : W64) : Prop :=
  x.act ≠ 0#64 → t.toNat % 4 ≠ 0 → exec i s =
    .next (trapState s x 0x09 t)

/-- Lanes parked at the joins that `js` names let go: each runs on, or is held beside a handler it is no lane of (R360; a
handler's own lane runs on by the model's choice, log 43),
and sets or clears its bit of the marking mask of its jwait (R52, R53); their episodes end, and nothing else changes. -/
structure LetGo (g g0 : Group) (js : Nat → Bool) (mark : Bool) : Prop where
  lanes : ∀ l y, l < g0.width → g0.lanes[l]? = some y → g.lanes[l]? = some (match y.st with
    | .parked k _ => if js k then { y with st := if g0.inh && !g0.hlanes.getLsbD l then .held else .running } else y
    | _ => y)
  marks : ∀ n l, 0 < n → l < 64 → (g.regEnd (.m n) 0).getLsbD l = (match (g0.lanes[l]?).map (·.st) with
    | some (.parked k (some b)) =>
      if js k && b == n && decide (l < g0.width) then mark else (g0.regEnd (.m n) 0).getLsbD l
    | _ => (g0.regEnd (.m n) 0).getLsbD l)
  others : ∀ r l, l < 64 → (∀ n, r ≠ .m (n + 1)) → g.regEnd r l = g0.regEnd r l
  episodes : ∀ ep, ep ∈ g.episodes ↔ ep ∈ g0.episodes ∧ js ep.join = false
  rest : { g.bare with lanes := g0.lanes, episodes := g0.episodes } = g0.bare ∧ g.fst = g0.fst

/-- A join evaluated after `g0` (R52): where lanes are parked at it and no other lane that has not exited is named, they
are let go and clear their marks. Then, where lanes are parked and none runs or sleeps, every join's lanes are let go
and set theirs (R54). -/
def Evaluated (g g0 : Group) (j : Nat) : Prop :=
  ∃ h : Group,
    (if g0.parkedAt j ≠ 0#64 ∧ g0.jreg j &&& ~~~g0.exited &&& ~~~g0.parkedAt j = 0#64 then LetGo h g0 (· == j) false else h = g0)
    ∧ (if (∃ y ∈ h.lanes, y.st.isParked = true) ∧ ∀ y ∈ h.lanes, y.st.isRunning = false ∧ y.st.isAsleep = false then
        LetGo g h (· < 8) true
      else g = h)

/-- A group in which no lane is parked. -/
def noneParked (g : Group) : Prop := ∀ y ∈ g.lanes, y.st.isParked = false

/-- An instruction completes, and the chip is then `c`. -/
def Acts (s : State) (i : Instr) (c : Chip) : Prop := exec i s = .next { s with chip := c }

/-- The trap of the lowest failing lane: its cause and value, and xmask the failing lanes (R90, R218). -/
def LaneTraps (s : State) (i : Instr) (x : Issue) (fail : Nat → Option (BitVec 8 × W64)) : Prop :=
  ∀ l k v, l ∈ x.lanes → fail l = some (k, v) → (∀ m ∈ x.lanes, m < l → fail m = none) →
    exec i s = .next (trapAt s x k v (maskOf (x.lanes.filter fun m => (fail m).isSome)))

/-- Why an access of `n` bytes to the scratchpad fails (R85, R88, R90). -/
def spFault (x : Issue) (store : Bool) (n : Nat) (ea : W64) : Option (BitVec 8 × W64) :=
  let hearth := decide (0x1FFC00 ≤ ea.toNat ∧ ea.toNat < 0x200000)
  if ea.toNat % n ≠ 0 then some (0x09, ea)
  else if store && hearth then some (0x06, ea)
  else if hearth || decide (ea.toNat + n ≤ 1024 * x.desc.spg) then none else some (0x08, ea)

/-- A load from the scratchpad: a lane result that no instruction reads before a cycle (R87). -/
def SpLoad (s : State) (i : Instr) (x : Issue) (d : BitVec 8) (n : Nat) (f : Nat → Nat → W32) : Prop :=
  x.g.allSettled (dregs d n) → ∃ g at_, s.chip.cyc + 20 ≤ at_
    ∧ Acts s i ((x.chip0 s).setGroup (g.hold s.chip.cyc at_ (dregs d n))) ∧ g.FrameOf x.g (dregs d n) false
    ∧ LaneResult x g d n f

/-- Bytes written to a team's scratchpad in their order, and nothing else of the team. -/
def SpWritten (t u : Team) (ws : List (Nat × List Byte)) : Prop :=
  { u with sp := t.sp, lag := t.lag, old := t.old } = t ∧ ∀ a, SMap.get 0#8 u.sp a =
    ((ws.reverse.find? fun w => decide (w.1 ≤ a ∧ a < w.1 + w.2.length)).bind fun w => w.2[a - w.1]?).getD
      (SMap.get 0#8 t.sp a)

/-- A byte of the scratchpad as the hash unit sees it (R286). -/
def hashByte (t : Team) (a : Nat) : Byte := ((t.lag.find? fun l => l.at_ == a).map (·.byte)).getD (SMap.get 0#8 t.sp a)

/-- No byte stands twice among those that one side does not see. -/
def lagsOnce (t : Team) : Prop := (t.lag.map (·.at_)).Nodup ∧ (t.old.map (·.at_)).Nodup

/-- A store to the scratchpad: every ordinary access sees its bytes at once, and the hash unit sees the byte of each that it
saw, or the new one (R286). -/
def SpStore (s : State) (i : Instr) (x : Issue) (ws : List (Nat × List Byte)) : Prop :=
  ∃ (f : Team → Team) (n : Nat), Acts s i { (x.chip0 s).onTeam x.team.id f with fresh := n }
    ∧ ∀ t, SpWritten t (f t) ws
      ∧ (∀ w ∈ ws, ∀ a, w.1 ≤ a → a < w.1 + w.2.length → (f t).ordinary a = SMap.get 0#8 (f t).sp a)
      ∧ (∀ a, hashByte (f t) a = hashByte t a ∨ hashByte (f t) a = SMap.get 0#8 (f t).sp a)
      ∧ ∀ l ∈ (f t).lag, l ∈ t.lag ∨ x.g.id ∈ l.groups

/-- An instruction of the matrix array finds its lanes, and no lost word in its team (R144, R160). -/
def mxReady (x : Issue) : Prop :=
  x.g.width = 64 ∧ ~~~x.g0.exited &&& ~~~x.act = 0#64 ∧ x.team.lostWords = []

/-- No atom and no store of a strl of the issuing group is still out (R225, R240). -/
def nothingSent (s : State) (x : Issue) : Prop :=
  (∀ a ∈ s.chip.atoms, a.group ≠ x.g.id) ∧ ∀ h ∈ s.chip.held, h.group ≠ x.g.id

/-- The tile predicate of an instruction (R152). -/
def predicated (x : Issue) (e : Enc) : Bool := (x.g.kreg (e.c.toNat / 32)).getLsbD (e.d.toNat - 0x80)

/-- A tile written whole, and the flags of its elements raised; every other tile keeps its elements. -/
def TileEffect (s : State) (i : Instr) (x : Issue) (T : Nat) (w : Nat → Nat → W32) (fl : Flags) : Prop :=
  ∃ f : Team → Team,
    Acts s i (((x.chip0 s).onTeam x.team.id f).onGroup x.g.id fun g => { g with fst := g.fst ||| fl })
      ∧ ∀ t : Team, { f t with tiles := t.tiles } = t
        ∧ ∀ T' k j, k < 32 → j < 32 → (f t).tile T' k j = if T' = T then w k j else t.tile T' k j

/-- The issuing group after an instruction that writes a status or a value at group scope and acts elsewhere on the
chip: the scalar result, and all other registers and the flags as they were. -/
def Answers (c : Chip) (x : Issue) (d : BitVec 8) (v : W64) : Prop :=
  x.g.allSettled (sregs d) → ∃ g, c.group? x.g.id = some g ∧ ScalarResult g d v
    ∧ (∀ r, r ∉ sregs d → ∀ l, l < 64 → g.regEnd r l = x.g.regEnd r l) ∧ g.fst = x.g.fst

/-- No byte of memory differs. -/
def SameMemory (s : State) (c : Chip) : Prop := ∀ a, c.byte a = s.chip.byte a

/-- An instruction whose further registers come from a live region or table finds them free too (R21, R22). -/
def MoreFree (i : Instr) (x : Issue) (more : List RegName × List RegName) : Prop :=
  x.g0.mustWait x.now (readsOf i x.g.width ++ more.1) (writesOf i x.g.width ++ more.2.map fun r => (r, 0)) = false
    ∧ (x.g0.sbchk && x.g0.stallShort x.pos (readsOf i x.g.width ++ more.1)
        (writesOf i x.g.width ++ more.2.map fun r => (r, 0))) = false

/-- The soft instructions: form, TAPE-able, where a sequence number is written, and the sequence number in ordered mode
(R168, R184). -/
def softTable (e : Enc) (g : Group) : List (Instr × SoftForm × Option (BitVec 8) × W32) :=
  let q := (g.sreg (e.a.toNat + 1)).setWidth 32 + e.imm
  [(.sldFwd e, .sldFwd, none, q), (.sldBwd e, .sldBwd, none, q), (.sstBlend e, .blend, none, q),
   (.sstWrite e, .write, none, q), (.sstAdd e, .add, none, q), (.sstBwd e, .sstBwd, none, q),
   (.sseq e, .null, some e.d, (if e.b = 0xFF#8 then 0#64 else g.scalar e.b.toNat).setWidth 32 + e.imm)]

/-- The hop instructions: width and operation (R279). -/
def hopTable (e : Enc) (acc : HopAcc) : List (Instr × Bool × HashOp) :=
  [(.hopIns e, false, .ins), (.hopProbe e, false, .probe), (.hopDel e, false, .del), (.hopAcc acc e, false, .acc acc),
   (.hopIns64 e, true, .ins), (.hopProbe64 e, true, .probe), (.hopDel64 e, true, .del), (.hopAcc64 e, true, .acc64)]

/-- The drain instructions of a table and whether they clear (R288). -/
def drainTable (e : Enc) : List (Instr × Bool) := [(.hdrainKeep e, false), (.hdrainClear e, true)]

/-- The E form without a field set. -/
def blank : Enc :=
  { form := .e, q := 0, stall := 0, d := 0, a := 0, b := 0, c := 0, as_ := false, bs := false, sat := false, rnd := .rn,
    ty := .s32, imm := 0 }

/-- The push instructions: the class, and the entries of its queue in a core (R243, R244). -/
def pushTable (e : Enc) : List (Instr × EngClass × Nat) :=
  [(.pushCopy e, .copy, 128), (.pushIndex e, .index, 64), (.pushAttn e, .attn, 64), (.pushColl e, .coll, 32)]

/-- Whether a barrier's phase is complete (R264). -/
def barrierDone (y : Barrier) : Bool :=
  decide (y.expect ≠ 0 ∧ y.expect ≤ y.arrived ∧ y.bytes = 0#64 ∧ y.parked = 0)

/-- A barrier after its test: the phase flips where it is complete (R264). -/
def flipped (y : Barrier) : Barrier :=
  if barrierDone y then { y with phase := !y.phase, arrived := 0, wrote := [] } else y

/-- Nobody of the issuing team waits for a phase that its barrier b has completed (R265). -/
def Passed (c' : Chip) (x : Issue) (b : Nat) (y : Barrier) : Prop :=
  barrierDone y = true → ∀ g ∈ c'.groups, g.team = x.team.id → g.wait ≠ some (.barrier b y.phase)

/-- The issuing team after a step on its barrier b: what was complete flips, the step then makes it z, and it is tested
again; nothing else of the team changes, but for what an arrival lets be seen (R264, R265, R286). -/
def BarrierSet (c' : Chip) (x : Issue) (b : Nat) (y z : Barrier) (arrival : Bool) : Prop :=
  (∃ u, c'.team? x.team.id = some u ∧ { u with bars := x.team.bars, lag := x.team.lag, old := x.team.old } = x.team
      ∧ u.bars = x.team.bars.set b (flipped z)
      ∧ (if arrival then (∀ l ∈ u.lag ++ u.old, x.g.id ∉ l.groups) ∧ (∀ l ∈ u.lag, l ∈ x.team.lag) ∧ ∀ l ∈ u.old, l ∈ x.team.old
        else u.lag = x.team.lag ∧ u.old = x.team.old))
    ∧ Passed c' x b y ∧ Passed c' x b z

/-- The counters with one record changed. -/
def CounterSet (s : State) (c' : Chip) (n : Nat) (r : Counter) : Prop :=
  ∀ k, c'.counter k = if k = n then r else s.chip.counter k

/-- The context registers that hold a plain number: index and bits (R371). -/
def plainRegisters : List (Nat × Nat) := [(0x03, 32), (0x04, 12), (0x05, 32), (0x06, 32), (0x07, 32), (0x09, 23), (0x0A, 23)]

/-- The sys instructions (R369). -/
def sysAll (e : Enc) : List Instr :=
  [.sysTlbinvLeaf e, .sysTlbinvContext e, .sysTlbinvAll e, .sysCfgrd e, .sysCfgwr e, .sysFqreplayRetry e, .sysFqreplayDiscard e,
   .sysHaltEnable e, .sysHaltSuspend e, .sysHaltResume e, .sysHaltTeardown e]

/-- The job instructions (R322). -/
def jobAll (e : Enc) : List Instr := [.jobCwait e, .jobCadd e, .jobCaddInit e, .jobCancel e, .jobFork e]

/-- The region of the issuing team is closed (R316). -/
def Closed (c' : Chip) (x : Issue) : Prop := ∀ t, c'.team? x.team.id = some t → t.rec_.open_ = false

/-- An instruction that completes with a status, or a word, at group scope. -/
def Returns (s : State) (i : Instr) (x : Issue) (e : Enc) (v : W64) (P : Chip → Prop) : Prop :=
  ∃ c', Acts s i c' ∧ Answers c' x e.d v ∧ P c'

/-- The engine operation that the event names runs next: its code is the event's, and the earlier ones of its class and group
have run (R246, R352). -/
def Due (s : State) (o : EngOp) (code : Nat) : Prop := s.chip.opDue s.event.a code = some o

/-- The bytes that a copy command moves, each with its destination and its source or value (R257). -/
def copyTable (o : EngOp) : List (Instr × Nat × List (W64 × (W64 ⊕ Byte))) :=
  let f := fun at_ : Nat => BitVec.ofNat 64 (cmdNat o.cmd at_ 8)
  let nat := fun n : Nat => BitVec.ofNat 64 n
  let n := cmdNat o.cmd 4 4
  [(.cpLin, 0x01, (List.range n).map fun i => (f 8 + nat i, .inl (f 16 + nat i))),
   (.cp2d, 0x02, (List.range (cmdNat o.cmd 24 4)).flatMap fun r => (List.range n).map fun i =>
      (f 8 + nat r * f 32 + nat i, .inl (f 16 + nat r * f 40 + nat i))),
   (.cpFill, 0x03, (List.range n).map fun i => (f 8 + nat i, .inr ((o.cmd.drop (16 + i % 8)).headD 0#8)))]

/-- The bytes of a copy with their places, where every one of them passes its checks. -/
def placesOf (c : Chip) (o : EngOp) (bs : List (W64 × (W64 ⊕ Byte))) : Chip × List (Except Nat Move) :=
  bs.foldl (fun r b => let q := r.1.checkMove o { dst := b.1, src := b.2 }; (q.1, r.2 ++ [q.2])) (c, [])

/-- Every byte of memory and of scratchpads outside a list of places as it was, and the listed ones as given. -/
def BytesAre (c c' : Chip) (o : EngOp) (ps : List (Loc × Byte)) : Prop :=
  (∀ p ∈ ps, c'.locByte o p.1 = p.2) ∧ ∀ l, l.key ∉ ps.map (·.1.key) → c'.locByte o l = c.locByte o l

/-- The operation has run: nothing of it waits to run. -/
def HasRun (c' : Chip) (o : EngOp) : Prop := ∀ q ∈ c'.ops, q.id = o.id → q.started = true

/-- The operation's team is on the chip, with its launch. -/
def OnChip (s : State) (o : EngOp) : Prop := ∃ t l, s.chip.team? o.team = some t ∧ s.chip.launchOf t = some l

/-- A unit parks: it is the fault queue's newest, its entry of 32 bytes stands at TAIL, TAIL moves on, and the host is told
(R260, R372, R381). -/
def ParksUnit (s : State) (c' : Chip) (o : EngOp) (u : Nat) (va : W64) (reason : Nat) : Prop :=
  let d := dieOf o.core
  let fq := (s.chip.die d).fq
  let slot := fq.base + 32 * (fq.tail % 2 ^ fq.log2n)
  (∃ q, c'.parked = s.chip.parked ++ [q] ∧ q.op = o.id ∧ q.unit = u ∧ q.va = va ∧ q.reason = reason ∧ q.die = d ∧ q.void = false
    ∧ ∀ i, i < 32 → c'.byte (slot + i) = (bytesOfNat 8 va.toNat ++ bytesOfNat 4 u
      ++ [BitVec.ofNat 8 (cmdNat o.cmd 0 1), BitVec.ofNat 8 reason, if cmdNat o.cmd 0 1 = 0x12 then 1#8 else 0#8, 0#8]
      ++ bytesOfNat 8 q.token.toNat ++ bytesOfNat 2 o.core ++ bytesOfNat 2 o.ctx ++ bytesOfNat 4 0).getD i 0#8)
  ∧ (∀ a, ¬(slot ≤ a ∧ a < slot + 32) → c'.byte a = s.chip.byte a)
  ∧ c'.msix = s.chip.msix ++ [64 + d] ∧ (c'.die d).fq.tail = (fq.tail + 1) % 2 ^ 24

/-- No other operation of the group and class, and no parked unit of this one. -/
def Alone (s : State) (o : EngOp) : Prop :=
  (∀ q ∈ s.chip.ops, q ≠ o → ¬(q.group = o.group ∧ q.cls = o.cls)) ∧ ∀ p ∈ s.chip.parked, p.op ≠ o.id

/-- The operation ends with a failure, which its group's status word records (R248). -/
def FailsWith (s : State) (c' : Chip) (o : EngOp) (st : Nat) : Prop :=
  HasRun c' o ∧ (Alone s o → ∀ g, s.chip.group? o.group = some g → ∃ g', c'.group? o.group = some g'
    ∧ g'.status.get o.cls = statusFail (g.status.get o.cls) o.seq (cmdNat o.cmd 0 1) st)

/-- The attention commands' events: code, and what each comes to at its die (R342). -/
def kvTable (o : EngOp) : List (Instr × Nat × (Chip → KvEnd)) :=
  [(.kvNew, 0x20, Machine.kvNew o), (.kvAppend, 0x21, Machine.kvAppend o), (.kvFork, 0x22, Machine.kvFork o),
   (.kvRelease, 0x23, Machine.kvRelease o), (.kvCompact, 0x24, Machine.kvCompact o), (.kvAttn, 0x25, Machine.kvAttn o),
   (.kvRead, 0x26, Machine.kvRead o)]

/-- Byte a of the k-th block of a token block of a sequence: its owner's, 0 where there is none (R333, R334, R336). -/
def kvByte (c : Chip) (q : Sequence) (tb k a : Nat) : Byte :=
  match c.blocks.find? fun b => b.die == q.die && b.owner == q.ownerOf tb && b.lb == tb * q.p + k with
  | some b => SMap.get 0#8 b.data a
  | none => 0#8

/-- Element d of the K or V row of token t of a layer and head, exactly (R333, R336). -/
def kvElem (c : Chip) (q : Sequence) (l h t d v : Nat) : FVal :=
  let byte := kvByte c q (t / 64) (l * q.nhb + if q.lg6 then h / 2 else h)
  let num := fun a n => leNat ((List.range n).map fun i => byte (a + i))
  if q.lg6 then
    lgDecode (BitVec.ofNat 6 (num (12288 * (h % 2) + 6144 * v + 96 * (t % 64) + 12 * (d / 16)) 12 / 2 ^ (6 * (d % 16))))
      (byte (32768 + 0x48 + 8 * (h % 2) + 4 * v + d / 32)).toInt
  else fmtBF16.decode (num (16384 * v + 256 * (t % 64) + 2 * d) 2)

/-- Token t of a sequence lies in each of its blocks as token u of another does in its own: rows, retention byte, and
VALID set (R336). -/
def SlotSame (c c' : Chip) (q q' : Sequence) (t u : Nat) : Prop :=
  ∀ k, k < q.p →
    (if q.lg6 then ∀ i v j, i < 2 → v < 2 → j < 96 →
        kvByte c' q' (u / 64) k (12288 * i + 6144 * v + 96 * (u % 64) + j)
          = kvByte c q (t / 64) k (12288 * i + 6144 * v + 96 * (t % 64) + j)
      else ∀ v j, v < 2 → j < 256 →
        kvByte c' q' (u / 64) k (16384 * v + 256 * (u % 64) + j) = kvByte c q (t / 64) k (16384 * v + 256 * (t % 64) + j))
    ∧ kvByte c' q' (u / 64) k (32768 + u % 64) = kvByte c q (t / 64) k (32768 + t % 64)
    ∧ (kvByte c' q' (u / 64) k (32768 + 0x40 + u % 64 / 8)).getLsbD (u % 8) = true

/-- A sequence's children, and its HELD (R333). -/
def kids (c : Chip) (n : Nat) : List Sequence := c.sequences.filter fun r => r.parent == some n
def heldOver (rs : List Sequence) : Nat := (rs.map (·.f)).foldl max 0

/-- Blocks that a sequence owns at a token block or above. -/
def owned (q : Sequence) (tb : Nat) (b : KvBlock) : Bool := b.die == q.die && b.owner == q.num && decide (tb ≤ b.lb / q.p)

/-- One tile of R350: m, ℓ and o, from the tile's 64 scores and its rows of V. -/
def attnTile (z : Nat → Nat) (v : Nat → Nat → FVal) (r : Nat × Nat × (Nat → Nat)) : Nat × Nat × (Nat → Nat) :=
  let all := r.1 :: (List.range 64).map z
  let m := if all.any fun a => (fmtF32.decode a).isNaN then 0x7FC00000
    else all.foldl (fun a b => if fmtF32.key a ≤ fmtF32.key b then b else a) 0xFF800000
  if m = 0xFF800000 then r
  else
    let scale := fun a => fmtF32.decode (if a = 0xFF800000 then 0
      else (sfuExp2Of (fmtF32.sum .rn [fmtF32.decode a, (fmtF32.decode m).neg]).1).1)
    let prod := fun a b : FVal => (a.mul b).1
    (m, (fmtF32.sum .rn (prod (scale r.1) (fmtF32.decode r.2.1) :: (List.range 64).map fun t => scale (z t))).1,
      fun d => (fmtF32.sum .rn (prod (scale r.1) (fmtF32.decode (r.2.2 d))
        :: (List.range 64).map fun t => prod (scale (z t)) (v t d))).1)

/-- R350 over tokens 0 to L − 1 of a layer and head, for one query row: m, ℓ and o at its end. Tokens at L and above
score −∞, and their rows of V are multiplied by +0 as they stand (log 94). -/
def attnRow (c : Chip) (q : Sequence) (l h L scale : Nat) (query : Nat → FVal) : Nat × Nat × (Nat → Nat) :=
  (List.range ((L + 63) / 64)).foldl (fun r n =>
    let score := fun t =>
      if 64 * n + t < L then
        let dot := fmtF32.sum .rn ((List.range 128).map fun d => ((query d).mul (kvElem c q l h (64 * n + t) d 0)).1)
        (fmtF32.round .rn ((fmtF32.decode scale).mul (fmtF32.decode dot.1)).1).1
      else 0xFF800000
    attnTile score (fun t d => kvElem c q l h (64 * n + t) d 1) r) (0xFF800000, 0, fun _ => 0)

/-- RoundF32(a / b) (R350). -/
def quotientF32 (a b : Nat) : Nat :=
  match fmtF32.decode a, fmtF32.decode b with
  | .fin n m e, .fin k d g =>
    if d = 0 then (if m = 0 then 0x7FC00000 else fmtF32.inf (n != k))
    else (fmtF32.roundFin .rn (n != k) (m * 2 ^ 64 / d) (e - g - 64) (decide (m * 2 ^ 64 % d ≠ 0))).1
  | .inf n, .fin k _ _ => fmtF32.inf (n != k)
  | .fin n _ _, .inf k => fmtF32.signBit (n != k)
  | _, _ => 0x7FC00000

/-- The bytes of an end's outputs from a position on. -/
def outBytes (r : KvEnd) (at_ n : Nat) : List Byte := ((r.outs.map (·.2)).drop at_).take n

/-- An event of a port that is up leaves the port so, and nothing else of the machine differs. -/
def PortBecomes (s : State) (i : Instr) (p : Port) : Prop := Acts s i (s.chip.onPort s.event.a fun _ => p)

/-- A port that answers with a flit without payload, which returns every credit that is owed (R383). -/
def answering (p : Port) (owed type : Nat) (seq : BitVec 12) : Port :=
  { p with owed := 0, sent := p.sent ++ [(type, { seq, cred := BitVec.ofNat 16 owed, payload := [] })] }

/-- A SEQ lies at or before another on the circle of 4,096 (R383). -/
def before (x y : BitVec 12) : Bool := decide ((y - x).toNat < 2048)

/-- The address of byte i of a window access (R377, R382). -/
def windowAt (s : State) (off i : Nat) : Nat := s.control.hwinbase.toNat / 2 ^ 28 % 2 ^ 24 * 2 ^ 28 + off + i

end Sys2Proof.Expect

open Sys2Proof.Expect

/-- R118: the arithmetic integer instructions, at every width, type, SAT and operand form.
R118, R119: the bitwise, shift and move instructions, at every width and operand form. -/
def Obligations.IntegerResults : Prop :=
  (∀ (s : State) (x : Issue) (e : Enc) (b : BEnc), ∀ p ∈ arithmetic e b, Issues s p.1 x → Typed s p.1 x p.2.1 p.2.2)
  ∧ (∀ (s : State) (x : Issue) (e : Enc) (b : BEnc), ∀ p ∈ bitwise e b, Issues s p.1 x → Typed s p.1 x p.2.1 p.2.2)

/-- R118, R119: popc, clz, brev, sad, and the field instructions fsh, bfx, bfi and perm.
R120: cmp, sel and lea. -/
def Obligations.IntegerFieldAndCompareResults : Prop :=
  (∀ (s : State) (x : Issue) (e : Enc),
     (Issues s (.fsh e) x → LaneEffect s (.fsh e) x e.d 1 fun _ l =>
       BitVec.ofNat 32 (((x.g.opA e l).toNat * 2 ^ 32 + (x.g.opB e l).toNat)
         / 2 ^ (((x.g.opC e l).toNat + e.imm.toNat) % 2 ^ 32 % 32)))
     ∧ (Issues s (.bfx e) x → LaneEffect s (.bfx e) x e.d 1 fun _ l =>
       let p := fieldP (x.g.opC e l) e.imm
       let w := fieldW (x.g.opC e l) e.imm
       let v : Nat := (x.g.opA e l).toNat / 2 ^ p % 2 ^ w
       BitVec.ofInt 32 (if e.ty.signed ∧ w ≠ 0 ∧ 2 ^ (w - 1) ≤ v then (v : Int) - 2 ^ w else v))
     ∧ (Issues s (.bfi e) x → Bits32 s (.bfi e) x e.d fun l k =>
       let p := fieldP (x.g.opC e l) e.imm
       let w := fieldW (x.g.opC e l) e.imm
       if p ≤ k ∧ k < p + w then (x.g.opB e l).getLsbD (k - p) else (x.g.opA e l).getLsbD k)
     ∧ (Issues s (.perm e) x → LaneEffect s (.perm e) x e.d 1 fun _ l =>
       let sel := (if e.c = 0xFF#8 then e.imm else x.g.opC e l).toNat
       let src := fun i => if i < 4 then (x.g.opA e l).extractLsb' (8 * i) 8 else (x.g.opB e l).extractLsb' (8 * (i - 4)) 8
       permByte src sel 3 ++ permByte src sel 2 ++ permByte src sel 1 ++ permByte src sel 0)
     ∧ (Issues s (.popc e) x → LaneEffect s (.popc e) x e.d 1 fun _ l =>
       BitVec.ofNat 32 (if e.ty.is64 then ((List.range 64).filter (x.g.opA64 e l).getLsbD).length
         else ((List.range 32).filter (x.g.opA e l).getLsbD).length))
     ∧ (Issues s (.clz e) x → Typed s (.clz e) x e fun n _ a _ _ =>
       BitVec.ofNat n ((List.range n).takeWhile fun i => !a.getLsbD (n - 1 - i)).length)
     ∧ (Issues s (.brev e) x →
       if e.ty.is64 then Bits64 s (.brev e) x e.d fun l k => (x.g.opA64 e l).getLsbD (63 - k)
       else Bits32 s (.brev e) x e.d fun l k => (x.g.opA e l).getLsbD (31 - k))
     ∧ (Issues s (.sad e) x → LaneEffect s (.sad e) x e.d 1 fun _ l =>
       let d := fun i => Int.natAbs (((x.g.opA e l).extractLsb' (8 * i) 8).toNat - ((x.g.opB e l).extractLsb' (8 * i) 8).toNat : Int)
       let v := (x.g.opC e l).toNat + (d 0 + d 1 + d 2 + d 3)
       BitVec.ofNat 32 (if e.sat then min v (2 ^ 32 - 1) else v)))
  ∧ (∀ (s : State) (x : Issue) (e : Enc) (rel : Rel),
       (Issues s (.cmp rel e) x → MaskEffect s (.cmp rel e) x e.d fun l =>
         let a := if e.ty.is64 then asInt e (x.g.opA64 e l) else asInt e (x.g.opA e l)
         let b := if e.ty.is64 then asInt e (x.g.opB64 e l) else asInt e (x.g.opB e l)
         decide (l ∈ x.lanes) && (match rel with
           | .eq => decide (a = b) | .ne => decide (a ≠ b) | .lt => decide (a < b) | .le => decide (a ≤ b)
           | .gt => decide (a > b) | .ge => decide (a ≥ b)))
       ∧ (Issues s (.sel e) x →
         let pick := fun {α : Type} (l : Nat) (a b : α) => if (x.g.mreg (e.c.toNat - 0x40)).getLsbD l then a else b
         if e.ty.is64 then LaneEffect s (.sel e) x e.d 2 (pairWord fun l => pick l (x.g.opA64 e l) (x.g.opB64 e l))
         else LaneEffect s (.sel e) x e.d 1 fun _ l => pick l (x.g.opA e l) (x.g.opB e l))
       ∧ (Issues s (.lea e) x → LaneEffect s (.lea e) x e.d 2 (pairWord fun l =>
         let index := if e.ty.signed then (x.g.opB e l).signExtend 64 else (x.g.opB e l).setWidth 64
         x.g.opA64 e l + index * BitVec.ofNat 64 (2 ^ (e.c.toNat % 8)) + Enc.imm64 e)))

/-- R122, R123, R125, R127: the floating-point instructions at every type, rounding mode and operand form, with the
flags of the active lanes. -/
def Obligations.FloatResults : Prop :=
  ∀ (s : State) (x : Issue) (e : Enc) (b : BEnc), ∀ p ∈ floating e b, Issues s p.1 x →
    let r := fun l => p.2.2 (Fmt.ofTy p.2.1.ty) p.2.1.rnd (fpBits p.2.1.ty (x.g.opA p.2.1 l))
      (fpBits p.2.1.ty (x.g.opB p.2.1 l)) (fpBits p.2.1.ty (x.g.opC p.2.1 l))
    FlagEffect s p.1 x p.2.1.d 1 (fun _ l => BitVec.ofNat 32 (r l).1) fun l => (r l).2

/-- R122, R124, R126: fscale, fdot2 and fcmp. That fscale at f16 and bf16 takes all 32 bits of a scalar or literal B is the
model's choice (log 79). -/
def Obligations.FloatScaleDotCompare : Prop :=
  ∀ (s : State) (x : Issue) (e : Enc) (rel : FRel),
    let f := Fmt.ofTy e.ty
    (Issues s (.fscale e) x →
      let r := fun l => match f.decode (fpBits e.ty (x.g.opA e l)) with
        | .nan sg => (f.nan, flagIf sg flagNV)
        | .inf n => (f.inf n, 0#5)
        | .fin n m k => f.round e.rnd (.fin n m (k + (x.g.opB e l).toInt))
      FlagEffect s (.fscale e) x e.d 1 (fun _ l => BitVec.ofNat 32 (r l).1) fun l => (r l).2)
    ∧ (Issues s (.fdot2 e) x →
      let half := fun (w : W32) (i : Nat) => f.decode (w.extractLsb' (16 * i) 16).toNat
      let p := fun (l i : Nat) => (half (x.g.opA e l) i).mul (half (x.g.opB e l) i)
      let r := fun l => fmtF32.sum e.rnd [(p l 0).1, (p l 1).1, fmtF32.decode (x.g.opC e l).toNat]
      FlagEffect s (.fdot2 e) x e.d 1 (fun _ l => BitVec.ofNat 32 (r l).1) fun l => (p l 0).2 ||| (p l 1).2 ||| (r l).2)
    ∧ (Issues s (.fcmp rel e) x → x.g.allSettled (sregs e.d) → ∃ v : W64,
      let a := fun l => fpBits e.ty (x.g.opA e l)
      let b := fun l => fpBits e.ty (x.g.opB e l)
      let un := fun l => (f.decode (a l)).isNaN || (f.decode (b l)).isNaN
      let sig := fun l => (f.decode (a l)).isSig || (f.decode (b l)).isSig
      (∀ l, l < 64 → v.getLsbD l = (decide (l ∈ x.lanes) && (match rel with
        | .eq => !un l && !f.lt (a l) (b l) && !f.lt (b l) (a l)
        | .ne => un l || f.lt (a l) (b l) || f.lt (b l) (a l)
        | .lt => !un l && f.lt (a l) (b l) | .le => !un l && !f.lt (b l) (a l)
        | .gt => !un l && f.lt (b l) (a l) | .ge => !un l && !f.lt (a l) (b l)
        | .unord => un l | .ord => !un l)))
      ∧ GroupEffect s (.fcmp rel e) x (sregs e.d) true fun g => ScalarResult g e.d v
        ∧ g.fst = x.g.fst ||| orFlags (x.lanes.map fun l =>
          flagIf (match rel with | .lt | .le | .gt | .ge => un l | _ => sig l) flagNV))

/-- A value of a format rounds to itself in every mode and raises no flag (R8, R94): the rounding of every
floating-point result is exact where the exact result is representable. -/
def Obligations.RepresentableValuesRoundToThemselves : Prop :=
  ∀ f ∈ [fmtF32, fmtF16, fmtBF16], ∀ (rnd : Rnd) (a : Nat), a < 2 ^ f.bits → (f.decode a).isNaN = false →
    f.round rnd (f.decode a) = (a, 0#5)

/-- R98, R99, R128, R129: every conversion pair.
R130, R132 to R134: packing, and the LG6 instructions. That a source of several registers whose field is 0xFF gives the
literal or zero in each of them is the model's choice (log 78). -/
def Obligations.ConversionAndPackingResults : Prop :=
  (∀ (s : State) (x : Issue) (e : Enc) (p : CvtPair), Issues s (.cvt p e) x →
     match cvtKind p with
     | .ff src dst =>
       let v := fun l => src.decode ((x.g.opA e l).toNat % 2 ^ src.bits)
       FlagEffect s (.cvt p e) x e.d 1 (fun _ l => BitVec.ofNat 32 (dst.round e.rnd (v l)).1)
         fun l => (dst.round e.rnd (v l)).2 ||| flagIf (v l).isSig flagNV
     | .fi src sg n =>
       let r := fun l => src.toInt e.rnd sg n ((x.g.opA e l).toNat % 2 ^ src.bits)
       if n = 64 then FlagEffect s (.cvt p e) x e.d 2 (pairWord fun l => BitVec.ofInt 64 (r l).1) fun l => (r l).2
       else FlagEffect s (.cvt p e) x e.d 1 (fun _ l => BitVec.ofInt 32 (r l).1) fun l => (r l).2
     | .int_f sg n dst =>
       let v := fun l => if n = 64 then intIn sg (x.g.opA64 e l) else intIn sg (x.g.opA e l)
       let r := fun l => dst.round e.rnd (.fin (decide (v l < 0)) (v l).natAbs 0)
       FlagEffect s (.cvt p e) x e.d 1 (fun _ l => BitVec.ofNat 32 (r l).1) fun l => (r l).2
     | .widen sg => LaneEffect s (.cvt p e) x e.d 2 (pairWord fun l =>
         if sg then (x.g.opA e l).signExtend 64 else (x.g.opA e l).setWidth 64)
     | .narrow sg => LaneEffect s (.cvt p e) x e.d 1 fun _ l =>
         let v := intIn sg (x.g.opA64 e l)
         let lo : Int := if sg then -2 ^ 31 else 0
         let hi : Int := if sg then 2 ^ 31 - 1 else 2 ^ 32 - 1
         BitVec.ofInt 32 (if e.sat then max lo (min v hi) else v))
  ∧ (∀ (s : State) (x : Issue) (e : Enc) (h : Half) (sg : Sign),
       let block := fun (l i : Nat) => if e.a = 0xFF#8 then x.g.vec e e.a l else x.g.vreg (e.a.toNat + i) l
       let byte := fun (l i : Nat) => let v := (block l i).toInt
         if e.sat then (if sg = .s then BitVec.ofInt 8 (max (-128) (min v 127)) else BitVec.ofInt 8 (max 0 (min v 255)))
         else BitVec.ofInt 8 v
       let scale := fun l => ((x.g.opB e l).extractLsb' 0 8).toInt
       let code := fun (l i : Nat) => lgNorm ((block l (i / 4)).extractLsb' (8 * (i % 4)) 6)
       (Issues s (.pack16 h e) x → LaneEffect s (.pack16 h e) x e.d 1 fun _ l =>
         (x.g.opB e l).extractLsb' 0 16 ++ (x.g.opA e l).extractLsb' 0 16)
       ∧ (Issues s (.pack8 sg e) x → LaneEffect s (.pack8 sg e) x e.d 1 fun _ l => byte l 3 ++ byte l 2 ++ byte l 1 ++ byte l 0)
       ∧ (Issues s (.unpk16 h e) x → LaneEffect s (.unpk16 h e) x e.d 2 fun i l =>
         ((x.g.opA e l).extractLsb' (16 * i) 16).setWidth 32)
       ∧ (Issues s (.unpk8 sg e) x → LaneEffect s (.unpk8 sg e) x e.d 4 fun i l =>
         let b := (x.g.opA e l).extractLsb' (8 * i) 8
         if sg = .s then b.signExtend 32 else b.setWidth 32)
       ∧ (Issues s (.lgqCode e) x → FlagEffect s (.lgqCode e) x e.d 1
         (fun _ l => (lgQuant (x.g.opA e l) (scale l)).1.setWidth 32) fun l => (lgQuant (x.g.opA e l) (scale l)).2)
       ∧ (Issues s (.lgqPairs e) x → FlagEffect s (.lgqPairs e) x e.d 1
         (fun _ l => BitVec.ofNat 32 ((lgQuant (block l 1) (scale l)).1.toNat * 2 ^ 8 + (lgQuant (block l 0) (scale l)).1.toNat))
         fun l => (lgQuant (block l 0) (scale l)).2 ||| (lgQuant (block l 1) (scale l)).2)
       ∧ (Issues s (.lgx e) x → LaneEffect s (.lgx e) x e.d 1 fun _ l =>
         BitVec.ofNat 32 (fmtF32.round .rn (lgDecode ((x.g.opA e l).extractLsb' 0 6) (scale l))).1)
       ∧ (Issues s (.lgpkPack e) x → LaneEffect s (.lgpkPack e) x e.d 3 fun j l =>
         BitVec.ofNat 32 (((List.range 16).map fun i => (code l i).toNat * 2 ^ (6 * i)).sum / 2 ^ (32 * j)))
       ∧ (Issues s (.lgpkUnpack e) x → LaneEffect s (.lgpkUnpack e) x e.d 4 fun j l =>
         let p := (block l 0).toNat + (block l 1).toNat * 2 ^ 32 + (block l 2).toNat * 2 ^ 64
         let c := fun k => lgNorm (BitVec.ofNat 6 (p / 2 ^ (6 * (4 * j + k))))
         BitVec.ofNat 32 ((c 0).toNat + (c 1).toNat * 2 ^ 8 + (c 2).toNat * 2 ^ 16 + (c 3).toNat * 2 ^ 24)))

/-- R131: the special functions complete with the results and flags of their functions: on the operands of the rule's
table those of the table; on every other finite operand the nearest word to the reciprocal, to the reciprocal square root
and to the square root; for exp2 and log2 the exact results the rule names, overflow from 128 on, and between the exact
results of the neighbouring whole numbers elsewhere. A result that is not exact raises inexact. -/
def Obligations.SpecialFunctionResults : Prop :=
  let word := fun (r : Nat × Flags) => (BitVec.ofNat 32 r.1, r.2)
  let rcp := fun a : W32 => word (sfuRcpOf a.toNat)
  let rsqrt := fun a : W32 => word (sfuRsqrtOf a.toNat)
  let sqrt := fun a : W32 => word (sfuSqrtOf a.toNat)
  let exp2 := fun a : W32 => word (sfuExp2Of a.toNat)
  let log2 := fun a : W32 => word (sfuLog2Of a.toNat)
  (∀ (s : State) (x : Issue) (e : Enc),
    ∀ p ∈ [(Instr.sfuRcp e, rcp), (.sfuRsqrt e, rsqrt), (.sfuSqrt e, sqrt), (.sfuExp2 e, exp2), (.sfuLog2 e, log2)],
      Issues s p.1 x → FlagEffect s p.1 x e.d 1 (fun _ l => (p.2 (x.g.opA e l)).1) fun l => (p.2 (x.g.opA e l)).2)
  ∧ (∀ p ∈ [(0x00000000#32, 0x7F800000#32, flagDZ), (0x80000000#32, 0xFF800000#32, flagDZ),
      (0x7F800000#32, 0x00000000#32, 0#5), (0xFF800000#32, 0x80000000#32, 0#5)], rcp p.1 = p.2)
  ∧ (∀ p ∈ [(0x00000000#32, 0x7F800000#32, flagDZ), (0x80000000#32, 0xFF800000#32, flagDZ),
      (0x7F800000#32, 0x00000000#32, 0#5), (0xFF800000#32, 0x7FC00000#32, flagNV)], rsqrt p.1 = p.2)
  ∧ (∀ p ∈ [(0x00000000#32, 0x00000000#32, 0#5), (0x80000000#32, 0x80000000#32, 0#5),
      (0x7F800000#32, 0x7F800000#32, 0#5), (0xFF800000#32, 0x7FC00000#32, flagNV)], sqrt p.1 = p.2)
  ∧ (∀ p ∈ [(0x00000000#32, 0x3F800000#32, 0#5), (0x80000000#32, 0x3F800000#32, 0#5),
      (0x7F800000#32, 0x7F800000#32, 0#5), (0xFF800000#32, 0x00000000#32, 0#5)], exp2 p.1 = p.2)
  ∧ (∀ p ∈ [(0x00000000#32, 0xFF800000#32, flagDZ), (0x80000000#32, 0xFF800000#32, flagDZ),
      (0x7F800000#32, 0x7F800000#32, 0#5), (0xFF800000#32, 0x7FC00000#32, flagNV)], log2 p.1 = p.2)
  ∧ (∀ f ∈ [rcp, rsqrt, sqrt, exp2, log2], ∀ a : W32, (fmtF32.decode a.toNat).isNaN = true →
      f a = (0x7FC00000#32, flagIf (fmtF32.decode a.toNat).isSig flagNV))
  ∧ (∀ f ∈ [rsqrt, sqrt, log2], ∀ a : W32, 0x80000000 < a.toNat → a.toNat < 0xFF800000 → f a = (0x7FC00000#32, flagNV))
  ∧ (∀ a : W32, finiteF32 a → f32Value a ≠ 0 →
      let y := (f32Value a)⁻¹
      if 2 ^ 128 - 2 ^ 103 ≤ |y| then rcp a = (if y < 0 then 0xFF800000#32 else 0x7F800000#32, flagOF ||| flagNX)
      else nearestF32 (rcp a).1 y ∧ ((rcp a).1.msb = true ↔ y < 0)
        ∧ (rcp a).2 = (let inexact := decide (f32Value (rcp a).1 ≠ y)
            flagIf inexact flagNX ||| flagIf (inexact && decide (|y| < (2 : ℚ) ^ (-126 : ℤ) - 2 ^ (-151 : ℤ))) flagUF))
  ∧ (∀ a : W32, finiteF32 a → 0 < f32Value a →
      nearestF32 (sqrt a).1 (Real.sqrt (f32Value a : ℝ)) ∧ (sqrt a).2 = flagIf (decide (f32Value (sqrt a).1 ^ 2 ≠ f32Value a)) flagNX
      ∧ nearestF32 (rsqrt a).1 (Real.sqrt (f32Value a : ℝ))⁻¹
      ∧ (rsqrt a).2 = flagIf (decide (f32Value (rsqrt a).1 ^ 2 * f32Value a ≠ 1)) flagNX)
  ∧ (∀ a : W32, finiteF32 a →
      (128 ≤ f32Value a → exp2 a = (0x7F800000#32, flagOF ||| flagNX))
      ∧ (f32Value a ≤ -150 → exp2 a = (0#32, flagUF ||| flagNX))
      ∧ ∀ i : Int, -150 ≤ i → i < 128 →
        (f32Value a = i → i ≠ -150 → f32Value (exp2 a).1 = (2 : ℚ) ^ i ∧ (exp2 a).2 = 0#5)
        ∧ (i < f32Value a → f32Value a < i + 1 → finiteF32 (exp2 a).1 ∧ (2 : ℚ) ^ i ≤ f32Value (exp2 a).1
          ∧ f32Value (exp2 a).1 ≤ (2 : ℚ) ^ (i + 1) ∧ (exp2 a).2 &&& flagNX = flagNX))
  ∧ (∀ (a : W32) (i : Int), finiteF32 a →
      (f32Value a = (2 : ℚ) ^ i → f32Value (log2 a).1 = i ∧ finiteF32 (log2 a).1 ∧ (log2 a).2 = 0#5)
      ∧ ((2 : ℚ) ^ i < f32Value a → f32Value a < (2 : ℚ) ^ (i + 1) →
        finiteF32 (log2 a).1 ∧ i ≤ f32Value (log2 a).1 ∧ f32Value (log2 a).1 ≤ i + 1 ∧ (log2 a).2 = flagNX))

/-- R63 to R66, R70: vote, match, rank and elect over the active lanes of each segment. -/
def Obligations.VoteMatchRankResults : Prop :=
  ∀ (s : State) (x : Issue) (e : Enc) (sz : MatchSize), 0 < x.g.seg →
    let P := fun l => if e.as_ then (x.g.scalar e.a.toNat).getLsbD l else x.g.vec e e.a l != 0#32
    (Issues s (.voteAny e) x → LaneEffect s (.voteAny e) x e.d 1 fun _ l => if ∃ k ∈ peers x l, P k = true then 1#32 else 0#32)
    ∧ (Issues s (.voteAll e) x → LaneEffect s (.voteAll e) x e.d 1 fun _ l => if ∀ k ∈ peers x l, P k = true then 1#32 else 0#32)
    ∧ (Issues s (.voteCount e) x → LaneEffect s (.voteCount e) x e.d 1 fun _ l => BitVec.ofNat 32 ((peers x l).filter P).length)
    ∧ (Issues s (.voteBallot e) x → MaskEffect s (.voteBallot e) x e.d fun l => decide (l ∈ x.lanes) && P l)
    ∧ (Issues s (.matchLanes sz e) x →
      let v := fun l => match sz with | .s32 => (x.g.vec e e.a l).setWidth 64 | .s64 => x.g.vec2 e e.a l
      Bits64 s (.matchLanes sz e) x e.d fun l k => decide (k ∈ peers x l) && v k == v l)
    ∧ (Issues s (.rank e) x → LaneEffect s (.rank e) x e.d 1 fun _ l =>
      BitVec.ofNat 32 ((peers x l).filter fun k => decide (k < l)).length)
    ∧ (Issues s (.elect e) x → MaskEffect s (.elect e) x e.d fun l =>
      decide (l ∈ x.lanes) && (peers x l).all fun k => decide (l ≤ k))

/-- R65: the five lx instructions at both widths; the fill where no lane is selected, 0 from an exited lane. -/
def Obligations.LaneExchangeResults : Prop :=
  ∀ (s : State) (x : Issue) (e : Enc), 0 < x.g.seg → ∀ p ∈ lxSources e, Issues s p.1 x →
    let b := fun l => (x.g.opB e l + (Enc.imm64 e).setWidth 32).toNat
    let src := fun l => p.2 x.g.seg (x.g.seg * (l / x.g.seg)) (l % x.g.seg) (b l)
    if e.ty.is64 then LaneEffect s p.1 x e.d 2 (pairWord fun l => match src l with
      | none => x.g.opC64 e l
      | some k => if x.g.exited.getLsbD k then 0#64 else x.g.vec2 e e.a k)
    else LaneEffect s p.1 x e.d 1 fun _ l => match src l with
      | none => x.g.opC e l
      | some k => if x.g.exited.getLsbD k then 0#32 else x.g.vec e e.a k

/-- R67 to R69: rdc, scan and topk: the tree of R67 over all lanes or over each segment, or the one rounding of the exact
sum; the tree over the lanes up to a lane, or before it; and the k greatest candidates of each segment. That R95 also governs
the lone NaN of a min.f32 or max.f32, which the tree of R67 would hand on as it stands, is the model's reading (log 105). -/
def Obligations.ReductionResults : Prop :=
  ∀ (s : State) (x : Issue) (e : Enc) (op : RdcOp) (sop : ScanOp) (top : TopkOp) (dw ds : Nat),
     x.g.width = 2 ^ dw → x.g.seg = 2 ^ ds → dw ≤ 6 → ds ≤ 6 →
     let v := fun l => x.g.vec e e.a l
     let act := fun l => x.act.getLsbD l
     let rdc := fun d first => if e.sat then reducedExact e.rnd v d first act else reduced op e.rnd v d first act
     let base := fun l => 2 ^ ds * (l / 2 ^ ds)
     let sext := fun r : W32 => match op with | .addS32 | .minS32 | .maxS32 => r.signExtend 64 | _ => r.setWidth 64
     let sc := match sop with | .s32Inc => (RdcOp.addS32, true) | .s32Exc => (RdcOp.addS32, false) | .f32Inc => (RdcOp.addF32, true) | .f32Exc => (RdcOp.addF32, false)
     let k := ((Enc.imm64 e).setWidth 32 : W32).toNat
     (Issues s (.rdc op e) x → e.as_ = true →
       FlagEffect s (.rdc op e) x e.d 1 (fun _ l => (rdc ds (base l)).1) fun l => (rdc ds (base l)).2)
     ∧ (Issues s (.rdc op e) x → e.as_ = false → x.g.allSettled (sregs e.d) →
       GroupEffect s (.rdc op e) x (sregs e.d) true fun g =>
         ScalarResult g e.d (sext (rdc dw 0).1) ∧ g.fst = x.g.fst ||| (rdc dw 0).2)
     ∧ (Issues s (.scan sop e) x →
       let r := fun l => reduced sc.1 e.rnd v ds (base l) fun m => act m && (if sc.2 then decide (m ≤ l) else decide (m < l))
       FlagEffect s (.scan sop e) x e.d 1 (fun _ l => (r l).1) fun l => (r l).2)
     ∧ (Issues s (.topk top e) x → x.g.allSettled (sregs e.d ++ dregs e.c 1) →
       GroupEffect s (.topk top e) x (sregs e.d ++ dregs e.c 1) false fun g =>
         (∃ w : W64, ScalarResult g e.d w ∧ ∀ l, l < 64 → w.getLsbD l = (decide (l ∈ x.lanes) && topkTaken x v top k l))
         ∧ LaneResult x g e.c 1 fun _ l => BitVec.ofNat 32 ((peers x l).filter (topkTaken x v top k)).length)

/-- R135 to R137, R139: salu, scmp, bcast and pick.
R140: mmov. -/
def Obligations.ScalarAndMaskResults : Prop :=
  (∀ (s : State) (x : Issue) (e : Enc) (rel : SRel),
     let a := if e.a = 0xFF#8 then Enc.lit e else x.g.scalar e.a.toNat
     let op2 := if e.b = 0xFF#8 then Enc.imm64 e else x.g.scalar e.b.toNat
     let low := fun v => if 0x40 ≤ e.d.toNat then lowLanes x.g.width v else v
     (∀ p ∈ saluTable e, Issues s p.1 x → ScalarEffect s p.1 x e.d (low (p.2 a op2)))
     ∧ (Issues s (.saluLea e) x → ScalarEffect s (.saluLea e) x e.d
       (low (a + x.g.scalar e.b.toNat * BitVec.ofNat 64 (2 ^ (e.c.toNat % 8)) + Enc.imm64 e)))
     ∧ (Issues s (.scmp rel e) x → ScalarEffect s (.scmp rel e) x e.d
       (if (match rel with
         | .eq => a = op2 | .ne => a ≠ op2 | .lt => a.toInt < op2.toInt | .le => a.toInt ≤ op2.toInt
         | .gt => a.toInt > op2.toInt | .ge => a.toInt ≥ op2.toInt | .ltz => a.toNat < op2.toNat | .lez => a.toNat ≤ op2.toNat
         | .gtz => a.toNat > op2.toNat | .gez => a.toNat ≥ op2.toNat : Bool) then 1#64 else 0#64))
     ∧ (Issues s (.bcast e) x → if e.ty.is64 then LaneEffect s (.bcast e) x e.d 2 (pairWord fun _ => a)
       else LaneEffect s (.bcast e) x e.d 1 fun _ _ => a.setWidth 32)
     ∧ (Issues s (.pick e) x → ScalarEffect s (.pick e) x e.d
       (let i := op2.toNat % x.g.width
        if x.g.exited.getLsbD i then 0#64
        else if e.ty.is64 then x.g.vec2 e e.a i
        else if e.ty.signed then (x.g.vec e e.a i).signExtend 64 else (x.g.vec e e.a i).setWidth 64)))
  ∧ (∀ (s : State) (x : Issue) (e : Enc), x.g.width ≤ 64 →
       let a := maskOperand x e.a
       let b := maskOperand x e.b
       (∀ p ∈ [(Instr.mmovAnd e, a &&& b), (.mmovOr e, a ||| b), (.mmovXor e, a ^^^ b), (.mmovAndn e, a &&& ~~~b),
           (.mmovNot e, ~~~a), (.mmovFroms e, a)], Issues s p.1 x → ScalarEffect s p.1 x e.d (lowLanes x.g.width p.2))
       ∧ (Issues s (.mmovTos e) x → ScalarEffect s (.mmovTos e) x e.d a)
       ∧ (Issues s (.mmovPopc e) x → ScalarEffect s (.mmovPopc e) x e.d
         (BitVec.ofNat 64 ((List.range 64).filter a.getLsbD).length)))

/-- R20, R43, R45: what the issue of an instruction does to its group before the effect: of the running lanes those at
the least program counter move past it, the active ones among them are those its mask names, and the count of
starved issues, the stall position and the next issue cycle follow. -/
def Obligations.IssueBookkeeping : Prop :=
  ∀ (s : State) (i : Instr) (x : Issue) (gid : Nat), s.current = some gid → s.chip.issueAt gid i = some x →
    ∃ (g : Group) (sh : Shape), s.chip.group? gid = some g ∧ shapeOf i = some sh ∧ x.g0 = g.commit g.dist
      ∧ (∃ y ∈ g.lanes, y.st = .running ∧ y.pc.toNat = x.ia) ∧ (∀ y ∈ g.lanes, y.st = .running → x.ia ≤ y.pc.toNat)
      ∧ (∀ l : Nat, x.g.lanes[l]? = (g.lanes[l]?).map fun (y : Lane) =>
          if y.st = .running ∧ y.pc.toNat = x.ia then { y with pc := y.pc + BitVec.ofNat 64 sh.len } else y)
      ∧ (∀ l, l < 64 → x.act.getLsbD l = (decide (l < g.width)
          && ((g.lanes[l]?).any fun y => y.st == .running && y.pc.toNat == x.ia) && (x.g0.mreg sh.q).getLsbD l))
      ∧ x.g.starve = (if g.lanes.any fun y => y.st == .running && decide (x.ia < y.pc.toNat) then g.starve + 1 else 0)
      ∧ x.g.readyAt = s.chip.cyc + 1 + sh.stall ∧ x.g.dist = g.dist + 1 + sh.stall
      ∧ x.g.fixedBy = max g.fixedBy (s.chip.cyc + fixedLatency i)

/-- R47, R48, R138: nop, br, jmp, call, ret and sbr at every form: where the lanes go, the link register of call, and
the misaligned trap. -/
def Obligations.ControlTransfers : Prop :=
  ∀ (s : State) (x : Issue) (e : Enc) (b : BEnc),
    let rel := BitVec.ofNat 64 x.ia + Enc.imm64 e
    let jump := if e.as_ then x.g.scalar e.a.toNat else rel
    let a := if e.a = 0xFF#8 then Enc.lit e else x.g.scalar e.a.toNat
    (Issues s (.nop e) x → exec (.nop e) s = .next { s with chip := (x.chip0 s).setGroup x.g })
    ∧ (Issues s (.nopB b) x → exec (.nopB b) s = .next { s with chip := (x.chip0 s).setGroup x.g })
    ∧ (∀ p ∈ [(Instr.br e, rel), (.jmp e, jump), (.ret e, x.g.scalar e.a.toNat), (.retB b, x.g.scalar b.a.toNat)],
        Issues s p.1 x → Transfers s p.1 x p.2 ∧ TransferTraps s p.1 x p.2)
    ∧ (Issues s (.call e) x → TransferTraps s (.call e) x jump)
    ∧ (Issues s (.call e) x → x.act = 0#64 ∨ jump.toNat % 4 = 0 → x.g.allSettled (sregs e.d) →
        ∃ g g1, exec (.call e) s = .next { s with chip := (x.chip0 s).setGroup g } ∧ MovedTo g1 x.g x.act jump
          ∧ g.FrameOf g1 (sregs e.d) false ∧ ScalarResult g e.d (BitVec.ofNat 64 (x.ia + x.len)))
    ∧ (∀ p ∈ [(Instr.sbrNz e, decide (a ≠ 0#64)), (.sbrZ e, decide (a = 0#64))], Issues s p.1 x →
        (p.2 = false → exec p.1 s = .next { s with chip := (x.chip0 s).setGroup x.g })
        ∧ (p.2 = true → rel.toNat % 4 = 0 →
          ∃ g, exec p.1 s = .next { s with chip := (x.chip0 s).setGroup g } ∧ MovedTo g x.g x.here rel)
        ∧ (p.2 = true → rel.toNat % 4 ≠ 0 → exec p.1 s =
          .next (trapState s x 0x09 rel)))

/-- R49, R50: the join masks that jset.m, jset.act and jclr write, and the join's evaluation after it.
R51 to R54: a jwait parks its active lanes, and opens an episode where none was parked at the join; then its join is
evaluated: lanes that run on clear their marks, and set them where nothing else can release them. That a handler's own lane
which a join releases while INH = 1 runs on, where R360's words hold every lane that becomes running, and that a marking
mask's pending write completes with the mark, are the model's choices (logs 43 and 96). -/
def Obligations.JoinResults : Prop :=
  (∀ (s : State) (x : Issue) (e : Enc),
     let j := e.d.toNat - 0x50
     ∀ p ∈ [(Instr.jsetM e, if e.a = 0xFF#8 then Enc.lit e else x.g.scalar e.a.toNat), (.jsetAct e, x.act), (.jclr e, 0#64)],
       Issues s p.1 x → x.g.settled (.j j) = true → j < 8 →
       ∃ g0 g, exec p.1 s = .next { s with chip := (x.chip0 s).setGroup g } ∧ g0.FrameOf x.g [.j j] false
         ∧ (∀ l, l < 64 →
           (g0.jreg j).getLsbD l = (p.2.getLsbD l && decide (l < x.g.width) && !x.g.exited.getLsbD l)
           ∧ g0.regEnd (.j j) l = g0.jreg j)
         ∧ Evaluated g g0 j ∧ ∀ a, ((x.chip0 s).setGroup g).byte a = s.chip.byte a)
  ∧ (∀ (s : State) (x : Issue) (e : Enc), Issues s (.jwait e) x →
       let j := e.a.toNat - 0x50
       let mark := if e.b = 0xFF#8 then none else some (e.b.toNat - 0x40)
       let timeout := match e.form with | .e => e.imm.toNat | .el l => l.toNat | .bl l => l.toNat
       (x.act = 0#64 → exec (.jwait e) s = .next { s with chip := (x.chip0 s).setGroup x.g })
       ∧ (x.act ≠ 0#64 → j < 8 →
         ∃ g0 g, exec (.jwait e) s = .next { s with chip := (x.chip0 s).setGroup g }
           ∧ g0 = { x.g with
               lanes := g0.lanes
               episodes := if x.g.parkedAt j = 0#64 then x.g.episodes ++ [{ join := j, t0 := s.chip.cyc, t := timeout }]
                 else x.g.episodes }
           ∧ (∀ l, g0.lanes[l]? = (x.g.lanes[l]?).map fun y =>
               if x.act.getLsbD l then { y with st := .parked j mark } else y)
           ∧ Evaluated g g0 j ∧ ∀ a, ((x.chip0 s).setGroup g).byte a = s.chip.byte a))

/-- R49, R52, R54 to R56, R59, R361: exit, and exitc in a maintenance launch: the active lanes exit and leave every join mask.
Where every lane of the handler has exited, the group leaves it and its held lanes run. Each join that is then complete
releases its lanes, and if the lanes left are parked, with none running or asleep, every join releases its lanes as at a
timeout. exitc records its target for the team. No byte of memory changes. That a handler's own parked lane runs on, and that a
marking mask's pending write completes with the mark, are the model's choices (logs 43 and 96). -/
def Obligations.ExitsOfLanes : Prop :=
  ∀ (s : State) (x : Issue) (e : Enc) (b : BEnc),
    let target := if e.as_ then x.g.scalar e.a.toNat else BitVec.ofNat 64 x.ia + Enc.imm64 e
    let exits := fun (t : State) => ∃ g0 h g g' : Group,
      let leaves := x.g.inh = true ∧ x.g.hlanes &&& ~~~g0.exited = 0#64
      g0 = { x.g with lanes := g0.lanes, j := g0.j, inh := g0.inh, hlanes := g0.hlanes }
      ∧ (leaves → g0.inh = false ∧ g0.hlanes = 0#64) ∧ (¬leaves → g0.inh = x.g.inh ∧ g0.hlanes = x.g.hlanes)
      ∧ (∀ l y, x.g.lanes[l]? = some y → g0.lanes[l]? = some (if x.act.getLsbD l then { pc := BitVec.allOnes 64, st := .exited }
          else if y.st = .held ∧ x.g.inh = true ∧ g0.inh = false then { y with st := .running } else y))
      ∧ (∀ n l, n < 8 → l < 64 → (g0.jreg n).getLsbD l = ((x.g.jreg n).getLsbD l && !g0.exited.getLsbD l))
      ∧ LetGo h g0 (fun j => decide (j < 8 ∧ g0.parkedAt j ≠ 0#64 ∧ g0.jreg j &&& ~~~g0.parkedAt j = 0#64)) false
      ∧ (if (∃ y ∈ h.lanes, y.st.isParked = true) ∧ ∀ y ∈ h.lanes, y.st.isRunning = false ∧ y.st.isAsleep = false then
          LetGo g h (· < 8) true
        else g = h)
      ∧ t.chip.group? x.g.id = some g' ∧ { g' with lease := g.lease } = g
    (∀ i ∈ [Instr.exit e, .exitB b], Issues s i x → ∃ t, exec i s = .next t ∧ exits t ∧ ∀ a, t.chip.byte a = s.chip.byte a)
    ∧ (Issues s (.exitc e) x → x.desc.maint = true → x.act ≠ 0#64 → target.toNat % 4 = 0 →
      ∃ t, exec (.exitc e) s = .next t ∧ exits t ∧ (∀ a, t.chip.byte a = s.chip.byte a) ∧ ∃ u, t.chip.team? x.team.id = some u
        ∧ (x.g.grpidx, target) ∈ u.successor ∧ ∀ q ∈ u.successor, q.1 = x.g.grpidx → q.2 = target)
    ∧ (Issues s (.exitc e) x → x.desc.maint = false → exec (.exitc e) s =
      .next (trapState s x 0x12 0#64))

/-- R60, R61: seg takes a size of 2 to 64 that the group has room for, and no other: a plain A that breaks this does not
decode, and a scalar value that breaks it traps, as it does in ssr. -/
def Obligations.SegmentSizes : Prop :=
  (∀ (s : State) (x : Issue) (e : Enc) (b : BEnc),
     let legal := fun v : W64 => v.toNat ∈ [2, 4, 8, 16, 32, 64] ∧ v.toNat ≤ x.g.width
     let v := if e.as_ then x.g.scalar e.a.toNat else e.a.setWidth 64
     let u := if e.a = 0xFF#8 then Enc.lit e else x.g.scalar e.a.toNat
     (∀ p ∈ [(Instr.seg e, v), (.segB b, b.a.setWidth 64)], Issues s p.1 x → legal p.2 →
       exec p.1 s = .next { s with chip := (x.chip0 s).setGroup { x.g with seg := p.2.toNat } })
     ∧ (Issues s (.seg e) x → e.as_ = true → ¬legal v → exec (.seg e) s = .next (trapState s x 0x01 v))
     ∧ (Issues s (.ssr e) x → e.d = 0x6C#8 → (x.chip0 s).olderPending x.g = false →
       u.toNat < 128 → ¬legal u → exec (.ssr e) s = .next (trapState s x 0x01 u)))
  ∧ (∀ (l : Limits) (ws : List W32) (e : Enc) (b : BEnc),
       let legal := fun v : BitVec 8 => v.toNat ∈ [2, 4, 8, 16, 32, 64] ∧ v.toNat ≤ l.width
       (decodeWords l ws = .ok (.seg e) → e.as_ = false → legal e.a) ∧ (decodeWords l ws = .ok (.segB b) → legal b.a))

/-- R82 to R84: what gsr reads and ssr writes, for every special register; fst, wake, lease and gctl once nothing older
of the group is outstanding. -/
def Obligations.SpecialRegisters : Prop :=
  ∀ (s : State) (x : Issue) (e : Enc), (x.chip0 s).olderPending x.g = false →
    let v := if e.a = 0xFF#8 then Enc.lit e else x.g.scalar e.a.toNat
    let nat := fun n : Nat => BitVec.ofNat 64 n
    (Issues s (.gsr e) x →
      (e.a = 0x60#8 → LaneEffect s (.gsr e) x e.d 1 fun _ l => BitVec.ofNat 32 l)
      ∧ (e.a = 0x6B#8 → LaneEffect s (.gsr e) x e.d 2 (pairWord fun l => ((x.g0.lanes[l]?).map (·.pc)).getD 0#64))
      ∧ ∀ p ∈ [(0x61#8, nat x.g.width), (0x62#8, nat x.g.grpidx), (0x63#8, nat x.team.x), (0x64#8, nat x.team.y),
          (0x65#8, nat x.team.z), (0x66#8, nat (x.desc.dxm1 + 1)), (0x67#8, nat (x.desc.dym1 + 1)),
          (0x68#8, nat (x.desc.dzm1 + 1)), (0x69#8, nat s.chip.cyc), (0x6A#8, nat x.core), (0x6C#8, nat x.g.seg),
          (0x6D#8, x.g.fst.setWidth 64), (0x6E#8, nat (x.g.wakeGated.toNat * 8 + x.g.wakeReason.toNat)),
          (0x6F#8, nat (x.g.lease.mode * 2 ^ 12 + x.g.lease.lines)), (0x70#8, nat x.g.sbchk.toNat),
          (0x71#8, x.g.xcause.setWidth 64), (0x72#8, x.g.xpc), (0x73#8, x.g.xval), (0x74#8, x.g.xmask),
          (0x75#8, s.chip.devid.setWidth 64)],
        e.a = p.1 → ScalarEffect s (.gsr e) x e.d p.2)
    ∧ (Issues s (.ssr e) x →
      (∀ p ∈ [(0x6D#8, 0x1F#64, { x.g with fst := v.setWidth 5 }), (0x70#8, 0x1#64, { x.g with sbchk := v.getLsbD 0 }),
          (0x71#8, 0xFF#64, { x.g with xcause := v.setWidth 8 }), (0x72#8, BitVec.allOnes 64, { x.g with xpc := v }),
          (0x73#8, BitVec.allOnes 64, { x.g with xval := v }), (0x74#8, BitVec.allOnes 64, { x.g with xmask := v }),
          (0x6C#8, 0x7F#64, { x.g with seg := v.toNat })],
        e.d = p.1 →
          (v &&& ~~~p.2.1 = 0#64 → (p.1 = 0x6C#8 → v.toNat ∈ [2, 4, 8, 16, 32, 64] ∧ v.toNat ≤ x.g.width) →
            exec (.ssr e) s = .next { s with chip := (x.chip0 s).setGroup p.2.2 })
          ∧ (v &&& ~~~p.2.1 ≠ 0#64 → exec (.ssr e) s =
            .next (trapState s x 0x02 v))))

/-- R89 to R91, R93: lds, ldsv and ldh where no lane's access fails.
R89 to R92: sts, stsv and movx where no lane's access fails; a higher lane's bytes stand over a lower one's. R286: ordinary accesses
see them at once, the hash unit at once or later (by doublewords, the model's reading, log 138).
R88, R90, R91: the trap of a scratchpad access that fails in some lane; ldh outside the hearth. That a lane of movx whose two
addresses both fail reports its destination is the model's choice (log 44). -/
def Obligations.ScratchpadAccesses : Prop :=
  ((∀ (s : State) (x : Issue) (ld : LdType) (e : Enc),
      let n := LdType.bytes ld
      let bytes := fun a k => leNat ((List.range k).map fun i => (x.chip0 s).spByte x.team x.ctx (a + i))
      let ea := x.g.baseS e + e.imm.signExtend 64
      let dword := fun k => BitVec.ofNat 64 (bytes (ea.toNat + 8 * k) 8)
      (Issues s (.lds ld e) x → x.team.lostWords = [] → (∀ l ∈ x.lanes, spFault x false n (x.spAddr e l) = none) →
        SpLoad s (.lds ld e) x e.d ((n + 3) / 4) fun i l =>
          let v := bytes (x.spAddr e l).toNat n
          match ld with
          | .s8 => BitVec.ofInt 32 (BitVec.ofNat 8 v).toInt
          | .s16 => BitVec.ofInt 32 (BitVec.ofNat 16 v).toInt
          | _ => BitVec.ofNat 32 (v / 2 ^ (32 * i)))
      ∧ (Issues s (.ldsv e) x → x.team.lostWords = [] →
        (∀ l ∈ x.lanes, ∀ j, j < e.c.toNat → spFault x false 4 (x.svAddr e j l) = none) →
        SpLoad s (.ldsv e) x e.d e.c.toNat fun j l => BitVec.ofNat 32 (bytes (x.svAddr e j l).toNat 4))
      ∧ (Issues s (.ldh e) x → ea.toNat % 16 = 0 → 0x1FFC00 ≤ ea.toNat ∧ ea.toNat < 0x200000 → e.d.toNat < 0x3F →
        x.g.allSettled [.s e.d.toNat, .s (e.d.toNat + 1)] →
        ∃ g : Group, Acts s (.ldh e) ((x.chip0 s).setGroup
            (g.hold s.chip.cyc (s.chip.cyc + 20) [.s e.d.toNat, .s (e.d.toNat + 1)]))
          ∧ g.FrameOf x.g [.s e.d.toNat, .s (e.d.toNat + 1)] false
          ∧ g.regEnd (.s e.d.toNat) 0 = dword 0 ∧ g.regEnd (.s (e.d.toNat + 1)) 0 = dword 1))
   ∧ (∀ (s : State) (x : Issue) (st : StWidth) (e : Enc),
        let n := StWidth.bytes st
        let bytes := fun a k => (List.range k).map fun i => (x.chip0 s).spByte x.team x.ctx (a + i)
        let dst := fun l => x.movxDst e l
        let src := fun l => x.movxSrc e l
        (Issues s (.sts st e) x → (∀ l ∈ x.lanes, spFault x true n (x.spAddr e l) = none) →
          SpStore s (.sts st e) x (x.lanes.map fun l =>
            ((x.spAddr e l).toNat, (List.range n).map fun i => (x.g.vecAt e.d (i / 4) l).extractLsb' (8 * (i % 4)) 8)))
        ∧ (Issues s (.stsv e) x → (∀ l ∈ x.lanes, ∀ j, j < e.c.toNat → spFault x true 4 (x.svAddr e j l) = none) →
          SpStore s (.stsv e) x ((List.range e.c.toNat).flatMap fun j => x.lanes.map fun l =>
            ((x.svAddr e j l).toNat, (List.range 4).map fun i => (x.g.vecAt e.d j l).extractLsb' (8 * i) 8)))
        ∧ (Issues s (.movx e) x → e.c ≠ 0#8 → x.team.lostWords = [] →
          (∀ l ∈ x.lanes, spFault x true (4 * e.c.toNat) (dst l) = none ∧ spFault x false (4 * e.c.toNat) (src l) = none) →
          SpStore s (.movx e) x (x.lanes.map fun l => ((dst l).toNat, bytes (src l).toNat (4 * e.c.toNat))))))
  ∧ (∀ (s : State) (x : Issue) (ld : LdType) (st : StWidth) (e : Enc),
       let ea := x.g.baseS e + e.imm.signExtend 64
       (Issues s (.lds ld e) x → LaneTraps s (.lds ld e) x fun l => spFault x false (LdType.bytes ld) (x.spAddr e l))
       ∧ (Issues s (.sts st e) x → LaneTraps s (.sts st e) x fun l => spFault x true (StWidth.bytes st) (x.spAddr e l))
       ∧ (Issues s (.ldsv e) x → LaneTraps s (.ldsv e) x fun l =>
         (List.range e.c.toNat).findSome? fun j => spFault x false 4 (x.svAddr e j l))
       ∧ (Issues s (.stsv e) x → LaneTraps s (.stsv e) x fun l =>
         (List.range e.c.toNat).findSome? fun j => spFault x true 4 (x.svAddr e j l))
       ∧ (Issues s (.movx e) x → e.c ≠ 0#8 → LaneTraps s (.movx e) x fun l =>
         (spFault x true (4 * e.c.toNat) (x.movxDst e l)).or (spFault x false (4 * e.c.toNat) (x.movxSrc e l)))
       ∧ (Issues s (.ldh e) x → ea.toNat % 16 ≠ 0 → exec (.ldh e) s = .next (trapState s x 0x09 ea))
       ∧ (Issues s (.ldh e) x → ea.toNat % 16 = 0 → ¬(0x1FFC00 ≤ ea.toNat ∧ ea.toNat < 0x200000) →
         exec (.ldh e) s = .next (trapState s x 0x08 ea)))

/-- R144, R152: an instruction of the matrix array traps where the group is not 64 lanes wide or a lane that has not
exited is not active, and has no effect where its tile's predicate bit is 0.
R159: kset. -/
def Obligations.MatrixMaskAndTilePredicates : Prop :=
  (∀ (s : State) (x : Issue) (e : Enc),
     ∀ i ∈ [Instr.mmaBf16 e, .mmaF16 e, .mmaS8 e, .mmaZ8 e, .mmaLg6 e, .tzero e, .tld e, .tst e, .tcvt e, .tadd e, .tdrain e,
       .tdrainAdd e], Issues s i x → x.g.counters.drain < 63 →
         (x.g.width ≠ 64 → exec i s = .next (trapAt s x 0x0A (BitVec.ofNat 64 x.g.width) 0#64))
         ∧ (x.g.width = 64 → ~~~x.g0.exited &&& ~~~x.act ≠ 0#64 →
           exec i s = .next (trapAt s x 0x0A x.act (~~~x.g0.exited &&& ~~~x.act)))
         ∧ (x.g.width = 64 → ~~~x.g0.exited &&& ~~~x.act = 0#64 → predicated x e = false → Acts s i (x.chip0 s)))
  ∧ (∀ (s : State) (x : Issue) (e : Enc),
       let a := if e.a = 0xFF#8 then Enc.lit e else x.g.scalar e.a.toNat
       let T := e.a.toNat - 0x80
       let some_ := (List.range 32).any fun i => (List.range 32).any fun j =>
         if e.ty = .f32 then (x.team.tile T i j).toNat % 2 ^ 31 != 0 else (x.team.tile T i j) != 0#32
       (∀ p ∈ [(Instr.ksetFroms e, a), (.ksetAnd e, x.g.scalar e.a.toNat &&& x.g.scalar e.b.toNat),
           (.ksetOr e, x.g.scalar e.a.toNat ||| x.g.scalar e.b.toNat), (.ksetNot e, ~~~x.g.scalar e.a.toNat)],
         Issues s p.1 x → ScalarEffect s p.1 x e.d p.2)
       ∧ (Issues s (.ksetNonzero e) x → x.team.lostWords = [] → T < 64 → ∃ v, ScalarEffect s (.ksetNonzero e) x e.d v
         ∧ ∀ k, k < 64 → v.getLsbD k = if k = T then some_ else (x.g.scalar e.d.toNat).getLsbD k))

/-- R145 to R151, R153, R154: what mma, tzero, tld and tadd leave in their tile, and the flags they raise.
R149, R154: tst and tcvt write the tile's rows, one element after another, and raise the conversions' flags. -/
def Obligations.TileAndStoreResults : Prop :=
  (∀ (s : State) (x : Issue) (e : Enc), mxReady x → predicated x e = true →
     let T := e.d.toNat - 0x80
     let A := fun m => x.operand m e.as_ e.a.toNat (fieldOf e.imm.toNat 23 16) false
     let B := fun m => x.operand m e.bs e.b.toNat (fieldOf e.imm.toNat 31 24) true
     let legal := fun m => x.operandFail m e.as_ e.a.toNat (fieldOf e.imm.toNat 23 16) false = none
       ∧ x.operandFail m e.bs e.b.toNat (fieldOf e.imm.toNat 31 24) true = none
     let sa := fun r k => x.scaleOf e (e.imm.toNat % 256) r (k / 32)
     let sb := fun j k => x.scaleOf e (e.imm.toNat / 256 % 256) j (k / 32)
     let prods := fun m r j => (List.range (MmaKind.k m)).map fun k =>
       mmaProduct m (sa r k) (sb j k) ((A m).elem m r k) ((B m).elem m j k)
     let byte := fun signed (v : Option Nat) => intIn signed (BitVec.ofNat 8 (v.getD 0))
     let flags := fun (f : Nat → Nat → Flags) => orFlags ((List.range 1024).map fun k => f (k / 32) (k % 32))
     (∀ p ∈ [(Instr.mmaBf16 e, MmaKind.bf16), (.mmaF16 e, .f16), (.mmaLg6 e, .lg6)], Issues s p.1 x → legal p.2 →
       let r := fun i j => fmtF32.sum e.rnd ((prods p.2 i j).map (·.1) ++ [fmtF32.decode (x.team.tile T i j).toNat])
       TileEffect s p.1 x T (fun i j => BitVec.ofNat 32 (r i j).1)
         (flags fun i j => orFlags ((r i j).2 :: (prods p.2 i j).map (·.2))))
     ∧ (∀ p ∈ [(Instr.mmaS8 e, MmaKind.s8, true), (.mmaZ8 e, .z8, false)], Issues s p.1 x → legal p.2.1 →
       TileEffect s p.1 x T (fun i j =>
         let v := (x.team.tile T i j).toInt + ((List.range 64).map fun k =>
           byte p.2.2 ((A p.2.1).elem p.2.1 i k) * byte p.2.2 ((B p.2.1).elem p.2.1 j k)).sum
         BitVec.ofInt 32 (if e.sat then max (-2147483648) (min v 2147483647) else v)) 0#5)
     ∧ (Issues s (.tzero e) x → TileEffect s (.tzero e) x T (fun _ _ => 0#32) 0#5)
     ∧ (Issues s (.tld e) x → (x.tileRows e).fail x.spSize false 32 128 = none →
       TileEffect s (.tld e) x T (fun i j =>
         BitVec.ofNat 32 (leNat ((List.range 4).map fun b => SMap.get 0#8 x.team.sp ((x.tileRows e).addr i (4 * j + b))))) 0#5)
     ∧ (Issues s (.tadd e) x →
       let a := fun i j => x.team.tile T i j
       let b := fun i j => x.team.tile (e.a.toNat - 0x80) i j
       if e.ty = .f32 then
         let r := fun i j => fmtF32.sum e.rnd [fmtF32.decode (a i j).toNat, fmtF32.decode (b i j).toNat]
         TileEffect s (.tadd e) x T (fun i j => BitVec.ofNat 32 (r i j).1) (flags fun i j => (r i j).2)
       else TileEffect s (.tadd e) x T (fun i j =>
         let v := (a i j).toInt + (b i j).toInt
         BitVec.ofInt 32 (if e.sat then max (-2147483648) (min v 2147483647) else v)) 0#5))
  ∧ (∀ (s : State) (x : Issue) (e : Enc), mxReady x → predicated x e = true →
       let r := x.tileRows e
       let el := fun i j => x.team.tile (e.d.toNat - 0x80) i j
       let store := fun (i : Instr) (n : Nat) (v : Nat → Nat → Nat × Flags) =>
         ∃ f : Team → Team,
           Acts s i (((x.chip0 s).onTeam x.team.id f).onGroup x.g.id fun g =>
               { g with fst := g.fst ||| orFlags ((List.range 1024).map fun k => (v (k / 32) (k % 32)).2) })
             ∧ ∀ t, SpWritten t (f t) ((List.range 32).flatMap fun k => (List.range (32 * n)).map fun o =>
               (r.addr k o, [BitVec.ofNat 8 ((v k (o / n)).1 / 256 ^ (o % n))]))
       (Issues s (.tst e) x → r.fail x.spSize true 32 128 = none → store (.tst e) 4 fun i j => ((el i j).toNat, 0#5))
       ∧ (Issues s (.tcvt e) x → r.fail x.spSize true 32 (match e.ty with | .bf16 | .f16 => 64 | _ => 128) = none →
         match e.ty with
         | .bf16 => store (.tcvt e) 2 fun i j => convertFmt fmtF32 fmtBF16 e.rnd (el i j).toNat
         | .f16 => store (.tcvt e) 2 fun i j => convertFmt fmtF32 fmtF16 e.rnd (el i j).toNat
         | .f32 => store (.tcvt e) 4 fun i j => fmtF32.ofInt e.rnd (el i j).toInt
         | _ => store (.tcvt e) 4 fun i j =>
           ((BitVec.ofInt 32 (fmtF32.toInt e.rnd true 32 (el i j).toNat).1).toNat, (fmtF32.toInt e.rnd true 32 (el i j).toNat).2)))

/-- R155 to R158: tdrain and tdrain.add are accepted where every address is aligned and translates: the drain counter
rises, tdrain.add closes the team's region, and no byte of memory changes yet. A misaligned row 0 or pitch, or a word that
does not translate, traps before anything is accepted. -/
def Obligations.DrainsAccepted : Prop :=
  ∀ (s : State) (x : Issue) (e : Enc), mxReady x → predicated x e = true → x.g.counters.drain < 63 →
    let row := fun i : Nat => x.g.scalar e.a.toNat + e.imm.signExtend 64 + BitVec.ofNat 64 i * x.g.scalar e.b.toNat
    ∀ p ∈ [(Instr.tdrain e, none, 4), (.tdrainAdd e, some (e.ty == .f32), 128)], Issues s p.1 x →
      ((row 0).toNat % p.2.2 = 0 → (x.g.scalar e.b.toNat).toNat % p.2.2 = 0 → ∀ c rows,
        (x.chip0 s).drainRows x e p.2.1.isSome = (c, .ok rows) →
        ∃ c' d, Acts s p.1 c' ∧ c'.drains = s.chip.drains ++ [d] ∧ d.rows = rows ∧ d.base = row 0 ∧ d.add = p.2.1
          ∧ (∀ a, c'.byte a = s.chip.byte a) ∧ (∀ g, c'.group? x.g.id = some g → g.counters.drain = x.g.counters.drain + 1)
          ∧ (p.2.1.isSome = true → ∀ t, c'.team? x.team.id = some t → t.rec_.open_ = false))
      ∧ ((row 0).toNat % p.2.2 ≠ 0 → exec p.1 s = .next (trapState s x 0x09 (row 0)))
      ∧ ((row 0).toNat % p.2.2 = 0 → (x.g.scalar e.b.toNat).toNat % p.2.2 ≠ 0 → exec p.1 s = .next (trapState s x 0x09 (row 1)))
      ∧ ((row 0).toNat % p.2.2 = 0 → (x.g.scalar e.b.toNat).toNat % p.2.2 = 0 → ∀ c k v,
        (x.chip0 s).drainRows x e p.2.1.isSome = (c, .error (k, v)) → exec p.1 s = .next (trapState s x k v))

/-- R217 to R219: ldg and ldsc where every address is aligned and translates, no atom of the group stands before them
and no word is poisoned: the registers take what the loads find, and are read no earlier than 32 cycles later.
R217 to R219: stg and stsc where every address is aligned and translates and no atom of the group stands before
them: the lanes store in ascending order, and the group itself changes in nothing.
R218, R235: ldg, stg, ldac, strl and atom trap, before any access, where a lane's address is misaligned or does not
translate: the lowest failing lane's cause and address, and xmask the failing lanes. R219: ldsc and stsc trap so for their one
address, with xmask the active lanes. -/
def Obligations.DeviceAccesses : Prop :=
  ((∀ (s : State) (x : Issue) (ld : LdType) (e : Enc),
      let n := LdType.bytes ld
      let k := if e.ty.is64 then 8 else 4
      let loaded := fun (i : Instr) (c : Chip) (ws : List RegName) (P : Group → Prop) =>
        ∃ c' g g', Acts s i c' ∧ c.group? x.g.id = some g ∧ c'.group? x.g.id = some g'
          ∧ { c' with groups := c.groups } = c ∧ (∀ r, r ∉ ws → ∀ l, l < 64 → g'.regEnd r l = x.g.regEnd r l)
          ∧ g'.fst = x.g.fst ∧ (∀ r ∈ ws, (r, s.chip.cyc + 32) ∈ g'.due) ∧ P g'
      (Issues s (.ldg ld e) x → x.g.allSettled (dregs e.d ((n + 3) / 4)) → ∀ c ps c' vals,
        (x.chip0 s).checkLanes x n .read (fun l => x.memAddr e l) = (c, ps, []) →
        (x.chip0 s).behindAtom x.g n (ps.map (·.2)) = false → c.loadLanes x.who n ps = (c', vals, none) →
        loaded (.ldg ld e) c' (dregs e.d ((n + 3) / 4)) fun g => LaneResult x g e.d ((n + 3) / 4) fun i l =>
          let v := SMap.get 0 vals l
          match ld with
          | .s8 => BitVec.ofInt 32 (BitVec.ofNat 8 v).toInt
          | .z8 => BitVec.ofNat 32 (v % 256)
          | .s16 => BitVec.ofInt 32 (BitVec.ofNat 16 v).toInt
          | .z16 => BitVec.ofNat 32 (v % 65536)
          | _ => BitVec.ofNat 32 (v / 2 ^ (32 * i)))
      ∧ (Issues s (.ldsc e) x → x.act = 0#64 → Acts s (.ldsc e) (x.chip0 s))
      ∧ (Issues s (.ldsc e) x → x.act ≠ 0#64 → x.g.allSettled [.s e.d.toNat] → e.d.toNat < 0x40 → ∀ c p c' v,
        (x.chip0 s).checkAccess x.core x.ctx k .read (x.scAddr e) = (c, .ok p) →
        (x.chip0 s).behindAtom x.g k [p] = false → c.loadBytes x.whoReserve p k = (c', some v) →
        loaded (.ldsc e) c' [.s e.d.toNat] fun g => g.regEnd (.s e.d.toNat) 0 =
          if e.ty = .s32 then BitVec.ofInt 64 (BitVec.ofNat 32 v).toInt else BitVec.ofNat 64 v))
   ∧ (∀ (s : State) (x : Issue) (st : StWidth) (e : Enc),
        let n := StWidth.bytes st
        let k := if e.ty.is64 then 8 else 4
        (Issues s (.stg st e) x → ∀ c ps, (x.chip0 s).checkLanes x n .write (fun l => x.memAddr e l) = (c, ps, []) →
          (x.chip0 s).behindAtom x.g n (ps.map (·.2)) = false →
          Acts s (.stg st e) (ps.foldl (fun c p => c.storeBytes x.who p.2 ((List.range n).map fun i =>
            (x.g.vecAt e.d (i / 4) p.1).extractLsb' (8 * (i % 4)) 8)) c))
        ∧ (Issues s (.stsc e) x → x.act = 0#64 → Acts s (.stsc e) (x.chip0 s))
        ∧ (Issues s (.stsc e) x → x.act ≠ 0#64 → ∀ c p,
          (x.chip0 s).checkAccess x.core x.ctx k .write (x.scAddr e) = (c, .ok p) →
          (x.chip0 s).behindAtom x.g k [p] = false →
          Acts s (.stsc e) (c.storeBytes x.whoReserve p ((List.range k).map fun i =>
            (x.g.scalar e.d.toNat).extractLsb' (8 * i) 8)))))
  ∧ (∀ (s : State) (x : Issue) (ld : LdType) (st : StWidth) (op : AtomOp) (e : Enc),
       let size := 4 * (e.acRegs)
       ∀ p ∈ [(Instr.ldg ld e, LdType.bytes ld, Access.read, fun l => x.memAddr e l),
           (.stg st e, StWidth.bytes st, .write, fun l => x.memAddr e l),
           (.ldac e, size, .read, fun l => x.memAddr e l), (.strl e, size, .write, fun l => x.memAddr e l),
           (.atom op e, AtomOp.bytes op, .both, fun l => x.devAddr e e.c (AtomOp.bytes op) l)],
         Issues s p.1 x → ∀ c ps l k v more,
           (x.chip0 s).checkLanes x p.2.1 p.2.2.1 p.2.2.2 = (c, ps, (l, k, v) :: more) →
           exec p.1 s = .next (trapAt s x k v (maskOf (l :: more.map (·.1)))))
  ∧ (∀ (s : State) (x : Issue) (e : Enc),
       let n := if e.ty.is64 then 8 else 4
       let ea := (if e.a = 0xFF#8 then 0#64 else x.g.scalar e.a.toNat) + Enc.imm64 e
       ∀ p ∈ [(Instr.ldsc e, Access.read), (.stsc e, .write)], Issues s p.1 x → x.act ≠ 0#64 →
         (ea.toNat % n ≠ 0 → exec p.1 s = .next (trapState s x 0x09 ea))
         ∧ ∀ c k, ea.toNat % n = 0 → (x.chip0 s).translate (corePlaces x.core) x.ctx ea.toNat n p.2 = (c, .error k) →
           exec p.1 s = .next (trapState s x (BitVec.ofNat 8 k) ea))

/-- R191, R192, R206, R212, R218: a core that loads a word it has just stored through the same page reads what it
stored, whichever path the page's CP names. Words of pages that the L1 does not hold have no line in it, and pages that do
not compress have no block in the quench buffer. -/
def Obligations.StoreThenLoad : Prop :=
  ∀ (c : Chip) (who : Accessor) (p : Phys) (bs : List Byte), p.pa % 4 = 0 → bs.length = 4 →
    p.cp ≤ 3 →
    (p.cp ≠ 0 → c.line? who.core (p.pa / 128) = none) →
    (p.cp = 3 ∨ (p.cp ≠ 0 ∧ p.cmp ≠ 1) → ∀ q ∈ c.quench, q.core = who.core → q.block ≠ p.pa / 512) →
    ((c.storeWord who p bs).loadWord who p).2 = some (BitVec.ofNat 32 (leNat bs))

/-- R225, R226: after a release at .dev no word of the core is dirty and its quench buffer is empty; after an acquire at
.dev every valid word of the core's L1 is dirty or owned by the core. -/
def Obligations.ReleaseAndAcquire : Prop :=
  ∀ (c : Chip) (core : Nat) (sc : Scope), sc = .dev ∨ sc = .sys →
    (∀ l ∈ (c.release core sc).l1, l.core = core → l.dirty = 0#32)
    ∧ (∀ q ∈ (c.release core sc).quench, q.core ≠ core)
    ∧ (∀ l ∈ (c.acquire core sc).l1, l.core = core → ∀ i, i < 32 → l.valid.getLsbD i = true →
      l.dirty.getLsbD i = true ∨ SMap.get 0 (c.acquire core sc).owners (32 * l.line + i) = core + 1)

/-- R225, R226, R229, R238 to R240: a fence takes effect at once where none of its group's older atoms, stores of strl and, at
.team, stores on their way home stand before it; else the group goes on, the later instructions that it orders wait, and
it completes when they are gone. An acquire comes after the load of ldac. The stores of strl, one for each physical
address, come after its release, one after another in any order, at .dev and .sys each through to its home. -/
def Obligations.FencesAndOrderedAccesses : Prop :=
  (∀ (s : State) (x : Issue) (e : Enc),
    let c := x.chip0 s
    let sc := [Scope.grp, .team, .dev, .sys].getD (e.tyBits.toNat % 4) .sys
    let far := fun p : Phys => if (sc = .dev ∨ sc = .sys) ∧ p.cp = 0 then { p with cp := 1 } else p
    let n := 4 * e.acRegs
    let atomOut := ∃ a ∈ s.chip.atoms, a.group = x.g.id ∧ a.id < s.chip.nextId
    let storeOut := (∃ h ∈ s.chip.held, h.group = x.g.id ∧ h.id < s.chip.nextId) ∨ sc = .team ∧ c.storesOut x.core x.g.id = true
    let waits := fun i f => Acts s i { c with fences := s.chip.fences ++ [f], nextId := s.chip.nextId + 1 }
    let f : Fence := ⟨s.chip.nextId, x.g.id, x.core, false, false, false, sc⟩
    (Issues s (.fenceAcq e) x → ¬atomOut → Acts s (.fenceAcq e) (c.acquire x.core sc))
    ∧ (Issues s (.fenceRel e) x → ¬atomOut → ¬storeOut → Acts s (.fenceRel e) (c.release x.core sc))
    ∧ (Issues s (.fenceAr e) x → ¬atomOut → ¬storeOut → Acts s (.fenceAr e) ((c.release x.core sc).acquire x.core sc))
    ∧ (Issues s (.fenceAcq e) x → atomOut → waits (.fenceAcq e) { f with acq := true })
    ∧ (Issues s (.fenceRel e) x → atomOut ∨ storeOut → waits (.fenceRel e) { f with rel := true })
    ∧ (Issues s (.fenceAr e) x → atomOut ∨ storeOut → waits (.fenceAr e) { f with rel := true, acq := true })
    ∧ (Issues s (.ldac e) x → x.g.allSettled (dregs e.d e.acRegs) → (∀ a ∈ s.chip.atoms, a.group ≠ x.g.id) → ∀ c1 ps c2 vals,
      c.checkLanes x n .read (fun l => x.memAddr e l) = (c1, ps, []) →
      (∀ h ∈ s.chip.held, h.group = x.g.id → ∀ p ∈ ps, h.ordered p.2 n = false) →
      c1.loadLanes x.who n (ps.map fun p => (p.1, far p.2)) = (c2, vals, none) →
      ∃ (c3 : Chip) (g : Group), Acts s (.ldac e) (c3.acquire x.core sc) ∧ { c3 with groups := c2.groups } = c2
        ∧ c3.group? x.g.id = some g ∧ (∀ r, r ∉ dregs e.d e.acRegs → ∀ l, l < 64 → g.regEnd r l = x.g.regEnd r l)
        ∧ LaneResult x g e.d e.acRegs fun i l => BitVec.ofNat 32 (SMap.get 0 vals l / 2 ^ (32 * i)))
    ∧ (Issues s (.strl e) x → ∀ c1 ps, c.checkLanes x n .write (fun l => x.memAddr e l) = (c1, ps, []) →
      let data := fun l => (List.range n).map fun i => (x.g.vecAt e.d (i / 4) l).extractLsb' (8 * (i % 4)) 8
      let last := fun p : Nat × Phys => ∀ q ∈ ps, p.1 < q.1 → q.2.pa ≠ p.2.pa
      let holds := fun (c2 : Chip) => ∃ hs k, Acts s (.strl e) { c2 with held := s.chip.held ++ hs, nextId := k }
        ∧ (∀ h ∈ hs, h.fence = s.chip.nextId ∧ h.group = x.g.id ∧ h.core = x.core ∧ h.ctx = x.ctx ∧ h.owner = .group x.g.id
          ∧ ∃ p ∈ ps, last p ∧ h.phys = far p.2 ∧ h.bytes = data p.1)
        ∧ ∀ p ∈ ps, last p → ∃ h ∈ hs, h.phys = far p.2 ∧ h.bytes = data p.1
      (¬atomOut → ¬storeOut → holds (c1.release x.core sc))
      ∧ (atomOut ∨ storeOut → holds { c1 with fences := s.chip.fences ++ [{ f with rel := true, holds := true }] })))
  ∧ (∀ (s : State) (f : Fence), f ∈ s.chip.fences → (∀ q ∈ s.chip.fences, q.number = f.number → q = f) →
    (∀ a ∈ s.chip.atoms, a.group = f.group → f.number ≤ a.id) →
    (f.rel = true → (∀ h ∈ s.chip.held, h.group = f.group → f.number ≤ h.id)
      ∧ (f.scope = .team → s.chip.storesOut f.core f.group = false)) →
    let c := { s.chip with fences := s.chip.fences.filter fun q => q.number != f.number }
    let c := if f.rel = true then c.release f.core f.scope else c
    s.perform (.fence f.number) = .next { s with chip := if f.acq = true then c.acquire f.core f.scope else c })
  ∧ ∀ (s : State) (h : HeldStore), h ∈ s.chip.held → (∀ k ∈ s.chip.held, k.id = h.id → k = h) →
    (∀ f ∈ s.chip.fences, f.number ≠ h.fence) → (∀ k ∈ s.chip.held, k.group = h.group → h.fence ≤ k.fence) →
    (∀ a ∈ s.chip.atoms, a.group ≠ h.group) →
    s.perform (.store h.id) = .next { s with
      chip := { s.chip with held := s.chip.held.filter fun k => k.id != h.id }.storeBytes
        { core := h.core, ctx := h.ctx, group := h.group, owner := h.owner } h.phys h.bytes }

/-- R195, R202, R203: the lease instructions. -/
def Obligations.LeaseResults : Prop :=
  ∀ (s : State) (x : Issue) (e : Enc),
    let v := if e.a = 0xFF#8 then Enc.imm64 e else x.g.scalar e.a.toNat
    let n := min v.toNat 1792
    let l := x.g.lease
    let becomes := fun (i : Instr) (m : Lease) => ∃ c' g, Acts s i c' ∧ c'.group? x.g.id = some g
      ∧ g.lease = { m with active := g.lease.active } ∧ { g with lease := l } = x.g ∧ ∀ a, c'.byte a = s.chip.byte a
    (Issues s (.leaseSet e) x → becomes (.leaseSet e) { l with decl := n })
    ∧ (Issues s (.leaseMode e) x → v.toNat ≤ 2 → becomes (.leaseMode e) { l with mode := v.toNat })
    ∧ (Issues s (.leaseMode e) x → 2 < v.toNat → exec (.leaseMode e) s = .next (trapState s x 0x01 v))
    ∧ (Issues s (.leasePref e) x → becomes (.leasePref e) { l with floor := n, meas := max l.meas n })
    ∧ (Issues s (.leaseGet e) x → ScalarEffect s (.leaseGet e) x e.d
      (BitVec.ofNat 64 (l.floor * 2 ^ 48 + l.meas * 2 ^ 32 + l.decl * 2 ^ 16 + l.mode * 2 ^ 12
        + [l.decl, l.meas].getD l.mode (max l.decl l.meas))))

/-- R235, R236: an atom that passes its checks closes the team's region and is sent: its lanes wait at the home slices with their
data, gathered in one unit for each word, each lane once and in ascending order, and its result registers are pending. That lanes
which name one word through two mappings make one unit is the model's choice (log 124). Without an active lane it sends nothing.
R237: an atom that finds a host page and may not act there takes the protection trap. Of one whose lanes mix CP 0b11 and other
pages the manual does not say which lanes the trap names; that xval is the address of the lowest active lane and xmask holds
all active lanes is the model's choice (log 103). -/
def Obligations.AtomsSentOrTrapped : Prop :=
  (∀ (s : State) (x : Issue) (op : AtomOp) (e : Enc), Issues s (.atom op e) x →
     let n := AtomOp.bytes op
     let ea := fun l => x.devAddr e e.c n l
     (x.act = 0#64 → ∃ c', Acts s (.atom op e) c' ∧ c'.atoms = s.chip.atoms ∧ SameMemory s c'
       ∧ ∀ t, c'.team? x.team.id = some t → t.rec_.open_ = false)
     ∧ ∀ c ps, (x.chip0 s).checkLanes x n .both ea = (c, ps, []) → ps ≠ [] →
       (∀ p ∈ ps, p.2.cp ≠ 3) ∨ (op ∈ [AtomOp.addS32, .swap, .addS64, .swapS64] ∧ e.tyBits.toNat % 4 = 3) →
       ∃ c' a, Acts s (.atom op e) c' ∧ c'.atoms = s.chip.atoms ++ [a] ∧ a.group = x.g.id ∧ a.op = op
         ∧ (a.units.map (·.phys.pa)).Nodup
         ∧ (∀ u ∈ a.units, u.lanes ≠ [] ∧ (u.lanes.map (·.1)).Pairwise (· < ·) ∧ u.high = false
           ∧ (∃ l d, u.lanes.head? = some (l, d) ∧ u.ea = ea l)
           ∧ ∀ p ∈ u.lanes, p.1 ∈ x.lanes ∧ p.2 = (if n = 8 then x.g.opB64 e p.1 else (x.g.opB e p.1).setWidth 64)
             ∧ ∃ q, (p.1, q) ∈ ps ∧ q.pa = u.phys.pa)
         ∧ (∀ l ∈ x.lanes, ∃ u ∈ a.units, ∃ p ∈ u.lanes, p.1 = l)
         ∧ (∀ g, c'.group? x.g.id = some g → ∀ r ∈ dregs e.d (n / 4), r ∈ g.busy)
         ∧ ∀ t, c'.team? x.team.id = some t → t.rec_.open_ = false)
  ∧ (∀ (s : State) (x : Issue) (op : AtomOp) (e : Enc), Issues s (.atom op e) x →
       let ea := fun l => x.devAddr e e.c (AtomOp.bytes op) l
       ∀ c ps, (x.chip0 s).checkLanes x (AtomOp.bytes op) .both ea = (c, ps, []) → (∃ p ∈ ps, p.2.cp = 3) →
         (op ∉ [AtomOp.addS32, .swap, .addS64, .swapS64] ∨ e.tyBits.toNat % 4 ≠ 3) → ∃ l v, x.lanes.head? = some l ∧ v = ea l
           ∧ exec (.atom op e) s = .next (trapState s x 0x08 v))

/-- R235, R236: a unit of an atom, whose lanes stand in ascending order as AtomsSentOrTrapped has them, applied at its home: the
lanes in that order, each returning what it found; the element at home is the last one's result. A unit of add.bf16x2 is applied in two steps, its low half first; its lanes take
both halves at the second. -/
def Obligations.AtomUnitsApplied : Prop :=
  (∀ (c : Chip) (a : Atom) (u : AtomUnit), a.op ≠ .addBf16x2 →
    let n := AtomOp.bytes a.op
    let f := fun (o d : W64) => match a.op with
      | .addS32 => (o.setWidth 32 + d.setWidth 32 : W32).setWidth 64
      | .addF32 => BitVec.ofNat 64 (fmtF32.sum .rn [fmtF32.decode (o.toNat % 2 ^ 32), fmtF32.decode (d.toNat % 2 ^ 32)]).1
      | .minS32 => if (o.setWidth 32 : W32).toInt ≤ (d.setWidth 32 : W32).toInt then o else d
      | .maxS32 => if (o.setWidth 32 : W32).toInt ≤ (d.setWidth 32 : W32).toInt then d else o
      | .minZ32 => if o.toNat ≤ d.toNat then o else d
      | .maxZ32 => if o.toNat ≤ d.toNat then d else o
      | .and => o &&& d | .or => o ||| d | .xor => o ^^^ d
      | .addS64 => o + d
      | _ => d
    (u.lanes.map (·.1)).Pairwise (· < ·) → u.phys.pa % n = 0 → c.poisoned u.phys.pa n = false → (n = 4 → ∀ p ∈ u.lanes, p.2.toNat < 2 ^ 32) →
    let old := fun k : Nat => ((u.lanes.take k).foldl (fun o p => f o p.2) (BitVec.ofNat 64 (c.homeNat u.phys.pa n)) : W64)
    let c' := c.applyUnit a u
    c'.homeNat u.phys.pa n = (old u.lanes.length).toNat
      ∧ (∀ b, ¬(u.phys.pa ≤ b ∧ b < u.phys.pa + n) → c'.byte b = c.byte b)
      ∧ ∀ g g', c.group? a.group = some g → c'.group? a.group = some g' → a.dst + n / 4 ≤ 0xFF →
        ∀ k l d, k < u.lanes.length → u.lanes[k]? = some (l, d) → l < 64 → ∀ i, i < n / 4 →
          g'.vreg (a.dst + i) l = (old k).extractLsb' (32 * i) 32)
  ∧ ∀ (c : Chip) (a : Atom) (u : AtomUnit), a.op = .addBf16x2 → u.phys.pa % 4 = 0 → c.poisoned u.phys.pa 4 = false →
    a ∈ c.atoms → (∀ b ∈ c.atoms, b.id = a.id → b = a) → u ∈ a.units → (∀ v ∈ a.units, v.ea = u.ea → v = u) →
    (u.lanes.map (·.1)).Pairwise (· < ·) →
    let at_ := u.phys.pa + (if u.high then 2 else 0)
    let half := fun d : W64 => if u.high then d.toNat / 2 ^ 16 % 2 ^ 16 else d.toNat % 2 ^ 16
    let old := fun k : Nat => (u.lanes.take k).foldl
      (fun o p => (fmtBF16.sum .rn [fmtBF16.decode o, fmtBF16.decode (half p.2)]).1) (c.homeNat at_ 2)
    let c' := c.applyUnit a u
    c'.homeNat at_ 2 = old u.lanes.length ∧ (∀ b, ¬(at_ ≤ b ∧ b < at_ + 2) → c'.byte b = c.byte b)
      ∧ (u.high = false → c'.groups = c.groups ∧ ∃ b v, b ∈ c'.atoms ∧ b.id = a.id ∧ v ∈ b.units
        ∧ v = { u with high := true, olds := v.olds }
        ∧ ∀ k l d, u.lanes[k]? = some (l, d) → SMap.get 0#64 v.olds l = BitVec.ofNat 64 (old k))
      ∧ (u.high = true → ∀ g g', c.group? a.group = some g → c'.group? a.group = some g' → a.dst < 0xFF →
        ∀ k l d, u.lanes[k]? = some (l, d) → l < 64 →
          g'.vreg a.dst l = BitVec.ofNat 32 (old k * 2 ^ 16 + (SMap.get 0#64 u.olds l).toNat))

/-- R25 to R28: a pair writes what its two operations write, both reading the group as it stands; and each operation is the
E form of its code with the fields of R26. -/
def Obligations.PairResults : Prop :=
  (∀ (s : State) (x : Issue) (p : PEnc), Issues s (.pair p) x →
    let half := fun (k : BitVec 6) (d a b : BitVec 8) =>
      pairFx k.toNat { x with lat := if k.toNat < 0x20 then 4 else 6 } (pairEnc k.toNat d a b) x.g
    let ws := fun (k : BitVec 6) (d : BitVec 8) => dregs d (if k = 0x19#6 then 2 else 1)
    pairIll Limits.top p = false → x.g.allSettled (ws p.p1 p.d1 ++ ws p.p2 p.d2) →
      GroupEffect s (.pair p) x (ws p.p1 p.d1 ++ ws p.p2 p.d2) true fun g =>
        (∀ r ∈ ws p.p1 p.d1, ∀ l, l < 64 → g.regEnd r l = (half p.p1 p.d1 p.a1 p.b1).regEnd r l)
        ∧ (∀ r ∈ ws p.p2 p.d2, ∀ l, l < 64 → g.regEnd r l = (half p.p2 p.d2 p.a2 p.b2).regEnd r l)
        ∧ g.fst = (half p.p1 p.d1 p.a1 p.b1).fst ||| (half p.p2 p.d2 p.a2 p.b2).fst)
  ∧ (∀ (s : State) (x : Issue) (e : Enc), ∀ q ∈ [(0x00, Instr.add e), (0x01, .sub e), (0x02, .mul e), (0x03, .mulh e),
      (0x04, .mad e), (0x05, .min e), (0x06, .max e), (0x07, .abs e), (0x08, .and e), (0x09, .or e), (0x0A, .xor e),
      (0x0B, .not e), (0x0C, .shl e), (0x0D, .shr e), (0x0E, .sar e), (0x0F, .fsh e), (0x10, .bfx e), (0x11, .bfi e),
      (0x12, .popc e), (0x13, .clz e), (0x14, .brev e), (0x15, .perm e), (0x17, .sel e), (0x18, .mov e), (0x19, .lea e),
      (0x1A, .sad e), (0x20, .fadd e), (0x21, .fsub e), (0x22, .fmul e), (0x23, .fma e), (0x24, .fmin e), (0x25, .fmax e)],
    Issues s q.2 x → Acts s q.2 ((x.chip0 s).setGroup (pairFx q.1 x e x.g)))

/-- R21, R238: an instruction that a pending producer keeps waits, whatever gctl.SBCHK says, and so does one that a fence not
yet completed orders; it tries again in the next cycle, and nothing else changes. R22, R23: with SBCHK = 1 and nothing of
the group pending elsewhere, an instruction that comes too close behind a fixed-latency producer takes the stall-short
trap. -/
def Obligations.ScoreboardWaitsAndTraps : Prop :=
  ∀ (s : State) (i : Instr) (x : Issue), s.current.bind (fun gid => s.chip.issueAt gid i) = some x →
    let rs := readsOf i x.g.width
    let ws := writesOf i x.g.width
    (x.g0.mustWait x.now rs ws = true ∨ s.chip.fenced x.g.id i = true →
      exec i s = .next { s with chip := s.chip.onGroup x.g.id fun g => { g with readyAt := s.chip.cyc + 1 } })
    ∧ (s.chip.fenced x.g.id i = false → x.g0.busy = [] → x.g0.due = [] → x.g0.sbchk = true →
      (∃ p ∈ x.g0.pend, p.reg ∈ rs ∨ ∃ w ∈ ws, w.1 = p.reg ∧ w.2 ≠ 0 ∧ x.pos + w.2 < p.ready) →
      Acts s i (s.chip.takeTrap x.g0 { cause := 0x03, pc := BitVec.ofNat 64 x.ia, val := 0#64, mask := x.act }))

/-- R24, R359, R360: a trap that enters the handler: every pending write completes; xcause, xpc, xval and xmask are saved,
INH is 1 and the starvation count 0, and traps that wait for the next issue still wait (R46); the lanes at the trap's address go to XHANDLER and the other running lanes are held;
no register and no byte of memory changes otherwise. -/
def Obligations.TrapEntry : Prop :=
  ∀ (c : Chip) (g : Group) (t : Team) (r : Trapped), c.team? g.team = some t → (c.group? g.id).isSome = true →
    let xh := (c.context (c.ctxOf t)).xhandler
    r.cause ∉ [0x04#8, 0x0D#8, 0x0E#8] → xh ≠ 0#64 → g.inh = false → ∃ h,
      (c.takeTrap g r).group? g.id = some h
        ∧ h.xcause = r.cause ∧ h.xpc = r.pc ∧ h.xval = r.val ∧ h.xmask = r.mask ∧ h.inh = true ∧ h.starve = 0 ∧ h.pend = [] ∧ h.pendTraps = g.pendTraps
        ∧ (∀ q l, l < 64 → h.reg q l = g.regEnd q l) ∧ h.fst = g.fst ∧ h.counters = g.counters
        ∧ (∀ l : Nat, l < g.width → l < 64 → h.lanes[l]? = (g.lanes[l]?).map fun (y : Lane) =>
            if y.st = .running then (if y.pc = r.pc then { y with pc := xh } else { y with st := .held }) else y)
        ∧ ∀ a, (c.takeTrap g r).byte a = c.byte a

/-- R364: a cause that goes to the fault policy discards the team under every FPOL: none of its groups stays, and a
launch of FPOL 0 counts one more ended team and one more fault (here where the counter does not yet reach TARGET). -/
def Obligations.FaultPolicyDiscardsTheTeam : Prop :=
  ∀ (c : Chip) (g : Group) (t : Team) (l : Launch) (r : Trapped), c.team? g.team = some t → c.launchOf t = some l →
    r.cause ∈ [0x04#8, 0x0D#8, 0x0E#8] ∨ (c.context l.ctx).xhandler = 0#64 ∨ g.inh = true →
      (c.takeTrap g r).team? t.id = none ∧ (∀ h ∈ (c.takeTrap g r).groups, h.team ≠ t.id)
        ∧ (l.desc.fpol = 0 → t.withdrew = 0 → (c.counter l.desc.cctr).cancelled = false →
          (c.counter l.desc.cctr).value + 1 ≠ (c.counter l.desc.cctr).target →
          ((c.takeTrap g r).counter l.desc.cctr).value = (c.counter l.desc.cctr).value + 1
            ∧ ((c.takeTrap g r).counter l.desc.cctr).faults = min 0xFFFF ((c.counter l.desc.cctr).faults + 1))

/-- R31, R362, R363: illegal, trap, brk and rft: the traps of the first three, and the return of the last. -/
def Obligations.TrapInstructions : Prop :=
  ∀ (s : State) (x : Issue) (e : Enc) (ws : List W32),
    (Issues s (.illegal ws) x → exec (.illegal ws) s = .next (trapAt s x 0x01 (xvalWords (.illegal ws)) x.here))
    ∧ (∀ p ∈ [(Instr.trap e, 0x10#8, e.imm.setWidth 64), (.brk e, 0x11#8, 0#64)], Issues s p.1 x →
      (x.act = 0#64 → Acts s p.1 ((x.chip0 s).setGroup x.g))
      ∧ (x.act ≠ 0#64 → Acts s p.1 (((x.chip0 s).setGroup x.g).takeTrap x.g
          { cause := p.2.1, pc := BitVec.ofNat 64 (x.ia + x.len), val := p.2.2, mask := x.act })))
    ∧ (Issues s (.rft e) x → x.g.inh = false → exec (.rft e) s = .next (trapState s x 0x01 (xvalWords (.rft e))))
    ∧ (Issues s (.rft e) x → x.g.inh = true → x.g.xpc.toNat % 4 ≠ 0 → exec (.rft e) s = .next (trapState s x 0x09 x.g.xpc))
    ∧ (Issues s (.rft e) x → x.g.inh = true → x.g.xpc.toNat % 4 = 0 → ∃ g, Acts s (.rft e) ((x.chip0 s).setGroup g)
      ∧ g.inh = false ∧ { g with inh := x.g.inh, hlanes := x.g.hlanes, lanes := x.g.lanes } = x.g
      ∧ ∀ l : Nat, g.lanes[l]? = (x.g.lanes[l]?).map fun (y : Lane) =>
          if y.st = .running then { y with pc := x.g.xpc } else if y.st = .held then { y with st := .running } else y)

/-- R165 to R175, R177, R179, R184, R186: a soft operation that passes its checks is accepted at its region's home: it
stands behind the operations accepted before it, with the values it read and its ticket; TICKET counts it in arrival
order; the group's blend counter rises; sseq returns the ticket. Nothing is applied yet.
R168, R173, R175, R179: one that passes its checks but must wait for its acceptance completes its issue too: its blend counter
rises, no ticket is drawn, and its group waits with the values it has read. -/
def Obligations.SoftOperationsAccepted : Prop :=
  ∀ (s : State) (x : Issue) (e : Enc), ∀ p ∈ softTable e x.g, Issues s p.1 x →
    let c := x.chip0 s
    let f := p.2.1
    let addr := x.g.sreg e.a.toNat
    let null := x.act == 0#64 || f == .null
    MoreFree p.1 x (softMore p.1 f e s.chip x) → ∀ (r : Region) (c1 : Chip) (fr : List (Nat × Phys)) (n : Nat),
      c.softAt x addr = some r → x.descFail addr = none →
      let bs := softBlocks f e.d e.b e.c r x.g.width
      let vals := if null then [] else bs.1.map x.g.blockVals
      let taping := !null && e.sat && [SoftForm.blend, .write, .add].contains f
      let len := if taping then r.recLen (touched (vals.headD [])).length else 0
      let pages := fun late => c.framesOf x (if addr.msb then [] else (addr.toNat, 64, Access.read) :: softSpans f r null len late)
      let ahead := fun n => r.ordered = true → r.ahead p.2.2.2 < n ∧ ∀ o ∈ r.ops, o.ticket ≠ p.2.2.2
      let first := f = .sstBwd → r.gates = [] ∧ if r.ordered then p.2.2.2 = r.appl else r.ops = []
      let sent := nothingSent s x ∧ (r.team ≠ none → c.storesOut x.core x.g.id = false)
      (∀ b ∈ bs.1 ++ bs.2, b.overLimit x.g.width x.desc.regs = none) → x.g.counters.blend < 63 →
      (pages false = (c1, .ok fr) → ahead 64 → first → sent → (len ≠ 0 → r.tv = true ∧ r.tfill + r.reserved + len ≤ r.tcap) →
      (if f == .sstBwd && !null then (c1.softSent x.core r).popCheck r fr else .ok len) = .ok n →
      ∃ c' op, Acts s p.1 c' ∧ op.form = f ∧ op.group = x.g.id ∧ op.ticket = (if r.ordered then p.2.2.2 else r.ticket)
        ∧ op.rnd = e.rnd ∧ op.lanes = x.act ∧ op.nullOp = null ∧ op.bytes = n ∧ op.progress = none ∧ [op.w, op.x, op.y] = [vals.headD [], vals.getD 1 [], vals.getD 2 []]
        ∧ { r with ops := r.ops ++ [op], ticket := if r.ordered then r.ticket else r.ticket + 1 } ∈ c'.regions
        ∧ (∀ g, c'.group? x.g.id = some g → g.counters.blend = x.g.counters.blend + 1)
        ∧ (∀ d, p.2.2.1 = some d → Answers c' x d (op.ticket.setWidth 64)))
      ∧ (pages true = (c1, .ok fr) → ahead (2 ^ 31) → ¬(ahead 64 ∧ first ∧ sent) → ∃ c' w, Acts s p.1 c' ∧ r ∈ c'.regions
        ∧ w.op.form = f ∧ w.op.group = x.g.id ∧ w.op.rnd = e.rnd ∧ w.op.lanes = x.act ∧ w.op.nullOp = null ∧ w.op.bytes = len
        ∧ [w.op.w, w.op.x, w.op.y] = [vals.headD [], vals.getD 1 [], vals.getD 2 []] ∧ w.op.frames = fr
        ∧ (w.ia, w.here, w.act) = (x.ia, x.here, x.act)
        ∧ ∀ g, c'.group? x.g.id = some g → g.wait = some (.accept r.id w) ∧ g.counters.blend = x.g.counters.blend + 1)

namespace Sys2Proof.Expect

/-- R165, R170, R173, R187: an operation has been applied: its region drops it and moves APPL on (and TICKET with it in ordered
mode) and has the TFILL given; its group's blend counter falls, the flags enter its fst, its result registers are free again, and
the lanes that were active at issue take the results of its blocks; no other register changes. -/
def SoftEnded (c c' : Chip) (r : Region) (o : SoftOp) (outs : List (Block × List Nat)) (fl : Flags) (fill : Nat) : Prop :=
  (∃ u ∈ c'.regions, u.id = r.id)
  ∧ (∀ u ∈ c'.regions, u.id = r.id → u = { r with
      ops := r.ops.filter fun k => k.ticket != o.ticket
      appl := r.appl + 1
      ticket := if r.ordered then r.appl + 1 else r.ticket
      tfill := fill })
  ∧ ∀ g, c.group? o.group = some g → ∃ g', c'.group? o.group = some g'
    ∧ g'.counters = g.counters.set (g.counters.blend - 1) .blend ∧ g'.fst = g.fst ||| fl
    ∧ (o.nullOp = false → ∀ b ∈ (softBlocks o.form (BitVec.ofNat 8 o.dst) 0xFF#8 (BitVec.ofNat 8 o.dst2) r g.width).2,
      ∀ q ∈ b.regs g.width 256, q ∉ g'.busy)
    ∧ (let named := outs.flatMap fun p => match p.1.reg with
        | some n => (List.range (blockRegs p.1.count g.width)).map (n + ·)
        | none => []
      (∀ n l, l < 64 → n ∉ named → g'.vreg n l = g.vreg n l)
      ∧ (named.Nodup → ∀ p ∈ outs, ∀ n, p.1.reg = some n → ∀ k l, k < blockRegs p.1.count g.width → l < 64 →
        g'.vreg (n + k) l = if l < g.width ∧ o.lanes.getLsbD l = true ∧ k * g.width + l < p.1.count
          then BitVec.ofNat 32 (p.2.getD (k * g.width + l) 0) else g.vreg (n + k) l))

end Sys2Proof.Expect

/-- R169 to R171, R173, R174, R187: the operation of ticket APPL is applied: a null one writes no byte and no register, and is
counted as any other; sld.fwd gives, for each element of a row, one fma chain from +0 over the slots of nonzero weight in
ascending order; sst.blend, sst.write and sst.add write, for each slot of nonzero weight and each element of its row, the two
fma of R171 on what it held. Of several elements each is written in a step of its own. With the last one, or at once where
there is none, the operation is applied: its region moves on and its group takes the results, the flags and the lowered
counter. R160, R185: one that would read a lost word writes nothing, and the word is to be reported. -/
def Obligations.SoftOperationsApplied : Prop :=
  (∀ (s : State) (r : Region) (o : SoftOp), s.chip.regions.find? (fun q => q.id == s.event.a) = some r →
      s.chip.softNext r = some o → exec .softOpApply s = .next { s with chip := s.chip.applySoft r o })
  ∧ (∀ (c : Chip) (r : Region) (o : SoftOp) (a : Nat), o.nullOp = true → (c.applySoft r o).byte a = c.byte a)
  ∧ (∀ (c : Chip) (r : Region) (o : SoftOp), r ∈ c.regions → (∀ u ∈ c.regions, u.id = r.id → u = r) →
      let gw := ((c.group? o.group).map (·.width)).getD 64
      let c' := c.applySoft r o
      let same := c'.mem = c.mem ∧ c'.teams = c.teams
      (o.nullOp = true → o.progress = none → same ∧ SoftEnded c c' r o [] 0#5 r.tfill)
      ∧ (o.progress = none → c.softPoison r o = none → (c.applied r o gw).tape = [] → (c.applied r o gw).puts = [] →
        same ∧ SoftEnded c c' r o (c.applied r o gw).outs (c.applied r o gw).flags (c.applied r o gw).tfill)
      ∧ (∀ v, o.progress = none → c.softPoison r o = some v → c'.mem = c.mem ∧ SoftEnded c c' r o [] 0#5 r.tfill
        ∧ ∀ g t, c.group? o.group = some g → c.team? g.team = some t → c'.team? g.team = some { t with
          lostWords := t.lostWords ++ [{ word := none, val := v, met := some c.cyc, reported := false }] })
      ∧ (∀ (p : SoftProgress) (q : Nat × List Byte × Flags), o.progress = some p → (c.applied r o gw).puts[p.next]? = some q →
        p.next + 1 = (c.applied r o gw).puts.length →
        c.spanLost r o.frames [(((c.applied r o gw).reads[p.next]?).getD q.1, q.2.1.length)] = none →
        let c2 := c.softPutAll r o.frames q.1 q.2.1
        c'.mem = c2.mem ∧ c'.teams = c2.teams ∧ SoftEnded c2 c' r o p.outs (p.flags ||| q.2.2) (c.applied r o gw).tfill))
  ∧ (∀ (c : Chip) (r : Region) (o : SoftOp) (p : SoftProgress) (q : Nat × List Byte × Flags), o.progress = some p →
      let gw := ((c.group? o.group).map (·.width)).getD 64
      (c.applied r o gw).puts[p.next]? = some q → p.next + 1 < (c.applied r o gw).puts.length →
      c.spanLost r o.frames [(((c.applied r o gw).reads[p.next]?).getD q.1, q.2.1.length)] = none →
      let c' := c.applySoft r o
      c'.mem = (c.softPutAll r o.frames q.1 q.2.1).mem ∧ c'.teams = (c.softPutAll r o.frames q.1 q.2.1).teams
        ∧ c'.groups = c.groups ∧ ∀ u ∈ c'.regions, u.id = r.id → ∀ k ∈ u.ops, k.ticket = o.ticket →
          k.progress = some { p with next := p.next + 1, flags := p.flags ||| q.2.2 })
  ∧ (∀ (c : Chip) (r : Region) (o : SoftOp) (gw : Nat), o.nullOp = false →
      let hot := (List.range o.w.length).filter fun i => (o.w.getD i 0#32).toNat % 2 ^ 31 != 0
      let fma := fun (f : Fmt) (a b k : Nat) => (f.sum o.rnd [((fmtF32.decode a).mul (fmtF32.decode b)).1, fmtF32.decode k]).1
      ∀ p ∈ [(SoftForm.blend, fun j => (o.y.getD j 0#32).toNat), (.write, fun _ => 0x3F800000), (.add, fun _ => 0)],
        o.form = p.1 → (c.applied r o gw).puts.map (fun q => (q.1, q.2.1)) = hot.flatMap fun i => (List.range r.w).map fun j =>
          let m := c.softElem r o.frames i j
          (r.base.toNat + r.esize * (i * r.w + j), leBytes r.esize (fma (if r.bf16 then fmtBF16 else fmtF32)
            (o.w.getD i 0#32).toNat (fma fmtF32 (p.2 j ^^^ 2 ^ 31) m (o.x.getD j 0#32).toNat) m)))
  ∧ (∀ (c : Chip) (r : Region) (o : SoftOp) (gw : Nat), o.nullOp = false → o.form = .sldFwd →
      let y := fun j => ((List.range o.w.length).filter fun i => (o.w.getD i 0#32).toNat % 2 ^ 31 != 0).foldl
        (fun (s : Nat × Flags) i =>
          let p := (fmtF32.decode (o.w.getD i 0#32).toNat).mul (fmtF32.decode (c.softElem r o.frames i j))
          let v := fmtF32.sum o.rnd [p.1, fmtF32.decode s.1]
          (v.1, s.2 ||| (p.2 ||| v.2))) (0, 0#5)
      (c.applied r o gw).puts = [] ∧ (c.applied r o gw).tape = [] ∧ (c.applied r o gw).tfill = r.tfill
        ∧ (c.applied r o gw).outs.map (·.2) = [(List.range r.w).map fun j => (y j).1]
        ∧ (c.applied r o gw).flags = orFlags ((List.range r.w).map fun j => (y j).2))

/-- R176, R178, R179: what an adjoint comes to when it is applied, and what a tape record holds. sld.bwd gives dw and adds to the
gradients of the touched slots. sst.bwd reads the newest record, gives dw, da and, for a blend, de, changes the gradients of
the record's slots, puts their pre-images back and pops the record. A record holds the pre-images of the touched slots,
zero padding, the slot mask and the header; it is written before the region's first element. -/
def Obligations.SoftAdjointsAndTape : Prop :=
  (∀ (c : Chip) (r : Region) (o : SoftOp) (gw : Nat), o.nullOp = false →
    let d32 := fmtF32.decode
    let fma := fun (s : Nat × Flags) (a b : Nat) =>
      let p := (d32 a).mul (d32 b)
      let v := fmtF32.sum o.rnd [p.1, d32 s.1]
      (v.1, s.2 ||| (p.2 ||| v.2))
    let neg := fun a : Nat => a ^^^ 2 ^ 31
    let wt := fun i => (o.w.getD i 0#32).toNat
    let xs := fun j => (o.x.getD j 0#32).toNat
    let M := fun i j => c.softElem r o.frames i j
    let G := fun i j => if r.gv then c.softNat r o.frames (r.gbase.toNat + 4 * (i * r.w + j)) 4 else 0
    let a := c.applied r o gw
    (o.form = .sldBwd →
      let dw := fun i => (List.range r.w).foldl (fun s j => fma s (xs j) (M i j)) (0, 0#5)
      a.outs.map (·.2) = [(List.range r.n).map fun i => (dw i).1]
      ∧ a.flags = orFlags ((List.range r.n).map fun i => (dw i).2) ∧ a.tape = [] ∧ a.tfill = r.tfill
      ∧ a.puts = if r.gv then ((List.range o.w.length).filter fun i => wt i % 2 ^ 31 != 0).flatMap fun i => (List.range r.w).map fun j =>
          let v := fma (G i j, 0#5) (wt i) (xs j)
          (r.gbase.toNat + 4 * (i * r.w + j), leBytes 4 v.1, v.2) else [])
    ∧ (o.form = .sstBwd →
      let top := r.tbase.toNat + r.tfill
      let form := c.softNat r o.frames (top - 16 + 4) 1
      let hit := (List.range r.n).filter fun i => c.softNat r o.frames (top - 48 + i / 8) 1 / 2 ^ (i % 8) % 2 == 1
      let pre := fun i j => c.softNat r o.frames (top - o.bytes + r.esize * ((hit.filter (· < i)).length * r.w + j)) r.esize
      let P := fun i j => if i ∈ hit then (if r.bf16 then pre i j * 2 ^ 16 else pre i j) else M i j
      let e := fun j => if form = 1 then (o.y.getD j 0#32).toNat else if form = 2 then 0x3F800000 else 0
      let dw := fun i => (List.range r.w).foldl (fun (s : Nat × Flags) j =>
        let d := fma (xs j, 0#5) (neg (e j)) (P i j)
        fma (s.1, s.2 ||| d.2) (G i j) d.1) (0, 0#5)
      let da := fun j => hit.foldl (fun s i => fma s (wt i) (G i j)) (0, 0#5)
      let de := fun j =>
        let q := fun i => fmtF32.product o.rnd (wt i) (P i j)
        let t := hit.foldl (fun s i => fma s (q i).1 (G i j)) (0, 0#5)
        (if (d32 t.1).isNaN then 0x7FC00000 else neg t.1, orFlags (t.2 :: hit.map fun i => (q i).2))
      let rows := List.range r.w
      a.outs.map (·.2) = [(List.range r.n).map fun i => (dw i).1, rows.map fun j => (da j).1]
        ++ (if form = 1 then [rows.map fun j => (de j).1] else [])
      ∧ a.flags = orFlags ((List.range r.n).map (fun i => (dw i).2) ++ rows.map (fun j => (da j).2)
        ++ if form = 1 then rows.map fun j => (de j).2 else [])
      ∧ a.tape = [] ∧ a.tfill = r.tfill - o.bytes
      ∧ a.puts = (if r.gv then hit.flatMap fun i => rows.map fun j =>
          let q := fmtF32.product o.rnd (wt i) (e j)
          let v := fma (G i j, 0#5) (neg q.1) (G i j)
          (r.gbase.toNat + 4 * (i * r.w + j), leBytes 4 v.1, q.2 ||| v.2) else [])
        ++ hit.flatMap fun i => rows.map fun j => (r.base.toNat + r.esize * (i * r.w + j), leBytes r.esize (pre i j), 0#5))
    ∧ ∀ p ∈ [(SoftForm.blend, 1), (.write, 2), (.add, 3)], o.form = p.1 →
      let ts := (List.range o.w.length).filter fun i => wt i % 2 ^ 31 != 0
      let data := ts.length * r.w * r.esize
      let part := fun (b : List Byte) at_ n => leNat ((b.drop at_).take n)
      let L := o.bytes
      (o.tape = false → a.tape = [] ∧ a.tfill = r.tfill)
      ∧ (o.tape = true → o.w.length ≤ 256 → r.w ≤ 64 → L = 16 * ((data + 15) / 16) + 48 → ∃ b,
        a.tape = [(r.tbase.toNat + r.tfill, b)] ∧ a.tfill = r.tfill + L ∧ b.length = L
        ∧ (∀ (k i j : Nat), ts[k]? = some i → j < r.w → part b (r.esize * (k * r.w + j)) r.esize
          = c.softNat r o.frames (r.base.toNat + r.esize * (i * r.w + j)) r.esize % 2 ^ (8 * r.esize))
        ∧ (∀ k, data ≤ k → k < L - 48 → b[k]? = some 0#8)
        ∧ (∀ i, i < 256 → (part b (L - 48) 32).testBit i = decide (i ∈ ts))
        ∧ part b (L - 16) 4 = o.ticket.toNat ∧ part b (L - 12) 1 = p.2 ∧ part b (L - 11) 1 = 0 ∧ part b (L - 10) 2 = L / 16
        ∧ part b (L - 8) 2 = ts.length ∧ part b (L - 6) 6 = 0))
  ∧ ∀ (c : Chip) (r : Region) (o : SoftOp), o.progress = none → c.softPoison r o = none →
    let gw := ((c.group? o.group).map (·.width)).getD 64
    let c1 := (c.applied r o gw).tape.foldl (fun c p => c.softPutAll r o.frames p.1 p.2) c
    let puts := (c1.applied r o gw).puts
    ∀ q, puts[0]? = some q → 1 < puts.length →
      c1.spanLost r o.frames [(((c1.applied r o gw).reads[0]?).getD q.1, q.2.1.length)] = none →
      let c2 := c1.softPutAll r o.frames q.1 q.2.1
      (c.applySoft r o).mem = c2.mem ∧ (c.applySoft r o).teams = c2.teams

/-- R180: hard.idx gives the winning slot and hard.onehot its one-hot pointer: the slot of the greatest weight, a NaN
counting as −∞ and −0 as +0, the lowest of several. -/
def Obligations.HardResults : Prop :=
  ∀ (s : State) (x : Issue) (e : Enc), 0 < e.imm.toNat → 0 < x.g.width →
    let n := e.imm.toNat
    let w := x.g.blockVals (blockOf e.a n)
    let val := fun i => if (fmtF32.decode (w.getD i 0#32).toNat).isNaN then fmtF32.inf true else
      if (w.getD i 0#32).toNat = 2 ^ 31 then 0 else (w.getD i 0#32).toNat
    ∃ k, k < n ∧ (∀ i, i < n → fmtF32.key (val i) ≤ fmtF32.key (val k)) ∧ (∀ i, i < k → fmtF32.key (val i) < fmtF32.key (val k))
      ∧ (Issues s (.hardIdx e) x → ScalarEffect s (.hardIdx e) x e.d (BitVec.ofNat 64 k))
      ∧ (Issues s (.hardOnehot e) x → x.g.width ≤ 64 → e.d = 0xFF#8 ∨ e.d.toNat + blockRegs n x.g.width ≤ 0xFF →
        let ws := dregs e.d (blockRegs n x.g.width)
        x.g.allSettled ws → GroupEffect s (.hardOnehot e) x ws false fun g =>
          e.d ≠ 0xFF#8 → ∀ j l, j < blockRegs n x.g.width → l < 64 → g.regEnd (.v (e.d.toNat + j)) l =
            if l ∈ x.lanes ∧ j * x.g.width + l < n then (if j * x.g.width + l = k then 0x3F800000#64 else 0#64)
            else x.g.regEnd (.v (e.d.toNat + j)) l)

/-- R163, R164, R181 to R183: sinit makes a live region with its counters at 0, sinit.rel ends an idle one, and both return
status 0; sfence returns TICKET once everything before it is applied; stape waits in the same way, holding what is accepted
after it, then sets TFILL and returns what it was, or traps on a TFILL that breaks R183. -/
def Obligations.SoftRegionInstructions : Prop :=
  ∀ (s : State) (x : Issue) (e : Enc) (c : Chip) (p : Phys),
    let addr := x.g.scalar e.a.toNat
    (x.chip0 s).descriptor x addr = (c, .ok p) →
    (Issues s (.sinit e) x → c.softAt x addr = none → (addr.msb = true → x.team.loses (spReads [addr.toNat % 2 ^ 21] 64) = false) →
      ∀ c1 b r c2, c.readDesc x addr p = (c1, some b) →
      regionOf x addr p c1.nextId b = .ok r → (if addr.msb then (c1, .ok false) else c1.regionPages x r) = (c2, .ok false) →
      c2.regionsFull r = false → ∃ c', Acts s (.sinit e) c' ∧ c'.regions = s.chip.regions ++ [r] ∧ Answers c' x e.d 0#64
        ∧ r.ticket = 0 ∧ r.appl = 0 ∧ r.tfill = 0 ∧ r.ops = [] ∧ r.desc = addr)
    ∧ (Issues s (.sinitRel e) x → ∀ r, c.softAt x addr = some r → r.ops = [] → c.softTurn r c.nextId = true →
      ∃ c', Acts s (.sinitRel e) c' ∧ c'.regions = s.chip.regions.filter (fun q => q.id != r.id) ∧ Answers c' x e.d 0#64)
    ∧ (Issues s (.sinitRel e) x → c.softAt x addr = none → ∃ c', Acts s (.sinitRel e) c' ∧ Answers c' x e.d 5#64
      ∧ SameMemory s c')
    ∧ (∀ i ∈ [Instr.sfence e, .stape e], Issues s i x → c.softAt x addr = none → exec i s = .next (trapState s x 0x08 addr))
    ∧ (Issues s (.sfence e) x → ∀ r, c.softAt x addr = some r → r.ops = [] →
      (e.b = 0xFF#8 ∨ (x.g.scalar e.b.toNat).setWidth 32 = r.appl) → (∀ q ∈ c.regions, q.id = r.id → q = r) →
      c.softTurn r c.nextId = true → ∃ c', Acts s (.sfence e) c' ∧ Answers c' x e.d (r.ticket.setWidth 64))
    ∧ (Issues s (.sfence e) x → ∀ r, c.softAt x addr = some r → e.b = 0xFF#8 → r.ops ≠ [] →
      ∃ c' g, Acts s (.sfence e) c' ∧ c'.group? x.g.id = some g
        ∧ g = { x.g with wait := some (.softPoint r.id c.nextId none (r.ops.map (·.ticket)) e.d.toNat) })
    ∧ (Issues s (.stape e) x → ∀ r, c.softAt x addr = some r → r.ops = [] → c.softTurn r c.nextId = true →
      let fill := if e.b = 0xFF#8 then r.tfill else (x.g.scalar e.b.toNat).toNat % 2 ^ 32
      (fill % 16 = 0 → fill ≤ r.tfill → ∃ c', Acts s (.stape e) c' ∧ Answers c' x e.d (BitVec.ofNat 64 r.tfill)
        ∧ (∃ q ∈ c'.regions, q.id = r.id) ∧ ∀ q ∈ c'.regions, q.id = r.id → q.tfill = fill ∧ q.ops = [])
      ∧ (e.b ≠ 0xFF#8 → fill % 16 ≠ 0 ∨ r.tfill < fill → exec (.stape e) s = .next (trapState s x 0x08 (x.g.scalar e.b.toNat))))
    ∧ (Issues s (.stape e) x → ∀ r, c.softAt x addr = some r → r.ops ≠ [] → ∃ c' w, Acts s (.stape e) c' ∧ SameMemory s c'
      ∧ c'.group? x.g.id = some { x.g with wait := some (.tape r.id w) } ∧ w.dst = e.d.toNat
      ∧ w.set = (if e.b = 0xFF#8 then none else some (x.g.scalar e.b.toNat)) ∧ (∃ q ∈ c'.regions, q.id = r.id)
      ∧ ∀ q ∈ c'.regions, q.id = r.id → q.tfill = r.tfill ∧ q.ops = r.ops
        ∧ ∃ d ∈ q.gates, d.group = x.g.id ∧ d.number = c.nextId ∧ d.tickets = r.ops.map (·.ticket))
    ∧ ∀ (g : Group) (w : TapeWait) (r : Region), s.chip.group? g.id = some g → g.wait = some (.tape r.id w) →
      s.chip.regions.find? (fun q => q.id == r.id) = some r → w.dst < 0x40 →
      let fill := match w.set with | some v => v.toNat % 2 ^ 32 | none => r.tfill
      fill % 16 = 0 ∨ w.set = none → fill ≤ r.tfill → ∃ c' g', s.perform (.resume g.id) = .next { s with chip := c' }
        ∧ c'.group? g.id = some g' ∧ g'.wait = none ∧ g'.sreg w.dst = BitVec.ofNat 64 r.tfill
        ∧ (∃ q ∈ c'.regions, q.id = r.id) ∧ ∀ q ∈ c'.regions, q.id = r.id → q.tfill = fill ∧ ∀ d ∈ q.gates, d.group ≠ g.id

/-- R274, R279 to R281, R292: a hop on a claimed table of its width forms one step for each distinct key of its active
lanes, in ascending order of their lowest lanes, behind the steps formed before it, or, where every lane's key is reserved,
one step without lanes; a lane whose key is reserved takes status 5 and D = 0 at once, and no other lane's registers change with
the issue; its registers are not read earlier than 30 cycles later. On an unclaimed handle it takes the protection trap, on a table
of the other width the illegal-instruction trap. -/
def Obligations.HashOperationsFormSteps : Prop :=
  ∀ (s : State) (x : Issue) (e : Enc) (acc : HopAcc), ∀ p ∈ hopTable e acc, Issues s p.1 x →
    let h := e.imm.toNat % 8
    let key := fun l => if p.2.1 then x.g.vec2 e e.a l else (x.g.vec e e.a l).setWidth 64
    let value := fun l => if p.2.1 then x.g.vec2 e e.b l else (x.g.vec e e.b l).setWidth 64
    let top := if p.2.1 then 2 ^ 64 else 2 ^ 32
    (x.team.table? h = none → exec p.1 s = .next (trapState s x 0x08 (BitVec.ofNat 64 h)))
    ∧ (∀ t, x.team.table? h = some t → t.wide ≠ p.2.1 → exec p.1 s = .next (trapState s x 0x01 (BitVec.ofNat 64 h)))
    ∧ (∀ t, x.team.table? h = some t → t.wide = p.2.1 → s.chip.team? x.team.id = some x.team → ∃ c' u new,
      Acts s p.1 c' ∧ SameMemory s c' ∧ c'.team? x.team.id = some u
      ∧ { u with steps := x.team.steps, rec_ := { u.rec_ with open_ := x.team.rec_.open_ } } = x.team
      ∧ (u.rec_.open_ = true → x.team.rec_.open_ = true) ∧ u.steps = x.team.steps ++ new
      ∧ (∀ st ∈ new, st.group = x.g.id ∧ st.handle = h ∧ st.op = p.2.2 ∧ st.wide = p.2.1 ∧ st.since = s.chip.cyc
        ∧ st.region = x.team.regionNo ∧ st.id = (x.chip0 s).nextId)
      ∧ (∀ g, c'.group? x.g.id = some g → (hashRegs p.2.1 e.d.toNat e.c.toNat).Nodup → ∀ l, l < 64 →
        let dead := l ∈ x.lanes ∧ ¬(key l).toNat < top - 2
        (e.d ≠ 0xFF#8 → (dead → g.vreg e.d.toNat l = 0#32 ∧ (p.2.1 = true → g.vreg (e.d.toNat + 1) l = 0#32))
          ∧ (¬dead → g.vreg e.d.toNat l = x.g.vreg e.d.toNat l
            ∧ (p.2.1 = true → g.vreg (e.d.toNat + 1) l = x.g.vreg (e.d.toNat + 1) l)))
        ∧ (e.c ≠ 0xFF#8 → g.vreg e.c.toNat l = if dead then 5#32 else x.g.vreg e.c.toNat l))
      ∧ ((∀ l ∈ x.lanes, ¬(key l).toNat < top - 2) → ∃ st, new = [st] ∧ st.lanes = [] ∧ st.last = true)
      ∧ ((∃ l ∈ x.lanes, (key l).toNat < top - 2) → (new.map (·.key)).Nodup
        ∧ (new.map fun st => (st.lanes.map (·.1)).headD 64).Pairwise (· < ·)
        ∧ (∀ st ∈ new, st.dst = e.d.toNat ∧ st.st = e.c.toNat ∧ st.key.toNat < top - 2
          ∧ ∀ l v, (l, v) ∈ st.lanes ↔ l ∈ x.lanes ∧ key l = st.key ∧ v = value l)
        ∧ ∀ l ∈ x.lanes, (key l).toNat < top - 2 → ∃ st ∈ new, st.key = key l)
      ∧ ∀ g, c'.group? x.g.id = some g → ∀ r ∈ hashRegs p.2.1 e.d.toNat e.c.toNat, (r, s.chip.cyc + 30) ∈ g.due)

namespace Sys2Proof.Expect

/-- Op of an accumulate, with its flags (R284). -/
def accOp (o : HashOp) (x y : Nat) : Nat × Flags :=
  let s := fun v : Nat => (BitVec.ofNat 32 v).toInt
  match o with
  | .acc .addS32 => ((x + y) % 2 ^ 32, 0#5)
  | .acc .addF32 => fmtF32.sum .rn [fmtF32.decode x, fmtF32.decode y]
  | .acc .minS32 => (if s x ≤ s y then x else y, 0#5)
  | .acc .maxS32 => (if s x ≤ s y then y else x, 0#5)
  | .acc .minF32 => fmtF32.minMax false x y
  | .acc .maxF32 => fmtF32.minMax true x y
  | _ => ((x + y) % 2 ^ 64, 0#5)

/-- A counter of 32 bits less one. -/
def oneLess (n : Nat) : Nat := (n + 2 ^ 32 - 1) % 2 ^ 32

/-- R282 to R284: what a step on a key leaves in its table and the spill array, and what it gives the lead and the other lanes,
by its form and by where the key is found. -/
def HashStepResults : Prop :=
  ∀ (c : Chip) (m : Team) (ctx : Nat) (t : Table) (st : HashStep), c.team? m.id = some m →
    let adds := (∃ a, st.op = .acc a) ∨ st.op = .acc64
    let vs := st.lanes.map fun l => l.2.toNat
    let comb := vs.tail.foldl (fun (s : Nat × Flags) v => let r := accOp st.op s.1 v; (r.1, s.2 ||| r.2)) (vs.headD 0, 0#5)
    let holds := fun p : Nat × Nat => natAt m.sp (t.keyAt p.1 p.2) t.ks = st.key.toNat
    let r := c.stepTable m ctx t st
    let same := ∀ a, r.1.byte a = c.byte a
    let out := fun (lead others dLead : Nat) (dOther : Option Nat) (fl : Flags) => r.2 = ⟨lead, others, dLead, dOther, fl⟩
    let top := 2 ^ t.kbits
    let fails := fun (c1 : Chip) (k : Nat) =>
      out k k 0 (if st.op = .probe then some 0 else none) (match st.op with | .acc _ => comb.2 | _ => 0#5) ∧ r.1 = c1
    (∀ c1 k, c.lookup m ctx t st.key = (c1, .failed k) → fails c1 k)
    ∧ ((∀ p ∈ t.places st.key, ¬holds p) → m.ovf t (t.home st.key) = true →
      (∀ c1 k, c.spillCount m.core ctx t = (c1, .error k) → fails c1 k)
      ∧ ∀ c1 n c2 k, c.spillCount m.core ctx t = (c1, .ok n) → 0 < n → c1.spillRead m.core ctx t 0 = (c2, .error k) → fails c2 k)
    ∧ (∀ (n : Nat) (p : Nat × Nat), (t.places st.key)[n]? = some p → holds p → (∀ (k : Nat) (q : Nat × Nat), k < n → (t.places st.key)[k]? = some q → ¬holds q) →
      let old := natAt m.sp (t.valAt p.1 p.2) t.ks
      (st.op = .ins → out 1 1 old none 0#5 ∧ r.1 = c)
      ∧ (st.op = .probe → out 1 1 old (some old) 0#5 ∧ r.1 = c)
      ∧ (st.op = .del → out 1 1 old none 0#5 ∧ same ∧ ∃ u, r.1.team? m.id = some u ∧ ∀ a, SMap.get 0#8 u.sp a =
        if t.keyAt p.1 p.2 ≤ a ∧ a < t.keyAt p.1 p.2 + t.ks
        then (leBytes t.ks (top - 2)).getD (a - t.keyAt p.1 p.2) 0#8 else SMap.get 0#8 m.sp a)
      ∧ (adds → out 1 1 old none (comb.2 ||| (accOp st.op old comb.1).2) ∧ same ∧ ∃ u, r.1.team? m.id = some u
        ∧ ∀ a, SMap.get 0#8 u.sp a = if t.valAt p.1 p.2 ≤ a ∧ a < t.valAt p.1 p.2 + t.ks
          then (leBytes t.ks (accOp st.op old comb.1).1).getD (a - t.valAt p.1 p.2) 0#8 else SMap.get 0#8 m.sp a))
    ∧ (∀ c1 n v, c.lookup m ctx t st.key = (c1, .spill n v) →
      (st.op = .ins → out 1 1 v none 0#5 ∧ r.1 = c1)
      ∧ (st.op = .probe → out 1 1 v (some v) 0#5 ∧ r.1 = c1)
      ∧ (st.op = .del → ∀ c2 p, c1.spillPlace m.core ctx (t.spillAt n) t.ks .write = (c2, .ok p) → p.pa % t.ks = 0 →
        out 1 1 v none 0#5 ∧ r.1.homeNat p.pa t.ks = top - 2
          ∧ ∀ a, ¬(p.pa ≤ a ∧ a < p.pa + t.ks) → r.1.byte a = c2.byte a)
      ∧ (st.op = .del → ∀ c2 k, c1.spillPlace m.core ctx (t.spillAt n) t.ks .write = (c2, .error k) →
        out k k 0 none 0#5 ∧ r.1 = c2)
      ∧ (adds → ∀ c2 p, c1.spillPlace m.core ctx (t.spillAt n + t.ks) t.ks .both = (c2, .ok p) → p.pa % t.ks = 0 →
        let old := c2.homeNat p.pa t.ks
        out 2 2 old none comb.2 ∧ ((accOp st.op old comb.1).1 < top → r.1.homeNat p.pa t.ks = (accOp st.op old comb.1).1)
          ∧ ∀ a, ¬(p.pa ≤ a ∧ a < p.pa + t.ks) → r.1.byte a = c2.byte a)
      ∧ (adds → ∀ c2 k, c1.spillPlace m.core ctx (t.spillAt n + t.ks) t.ks .both = (c2, .error k) →
        out k k 0 none comb.2 ∧ r.1 = c2))
    ∧ (∀ c1, c.lookup m ctx t st.key = (c1, .nowhere) →
      let value := if st.op = .ins then vs.headD 0 else comb.1
      let free := ∃ p ∈ t.places st.key, natAt m.sp (t.keyAt p.1 p.2) t.ks ∈ [top - 1, top - 2]
      let writes := st.op = .ins ∨ adds
      let fl := if st.op = .ins then 0#5 else comb.2
      let empty := fun p : Nat × Nat => natAt m.sp (t.keyAt p.1 p.2) t.ks ∈ [top - 1, top - 2]
      (st.op = .probe → out 4 4 0 (some 0) 0#5 ∧ r.1 = c1)
      ∧ (st.op = .del → out 4 4 0 none 0#5 ∧ r.1 = c1)
      ∧ (writes → free → out 0 (if st.op = .ins then 1 else 0) 0 none fl)
      ∧ (writes → st.key.toNat < top → value < top → ∀ (n : Nat) (p : Nat × Nat), (t.places st.key)[n]? = some p → empty p →
        (∀ (k : Nat) (q : Nat × Nat), k < n → (t.places st.key)[k]? = some q → ¬empty q) → same ∧ ∃ u, r.1.team? m.id = some u
          ∧ natAt u.sp (t.keyAt p.1 p.2) t.ks = st.key.toNat ∧ natAt u.sp (t.valAt p.1 p.2) t.ks = value
          ∧ ∀ a, ¬(t.keyAt p.1 p.2 ≤ a ∧ a < t.keyAt p.1 p.2 + t.ks) → ¬(t.valAt p.1 p.2 ≤ a ∧ a < t.valAt p.1 p.2 + t.ks) →
            SMap.get 0#8 u.sp a = SMap.get 0#8 m.sp a)
      ∧ (writes → ¬free → t.scap = 0 → out 3 3 0 none fl ∧ r.1 = c1)
      ∧ (writes → ¬free → t.scap ≠ 0 → ∀ c2 k, c1.spillPlace m.core ctx t.cnta.toNat 4 .both = (c2, .error k) →
        out k k 0 none fl ∧ r.1 = c2)
      ∧ (writes → ¬free → t.scap ≠ 0 → ∀ c2 p, c1.spillPlace m.core ctx t.cnta.toNat 4 .both = (c2, .ok p) → p.pa % 4 = 0 →
        let n := c2.homeNat p.pa 4
        let c3 := (c2.pageWrite p (leBytes 4 (min (n + 1) 0xFFFFFFFF))).closeInstance m.id st.region
        c3.homeNat p.pa 4 = min (n + 1) 0xFFFFFFFF
        ∧ (t.scap ≤ n → out 3 3 0 none fl ∧ r.1 = c3)
        ∧ (n < t.scap → ∀ c4 k, c3.spillPlace m.core ctx (t.spillAt n) (2 * t.ks) .write = (c4, .error k) →
          out k k 0 none fl ∧ r.1 = c4)
        ∧ (n < t.scap → ∀ c4 q, c3.spillPlace m.core ctx (t.spillAt n) (2 * t.ks) .write = (c4, .ok q) → q.pa % (2 * t.ks) = 0 →
          value < top → st.key.toNat < top → out 2 (if st.op = .ins then 1 else 2) 0 none fl
            ∧ r.1.homeNat q.pa t.ks = st.key.toNat ∧ r.1.homeNat (q.pa + t.ks) t.ks = value
            ∧ (∀ a, ¬(q.pa ≤ a ∧ a < q.pa + 2 * t.ks) → r.1.byte a = c4.byte a)
            ∧ ∃ u, r.1.team? m.id = some u ∧ u.ovf t (t.home st.key) = true)))

/-- R291: what a step makes of its table's counters but FAILS, which counts where its lanes take their results. -/
def HashCounters : Prop :=
  ∀ (c : Chip) (m : Team) (ctx : Nat) (t : Table) (st : HashStep), c.team? m.id = some m → m.table? t.handle = some t →
    (∀ b, st.op ≠ .drain b) →
    let r := c.stepTable m ctx t st
    let found := (c.lookup m ctx t st.key).2
    let keyOf := fun p : Nat × Nat => natAt m.sp (t.keyAt p.1 p.2) t.ks
    let empty := fun p : Nat × Nat => keyOf p = 2 ^ t.kbits - 1 ∨ keyOf p = 2 ^ t.kbits - 2
    let places := t.places st.key
    ∃ u q, r.1.team? m.id = some u ∧ u.table? t.handle = some q
      ∧ (∀ b i, found = .bucket b i →
        q = if st.op = .del then { t with live := oneLess t.live, tomb := (t.tomb + 1) % 2 ^ 32 } else t)
      ∧ (∀ n v, found = .spill n v → q = t)
      ∧ (∀ k, found = .failed k → q = t)
      ∧ (found = .nowhere → st.op = .probe ∨ st.op = .del → q = t)
      ∧ (found = .nowhere → st.op ≠ .probe → st.op ≠ .del →
        (∀ (n : Nat) (p : Nat × Nat), places[n]? = some p → empty p →
          (∀ (k : Nat) (o : Nat × Nat), k < n → places[k]? = some o → ¬empty o) →
          q = { t with live := (t.live + 1) % 2 ^ 32, tomb := if keyOf p = 2 ^ t.kbits - 2 then oneLess t.tomb else t.tomb })
        ∧ ((∀ p ∈ places, ¬empty p) → q = if r.2.lead = 2 then
            { t with ovf := t.ovf + (if m.ovf t (t.home st.key) then 0 else 1), spills := (t.spills + 1) % 2 ^ 32 } else t))

/-- R283, R285, R376: what a spill access of a step comes to. One that fails translation gives the step status 3, and so does one
through a page of host memory or with CMP 0b10 or 0b11, which takes no trap (the model's reading, log 132); a storage error
gives status 6, in the walk and in the words read. The count word and the entries are read through such an access. -/
def SpillAccesses : Prop :=
  ∀ (c : Chip) (core ctx va n : Nat) (acc : Access) (t : Table),
    let tr := c.translate (corePlaces core) ctx va n acc
    let at_ := c.spillPlace core ctx va n acc
    (∀ c1 k, tr = (c1, .error k) → at_ = (c1, .error (if k = 14 then 6 else 3)))
    ∧ (∀ c1 p, tr = (c1, .ok p) → p.cp = 3 → at_ = (c1, .error 3))
    ∧ (∀ c1 p, tr = (c1, .ok p) → p.cp ≠ 3 → acc ≠ .write → c1.poisoned p.pa n = true → at_ = (c1, .error 6))
    ∧ (∀ c1 p, tr = (c1, .ok p) → p.cp ≠ 3 → acc = .write ∨ c1.poisoned p.pa n = false → at_ = (c1, .ok p))
    ∧ (∀ e va n acc, 2 ≤ e.cmp → physOf e va n acc = .error 8)
    ∧ (t.scap = 0 → c.spillCount core ctx t = (c, .ok 0))
    ∧ (t.scap ≠ 0 → ∀ c1 k, c.spillPlace core ctx t.cnta.toNat 4 .read = (c1, .error k) →
      c.spillCount core ctx t = (c1, .error k))
    ∧ (t.scap ≠ 0 → ∀ c1 p, c.spillPlace core ctx t.cnta.toNat 4 .read = (c1, .ok p) →
      (c.spillCount core ctx t).2 = .ok (min (c1.homeNat p.pa 4) t.scap))
    ∧ (∀ c1 k, c.spillPlace core ctx (t.sbase.toNat + 2 * t.ks * n) (2 * t.ks) .read = (c1, .error k) →
      c.spillRead core ctx t n = (c1, .error k))
    ∧ ∀ c1 p, c.spillPlace core ctx (t.sbase.toNat + 2 * t.ks * n) (2 * t.ks) .read = (c1, .ok p) →
      (c.spillRead core ctx t n).2 = .ok (c1.homeNat p.pa t.ks, c1.homeNat (p.pa + t.ks) t.ks)

/-- The step that the event names, among those of its team: the first of its instruction (R278). -/
def StepDue (s : State) (m : Team) (as bs : List HashStep) (st : HashStep) : Prop :=
  s.chip.teams.find? (fun t => t.steps.any fun q => q.id == s.event.a) = some m ∧ s.chip.team? m.id = some m
    ∧ (∀ t ∈ s.chip.teams, t.id = m.id → t = m) ∧ m.steps = as ++ st :: bs ∧ (∀ q ∈ as, q.id ≠ s.event.a) ∧ st.id = s.event.a
    ∧ (st.last = true → st.since + 30 ≤ s.chip.cyc)

/-- R280, R282, R284, R291: the lead of a step takes its D and its status, the other lanes theirs, or they keep their D where the
form gives them none; no other lane's register changes. Its flags stand in the group's fst, and a step of status 3 counts in
FAILS. -/
def HashStepLanes : Prop :=
  ∀ (s : State) (m : Team) (as bs : List HashStep) (st : HashStep) (t : Table), StepDue s m as bs st → m.lag = [] →
    st.lanes ≠ [] → m.table? st.handle = some t → (∀ b, st.op ≠ .drain b) → (st.lanes.map (·.1)).Nodup → m.lostWords = [] →
    let r := (s.chip.onTeam m.id fun u => { u with steps := as ++ bs }).stepTable { m with steps := as ++ bs } (s.chip.ctxOf m) t st
    let o := r.2
    ∃ c', Acts s .hashStep c'
      ∧ (∀ v q, r.1.team? m.id = some v → v.table? st.handle = some q → ∃ u, c'.team? m.id = some u
        ∧ u.table? st.handle = some (if o.lead = 3 then { q with fails := min 0xFFFF (q.fails + 1) } else q))
      ∧ ∀ g g', s.chip.group? st.group = some g → c'.group? st.group = some g' → g'.fst = g.fst ||| o.flags
      ∧ ((hashRegs st.wide st.dst st.st).Nodup → ∀ l, l < 64 →
        let lead := decide ((st.lanes.map (·.1)).head? = some l)
        let other := !lead && (st.lanes.map (·.1)).contains l
        let d := if lead then some o.dLead else if other then o.dOther else none
        (st.dst ≠ 0xFF → g'.vreg st.dst l = (d.map fun v => BitVec.ofNat 32 (v % 2 ^ 32)).getD (g.vreg st.dst l)
          ∧ (st.wide = true → g'.vreg (st.dst + 1) l = (d.map fun v => BitVec.ofNat 32 (v / 2 ^ 32)).getD (g.vreg (st.dst + 1) l)))
        ∧ (st.st ≠ 0xFF → g'.vreg st.st l =
          if lead then BitVec.ofNat 32 o.lead else if other then BitVec.ofNat 32 o.others else g.vreg st.st l))

/-- R286: what the hash unit sees of the scratchpad, and what ordinary accesses see of what it has written. A team's view for the
unit holds, where the unit does not see a store yet, the byte that it sees. A step, and an hclaim or hclr, acts on that view:
a byte whose store it does not see keeps the stored value, with what the unit makes of it beneath; every other byte is as
the unit leaves it; and an ordinary access sees the byte that it saw before or the new one. Either side comes to see a
doubleword of the other's in time. -/
def HashViews : Prop :=
  (∀ t : Team, lagsOnce t → { t.hashView with sp := t.sp, lag := t.lag } = t ∧ t.hashView.lag = []
    ∧ ∀ a, SMap.get 0#8 t.hashView.sp a = hashByte t a)
  ∧ (∀ (s : State) (i : Instr) (m : Team), s.chip.team? m.id = some m → lagsOnce m →
    (i = .hashStep ∧ ∃ as bs st, StepDue s m as bs st)
      ∨ (∃ x e, Issues s i x ∧ x.team.id = m.id ∧ (i = .hclaim e ∨ i = .hclr e)) →
    ∀ c0, Acts { s with chip := s.chip.onTeam m.id Team.hashView } i c0 → ∃ c' u0 u, Acts s i c' ∧ c' = { c0 with teams := c'.teams }
      ∧ c0.team? m.id = some u0 ∧ c'.team? m.id = some u ∧ { u with sp := u0.sp, lag := u0.lag, old := u0.old } = u0
      ∧ (u.lag.map (·.at_)) = m.lag.map (·.at_)
      ∧ ∀ a, hashByte u a = SMap.get 0#8 u0.sp a
        ∧ SMap.get 0#8 u.sp a = (if (m.lag.any fun l => l.at_ == a) then SMap.get 0#8 m.sp a else SMap.get 0#8 u0.sp a)
        ∧ (u.ordinary a = m.ordinary a ∨ u.ordinary a = SMap.get 0#8 u.sp a))
  ∧ ∀ (s : State) (m : Team) (d : Nat), s.chip.team? m.id = some m →
      (∃ c' u, s.perform (.hashSees m.id d) = .next { s with chip := c' } ∧ c'.team? m.id = some u
        ∧ u = { m with lag := m.lag.filter fun l => l.at_ / 8 != d } ∧ c' = { s.chip with teams := c'.teams })
      ∧ ∃ c' u, s.perform (.loadsSee m.id d) = .next { s with chip := c' } ∧ c'.team? m.id = some u
        ∧ u = { m with old := m.old.filter fun l => l.at_ / 8 != d } ∧ c' = { s.chip with teams := c'.teams }

/-- R160, R376, as the model reads them for hash steps (log 119): a step that would read a lost word of its table writes
nothing, in memory, in its table or in a register, and the word is to be reported. -/
def HashStepLost : Prop :=
  ∀ (s : State) (m : Team) (as bs : List HashStep) (st : HashStep) (t : Table), StepDue s m as bs st → m.lag = [] →
    st.lanes ≠ [] → m.table? st.handle = some t → (∀ b, st.op ≠ .drain b) →
    let reads := spRanges (m.stepReads t st.key)
    m.loses reads = true → ∃ c' u, Acts s .hashStep c' ∧ SameMemory s c' ∧ c'.team? m.id = some u
      ∧ u = { m with steps := as ++ bs, lostWords := u.lostWords }
      ∧ (∀ l ∈ u.lostWords, ∀ w, l.word = some w → reads w = true → l.met ≠ none)
      ∧ ∀ g g', s.chip.group? st.group = some g → c'.group? st.group = some g' → { g' with busy := g.busy } = g

/-- R278, R289, R290: one step of a hash drain: a bucket's entries from the cursor on, one read of the count word with the
entry after it, or the lanes left once the cursor is finished (the division is the model's, log 92). One that meets a lost
word of its table ends the drain with nothing written (log 119). -/
def DrainSteps : Prop :=
  ∀ (s : State) (m : Team) (as bs : List HashStep) (st : HashStep) (t : Table) (k : Cursor) (clear : Bool),
      StepDue s m as bs st → m.lag = [] → st.op = .drain clear → st.last = false → m.table? st.handle = some t → cursorOf t st.key = some k → st.lanes ≠ [] →
      let b := k.pos / t.entries
      let key := fun (u : Team) i => natAt u.sp (t.keyAt b i) t.ks
      let value := fun (u : Team) i => natAt u.sp (t.valAt b i) t.ks
      ((∃ l ∈ m.lostWords, ∃ a, l.word = some (.sp a) ∧ a / 4 = t.keyAt b (k.pos % t.entries) / 4) → k.fin = false → k.spill = false →
        ∃ c' u, Acts s .hashStep c' ∧ SameMemory s c' ∧ c'.team? m.id = some u
          ∧ u = { m with steps := as ++ bs, lostWords := u.lostWords }
          ∧ ∀ g g', s.chip.group? st.group = some g → c'.group? st.group = some g' → { g' with busy := g.busy } = g)
      ∧ (m.lostWords = [] →
      let ls := st.lanes.map (·.1)
      let low := fun n : Nat => BitVec.ofNat 32 (n % 2 ^ 32)
      let high := fun n : Nat => BitVec.ofNat 32 (n / 2 ^ 32)
      let gets := fun (c' : Chip) (l : Nat) (v : Nat × Nat × Nat) => ∀ g g', s.chip.group? st.group = some g →
        c'.group? st.group = some g' → (drainRegs t.wide st.dst st.val st.st).Nodup → ls.Nodup → l < 64 →
        (st.dst ≠ 0xFF → g'.vreg st.dst l = low v.1 ∧ (t.wide = true → g'.vreg (st.dst + 1) l = high v.1))
        ∧ (st.val ≠ 0xFF → g'.vreg st.val l = low v.2.1 ∧ (t.wide = true → g'.vreg (st.val + 1) l = high v.2.1))
        ∧ (st.st ≠ 0xFF → g'.vreg st.st l = low v.2.2)
      (k.fin = true → ∃ c', Acts s .hashStep c' ∧ SameMemory s c' ∧ c'.team? m.id = some { m with steps := as ++ bs }
        ∧ (∀ l ∈ ls, gets c' l (t.emptyKey, 0, 6))
        ∧ ∀ g', c'.group? st.group = some g' → st.cur < 0x40 → g'.sreg st.cur = BitVec.allOnes 64)
      ∧ (k.fin = false → k.spill = false →
        let live := ((List.range t.entries).filter fun i => decide (k.pos % t.entries ≤ i)).filterMap fun i =>
          if key m i = t.emptyKey ∨ key m i = t.tombKey then none else some (i, key m i, value m i)
        let given := fun i => ∃ j v, j < ls.length ∧ live[j]? = some v ∧ v.1 = i
        let passes := fun i => decide (k.pos % t.entries ≤ i)
          && (decide (live.length < ls.length) || (live[ls.length - 1]?).any fun v => decide (i < v.1))
        let passed := fun i => i < t.entries ∧ passes i = true
        let tombs := (List.range t.entries).filter fun i => passes i && decide (key m i = t.tombKey)
        ∃ c' u, Acts s .hashStep c' ∧ SameMemory s c' ∧ c'.team? m.id = some u
          ∧ (∀ (j l : Nat) (v : Nat × Nat × Nat), ls[j]? = some l → live[j]? = some v → gets c' l (v.2.1, v.2.2, 1))
          ∧ (live.length < ls.length → ∃ st', u.steps = as ++ st' :: bs ∧ st' = { st with key := st'.key, lanes := st'.lanes }
            ∧ st'.lanes.map (·.1) = ls.drop live.length
            ∧ st'.key = (if b + 1 = t.buckets then BitVec.ofNat 64 (2 ^ 62) else BitVec.ofNat 64 (t.entries * (b + 1) % 2 ^ 32)))
          ∧ (ls.length ≤ live.length → u.steps = as ++ bs ∧ ∀ v g', live[ls.length - 1]? = some v →
            c'.group? st.group = some g' → st.cur < 0x40 → g'.sreg st.cur =
              (let n := t.entries * b + v.1 + 1
                if n = t.buckets * t.entries then BitVec.ofNat 64 (2 ^ 62) else BitVec.ofNat 64 (n % 2 ^ 32)))
          ∧ (clear = false → u = { m with steps := u.steps })
          ∧ (clear = true → u.table? st.handle = some { t with
              live := oneLess^[min live.length ls.length] t.live, tomb := oneLess^[tombs.length] t.tomb })
          ∧ (clear = true → (∀ i, given i → key u i = t.emptyKey ∧ value u i = 0)
            ∧ (∀ i, passed i → key m i = t.tombKey → key u i = t.emptyKey)
            ∧ (∀ i, i < t.entries → ¬given i → value u i = value m i ∧ (¬(passed i ∧ key m i = t.tombKey) → key u i = key m i))
            ∧ ∀ a, ¬(t.base + 64 * b ≤ a ∧ a < t.base + 64 * b + 64) → SMap.get 0#8 u.sp a = SMap.get 0#8 m.sp a))
      ∧ (k.fin = false → k.spill = true → ∀ l ls', ls = l :: ls' →
        let gives := fun (c' : Chip) (n : Nat) (w : W64) => ∃ u, c'.team? m.id = some u
          ∧ (n < ls.length → ∃ st', u.steps = as ++ st' :: bs ∧ st' = { st with key := st'.key, lanes := st'.lanes }
            ∧ st'.lanes.map (·.1) = ls.drop n ∧ st'.key = w)
          ∧ (ls.length ≤ n → u.steps = as ++ bs
            ∧ ∀ g', c'.group? st.group = some g' → st.cur < 0x40 → g'.sreg st.cur = w)
        let done := BitVec.allOnes 64
        let next := BitVec.ofNat 64 (2 ^ 62 + (k.pos + 1) % 2 ^ 32)
        let count := s.chip.spillCount m.core (s.chip.ctxOf m) t
        (∀ c1 v, count = (c1, .error v) → ∃ c', Acts s .hashStep c' ∧ SameMemory s c' ∧ gives c' 1 done ∧ gets c' l (t.emptyKey, 0, v))
        ∧ (∀ c1 n, count = (c1, .ok n) → n ≤ k.pos → ∃ c' u, Acts s .hashStep c' ∧ gives c' 0 done ∧ c'.team? m.id = some u
          ∧ (clear = false → SameMemory s c' ∧ u = { m with steps := u.steps })
          ∧ (clear = true → (∀ b, b < t.buckets → u.ovf t b = false)
            ∧ u.table? st.handle = some { t with ovf := 0, spills := 0 }
            ∧ ∀ c2 p, t.scap ≠ 0 → c1.translate (corePlaces m.core) (s.chip.ctxOf m) t.cnta.toNat 4 .write = (c2, .ok p) →
              p.pa % 4 = 0 → c'.homeNat p.pa 4 = 0 ∧ ∀ a, ¬(p.pa ≤ a ∧ a < p.pa + 4) → c'.byte a = s.chip.byte a))
        ∧ ∀ c1 n, count = (c1, .ok n) → k.pos < n →
          let entry := c1.spillRead m.core (s.chip.ctxOf m) t k.pos
          (∀ c2 v, entry = (c2, .error v) → ∃ c', Acts s .hashStep c' ∧ SameMemory s c' ∧ gives c' 1 done ∧ gets c' l (t.emptyKey, 0, v))
          ∧ (∀ c2 key v, entry = (c2, .ok (key, v)) → ∃ c', Acts s .hashStep c' ∧ SameMemory s c'
            ∧ (key ≠ t.emptyKey → key ≠ t.tombKey → gives c' 1 next ∧ gets c' l (key, v, 1))
            ∧ (key = t.emptyKey ∨ key = t.tombKey → gives c' 0 next))))

end Sys2Proof.Expect

/-- R272, R277, R278, R282, R283: a step that finds its key nowhere and room in its window puts it there: an insertion or
accumulation gives status 0, the key is then found in a bucket and its value reads back. R280, R282 to R284: every other
case of a step: what an ins, probe, del or accumulate does with a key found in a bucket, found in the spill array or not
found, with the first free entry of its window, the spill of a new one and its failures, a lookup that fails itself, and what
the lead and the other lanes take.
R278, R289, R290: the steps of hdrain.keep and hdrain.clear. One gives the lanes the live entries of a bucket in order, and with
hdrain.clear empties them and the tombstones that it passes; one in the spill phase gives a lane the next live entry, or
status 3 or 6 where the count word or the entry cannot be read, or finishes the cursor behind the last one, with hdrain.clear
clearing the overflow bits and the count word; a finished cursor gives every lane left the empty key, value 0 and status 6; and
the group's cursor register takes the cursor after the last lane.
The model's choices among these: how a drain divides into steps (log 92), a count word that cannot be written at the end of
hdrain.clear (log 107), what a step does that meets a lost word of its table (log 119), the NaN of a single lane (log 130), a spill
through a page with CMP 0b10 or 0b11 (log 132), and that the sides of R286 see each other's writes by doublewords (log 138).
R284, R291: the flags of an accumulate, and the table's counters. R283: the status of a spill access that fails. R286: what the hash
unit sees of ordinary stores, and ordinary accesses of its writes. -/
def Obligations.HashInsertThenLookup : Prop :=
  (∀ (c : Chip) (m : Team) (ctx : Nat) (t : Table) (st : HashStep), c.team? m.id = some m →
      st.op = .ins ∨ (∃ a, st.op = .acc a) ∨ st.op = .acc64 → st.key.toNat < 2 ^ t.kbits - 2 →
      let value := if st.op = .ins then (st.lanes.map fun l => l.2.toNat).headD 0 else st.combined.1
      value < 2 ^ t.kbits → c.lookup m ctx t st.key = (c, .nowhere) →
      (∃ p ∈ t.places st.key, natAt m.sp (t.keyAt p.1 p.2) t.ks ∈ [t.emptyKey, t.tombKey]) →
      (c.stepTable m ctx t st).2.lead = 0
        ∧ ∃ u b i, (c.stepTable m ctx t st).1.team? m.id = some u ∧ (c.lookup u ctx t st.key).2 = .bucket b i
          ∧ natAt u.sp (t.valAt b i) t.ks = value)
  ∧ HashStepResults ∧ HashCounters ∧ SpillAccesses ∧ HashStepLanes ∧ HashStepLost ∧ DrainSteps ∧ HashViews

namespace Sys2Proof.Expect

/-- R273 to R276, R291: hclaim, hrel, hclr and hstat. -/
def HashTables : Prop :=
  ∀ (s : State) (x : Issue) (e : Enc), s.chip.team? x.team.id = some x.team →
     let h := e.imm.toNat % 8
     let calm := x.team.lag = [] ∧ ∀ t ∈ s.chip.teams, t.id = x.team.id → t = x.team
     let status := fun (i : Instr) (v : W64) (P : Chip → Team → Prop) =>
       ∃ c' u, Acts s i c' ∧ Answers c' x e.d v ∧ c'.team? x.team.id = some u ∧ P c' u
     let nothing := fun (c' : Chip) (u : Team) => u = x.team ∧ SameMemory s c'
     let lost := fun t : Table => x.team.loses (spRanges [(t.sda, 32)])
     let waits := fun i : Instr => exec i s = .next { s with
       chip := (if x.g0.begun then s.chip else s.chip.acquire x.core .dev).onGroup x.g.id fun g => { g with readyAt := s.chip.cyc + 1 } }
     let fresh := fun (c1 : Chip) (t1 : Table) (c' : Chip) (u : Team) =>
       { u with sp := x.team.sp, tables := x.team.tables, old := x.team.old } = x.team
       ∧ u.tables = (x.team.tables.filter fun q => q.handle != h) ++ [t1] ∧ t1.handle = h
       ∧ t1.live = 0 ∧ t1.tomb = 0 ∧ t1.fails = 0 ∧ t1.ovf = 0 ∧ t1.spills = 0
       ∧ (∀ b i, b < t1.buckets → i < t1.entries → natAt u.sp (t1.keyAt b i) t1.ks = t1.emptyKey)
       ∧ (∀ b, b < t1.buckets → u.ovf t1 b = false)
       ∧ (∀ a, ¬(t1.base ≤ a ∧ a < t1.base + t1.bytes) → SMap.get 0#8 u.sp a = SMap.get 0#8 x.team.sp a)
       ∧ (t1.scap = 0 → SameMemory s c')
       ∧ ∀ c2 p, t1.scap ≠ 0 → c1.translate (corePlaces x.core) x.ctx t1.cnta.toNat 4 .both = (c2, .ok p) → p.pa % 4 = 0 →
         c'.homeNat p.pa 4 = 0 ∧ ∀ a, ¬(p.pa ≤ a ∧ a < p.pa + 4) → c'.byte a = s.chip.byte a
     (Issues s (.hclaim e) x → calm → tableOf h (x.g.scalar e.a.toNat) = none → status (.hclaim e) 1#64 nothing)
     ∧ (Issues s (.hclaim e) x → calm → ∀ t, tableOf h (x.g.scalar e.a.toNat) = some t → lost t = false →
       let f := fun o n => natAt x.team.sp (t.sda + o) n
       let bad := status (.hclaim e) 2#64 nothing
       let c := x.chip0 s
       let at_ := fun (c : Chip) va n => c.translate (corePlaces x.core) x.ctx va n .both
       (1024 * x.desc.spg < t.base + t.bytes ∨ 1024 * x.desc.spg < t.sda + 32 → bad)
       ∧ (f 12 4 ≠ 0 ∨ f 24 8 ≠ 0 → bad)
       ∧ (f 8 4 ≠ 0 → f 0 8 % 16 ≠ 0 ∨ f 16 8 % 4 ≠ 0 ∨ 2 ^ 57 ≤ f 0 8 ∨ 2 ^ 57 ≤ f 16 8 → bad)
       ∧ (f 8 4 ≠ 0 → ∀ c1, (∃ k, at_ c (f 0 8) (2 * t.ks) = (c1, .error k)) ∨ (∃ p, at_ c (f 0 8) (2 * t.ks) = (c1, .ok p) ∧ p.cp = 3)
         → bad)
       ∧ (f 8 4 ≠ 0 → ∀ c1 p c2, at_ c (f 0 8) (2 * t.ks) = (c1, .ok p) →
         (∃ k, at_ c1 (f 16 8) 4 = (c2, .error k)) ∨ (∃ q, at_ c1 (f 16 8) 4 = (c2, .ok q) ∧ q.cp = 3) → bad))
     ∧ (Issues s (.hclaim e) x → calm → ∀ t c1 t1, tableOf h (x.g.scalar e.a.toNat) = some t → lost t = false →
       (x.chip0 s).withSpill x t = (c1, some t1) →
       ((x.team.table? h).isSome = true → status (.hclaim e) 3#64 nothing)
       ∧ (x.team.table? h = none → tableClash t1 x.team.tables = true → status (.hclaim e) 4#64 nothing)
       ∧ (x.team.table? h = none → tableClash t1 x.team.tables = false → status (.hclaim e) 0#64 (fresh c1 t1)))
     ∧ (Issues s (.hclaim e) x → calm → ∀ t, tableOf h (x.g.scalar e.a.toNat) = some t → lost t = true →
       ∃ n, Acts s (.hclaim e) { (x.chip0 s).meetWords x.team.id (spRanges [(t.sda, 32)]) with fresh := n })
     ∧ (∀ i ∈ [Instr.hrel e, .hclr e], Issues s i x → i = .hrel e ∨ calm → x.team.table? h = none → status i 5#64 nothing)
     ∧ (∀ i ∈ [Instr.hrel e, .hclr e], Issues s i x → (x.team.table? h).isSome = true → (∃ st ∈ x.team.steps, st.handle = h) → waits i)
     ∧ (Issues s (.hrel e) x → (x.team.table? h).isSome = true → (∀ st ∈ x.team.steps, st.handle ≠ h) →
       status (.hrel e) 0#64 fun c' u => SameMemory s c'
         ∧ u = { x.team with tables := x.team.tables.filter fun q => q.handle != h } ∧ u.table? h = none)
     ∧ (Issues s (.hclr e) x → calm → ∀ t, x.team.table? h = some t → (∀ st ∈ x.team.steps, st.handle ≠ h) →
       let again := (x.chip0 s).withSpill x { t with tomb := 0, live := 0, fails := 0, ovf := 0, spills := 0 }
       (lost t = false → ∀ c1, again = (c1, none) → status (.hclr e) 2#64 nothing)
       ∧ (lost t = false → ∀ c1 t1, again = (c1, some t1) → status (.hclr e) 0#64 (fresh c1 t1))
       ∧ (lost t = true →
         ∃ n, Acts s (.hclr e) { (x.chip0 s).meetWords x.team.id (spRanges [(t.sda, 32)]) with fresh := n }))
     ∧ (Issues s (.hstat e) x → ∀ t, x.team.table? h = some t → (∀ st ∈ x.team.steps, st.group ≠ x.g.id) → e.d.toNat < 0x3F →
       let ws := [RegName.s e.d.toNat, .s (e.d.toNat + 1)]
       x.g.allSettled ws → GroupEffect s (.hstat e) x ws false fun g =>
         g.regEnd (.s e.d.toNat) 0 = BitVec.ofNat 64 (t.tomb % 2 ^ 32 * 2 ^ 32 + t.live % 2 ^ 32)
         ∧ g.regEnd (.s (e.d.toNat + 1)) 0
           = BitVec.ofNat 64 (min t.fails 0xFFFF * 2 ^ 48 + t.ovf % 2 ^ 16 * 2 ^ 32 + t.spills % 2 ^ 32))
     ∧ (Issues s (.hstat e) x → (x.team.table? h).isSome = true → (∃ st ∈ x.team.steps, st.group = x.g.id) → waits (.hstat e))
     ∧ (∀ i ∈ [Instr.hstat e, .hdrainKeep e, .hdrainClear e], Issues s i x → x.team.table? h = none →
       exec i s = .next (trapState s x 0x08 (BitVec.ofNat 64 h)))

/-- R288 to R290: hdrain.keep and hdrain.clear with a legal cursor form their work. -/
def DrainsFormed : Prop :=
  ∀ (s : State) (x : Issue) (e : Enc), ∀ p ∈ drainTable e, Issues s p.1 x → ∀ t k,
       let odd := fun v : BitVec 8 => v ≠ 0xFF#8 ∧ (v.toNat % 2 ≠ 0 ∨ x.desc.regs < v.toNat + 2)
       let high := fun v : BitVec 8 => if v = 0xFF#8 then [] else [RegName.v (v.toNat + 1)]
       x.team.table? (e.imm.toNat % 8) = some t → ¬(t.wide = true ∧ (odd e.d ∨ odd e.b)) →
       MoreFree p.1 x ([], if t.wide then high e.d ++ high e.b else []) →
       cursorOf t (x.g.scalar e.a.toNat) = some k →
       (x.act = 0#64 → Acts s p.1 (x.chip0 s))
       ∧ (x.act ≠ 0#64 → s.chip.team? x.team.id = some x.team → ∃ c' u st, Acts s p.1 c' ∧ SameMemory s c'
         ∧ c'.team? x.team.id = some u ∧ u.steps = x.team.steps ++ [st]
         ∧ { u with steps := x.team.steps, rec_ := { u.rec_ with open_ := x.team.rec_.open_ } } = x.team
         ∧ (u.rec_.open_ = true → x.team.rec_.open_ = true)
         ∧ st.group = x.g.id ∧ st.handle = e.imm.toNat % 8 ∧ st.op = .drain p.2 ∧ st.key = x.g.scalar e.a.toNat
         ∧ st.lanes = x.lanes.map (fun l => (l, 0#64)) ∧ st.dst = e.d.toNat ∧ st.val = e.b.toNat ∧ st.st = e.c.toNat
         ∧ st.cur = e.a.toNat ∧ st.last = false ∧ st.since = s.chip.cyc ∧ st.region = x.team.regionNo
         ∧ ∀ g, c'.group? x.g.id = some g → ∀ r ∈ drainRegs t.wide e.d.toNat e.b.toNat e.c.toNat ++ sregs e.a, r ∈ g.busy)

end Sys2Proof.Expect

/-- R273 to R276: hclaim, hrel and hclr complete with a status, under conditions on their claim word, their spill descriptor and
the team's tables and outstanding operations: the table that is claimed or cleared is empty, with its count word 0, and the
table that is released is gone; every other byte keeps its value. R291: hstat reads the two words of counters once the group's
own steps are applied (the model's choice, log 37). An hclaim or hclr that meets a lost word of its descriptor writes nothing and
reports it (the model's choice too, log 119). R288 to R290: hdrain.keep and hdrain.clear with a legal cursor form their work
behind the group's earlier steps, and complete at once without an active lane; what their steps then do is
HashInsertThenLookup's, and what hclaim and hclr do where the hash unit does not see every store yet (R286). -/
def Obligations.HashTableAndDrainResults : Prop := HashTables ∧ DrainsFormed

/-- R9 to R19, R25 to R31, R51, R234: words written out from the encodings of the manual decode to their instructions. -/
def Obligations.DecodeSamples : Prop :=
  let is := fun (ws : List W32) (i : Instr) => decodeWords Limits.top ws = .ok i
  is [0x000000E0#32] (.exitB { q := 0, stall := 0, d := 0, a := 0 })
  ∧ is [0x0090420C#32] (.addB { q := 0, stall := 3, d := 4, a := 9 })
  ∧ is [0x253000C1#32, 0x00000045#32, 0x000003E8#32] (.jwait { blank with q := 2, a := 0x53, b := 0x45, imm := 1000 })
  ∧ is [0x30206675#32, 0x0A000703#32, 0#32]
      (.fma { blank with q := 3, stall := 5, d := 6, a := 2, b := 3, c := 7, rnd := .rz, ty := .f32 })
  ∧ is [0x0010528D#32, 0x20000302#32, 0#32]
      (.mad { blank with stall := 3, d := 5, a := 1, b := 2, c := 3, sat := true })
  ∧ is [0x00206E01#32, 0x42000507#32, 0#32]
      (.atom .addS32 { blank with d := 6, a := 2, b := 7, c := 5, ty := .f32, as_ := true })
  ∧ is [0x00804FD5#32, 0x02814009#32, 0x0000200D#32]
      (.pair { q := 0, stall := 5, d1 := 4, a1 := 8, b1 := 9, p1 := 0, d2 := 5, a2 := 10, b2 := 13, p2 := 0x20 })
  ∧ is [0x00000F81#32, 0#32, 5#32] (.trap { blank with imm := 5 })
  ∧ is [0x00007EA1#32, 0#32, 0#32] (.wcnt .copy { blank with d := 7 })

/-- R9 to R19, R25 to R31: the encoder and the decoder agree under every limits: every well-formed instruction decodes from its
words, and words that decode are the words of the instruction they decode to, which is well-formed. -/
def Obligations.EncodeDecodeRoundTrip : Prop :=
  (∀ (l : Limits) (i : Instr), wellFormed l i = true → decodeWords l (encode i) = .ok i)
  ∧ ∀ (l : Limits) (ws : List W32) (i : Instr), decodeWords l ws = .ok i →
      wellFormed l i = true ∧ encode i = ws.take (lengthWords (ws.headD 0#32))

/-- R30, R32 to R35, R39, R43: a step that issues runs the instruction that the words at the group's issue address decode to,
where the core's instruction cache holds no other words: it is exec of that instruction with the group named as the one
that issues, and nothing but that cache and the L2's lines has changed before. Of several groups chosen for the cycle one
of those that may go first takes its turn. R321: where the team's discard has been decided, an instruction that would close
its region does not issue, nor a job.cancel that takes the team away. -/
def Obligations.StepRunsTheDecodedInstruction : Prop :=
  (∀ (s : State) (r : Ready) (g : Group) (core ctx : Nat) (lim : Limits) (ia : Nat) (w0 : W32) (ws : List W32) (i : Instr),
    s.control.bootState = 3 → s.stage = .issue → s.picked = [r] → s.chip.group? r.group = some g → g.pendTraps = [] →
    (∀ m, s.chip.team? g.team = some m → m.lostWords = [] ∧ (m.deciding = false ∨ m.rec_.open_ = false)) →
    s.chip.site g = some (core, ctx, lim) → g.issueAddress = some ia → ws.length + 1 = lengthWords w0 →
    (∀ k w, (w0 :: ws)[k]? = some w → ∃ p, s.chip.translate (corePlaces core) ctx (ia + 4 * k) 4 .fetch = (s.chip, .ok p)
      ∧ s.chip.poisoned p.pa 4 = false ∧ s.chip.homeWord p.pa = w
      ∧ ∀ v, SMap.get none s.chip.icache (icacheKey core p.pa) = some v → v = w) →
    decodeWords lim (w0 :: ws) = .ok i → ∃ ic n l2,
      step s = exec i { s with chip := { s.chip with icache := ic, fresh := n, l2 := l2 }, picked := [], current := some r.group })
  ∧ ∀ (s : State), s.control.bootState = 3 → s.stage = .issue → first s.picked ≠ [] → ∃ q ∈ first s.picked, ∃ n,
      let s1 := { s with chip := { s.chip with fresh := n }, picked := s.picked.filter fun p => p.group != q.group }
      step s = s1.turn q.group
        ∧ ∀ g c i, s1.chip.group? q.group = some g → g.pendTraps = [] → s1.chip.nextInstr g = some (c, .ok i) →
          let s2 := { s1 with chip := c, current := some q.group }
          ((∀ m, c.team? g.team = some m → m.lostWords = [] ∧ (m.deciding = false ∨ m.rec_.open_ = false)) →
            step s = exec i s2)
          ∧ (∀ m u t, c.team? g.team = some m → m.deciding = true → m.rec_.open_ = true → exec i s2 = .next t →
            t.chip.team? g.team = some u → u.rec_.open_ = false → step s = .next { s2 with chip := c.retry g.id })
          ∧ (∀ m e x t, c.team? g.team = some m → m.deciding = true → m.rec_.open_ = true → i = .jobCancel e →
            c.issueAt g.id i = some x → (x.g.scalar e.a.toNat).toNat < 65536 →
            (c.context x.ctx).cbase ≤ (x.g.scalar e.a.toNat).toNat →
            (x.g.scalar e.a.toNat).toNat < (c.context x.ctx).cbase + (c.context x.ctx).cnum →
            exec i s2 = .next t → t.chip.team? g.team = none → step s = .next { s2 with chip := c.retry g.id })

/-- The model's form of R27 and R30 (no instruction stops the machine): where only events wait to arrive, a step answers a
next state, and the waiting events are those that waited before, the oldest perhaps taken. -/
def Obligations.StepNeverStops : Prop :=
  ∀ s : State, (∀ p ∈ s.agenda, shapeOf p.1 = none) →
    ∃ t, step s = .next t ∧ (t.agenda = s.agenda ∨ ∃ p, s.agenda = p :: t.agenda)

/-- R80, R205, R208, R303, R371, R372, R378, R382, R384 to R386: what a fundamental reset leaves: no work, no context enabled, the
stated values of the context, counter, port, routing and control registers, and every byte of memory reading 0, of host
memory by the model's choice (log 8). The state meets both invariants. -/
def Obligations.ResetState : Prop :=
  let s := State.reset
  s.Inv ∧ s.MemoryCanonical ∧ s.control.bootState = 0 ∧ s.control.pwrlim = 3200 ∧ s.control.mreg = List.replicate 8 0#512
  ∧ s.chip.groups = [] ∧ s.chip.teams = [] ∧ s.chip.launches = [] ∧ s.chip.cyc = 0
  ∧ (∀ a, s.chip.byte a = 0#8)
  ∧ (∀ x, s.chip.ctxRead x 0x00 = .ok 0 ∧ s.chip.ctxRead x 0x02 = .ok 0 ∧ s.chip.ctxRead x 0x03 = .ok 0x00100000
    ∧ s.chip.ctxRead x 0x04 = .ok 0x100 ∧ s.chip.ctxRead x 0x05 = .ok 0x003D0900 ∧ s.chip.ctxRead x 0x06 = .ok 0x00030D40
    ∧ s.chip.ctxRead x 0x07 = .ok 0x000C3500 ∧ s.chip.ctxRead x 0x09 = .ok 0x400000 ∧ s.chip.ctxRead x 0x0A = .ok 0x400000
    ∧ s.chip.ctxRead x 0x10 = .ok 0)
  ∧ (∀ n, (s.chip.counter n).word0 = 0#64 ∧ (s.chip.counter n).word1 = 0x0000FFFF00000000#64)
  ∧ (∀ p, (s.chip.port p).linkstat = 0)
  ∧ (∀ d, SMap.get (BitVec.allOnes 64) s.chip.routes d = BitVec.allOnes 64)
  ∧ (∀ c m x, s.chip.mailbox c m x = .reset)

/-- R386, R389: every step keeps the control block legal: a start-up state of the manual, eight measurement registers, a power
limit of 1,000 to 3,200 W, and the readings of at most 100 microseconds. -/
def Obligations.ControlBlockStaysLegal : Prop := ∀ s t : State, s.Inv → step s = .next t → t.Inv

/-- R205, R208: every step keeps memory in its one canonical form (an inference from the model's data, not a rule). -/
def Obligations.MemoryStaysCanonical : Prop :=
  ∀ s t : State, s.MemoryCanonical → step s = .next t → t.MemoryCanonical

/-- R242 to R245, R247 to R252: sleep puts the active lanes to sleep with its deadline, its class and its event mask, and does nothing
without an active lane; push returns 1 and changes nothing else where its queue is full, and else is accepted: its
operation stands last in the queue, its counter and sequence number rise, and a copy that asks for one gets a promise
of at least 64 cycles; a bad command of another queue than attn ends at once with status 1, one of attn in its turn. wcnt reads and clears the
status word once its counter is low enough, and else waits. -/
def Obligations.SleepPushAndCounterWaits : Prop :=
  ∀ (s : State) (x : Issue) (e : Enc),
    let v := if e.a = 0xFF#8 then Enc.imm64 e else x.g.scalar e.a.toNat
    (∀ p ∈ [(Instr.sleepUntil e, v, none), (.sleepCyc e, BitVec.ofNat 64 s.chip.cyc + v, none),
        (.sleepPrm e, x.g.scalar e.a.toNat,
          some ([EngClass.copy, .index, .drain, .blend, .attn, .coll].getD e.b.toNat .coll, e.imm.toNat % 64))],
      Issues s p.1 x →
      (x.act = 0#64 → Acts s p.1 (x.chip0 s))
      ∧ (x.act ≠ 0#64 → ∃ (c' : Chip) (g : Group) (z : Sleep), Acts s p.1 c' ∧ SameMemory s c' ∧ c'.group? x.g.id = some g
        ∧ g.sleeps = x.g.sleeps ++ [z] ∧ z.deadline = p.2.1 ∧ z.prm = p.2.2 ∧ z.mask = e.c.setWidth 5 ∧ z.happened = []
        ∧ z.from_ = s.chip.cyc
        ∧ (∀ (l : Nat) (y : Lane), x.g.lanes[l]? = some y →
          g.lanes[l]? = some (if x.act.getLsbD l then { y with st := .asleep z.id } else y))
        ∧ { g with sleeps := x.g.sleeps, lanes := x.g.lanes, lease := x.g.lease } = x.g))
    ∧ (∀ p ∈ pushTable e, Issues s p.1 x → x.g.counters.get p.2.1 < 63 →
      let cmd := (List.range 64).map fun k => (x.g.sreg (e.a.toNat + k / 8)).extractLsb' (8 * (k % 8)) 8
      let queued := (s.chip.ops.filter fun o => o.core == x.core && o.cls == p.2.1).length
      let sound := headerOk p.2.1 x.desc.nb cmd && bodyOk p.2.1 cmd
      let promise := p.2.1 = .copy ∧ (cmdNat cmd 1 1).testBit 0 = true
      (p.2.2 ≤ queued → ScalarEffect s p.1 x e.d 1#64)
      ∧ (queued < p.2.2 → nothingSent s x → ∃ (c' : Chip) (o : EngOp), Acts s p.1 c'
        ∧ o.cls = p.2.1 ∧ o.cmd = cmd ∧ o.group = x.g.id ∧ o.team = x.team.id ∧ o.core = x.core ∧ o.ctx = x.ctx
        ∧ o.seq = x.g.seq.get p.2.1 + 1 ∧ o.started = false ∧ o.bad = !sound
        ∧ (∀ t, c'.team? x.team.id = some t → t.rec_.open_ = false)
        ∧ (x.g.allSettled (sregs e.d ++ [.s (e.d.toNat + 1)]) → e.d.toNat + 1 < 0x40 → ∃ g, c'.group? x.g.id = some g
          ∧ g.regEnd (.s e.d.toNat) 0 = 0#64
          ∧ (promise → ∃ n, 64 ≤ n ∧ (sound = false → n = 64) ∧ (s.chip.cyc + 64 < 2 ^ 64 → s.chip.cyc + n < 2 ^ 64)
            ∧ g.regEnd (.s (e.d.toNat + 1)) 0 = BitVec.ofNat 64 (s.chip.cyc + n))
          ∧ (¬promise → g.regEnd (.s (e.d.toNat + 1)) 0 = x.g.regEnd (.s (e.d.toNat + 1)) 0)
          ∧ ∀ r, r ≠ .s e.d.toNat → r ≠ .s (e.d.toNat + 1) → ∀ l, l < 64 → g.regEnd r l = x.g.regEnd r l)
        ∧ (sound = true ∨ p.2.1 = .attn → c'.ops = s.chip.ops ++ [o] ∧ ∀ g, c'.group? x.g.id = some g →
          g.counters.get p.2.1 = x.g.counters.get p.2.1 + 1 ∧ g.seq.get p.2.1 = x.g.seq.get p.2.1 + 1)
        ∧ (sound = false → p.2.1 ≠ .attn → (cmdNat cmd 1 1).testBit 1 = false →
          (∀ q ∈ s.chip.ops, q.id ≠ o.id ∧ ¬(q.group = x.g.id ∧ q.cls = p.2.1)) → (∀ q ∈ s.chip.parked, q.op ≠ o.id) →
          c'.ops = s.chip.ops ∧ ∀ g, c'.group? x.g.id = some g → g.counters.get p.2.1 = x.g.counters.get p.2.1
            ∧ g.status.get p.2.1 = statusFail (x.g.status.get p.2.1) (x.g.seq.get p.2.1 + 1) (cmdNat cmd 0 1) 1)))
    ∧ (∀ cls, Issues s (.wcnt cls e) x →
      (x.g.counters.get cls ≤ e.imm.toNat % 64 → ∃ c', Acts s (.wcnt cls e) c' ∧ SameMemory s c'
        ∧ Answers c' x e.d (x.g.status.get cls)
        ∧ ∀ g, c'.group? x.g.id = some g → g.status = x.g.status.set 0#64 cls ∧ g.counters = x.g.counters)
      ∧ (e.imm.toNat % 64 < x.g.counters.get cls → Acts s (.wcnt cls e)
        ((x.chip0 s).setGroup { x.g with wait := some (.counter cls (e.imm.toNat % 64) e.d.toNat) })))

/-- R263 to R265, R267, R268, R286: the barrier instructions change their barrier and complete its phase as R264 says, and return the
phase or the barrier's word; after an arrival (R286) the hash unit sees all that its group has stored, and ordinary accesses all that
the hash unit has written for it; the mailbox instructions send, receive and look, each indivisibly, and mbx.recv clears FULL alone.
At the end of a cycle's issues every barrier is tested. -/
def Obligations.BarriersAndMailboxes : Prop :=
  (∀ (s : State) (x : Issue) (e : Enc) (y : Barrier),
    let b := e.a.toNat - 0xC0
    let v := if e.b = 0xFF#8 then Enc.imm64 e else x.g.scalar e.b.toNat
    let a := if e.a = 0xFF#8 then Enc.imm64 e else x.g.scalar e.a.toNat
    let to_ := x.g.scalar e.a.toNat
    let free := nothingSent s x ∧ (x.chip0 s).storesOut x.core x.g.id = false ∧ ∀ t ∈ s.chip.teams, ∀ st ∈ t.steps, st.group ≠ x.g.id
    (x.team.bars[b]? = some y →
      (Issues s (.barInit e) x → 1 ≤ v.toNat → v.toNat ≤ 65535 → ∃ c', Acts s (.barInit e) c' ∧ SameMemory s c'
        ∧ BarrierSet c' x b y { flipped y with expect := v.toNat, arrived := 0, bytes := 0#64 } false)
      ∧ (Issues s (.barInit e) x → ¬(1 ≤ v.toNat ∧ v.toNat ≤ 65535) → exec (.barInit e) s = .next (trapState s x 0x01 v))
      ∧ (Issues s (.barExpect e) x → ∃ c', Acts s (.barExpect e) c' ∧ SameMemory s c'
        ∧ c'.groups = (x.chip0 s).groups
        ∧ c'.team? x.team.id = some { x.team with bars := x.team.bars.set b { y with bytes := y.bytes + v } })
      ∧ (∀ i ∈ [Instr.barArrive e, .barSync e], Issues s i x → free → 
        let z := { flipped y with arrived := min 0xFFFF ((flipped y).arrived + 1) }
        ∃ c', Acts s i c' ∧ SameMemory s c' ∧ BarrierSet c' x b y z true ∧ Answers c' x e.d (if z.phase then 1#64 else 0#64)
        ∧ ∀ g, c'.group? x.g.id = some g →
          g.wait = if i = .barSync e ∧ barrierDone z = false then some (.barrier b z.phase) else none)
      ∧ (Issues s (.barWait e) x → Acts s (.barWait e) ((x.chip0 s).setGroup
        (if y.phase = v.getLsbD 0 then { x.g with wait := some (.barrier b (v.getLsbD 0)) } else x.g)))
      ∧ (Issues s (.barQuery e) x → ScalarEffect s (.barQuery e) x e.d (BitVec.ofNat 64
        (y.phase.toNat * 2 ^ 63 + y.parked % 2 ^ 16 * 2 ^ 32 + y.arrived % 2 ^ 16 * 2 ^ 16 + y.expect % 2 ^ 16))))
    ∧ (Issues s (.mbxSend e) x → 4096 ≤ to_.toNat → exec (.mbxSend e) s = .next (trapState s x 0x01 to_))
    ∧ (Issues s (.mbxSend e) x → to_.toNat < 4096 → nothingSent s x →
      let old := SMap.get Mailbox.reset s.chip.mailboxes to_.toNat
      let kept := old.full = true ∧ old.ctx = x.ctx
      ∃ c', Acts s (.mbxSend e) c' ∧ (∀ t, c'.team? x.team.id = some t → t.rec_.open_ = false)
        ∧ (kept → Answers c' x e.d 1#64) ∧ (¬kept → Answers c' x e.d 0#64)
        ∧ ∀ k, SMap.get Mailbox.reset c'.mailboxes k =
          if k = to_.toNat ∧ ¬kept then { value := v, full := true, ctx := x.ctx }
          else SMap.get Mailbox.reset s.chip.mailboxes k)
    ∧ (∀ i ∈ [Instr.mbxRecv e, .mbxPeek e], Issues s i x → 16 ≤ a.toNat → exec i s = .next (trapState s x 0x01 a))
    ∧ (∀ i ∈ [Instr.mbxRecv e, .mbxPeek e], Issues s i x → a.toNat < 16 → e.d.toNat + 1 < 0x40 →
      let k0 := 16 * x.core + a.toNat
      let old := SMap.get Mailbox.reset s.chip.mailboxes k0
      let here := old.full = true ∧ old.ctx = x.ctx
      let ws := [RegName.s e.d.toNat, .s (e.d.toNat + 1)]
      x.g.allSettled ws → ∃ c' g, Acts s i c' ∧ SameMemory s c' ∧ c'.group? x.g.id = some g ∧ g.FrameOf x.g ws false
        ∧ g.regEnd (.s e.d.toNat) 0 = (if here then old.value else 0#64)
        ∧ g.regEnd (.s (e.d.toNat + 1)) 0 = (if here then 1#64 else 0#64)
        ∧ ∀ k, SMap.get Mailbox.reset c'.mailboxes k =
          if k = k0 ∧ here ∧ i = .mbxRecv e then { old with full := false } else SMap.get Mailbox.reset s.chip.mailboxes k))
  ∧ ∀ s : State, s.control.bootState = 3 → s.stage = .issue → s.picked = [] → (s.chip.teams.map (·.id)).Nodup →
      ∃ t, step s = .next t ∧ t.stage = .due ∧ t.chip.mem = s.chip.mem
        ∧ ∀ m ∈ s.chip.teams, t.chip.team? m.id = some { m with bars := m.bars.map flipped }

namespace Sys2Proof.Expect

/-- R74, R75, R301, R302: the status of a submission: that of the first check that fails. -/
def SubmitStatuses : Prop :=
  ∀ (c : Chip) (x q : Nat) (ws : List W64) (maintOk : Bool),
    let f := fun k hi lo : Nat => (ws.getD k 0#64).toNat / 2 ^ lo % 2 ^ (hi + 1 - lo)
    let k := c.context x
    let inside := fun n : Nat => k.cbase ≤ n ∧ n < k.cbase + k.cnum
    let st := c.submitStatus x q ws maintOk
    let job := f 6 15 0
    let graph := f 5 47 32
    let phase := f 5 63 48
    let cctr := f 4 47 32
    let width := 8 * 2 ^ f 3 53 52
    let full := 256 ≤ (c.launches.filter fun l => l.ctx == x && l.queue == q && l.unplaced).length
    let reserved := f 3 63 63 ≠ 0 ∨ f 3 59 59 ≠ 0 ∨ f 3 55 54 ≠ 0 ∨ f 4 31 14 ≠ 0 ∨ f 4 11 11 ≠ 0 ∨ f 6 63 16 ≠ 0 ∨ f 7 63 0 ≠ 0
    let partition := f 2 63 38 ≠ 0 ∨ f 2 23 19 ≠ 0 ∨ f 2 7 4 ≠ 0 ∨ 48 < f 2 37 32 ∨ 64 < f 2 30 24 ∨ 1535 < f 2 18 8
      ∨ f 2 3 0 < 1 ∨ 8 < f 2 3 0
    let bad := reserved ∨ partition ∨ f 0 63 0 % 4 ≠ 0 ∨ 2 ^ 57 ≤ f 0 63 0 ∨ f 3 62 61 = 3 ∨ f 4 13 12 = 3 ∨ 1792 < f 4 10 0
      ∨ 2 ^ 32 ≤ (f 3 15 0 + 1) * (f 3 31 16 + 1) * (f 3 47 32 + 1) ∨ (f 3 60 60 = 1 ∧ maintOk = false)
    let large := 1535 < (f 3 51 48 + 1) * (width / 8) * f 2 3 0 + f 2 18 8 + 4 * f 2 30 24
    let counters := ¬inside cctr ∨ ¬inside job ∨ (c.counter job).level ≠ 3#2 ∨ (f 5 31 0 ≠ 0 ∧ ¬inside (f 4 63 48))
      ∨ (graph ≠ 0xFFFF ∧ (¬inside graph ∨ (c.counter graph).level ≠ 1#2))
      ∨ (phase ≠ 0xFFFF ∧ (¬inside phase ∨ (c.counter phase).level ≠ 2#2)) ∨ ∃ l ∈ c.launches, l.desc.cctr = cctr
    let cancelled := (c.counter job).cancelled = true ∨ (graph ≠ 0xFFFF ∧ (c.counter graph).cancelled = true)
      ∨ (phase ≠ 0xFFFF ∧ (c.counter phase).cancelled = true)
    (full → st = 1) ∧ (¬full → bad → st = 2) ∧ (¬full → ¬bad → large → st = 3) ∧ (¬full → ¬bad → ¬large → counters → st = 4)
    ∧ (¬full → ¬bad → ¬large → ¬counters → cancelled → st = 5) ∧ (¬full → ¬bad → ¬large → ¬counters → ¬cancelled → st = 0)

end Sys2Proof.Expect

/-- R302, R312, R313, R315: the status of a submission, by the checks of R302 in their order; spawn submits the descriptor in its
registers with that status; fw zeroes its record and sends its request, or traps; rgn.enter waits for the other groups of the
team, and opens a region at its own next address where its group is the only one. -/
def Obligations.SpawnFetchWorkAndRegions : Prop :=
  SubmitStatuses ∧ ∀ (s : State) (x : Issue) (e : Enc),
    let ws := (List.range 8).map fun k => x.g.sreg (e.a.toNat + k)
    let q := e.imm.toNat % 64
    let d := Desc.ofWords ws
    let st := s.chip.submitStatus x.ctx q ws false
    let a := (if e.a = 0xFF#8 then 0#64 else x.g.scalar e.a.toNat) + e.imm.signExtend 64
    let arg := if e.a = 0xFF#8 then 0#64 else x.g.scalar e.a.toNat
    let next := BitVec.ofNat 64 (x.ia + x.len)
    (Issues s (.spawn e) x → nothingSent s x → Returns s (.spawn e) x e (BitVec.ofNat 64 st) fun c' =>
      Closed c' x
      ∧ (st ≠ 0 → c'.launches = s.chip.launches ∧ ∀ k, c'.counter k = s.chip.counter k)
      ∧ (st = 0 → (∃ l, c'.launches = s.chip.launches ++ [l] ∧ l.ctx = x.ctx ∧ l.queue = q ∧ l.desc = d ∧ l.next = 0
          ∧ l.left = (d.dxm1 + 1) * (d.dym1 + 1) * (d.dzm1 + 1) ∧ l.returned = [])
        ∧ CounterSet s c' d.cctr { value := 0, target := BitVec.ofNat 32 ((d.dxm1 + 1) * (d.dym1 + 1) * (d.dzm1 + 1)),
                                   parent := BitVec.ofNat 16 d.graph, faults := 0, level := 0, done := false, cancelled := false }))
    ∧ (Issues s (.fw e) x → ∀ k v, spFault x true 16 a = some (k, v) → exec (.fw e) s = .next (trapState s x k v))
    ∧ (Issues s (.fw e) x → spFault x true 16 a = none → x.g.fwOut = none → ∃ c' u, Acts s (.fw e) c' ∧ SameMemory s c'
      ∧ c'.group? x.g.id = some { x.g with fwOut := some a.toNat } ∧ c'.team? x.team.id = some u ∧ u.rec_.open_ = false
      ∧ { u with sp := x.team.sp, lag := x.team.lag, old := x.team.old, rec_ := x.team.rec_ } = x.team
      ∧ ∀ b, SMap.get 0#8 u.sp b = if a.toNat ≤ b ∧ b < a.toNat + 16 then 0#8 else SMap.get 0#8 x.team.sp b)
    ∧ (Issues s (.rgnEnter e) x →
      (∃ h ∈ s.chip.groups, h.team = x.team.id ∧ h.id ≠ x.g.id ∧ ∀ p r, h.wait ≠ some (.rendezvous p r)) →
      Acts s (.rgnEnter e) ((x.chip0 s).setGroup { x.g with wait := some (.rendezvous next arg) }))
    ∧ (Issues s (.rgnEnter e) x → (∀ h ∈ s.chip.groups, h.team = x.team.id → h.id = x.g.id) → x.g.fwOut = none →
      x.team.request = none → ∃ c' u, Acts s (.rgnEnter e) c' ∧ SameMemory s c'
        ∧ c'.group? x.g.id = some { x.g with wait := none } ∧ c'.team? x.team.id = some u
        ∧ u = { x.team with
          regionNo := x.team.regionNo + 1, deciding := false
          rec_ := { entry := next, arg, open_ := true, masks := (List.range x.desc.groups).map fun i =>
            if i = x.g.grpidx then x.g.exited else fullMask x.desc.width } })

namespace Sys2Proof.Expect

/-- R304: a change to a counter. A cancelled one takes none. One whose VALUE then equals TARGET becomes DONE, and where it has a
parent (R324: a job's is no count) 1 is added to that, which is a change in turn, on the counters as this one has left them. -/
def CounterChanges : Prop :=
  ∀ (c : Chip) (n fuel : Nat) (f : Counter → Counter),
    let r := f (c.counter n)
    let full := r.value = r.target ∧ r.target ≠ 0#32 ∧ r.done = false
    let c' := c.bump (fuel + 1) n f
    ((c.counter n).cancelled = true → ∀ m, c'.counter m = c.counter m)
    ∧ ((c.counter n).cancelled = false → ¬full → ∀ m, c'.counter m = if m = n then r else c.counter m)
    ∧ ((c.counter n).cancelled = false → full → r.level = 3#2 ∨ r.parent = 0xFFFF#16 →
      ∀ m, c'.counter m = if m = n then { r with done := true } else c.counter m)
    ∧ ((c.counter n).cancelled = false → full → r.level ≠ 3#2 → r.parent ≠ 0xFFFF#16 →
      ∃ c1 : Chip, (∀ m, c1.counter m = if m = n then { r with done := true } else c.counter m)
        ∧ ∀ m, c'.counter m = (c1.bump fuel r.parent.toNat fun p => { p with value := p.value + 1 }).counter m)
    ∧ ∀ ms : List Nat, (n :: ms).Nodup → ms.length ≤ fuel → (c.counter n).cancelled = false → full → r.level ≠ 3#2 →
      let more := fun m => { c.counter m with value := (c.counter m).value + 1 }
      (∀ i m, ms[i]? = some m → m < 0xFFFF ∧ (if i = 0 then r else c.counter ((n :: ms)[i]?.getD 0)).parent.toNat = m
        ∧ (c.counter m).cancelled = false
        ∧ (i + 1 < ms.length → (more m).value = (more m).target ∧ (more m).target ≠ 0#32 ∧ (more m).done = false ∧ (more m).level ≠ 3#2)
        ∧ (i + 1 = ms.length → ¬((more m).value = (more m).target ∧ (more m).target ≠ 0#32 ∧ (more m).done = false))) →
      ms ≠ [] → ∀ m, c'.counter m =
        if m = n then { r with done := true } else if some m = ms.getLast? then more m
        else if m ∈ ms then { more m with done := true } else c.counter m

end Sys2Proof.Expect

/-- R311, R322 to R325: the job instructions: their traps on a bad counter, their statuses, and the records they change.
R304: what a change to a counter does to it and, where it becomes DONE, to its parents in turn; job.cadd makes one such change. -/
def Obligations.JobInstructions : Prop :=
  CounterChanges ∧ ∀ (s : State) (x : Issue) (e : Enc),
    let a := x.g.scalar e.a.toNat
    let n := a.toNat
    let r := s.chip.counter n
    let v := if e.b = 0xFF#8 then Enc.imm64 e else x.g.scalar e.b.toNat
    let k := s.chip.context x.ctx
    let ours := n < 65536 ∧ k.cbase ≤ n ∧ n < k.cbase + k.cnum
    let free := nothingSent s x
    let busy := (∃ l ∈ s.chip.launches, l.desc.cctr = n) ∨ (r.level = 3#2 ∧ r.done = false)
    let same := fun c' : Chip => ∀ m, c'.counter m = s.chip.counter m
    (∀ i ∈ jobAll e, Issues s i x →
      (65536 ≤ n → exec i s = .next (trapState s x 0x01 a))
      ∧ (n < 65536 → ¬(k.cbase ≤ n ∧ n < k.cbase + k.cnum) → exec i s = .next (trapState s x 0x08 a)))
    ∧ (Issues s (.jobCwait e) x → ours →
      (r.cancelled = true ∨ v.toNat % 2 ^ 32 ≤ r.value.toNat →
        Returns s (.jobCwait e) x e r.word0 fun c' => Closed c' x ∧ SameMemory s c' ∧ same c')
      ∧ (¬(r.cancelled = true ∨ v.toNat % 2 ^ 32 ≤ r.value.toNat) → ∃ c', Acts s (.jobCwait e) c' ∧ Closed c' x
        ∧ SameMemory s c' ∧ c'.group? x.g.id = some { x.g with wait := some (.jobCounter n (v.setWidth 32) e.d.toNat) }))
    ∧ (Issues s (.jobCadd e) x → ours → free →
      (r.cancelled = true → Returns s (.jobCadd e) x e 3#64 fun c' => Closed c' x ∧ same c')
      ∧ (r.cancelled = false → Returns s (.jobCadd e) x e 0#64 fun c' => Closed c' x
        ∧ (r.value + v.setWidth 32 ≠ r.target ∨ r.target = 0#32 ∨ r.done = true →
          CounterSet s c' n { r with value := r.value + v.setWidth 32 })
        ∧ (r.value + v.setWidth 32 = r.target ∧ r.target ≠ 0#32 → (c'.counter n).done = true)
        ∧ ∀ m, c'.counter m = (s.chip.bump 65536 n fun r => { r with value := r.value + v.setWidth 32 }).counter m))
    ∧ (Issues s (.jobCaddInit e) x → ours → free →
      let level := v.toNat / 2 ^ 48 % 4
      let good := v.toNat < 2 ^ 50 ∧ (level = 1 ∨ level = 2)
      (¬good → Returns s (.jobCaddInit e) x e 1#64 fun c' => Closed c' x ∧ same c')
      ∧ (good → busy → Returns s (.jobCaddInit e) x e 2#64 fun c' => Closed c' x ∧ same c')
      ∧ (good → ¬busy → Returns s (.jobCaddInit e) x e 0#64 fun c' => Closed c' x ∧ CounterSet s c' n
        { value := 0, target := v.setWidth 32, parent := BitVec.ofNat 16 (v.toNat / 2 ^ 32), faults := 0,
          level := BitVec.ofNat 2 level, done := false, cancelled := false }))
    ∧ (Issues s (.jobCancel e) x → ours →
      (r.level.toNat ≠ e.imm.toNat % 4 → Returns s (.jobCancel e) x e 1#64 fun c' => Closed c' x ∧ same c')
      ∧ (r.level.toNat = e.imm.toNat % 4 → r.cancelled = true →
        Returns s (.jobCancel e) x e 3#64 fun c' => Closed c' x ∧ same c')
      ∧ (r.level.toNat = e.imm.toNat % 4 → r.cancelled = false → ∃ c', Acts s (.jobCancel e) c'
        ∧ (c'.counter n).cancelled = true
        ∧ (∀ l ∈ s.chip.launches, s.chip.inSubtree (e.imm.toNat % 4) n l = true →
          ∀ t ∈ c'.teams, t.launch ≠ l.id)
        ∧ ((∀ l ∈ s.chip.launches, s.chip.inSubtree (e.imm.toNat % 4) n l = false) → Answers c' x e.d 0#64)))
    ∧ (Issues s (.jobFork e) x → ours →
      (busy → Returns s (.jobFork e) x e 2#64 fun c' => Closed c' x ∧ same c')
      ∧ (¬busy → s.chip.jobCancelled 257 x.desc.job = true → Returns s (.jobFork e) x e 3#64 fun c' => Closed c' x ∧ same c')
      ∧ (¬busy → s.chip.jobCancelled 257 x.desc.job = false → 255 < s.chip.jobDepth 257 x.desc.job + 1 →
        Returns s (.jobFork e) x e 4#64 fun c' => Closed c' x ∧ same c')
      ∧ (¬busy → s.chip.jobCancelled 257 x.desc.job = false → s.chip.jobDepth 257 x.desc.job + 1 ≤ 255 →
        Returns s (.jobFork e) x e 0#64 fun c' => Closed c' x
          ∧ SMap.get 0 c'.liveKids x.desc.job = SMap.get 0 s.chip.liveKids x.desc.job + 1 ∧ CounterSet s c' n
            { value := 0, target := v.setWidth 32, parent := BitVec.ofNat 16 x.desc.job, faults := 0, level := 3, done := false,
              cancelled := false }))

namespace Sys2Proof.Expect

/-- The configuration registers that a failing write leaves as they were (R371). -/
def ConfigStays (c c' : Chip) : Prop :=
  c'.contexts = c.contexts ∧ c'.counters = c.counters ∧ c'.die0 = c.die0 ∧ c'.die1 = c.die1 ∧ c'.devid = c.devid ∧ c'.ports = c.ports
    ∧ c'.routes = c.routes ∧ c'.devSets = c.devSets ∧ c'.arenaPages = c.arenaPages

/-- What a write of v to a ring's BASE (`base`) or CTL leaves, `put` saying where (R371, R372); a value that is bad while the
ring is not empty has one of the two statuses. -/
def RingWrites (r : Ring) (align v : Nat) (base : Bool) (refuses : Nat → Prop) (put : Ring → Prop) : Prop :=
  let locked := r.head ≠ r.tail ∧ (base = true ∨ v % 2 ^ 5 ≠ r.log2n)
  let good := if base then v % align = 0 ∧ v < 2 ^ 52 else v / 2 ^ 5 % 2 ^ 11 = 0 ∧ v % 2 ^ 5 ≤ 20
  (locked → good → refuses 2) ∧ (locked → ¬good → refuses 2 ∨ refuses 3) ∧ (¬locked → ¬good → refuses 3)
    ∧ (¬locked → good → put (if base then { r with base := v } else { r with head := v / 2 ^ 40, log2n := v % 2 ^ 5 }))

/-- R371, R372, R384, R385: the registers that sys.cfgwr writes, with each status of each (except `plainRegisters`). -/
def ConfigWrites (s : State) (x : Issue) (e : Enc) : Prop :=
  let a := x.g.scalar e.a.toNat
  let w := x.g.scalar e.b.toNat
  let v := w.toNat
  let num := fun blk f i : Nat => BitVec.ofNat 64 (blk * 2 ^ 24 + f * 2 ^ 16 + i)
  let does := Returns s (.sysCfgwr e) x e
  let refuses := fun st : Nat => does (BitVec.ofNat 64 st) (ConfigStays s.chip)
  let same := fun c' : Chip => c'.counters = s.chip.counters ∧ c'.die0 = s.chip.die0 ∧ c'.die1 = s.chip.die1 ∧ c'.routes = s.chip.routes
    ∧ c'.devSets = s.chip.devSets
  (∀ f i, f < 2 ^ 8 → i < 2 ^ 16 →
    (∀ blk, 5 ≤ blk → blk < 2 ^ 8 → a = num blk f i → refuses 1) ∧ (64 ≤ f → a = num 0 f i ∨ a = num 4 f i → refuses 1)
    ∧ (2 ≤ f → a = num 2 f i → refuses 1) ∧ (0x13 < i → a = num 0 f i → refuses 1) ∧ (4 < i → a = num 2 f i → refuses 1)
    ∧ (1024 ≤ i ∨ i % 4 = 3 → a = num 4 f i → refuses 1) ∧ (2 ≤ f → a = num 1 f i → refuses 1)
    ∧ (f ≠ 0 ∨ 0 < i ∧ i < 0x0100 ∨ 0x018F < i ∧ i < 0x1000 ∨ 0x1FFF < i → a = num 3 f i → refuses 1))
  ∧ (∀ y, y < 64 →
    let k := s.chip.context y
    let is_ := fun i : Nat => a = num 0 y i
    let sets := fun k' : Context => does 0#64 fun c' => (∀ z, c'.context z = if z = y then k' else s.chip.context z) ∧ same c'
    let either := fun (good : Prop) (k' : Context) => (good → sets k') ∧ (¬good → refuses 3)
    (is_ 0x00 → either (v < 16) { k with maint := w.getLsbD 3, priv := w.getLsbD 1 })
    ∧ (is_ 0x01 → either (v % 2 ^ 14 = 0 ∧ v < 2 ^ 52) { k with ptroot := v })
    ∧ (is_ 0x02 → either (v % 4 = 0) { k with xhandler := w })
    ∧ (is_ 0x0D → either (v % 64 = 0 ∧ v < 2 ^ 52) { k with ctxsave := v })
    ∧ (is_ 0x08 →
      let base := v % 2 ^ 16
      let n := v / 2 ^ 16
      either (n ≤ 65535 ∧ base + n ≤ 0xFFFF ∧ (n ≠ 0 → ∀ q ∈ s.chip.contexts, q.1 ≠ y → q.2.cnum ≠ 0 →
        base + n ≤ q.2.cbase ∨ q.2.cbase + q.2.cnum ≤ base)) { k with cbase := base, cnum := n })
    ∧ (is_ 0x0B ∨ is_ 0x0C ∨ is_ 0x0E → refuses 2)
    ∧ (∀ base, is_ (if base then 0x0F else 0x10) → RingWrites k.flog 32 v base refuses fun r => sets { k with flog := r })
    ∧ (∀ base, is_ (if base then 0x11 else 0x12) → RingWrites k.arena 8 v base refuses fun r =>
      (base = true ∨ k.arenaHeld = [] → sets { k with arena := r })
      ∧ does 0#64 fun c' => (c'.context y).arena.base = r.base ∧ (c'.context y).arena.head = r.head
        ∧ (c'.context y).arena.log2n = r.log2n)
    ∧ (is_ 0x13 →
      let c1 := (x.chip0 s).release x.core .sys
      let page := v % 2 ^ 41
      let job := v / 2 ^ 48
      let r := s.chip.counter job
      let good := v / 2 ^ 41 % 2 ^ 7 = 0 ∧ (∃ en, c1.walkRoot y (page * 2 ^ 16) = .ok en ∧ en.size = 2 ^ 16)
        ∧ k.cbase ≤ job ∧ job < k.cbase + k.cnum ∧ r.level = 3#2 ∧ r.cancelled = false
        ∧ ∀ q ∈ s.chip.arenaPages, ¬(q.ctx = y ∧ q.page = page)
      (¬good → refuses 3) ∧ (good → 2 ^ 20 ≤ s.chip.arenaPages.length → refuses 4)
      ∧ (good → s.chip.arenaPages.length < 2 ^ 20 → does 0#64 fun c' => c'.contexts = s.chip.contexts ∧ same c'
        ∧ c'.arenaPages = s.chip.arenaPages ++ [{ ctx := y, job := job, page := page }])))
  ∧ (∀ n, n < 2 ^ 16 →
    let r := s.chip.counter n
    let record := fun r' : Counter => does 0#64 fun c' => CounterSet s c' n r'
    (a = num 1 0 n → (v / 2 ^ 48 % 2 ^ 12 ≠ 0 → refuses 3) ∧ (v / 2 ^ 48 % 2 ^ 12 = 0 → record
      { r with value := BitVec.ofNat 32 v, faults := v / 2 ^ 32 % 2 ^ 16, level := BitVec.ofNat 2 (v / 2 ^ 60)
               done := w.getLsbD 62, cancelled := w.getLsbD 63 }))
    ∧ (a = num 1 1 n → (2 ^ 48 ≤ v → refuses 3) ∧ (v < 2 ^ 48 → record
      { r with target := BitVec.ofNat 32 v, parent := BitVec.ofNat 16 (v / 2 ^ 32) })))
  ∧ (∀ d, d < 2 →
    let die := s.chip.die d
    let sets := fun die' : Die => does 0#64 fun c' => c'.contexts = s.chip.contexts ∧ c'.counters = s.chip.counters
      ∧ ∀ d', d' < 2 → c'.die d' = if d' = d then die' else s.chip.die d'
    (∀ base, a = num 2 d (if base then 0 else 1) → RingWrites die.fq 32 v base refuses fun r => sets { die with fq := r })
    ∧ (a = num 2 d 2 → sets { die with eccCe := w }) ∧ (a = num 2 d 3 → sets { die with eccUe := w }) ∧ (a = num 2 d 4 → refuses 2))
  ∧ (a = num 3 0 0 → (4096 ≤ v → refuses 3) ∧ (v < 4096 → does 0#64 fun c' => c'.devid = BitVec.ofNat 12 v ∧ same c'))
  ∧ (∀ i, i < 144 → a = num 3 0 (0x0100 + i) →
    (v / 2 % 2 ^ 15 ≠ 0 → refuses 3) ∧ (v / 2 % 2 ^ 15 = 0 → does 0#64 fun c' => same c' ∧ ∀ j, c'.port j =
      if j = i then { s.chip.port i with crcerr := BitVec.ofNat 32 (v / 2 ^ 32), replay := v / 2 ^ 16 % 2 ^ 16 } else s.chip.port j))
  ∧ (∀ d, d < 4096 → a = num 3 0 (0x1000 + d) →
    let good := ∀ i, i < 8 → v / 2 ^ (8 * i) % 256 < 144 ∨ v / 2 ^ (8 * i) % 256 = 0xFF
    let route := fun (c : Chip) (j : Nat) => SMap.get (BitVec.allOnes 64) c.routes j
    (¬good → refuses 3) ∧ (good → does 0#64 fun c' => c'.contexts = s.chip.contexts
      ∧ ∀ j, route c' j = if j = d then w else route s.chip j))
  ∧ (∀ y set k, y < 64 → set < 256 → k < 3 → a = num 4 y (4 * set + k) →
    let busy := k ≠ 2 ∧ ((s.chip.setWord y set 2).getLsbD 0 = true
      ∨ ∃ o ∈ s.chip.ops, o.ctx = y ∧ o.cls = .coll ∧ o.inSet = true ∧ cmdNat o.cmd 24 2 = set)
    let members := v % 2 ^ 16
    let good := if k = 0 then 1 ≤ members ∧ members ≤ 4096 ∧ v / 2 ^ 16 % 2 ^ 16 < members
      else if k = 1 then v % 64 = 0 ∧ v < 2 ^ 52 else v < 2
    (busy → good → refuses 2) ∧ (busy → ¬good → refuses 2 ∨ refuses 3) ∧ (¬busy → ¬good → refuses 3)
    ∧ (¬busy → good → does 0#64 fun c' => c'.contexts = s.chip.contexts ∧ ∀ y' set' k', y' < 64 → set' < 256 → k' < 3 →
      c'.setWord y' set' k' = if (y', set', k') = (y, set, k) then w else s.chip.setWord y' set' k'))

end Sys2Proof.Expect

/-- R260, R369 to R374: the privileged instructions. In a context without PRIV each takes the privileged-instruction trap; else
they invalidate translations, read and write configuration registers, replay or discard parked units, and enable,
suspend, resume or tear down another context, each with its status. The status of a config number with a bit above 31, the
value register of a failing sys.cfgrd, a counter record's write without propagation and PARENT after a teardown are the model's
choice (log 56), and so are that a reserved bit gives status 3 and no trap (log 81) and that a page attached already is a bad one
(log 34). -/
def Obligations.PrivilegedInstructions : Prop :=
  ∀ (s : State) (x : Issue) (e : Enc),
    let a := x.g.scalar e.a.toNat
    let b := x.g.scalar e.b.toNat
    let k := s.chip.context x.ctx
    let y := a.toNat
    let ky := s.chip.context y
    let ready := k.priv = true ∧ nothingSent s x
    (∀ i ∈ sysAll e, Issues s i x → k.priv = false → exec i s = .next (trapState s x 0x13 ((encode i).getD 0 0#32 ++ (encode i).getD 1 0#32)))
    ∧ (ready → ∀ p ∈ [(Instr.sysTlbinvLeaf e, if e.imm = 3#32 then 3 else 0), (.sysTlbinvContext e, 1), (.sysTlbinvAll e, 2)],
      Issues s p.1 x →
      let goes := fun t : TlbEntry => (p.2 = 0 ∧ t.ctx = b.toNat ∧ t.va = a.toNat / t.size * t.size) ∨ (p.2 = 1 ∧ t.ctx = b.toNat)
        ∨ p.2 = 2
      (64 ≤ b.toNat ∨ p.2 = 3 → Returns s p.1 x e 1#64 fun c' => c'.tlb = s.chip.tlb)
      ∧ (b.toNat < 64 → p.2 ≠ 3 → s.chip.walksOut (if p.2 = 2 then none else some b.toNat) = false →
        Returns s p.1 x e 0#64 fun c' => ∀ t, t ∈ c'.tlb ↔ t ∈ s.chip.tlb ∧ ¬goes t))
    ∧ (ready → Issues s (.sysCfgrd e) x → e.d.toNat + 1 < 0x40 → x.g.allSettled [.s e.d.toNat, .s (e.d.toNat + 1)] →
      ∃ c' g, Acts s (.sysCfgrd e) c' ∧ c'.group? x.g.id = some g
        ∧ (∀ r, r ≠ .s e.d.toNat → r ≠ .s (e.d.toNat + 1) → ∀ l, l < 64 → g.regEnd r l = x.g.regEnd r l) ∧ g.fst = x.g.fst
        ∧ (∀ v, s.chip.cfgRead a = .ok v →
          g.regEnd (.s e.d.toNat) 0 = BitVec.ofNat 64 v ∧ g.regEnd (.s (e.d.toNat + 1)) 0 = 0#64)
        ∧ ∀ st, s.chip.cfgRead a = .error st → g.regEnd (.s e.d.toNat) 0 = x.g.regEnd (.s e.d.toNat) 0
          ∧ g.regEnd (.s (e.d.toNat + 1)) 0 = BitVec.ofNat 64 st)
    ∧ (ready → Issues s (.sysCfgwr e) x →
      (2 ^ 32 ≤ a.toNat → Returns s (.sysCfgwr e) x e 1#64 fun c' => c'.contexts = s.chip.contexts)
      ∧ ∀ p ∈ plainRegisters, ∀ ctx, ctx < 64 → a = BitVec.ofNat 64 (ctx * 2 ^ 16 + p.1) →
        (b.toNat < 2 ^ p.2 → Returns s (.sysCfgwr e) x e 0#64 fun c' => c'.cfgRead a = .ok b.toNat
          ∧ ∀ q ∈ plainRegisters, ∀ ctx', ctx' < 64 → (q, ctx') ≠ (p, ctx) →
            c'.ctxRead ctx' q.1 = s.chip.ctxRead ctx' q.1)
        ∧ (2 ^ p.2 ≤ b.toNat → Returns s (.sysCfgwr e) x e 3#64 fun c' => c'.contexts = s.chip.contexts))
    ∧ (ready → Issues s (.sysCfgwr e) x → ConfigWrites s x e)
    ∧ (ready → ∀ p ∈ [(Instr.sysFqreplayRetry e, false), (.sysFqreplayDiscard e, true)], Issues s p.1 x →
      ((∀ u ∈ s.chip.parked, u.token ≠ a) → Returns s p.1 x e 1#64 fun c' => c'.parked = s.chip.parked)
      ∧ ∀ u, s.chip.parked.find? (fun u => u.token == a) = some u →
        (u.void = true → Returns s p.1 x e 2#64 fun c' => c'.parked = s.chip.parked)
        ∧ (u.void = false → ∀ o, s.chip.ops.find? (fun o => o.id == u.op) = some o →
          let left := s.chip.parked.filter fun w => w.token != a
          let f := fun i n : Nat => cmdNat o.cmd i n
          let q := (s.chip.die (dieOf o.core)).fq
          let ends := fun c' : Chip => c'.parked = left ∧ ∀ t y, s.chip.team? o.team = some t → (f 1 1).testBit 1 = true →
            t.bars[f 2 1]? = some y → ∃ t' z, c'.team? o.team = some t' ∧ t'.bars[f 2 1]? = some z ∧ z.parked = y.parked - 1
              ∧ z.bytes = y.bytes - BitVec.ofNat 64 (if f 0 1 = 0x10 then f 32 4 else f 32 1)
          Returns s p.1 x e 0#64 fun c' => (p.2 = true → ends c' ∧ c'.mem = ((x.chip0 s).release x.core .sys).mem)
            ∧ (p.2 = false → ∀ c3 v,
              let unit := { (x.chip0 s).release x.core .sys with parked := left }.runUnit o u.unit (some u.va)
              (unit = (c3, .delivered, v) → ends c' ∧ c'.mem = c3.mem)
              ∧ (∀ st, unit = (c3, .failed st, v) → ends c' ∧ c'.mem = c3.mem)
              ∧ (∀ n, unit = (c3, .parks n, v) →
                ((f 1 1).testBit 2 = false → ends c' ∧ c'.mem = c3.mem)
                ∧ ((f 1 1).testBit 2 = true → q.full = false →
                  (left.filter fun w => w.die == dieOf o.core && !w.void).length < 2 ^ q.log2n →
                  ∃ w, c'.parked = left ++ [w] ∧ w.op = o.id ∧ w.unit = u.unit ∧ w.va = v ∧ w.reason = n
                    ∧ w.die = dieOf o.core ∧ w.void = false)))))
    ∧ (ready → ∀ i ∈ [Instr.sysHaltEnable e, .sysHaltSuspend e, .sysHaltResume e, .sysHaltTeardown e], Issues s i x →
      64 ≤ y ∨ y = x.ctx → Returns s i x e 1#64 fun c' => c'.contexts = s.chip.contexts)
    ∧ (ready → y < 64 → y ≠ x.ctx →
      (Issues s (.sysHaltEnable e) x →
        (ky.en = true → Returns s (.sysHaltEnable e) x e 2#64 fun c' => c'.contexts = s.chip.contexts)
        ∧ (ky.en = false → Returns s (.sysHaltEnable e) x e 0#64 fun c' =>
          c'.context y = { ky with en := true } ∧ c'.launches = s.chip.launches.filter fun l => l.ctx != y))
      ∧ (Issues s (.sysHaltSuspend e) x →
        (ky.en = false ∨ ky.susp = true → Returns s (.sysHaltSuspend e) x e 2#64 fun c' => c'.contexts = s.chip.contexts)
        ∧ (ky.en = true → ky.susp = false → ky.suspending = false → (∀ t ∈ s.chip.teams, s.chip.ctxOf t ≠ y) →
          Returns s (.sysHaltSuspend e) x e 0#64 fun c' => (c'.context y).susp = true ∧ (c'.context y).suspending = false)
        ∧ (ky.en = true → ky.susp = false → ky.suspending = false → (∃ t ∈ s.chip.teams, s.chip.ctxOf t = y) →
          ∃ c', Acts s (.sysHaltSuspend e) c' ∧ (c'.context y).suspending = true ∧ (c'.context y).susp = false
            ∧ c'.teams = s.chip.teams ∧ c'.group? x.g.id = some { x.g with wait := some (.suspension y e.d.toNat) }))
      ∧ (Issues s (.sysHaltResume e) x →
        (ky.susp = false → Returns s (.sysHaltResume e) x e 2#64 fun c' => c'.contexts = s.chip.contexts)
        ∧ (ky.susp = true → Returns s (.sysHaltResume e) x e 0#64 fun c' => (c'.context y).susp = false))
      ∧ (Issues s (.sysHaltTeardown e) x →
        (ky.en = false → Returns s (.sysHaltTeardown e) x e 2#64 fun c' => c'.contexts = s.chip.contexts)
        ∧ (ky.en = true → (∀ l ∈ s.chip.launches, l.ctx = y → ∀ t ∈ s.chip.teams, t.launch = l.id → t.id ≠ x.team.id) →
          ∃ c', Acts s (.sysHaltTeardown e) c' ∧ (c'.context y).en = false ∧ (c'.context y).susp = false
            ∧ (∀ t ∈ c'.tlb, t.ctx ≠ y) ∧ (∀ n, ky.cbase ≤ n → n < ky.cbase + ky.cnum → (c'.counter n).word0 = 0#64
              ∧ (c'.counter n).word1 = 0#64)
            ∧ (let done := (∀ d ∈ c'.drains, d.ctx ≠ y) ∧ c'.atoms = [] ∧ (∀ h ∈ c'.held, h.ctx ≠ y) ∧ ∀ p ∈ c'.leaving, p.1.ctx ≠ y
              (done → Answers c' x e.d 0#64)
              ∧ (¬done → ∃ g, c'.group? x.g.id = some g ∧ g.wait = some (.teardown y e.d.toNat)
                ∧ ∀ r l, l < 64 → g.regEnd r l = x.g.regEnd r l)))))
    ∧ (∀ g y d, s.chip.group? g.id = some g → g.wait = some (.suspension y d) → d < 0x40 → ∃ c' h,
      s.perform (.resume g.id) = .next { s with chip := c' } ∧ c'.group? g.id = some h ∧ h.wait = none ∧ h.sreg d = 0#64)

/-- R46, R53, R79, R155 to R157, R199 to R201, R212, R235, R252, R253, R278, R375, R376: what happens at the cores and in memory
without an instruction: a join's timeout, a sleep's end, divergence starvation, a drained row, a hash step, a lease
window's end, a quench entry's timeout, an atom's turn, a storage error and its report, and the clearing of granules. The hash
step is the next one of the instruction that the event names, for a team whose stores the hash unit sees (HashInsertThenLookup
says what holds for others). That
tdrain.add leaves a lost word as it was (log 55) is the model's choice, and so are that a handler's own lane runs on at INH = 1 (log 43), that a timeout
leaves other contexts' quench entries (log 83), what an error of a link or of a store's link does (log 88), when a
lost pool word counts as met (log 90), and that a soft operation under way is finished before a word is lost (log 118). -/
def Obligations.CoreAndMemoryEvents : Prop :=
  ∀ (s : State),
    let ev := s.event
    (∀ (g : Group), s.chip.group? ev.a = some g →
      (g.inh = false → g.parkedAt ev.b ≠ 0#64 → (∃ ep ∈ g.episodes, ep.join = ev.b ∧ ep.t ≠ 0 ∧ ep.t0 + ep.t ≤ s.chip.cyc) →
        ∃ g', Acts s .joinTimeout (s.chip.setGroup g') ∧ (∀ ep ∈ g'.episodes, ep.join ≠ ev.b)
          ∧ ∀ (l : Nat) (y : Lane), l < g.width → l < 64 → g.lanes[l]? = some y → ∀ m,
            (y.st = .parked ev.b m → g'.lanes[l]? = some { y with st := .running }
              ∧ ∀ n, m = some n → (g'.mreg n).getLsbD l = true)
            ∧ ((∀ m, y.st ≠ .parked ev.b m) → g'.lanes[l]? = some y))
      ∧ (∀ (z : Sleep) (r : Nat), g.sleeps.find? (fun z => z.id == ev.b) = some z → z.from_ < s.chip.cyc →
        let holds := fun q : Nat => (q = 1 ∧ z.deadline.toNat ≤ s.chip.cyc)
          ∨ (q = 2 ∧ ∃ p, z.prm = some p ∧ g.counters.get p.1 ≤ p.2) ∨ q ∈ z.happened
        holds r → (∀ q, holds q → r ≤ q) → ∃ c' g', Acts s .sleepWake c' ∧ SameMemory s c' ∧ c'.group? ev.a = some g'
          ∧ g'.wakeReason = BitVec.ofNat 3 r ∧ g'.wakeGated = z.gated ∧ (∀ w ∈ g'.sleeps, w.id ≠ z.id)
          ∧ (g.inh = false → (∃ y ∈ g.lanes, y.st = .asleep z.id) → ∀ (l : Nat) (y : Lane), g.lanes[l]? = some y →
            g'.lanes[l]? = some (if y.st = .asleep z.id then { y with st := .running } else y))
          ∧ (g.inh = true → (∀ y ∈ g.lanes, y.st ≠ .running ∧ ∀ j m, y.st = .parked j m → j < 8) →
            (∀ (l : Nat) (y : Lane), g.lanes[l]? = some y → (∃ n, y.st = .asleep n) →
              y.st = .asleep z.id ∧ g.hlanes.getLsbD l = false) →
            ∀ (l : Nat) (y : Lane), l < g.width → l < 64 → g.lanes[l]? = some y → g'.lanes[l]? = some (match y.st with
              | .asleep _ => { y with st := .held }
              | .parked _ _ => { y with st := if g.hlanes.getLsbD l then .running else .held }
              | _ => y))
          ∧ ∀ k n, z.prm = some (k, n) →
            if r = 1 ∧ n < g.counters.get k then ∃ t, g'.pendTraps = g.pendTraps ++ [t] ∧ t.cause = 0x05
              ∧ t.val = BitVec.ofNat 64 ([EngClass.copy, .index, .drain, .blend, .attn, .coll].idxOf k * 256 + g.counters.get k)
              ∧ ∀ l, l < g.width → l < 64 → t.mask.getLsbD l = ((g.lanes[l]?).any fun y => y.st == .asleep z.id)
            else g'.pendTraps = g.pendTraps)
      ∧ (∀ t rest ia, g.pendTraps = t :: rest → t.cause = 0x04 → g.issueAddress = some ia → ∃ m,
        Acts s .divergenceStarvation (s.chip.takeTrap { g with pendTraps := rest }
          { cause := 0x04, pc := BitVec.ofNat 64 ia, val := t.val, mask := m })
        ∧ ∀ l, l < g.width → l < 64 → m.getLsbD l =
          ((g.lanes[l]?).any fun y => y.st == .running && decide (ia < y.pc.toNat))))
    ∧ (∀ (d : Drain) (r : DrainRow) (rest : List DrainRow), s.chip.drains.find? (fun d => d.id == ev.a) = some d →
      d.rows = r :: rest → s.chip.rowFree d = true → (r.words.map (·.1.pa)).Nodup → (∀ w ∈ r.words, w.1.pa % 4 = 0) →
      ∃ c', Acts s .drainRowApply c'
        ∧ (∀ w ∈ r.words, c'.homeWord w.1.pa = match d.add with
          | none => w.2
          | some f => if w.1.pa / 4 ∈ s.chip.poison then s.chip.homeWord w.1.pa
            else if f then BitVec.ofNat 32 (fmtF32.sum .rn [fmtF32.decode (s.chip.homeWord w.1.pa).toNat, fmtF32.decode w.2.toNat]).1
            else s.chip.homeWord w.1.pa + w.2)
        ∧ (∀ a, (∀ w ∈ r.words, ¬(w.1.pa ≤ a ∧ a < w.1.pa + 4)) → c'.byte a = s.chip.byte a)
        ∧ (rest = [] → (∀ q ∈ c'.drains, q.id ≠ d.id) ∧ ∀ g, s.chip.group? d.group = some g → ∃ g', c'.group? d.group = some g'
          ∧ g'.counters.drain = g.counters.drain - 1)
        ∧ (rest ≠ [] → c'.groups = s.chip.groups ∧ ∃ q ∈ c'.drains, q = { d with rows := rest }))
    ∧ (∀ (m : Team) (as bs : List HashStep) (st : HashStep) (t : Table),
      StepDue s m as bs st → m.lag = [] → st.lanes ≠ [] → m.table? st.handle = some t → (∀ b, st.op ≠ .drain b) →
      m.lostWords = [] →
      let m' := { m with steps := as ++ bs }
      let r := (s.chip.onTeam m.id fun u => { u with steps := as ++ bs }).stepTable m' (s.chip.ctxOf m) t st
      ∃ c', Acts s .hashStep c' ∧ c'.mem = r.1.mem ∧ (∀ u, c'.team? m.id = some u → u.steps = as ++ bs)
        ∧ ∀ g l, c'.group? st.group = some g → (st.lanes.map (·.1)).head? = some l → l < 64 → (st.lanes.map (·.1)).Nodup →
          st.st ≠ 0xFF → g.vreg st.st l = BitVec.ofNat 32 r.2.lead)
    ∧ (s.chip.cyc ≠ 0 → s.chip.cyc % 65536 = 0 → 0 ∉ s.chip.hadEvents → ∃ c', Acts s .leaseWindowEnd c' ∧ SameMemory s c'
      ∧ ∀ (n : Nat) (g : Group), s.chip.groups[n]? = some g → ∃ g', c'.groups[n]? = some g' ∧ { g' with lease := g.lease } = g
        ∧ (let l := g.lease
          let occ := s.chip.occupancy (s.chip.coreOf g) (.group g.id)
          g'.lease.decl = l.decl ∧ g'.lease.mode = l.mode ∧ g'.lease.floor = l.floor ∧ g'.lease.misses = 0 ∧ g'.lease.lost = 0
          ∧ g'.lease.meas = (if g.ordered = false ∨ l.mode = 0 then l.meas
            else if l.misses < l.lost * 16 then min (l.meas + l.meas / 4 + 16) 1792
            else if l.lost = 0 ∧ occ * 2 < l.meas then max (l.meas - l.meas / 8) l.floor else l.meas)
          ∧ (g.ordered = true → g'.lease.parkCount = if l.active then 0 else l.parkCount + 1)
          ∧ (g.ordered = true → g'.lease.aged = if l.active then none else if l.parkCount = 3 then some s.chip.cyc else l.aged)))
    ∧ (∀ q, s.chip.quench.find? (fun q => q.core == ev.a && q.block == ev.b
        && decide (q.opened + (s.chip.context q.ctx).wcbWait ≤ s.chip.cyc)) = some q →
      ∃ c', Acts s .quenchEntryTimeout c' ∧ (∀ p ∈ c'.quench, ¬(p.core = ev.a ∧ p.ctx = q.ctx ∧ p.block = ev.b))
        ∧ (∀ p ∈ s.chip.quench, p.core ≠ ev.a ∨ p.ctx ≠ q.ctx → p ∈ c'.quench) ∧ c'.groups = s.chip.groups)
    ∧ (∀ a, s.chip.atoms.find? (fun a => a.id == ev.a) = some a → s.chip.unitsHere a ≠ [] → ∃ u ∈ s.chip.unitsHere a, ∃ n,
      Acts s .atomApply ({ s.chip with fresh := n }.applyUnit a u))
    ∧ (∀ t, s.chip.team? ev.a = some t →
      (∀ g gs, s.chip.groupsOf t.id = g :: gs → (s.chip.launchOf t).isSome = true →
        (∃ l ∈ t.lostWords, ∃ m, l.met = some m ∧ m + 256 ≤ s.chip.cyc) →
        ∃ c', Acts s .storageErrorReport c' ∧ c'.team? t.id = none)
      ∧ ((∀ l ∈ t.lostWords, ∀ m, l.met = some m → s.chip.cyc < m + 256) →
        ∀ l, t.lostWords.find? (fun l => l.met.isSome && !l.reported) = some l → ∃ c', Acts s .storageErrorReport c'
          ∧ SameMemory s c' ∧ ∀ g, s.chip.group? g.id = some g → g.team = t.id →
            c'.group? g.id = some { g with pendTraps := g.pendTraps ++ [{ cause := 0x0E, val := l.val, mask := 0 }] }))
    ∧ (let die := s.chip.eccDie ev
      let up := fun w : W64 => if w = BitVec.allOnes 64 then w else w + 1
      let c0 := s.chip.settleSoft
      ((∀ r ∈ s.chip.regions, ∀ o ∈ r.ops, o.progress = none) → c0 = s.chip)
      ∧ (ev.yes = true → (∀ o, ev.site ≠ .link o) → (∀ p, ev.site ≠ .storeLink p) →
        Acts s .eccError (s.chip.onDie die fun d => { d with eccCe := up d.eccCe }))
      ∧ (ev.yes = false → ∀ pa, ev.site = .memory pa → ∃ c', Acts s .eccError c' ∧ (∀ a, c'.byte a = c0.byte a) ∧ pa / 4 ∈ c'.poison
        ∧ c'.msix = c0.msix ++ (if (c0.die die).eccUe = BitVec.allOnes 64 then [] else [66])
        ∧ die = homeDie pa ∧ c'.die die = { c0.die die with eccUe := up (c0.die die).eccUe, eccUlog := BitVec.ofNat 64 pa })
      ∧ (ev.yes = false → ∀ w b, ev.site = .pool w b → ∃ c' l, Acts s .eccError c' ∧ (∀ a, c'.byte a = c0.byte a) ∧ l.word = some w
        ∧ l.val = BitVec.ofNat 64 b ∧ l.reported = false ∧ (c0.drains = [] → l.met = none)
        ∧ ∀ t, c0.team? ev.a = some t → c'.team? ev.a = some { t with lostWords := t.lostWords ++ [l] })
      ∧ (ev.yes = false → ∀ core, ev.site = .instructionCache core → ∃ c', Acts s .eccError c' ∧ (∀ a, c'.byte a = c0.byte a)
        ∧ ∀ k, SMap.get none c'.icache k = if k = icacheKey core ev.w.toNat then none else SMap.get none c0.icache k)
      ∧ (∀ o, ev.site = .link o.id → s.chip.opDue o.id (cmdNat o.cmd 0 1) = some o → o.cls ≠ .copy → o.cls ≠ .attn →
        ∃ c', Acts s .eccError c' ∧ FailsWith s c' o 7 ∧ SameMemory s c')
      ∧ (∀ o, ev.site = .link o.id → s.chip.opDue o.id (cmdNat o.cmd 0 1) = some o → o.cls = .attn → ∃ c', Acts s .eccError c'
        ∧ HasRun c' o
        ∧ (∀ c1 e, s.chip.resPlace o = (c1, .error e) → FailsWith s c' o e.status ∧ SameMemory s c')
        ∧ ∀ c1 ls, s.chip.resPlace o = (c1, .ok ls) → o.dropped = false → FailsWith s c' o 7
          ∧ (OnChip s o → (ls.map Loc.key).Nodup → ls.map (c'.locByte o) = 7#8 :: List.replicate 15 0#8))
      ∧ (∀ pa, ev.site = .storeLink pa → ∃ c', Acts s .eccError c' ∧ (∀ a, c'.byte a = c0.byte a) ∧ pa / 4 ∈ c'.poison))
    ∧ (1 ∉ s.chip.hadEvents → s.chip.uncleared ≠ [] → SMap.wf 0 s.chip.uncleared = true → ∃ c', Acts s .poolGranuleClear c'
      ∧ ∀ k, SMap.get 0 c'.uncleared k = SMap.get 0 s.chip.uncleared k - 4)

namespace Sys2Proof.Expect

/-- R255, R258, R259: what a unit of an index command comes to, wherever it stands in its command: its index read from the list and
checked, its alignment, its two ranges placed, and its bytes moved; a lost source word fails it. That a lost scratchpad word of the
list or of a scatter's source gives status 6 (log 119), and that a unit's scratchpad range is checked before its page is translated
(log 32), are the model's choices. -/
def UnitResults : Prop :=
  ∀ (c : Chip) (o : EngOp) (u : Nat) (t : Team) (l : Launch), c.team? o.team = some t → c.launchOf t = some l →
    let f := fun a n : Nat => cmdNat o.cmd a n
    let rows := f 0 1 = 0x10
    let store := f 0 1 = 0x12
    f 0 1 ∈ [0x10, 0x11, 0x12] →
    let n := if rows then f 32 4 else f 32 1
    let list := f 24 8 % 2 ^ 63 + 4 * u
    let run := c.runUnit o u none
    (f 24 8 / 2 ^ 21 % 2 ^ 42 = 0 → list + 4 ≤ 1024 * l.desc.spg → c.locPoison o (.sp list) = false →
      c.unitIndex o u = .ok (BitVec.ofNat 32 (leNat ((List.range 4).map fun i => SMap.get 0#8 t.sp (list + i)))).toInt)
    ∧ (f 24 8 / 2 ^ 21 % 2 ^ 42 = 0 → list + 4 ≤ 1024 * l.desc.spg → c.locPoison o (.sp list) = true →
      ∃ c1 v, run = (c1, .failed 6, v) ∧ c1.mem = c.mem)
    ∧ ∀ k : Int, c.unitIndex o u = .ok k →
      let va := BitVec.ofNat 64 (f 16 8) + BitVec.ofInt 64 k * (if rows then BitVec.ofNat 64 (f 40 8) else BitVec.ofNat 64 n)
      let sp := BitVec.ofNat 64 (f 8 8) + BitVec.ofNat 64 (u * if rows then f 48 4 else n)
      let bad := k < 0 ∨ (f 36 4 ≠ 0 ∧ (f 36 4 : Int) ≤ k)
      let aligned := va.toNat % (if rows then 4 else n) = 0
      let near := fun c : Chip => c.placeAll o (if store then .read else .write) false (span sp n)
      let far := fun c : Chip => c.placeAll o (if store then .write else .read) false (span va n)
      (bad → run = (c, .parks 3, va)) ∧ (¬bad → ¬aligned → run = (c, .failed 2, va))
      ∧ (¬bad → aligned → ∀ c1 e, near c = (c1, .error e) → run = (c1, .failed e.status, va))
      ∧ (¬bad → aligned → ∀ c1 sps, near c = (c1, .ok sps) →
        (∀ c2 e, far c1 = (c2, .error e) →
          run = (c2, if e.status = 3 then .parks (if e.cause = 7 then 1 else 2) else .failed e.status, va))
        ∧ ∀ c2 mems, far c1 = (c2, .ok mems) →
          ((∃ q ∈ if store then sps else mems, c2.locPoison o q = true) → ∃ c3, run = (c3, .failed 6, va) ∧ c3.mem = c.mem)
          ∧ ((∀ q ∈ if store then sps else mems, c2.locPoison o q = false) → (sps.map Loc.key).Nodup → (mems.map Loc.key).Nodup →
            ∃ c3, run = (c3, .delivered, va)
              ∧ BytesAre c c3 o (if store then mems.zip (sps.map (c.locByte o)) else sps.zip (mems.map (c.locByte o)))))

/-- R259: an index command whose units do not park takes them in ascending order, each on what those before it have left, and
counts all of their bytes; it ends with the failure of its lowest failing unit. A gather whose units overlap each other or the
list is left out: the manual gives those no order. -/
def IndexUnits : Prop :=
  ∀ (s : State) (o : EngOp), OnChip s o →
    let f := fun a n : Nat => cmdNat o.cmd a n
    let outside := fun a : W64 => a.msb = true ∧ (a.toNat / 2 ^ 21 % 2 ^ 42 ≠ 0 ∨ s.chip.opSpace o ≤ a.toNat % 2 ^ 21)
    ∀ p ∈ [(Instr.gaRows, 0x10), (.gaElems, 0x11), (.scElems, 0x12)], Due s o p.2 → (∀ a ∈ o.indexSpace, ¬outside a) →
      (f 1 1).testBit 2 = false →
      let n := if p.2 = 0x10 then f 32 4 else f 32 1
      let pitch := if p.2 = 0x10 then f 48 4 else n
      p.2 = 0x12 ∨ (n ≤ pitch ∧ ¬(f 8 8 < f 24 8 + 4 * f 4 4 ∧ f 24 8 < f 8 8 + (f 4 4 * pitch + n))) →
      let r := (List.range (f 4 4)).foldl (fun (r : Chip × List UnitEnd) u =>
        let q := r.1.runUnit o u none
        (q.1, r.2 ++ [q.2.1])) ({ s.chip with fresh := s.chip.fresh + 1 }, [])
      ∃ c', Acts s p.1 c' ∧ HasRun c' o ∧ c'.mem = r.1.mem ∧ (∀ l, c'.locByte o l = r.1.locByte o l)
        ∧ (∀ (u : Nat) (e : UnitEnd), r.2[u]? = some e → e ≠ .delivered →
          (∀ (v : Nat) (d : UnitEnd), v < u → r.2[v]? = some d → d = .delivered) →
          FailsWith s c' o (match e with | .delivered => 0 | .failed st => st | .parks reason => if reason = 3 then 5 else 3))
        ∧ ∀ t y, s.chip.team? o.team = some t → (f 1 1).testBit 1 = true → t.bars[f 2 1]? = some y →
          ∃ u z, c'.team? o.team = some u ∧ u.bars[f 2 1]? = some z ∧ z.bytes = y.bytes - BitVec.ofNat 64 (f 4 4 * n)

end Sys2Proof.Expect

/-- R255 to R260: copy and index commands as their engine runs them. A copy whose bytes pass their checks and do not meet each
other gives each destination byte its source's byte and changes no other byte, and counts its length on its barrier.
A one-unit index command moves its unit, or fails or parks it, with the entry of R260 in its die's fault queue; the units of a
longer one are taken in ascending order. R88: a command one of whose scratchpad addresses lies outside
its team's scratchpad ends with status 2 and writes nothing. The model's choices among these: a lost scratchpad word of an index
list or of a source gives status 6 (log 119; the manual says it of memory words), and a unit's scratchpad range is checked before
its page is translated (log 32). -/
def Obligations.CopyAndIndexEvents : Prop :=
  UnitResults ∧ IndexUnits ∧ ∀ (s : State) (o : EngOp), OnChip s o →
    let f := fun a n : Nat => cmdNat o.cmd a n
    let outside := fun a : W64 => a.msb = true ∧ (a.toNat / 2 ^ 21 % 2 ^ 42 ≠ 0 ∨ s.chip.opSpace o ≤ a.toNat % 2 ^ 21)
    let nothing := fun c' : Chip => FailsWith s c' o 2 ∧ SameMemory s c'
      ∧ ∀ t u, s.chip.team? o.team = some t → c'.team? o.team = some u → u.sp = t.sp
    (∀ p ∈ copyTable o, Due s o p.2.1 → (∃ b ∈ p.2.2, outside b.1 ∨ ∃ a, b.2 = .inl a ∧ outside a) →
      ∃ c', Acts s p.1 c' ∧ nothing c')
    ∧ (∀ p ∈ copyTable o, Due s o p.2.1 → ∀ (c1 : Chip) (rs : List (Except Nat Move)) (ms : List Move),
      placesOf s.chip o p.2.2 = (c1, rs) → rs = ms.map Except.ok → (ms.map (·.dst.key)).Nodup →
      (∀ m ∈ ms, ∀ l, m.src = .inl l → l.key ∉ ms.map (·.dst.key)) → ∃ c', Acts s p.1 c' ∧ HasRun c' o
        ∧ BytesAre s.chip c' o (ms.map fun m => (m.dst, match m.src with | .inl l => s.chip.locByte o l | .inr v => v))
        ∧ ∀ t y, s.chip.team? o.team = some t → (f 1 1).testBit 1 = true → t.bars[f 2 1]? = some y →
          ∃ u z, c'.team? o.team = some u ∧ u.bars[f 2 1]? = some z
            ∧ z.bytes = y.bytes - BitVec.ofNat 64 (f 4 4 * if p.2.1 = 0x02 then f 24 4 else 1))
    ∧ (∀ p ∈ [(Instr.gaRows, 0x10), (.gaElems, 0x11), (.scElems, 0x12)], Due s o p.2 →
      (∃ c', Acts s p.1 c' ∧ HasRun c' o)
      ∧ ((∃ a ∈ o.indexSpace, outside a) → ∃ c', Acts s p.1 c' ∧ nothing c')
      ∧ (f 4 4 = 1 → (∀ a ∈ o.indexSpace, ¬outside a) → ∀ k : Int, s.chip.unitIndex o 0 = .ok k →
        let n := if p.2 = 0x10 then f 32 4 else f 32 1
        let va := BitVec.ofNat 64 (f 16 8) + BitVec.ofInt 64 k * (if p.2 = 0x10 then BitVec.ofNat 64 (f 40 8) else BitVec.ofNat 64 n)
        let sp := BitVec.ofNat 64 (f 8 8)
        let bad := k < 0 ∨ (f 36 4 ≠ 0 ∧ (f 36 4 : Int) ≤ k)
        let park := (f 1 1).testBit 2
        let fq := (s.chip.die (dieOf o.core)).fq
        let room := fq.full = false ∧ (s.chip.parked.filter fun q => q.die == dieOf o.core && !q.void).length < 2 ^ fq.log2n
        let fails := fun st : Nat => ∃ c', Acts s p.1 c' ∧ FailsWith s c' o st ∧ SameMemory s c'
        let parks := fun reason : Nat => ∃ c', Acts s p.1 c' ∧ HasRun c' o ∧ ParksUnit s c' o 0 va reason
        (¬bad → va.toNat % (if p.2 = 0x10 then 4 else n) = 0 → ∀ c1 sps c2 mems,
          { s.chip with fresh := s.chip.fresh + 1 }.placeAll o (if p.2 = 0x12 then .read else .write) false (span sp n)
            = (c1, .ok sps) →
          c1.placeAll o (if p.2 = 0x12 then .write else .read) false (span va n) = (c2, .ok mems) →
          (∀ l ∈ if p.2 = 0x12 then sps else mems, s.chip.locPoison o l = false) → (sps.map Loc.key).Nodup → (mems.map Loc.key).Nodup →
          ∃ c', Acts s p.1 c' ∧ HasRun c' o ∧ BytesAre s.chip c' o
            (if p.2 = 0x12 then mems.zip (sps.map (s.chip.locByte o)) else sps.zip (mems.map (s.chip.locByte o))))
        ∧ (¬bad → va.toNat % (if p.2 = 0x10 then 4 else n) = 0 → ∀ c1 sps c2 e,
          { s.chip with fresh := s.chip.fresh + 1 }.placeAll o (if p.2 = 0x12 then .read else .write) false (span sp n)
            = (c1, .ok sps) →
          c1.placeAll o (if p.2 = 0x12 then .write else .read) false (span va n) = (c2, .error e) →
          (e.status ≠ 3 ∨ park = false ∨ ¬room → fails e.status)
          ∧ (e.status = 3 → park = true → room → parks (if e.cause = 7 then 1 else 2)))
        ∧ (¬bad → va.toNat % (if p.2 = 0x10 then 4 else n) ≠ 0 → fails 2)
        ∧ (bad → park = false ∨ ¬room → fails 5) ∧ (bad → park = true → room → parks 3)))

/-- R261, R262, R376, R384, R385: collective commands. In a set that is not valid a command fails with status 1, with a lost
member table with 6, and where no port of a route is up with 7; matched by its tag, with other lengths than this one's it
fails with status 9, which R262 says of cl.send and cl.recv alone (for the others the model's choice, log 86); else cl.allred writes the fold of the members' elements in ascending rank, cl.allgat
the members' bytes one after another, cl.recv its peer's bytes, and cl.send changes no byte. A set that has not joined in
time gives status 8. The event brings the peers' data (log 70). -/
def Obligations.CollectiveEvents : Prop :=
  ∀ (s : State) (o : EngOp), OnChip s o →
    let f := fun a n : Nat => cmdNat o.cmd a n
    let w := fun k : Nat => (s.chip.setWord o.ctx (f 24 2) k).toNat
    let len := f 4 4
    let members := w 0 % 2 ^ 16
    let rank := w 0 / 2 ^ 16 % 2 ^ 16
    let data := s.event.peers.data
    let routed := ∀ d ∈ s.chip.destinations o, (s.chip.portTo o d).isSome = true
    let whole := s.chip.poisoned (w 1) (2 * members) = false
    let joined := data.length + 1 = members ∧ (members = 1 ∨ s.event.peers.tag = f 28 4)
    let first := fun code : Nat => s.event.peers.tag = f 28 4 ∧ ∀ q ∈ s.chip.ops, q.id < o.id → q.started = false →
      q.bad = false → cmdNat q.cmd 0 1 = code → cmdNat q.cmd 24 2 = f 24 2 → cmdNat q.cmd 28 4 ≠ f 28 4
    let src := span (BitVec.ofNat 64 (f 8 8)) len
    let dst := fun n : Nat => span (BitVec.ofNat 64 (f 16 8)) n
    let op := fun x y : Nat => match f 26 1 with
      | 0 => (fmtF32.sum .rn [fmtF32.decode x, fmtF32.decode y]).1
      | 1 => (fmtBF16.sum .rn [fmtBF16.decode x, fmtBF16.decode y]).1
      | 2 => (x + y) % 2 ^ 32
      | 3 => (fmtF32.minMax true x y).1
      | _ => (fmtF32.minMax false x y).1
    let size := if f 26 1 = 1 then 2 else 4
    let elem := fun (bs : List Byte) (e : Nat) => leNat ((bs.drop (size * e)).take size)
    (∀ p ∈ [(Instr.clAllred, 0x30), (.clAllgat, 0x31)], Due s o p.2 →
      (w 2 % 2 = 0 → ∃ c', Acts s p.1 c' ∧ FailsWith s c' o 1 ∧ SameMemory s c')
      ∧ (w 2 % 2 = 1 → ¬whole → ∃ c', Acts s p.1 c' ∧ FailsWith s c' o 6 ∧ SameMemory s c')
      ∧ (w 2 % 2 = 1 → whole → ¬routed → ∃ c', Acts s p.1 c' ∧ FailsWith s c' o 7 ∧ SameMemory s c')
      ∧ (w 2 % 2 = 1 → whole → routed → ¬joined → exec p.1 s = .next s)
      ∧ (w 2 % 2 = 1 → whole → routed → joined → (∃ b ∈ data, b.length ≠ len) →
        ∃ c', Acts s p.1 c' ∧ FailsWith s c' o 9 ∧ SameMemory s c')
      ∧ (w 2 % 2 = 1 → whole → routed → joined → (∀ b ∈ data, b.length = len) → s.event.peers.linkOk = true → rank < members →
        ∀ c1 ss c2 ds, s.chip.placeAll o .read false src = (c1, .ok ss) → (∀ l ∈ ss, s.chip.locPoison o l = false) →
        c1.placeAll o .write false (dst (if p.2 = 0x30 then len else members * len)) = (c2, .ok ds) → (ds.map Loc.key).Nodup →
        let all := data.take rank ++ [ss.map (s.chip.locByte o)] ++ data.drop rank
        (p.2 = 0x31 → ∃ c', Acts s p.1 c' ∧ HasRun c' o ∧ BytesAre s.chip c' o (ds.zip all.flatten))
        ∧ (p.2 = 0x30 → len % size = 0 → ∃ c' out, Acts s p.1 c' ∧ HasRun c' o ∧ BytesAre s.chip c' o (ds.zip out)
          ∧ out.length = len ∧ ∀ e, e < len / size → elem out e =
            (match all.map (fun bs => elem bs e) with | [] => 0 | x :: rest => rest.foldl op x) % 2 ^ (8 * size))))
    ∧ (Due s o 0x32 → ¬routed → ∃ c', Acts s .clSend c' ∧ FailsWith s c' o 7 ∧ SameMemory s c')
    ∧ (∀ p ∈ [(Instr.clSend, 0x32), (.clRecv, 0x33)], Due s o p.2 → routed →
      (¬first p.2 → exec p.1 s = .next s)
      ∧ (first p.2 → (data.headD []).length ≠ len → ∃ c', Acts s p.1 c' ∧ FailsWith s c' o 9 ∧ SameMemory s c'))
    ∧ (Due s o 0x32 → routed → first 0x32 → (data.headD []).length = len → s.event.peers.linkOk = true →
      ∀ c1 ss, s.chip.placeAll o .read false src = (c1, .ok ss) → (∀ l ∈ ss, s.chip.locPoison o l = false) →
      ∃ c', Acts s .clSend c' ∧ HasRun c' o ∧ BytesAre s.chip c' o [])
    ∧ (Due s o 0x33 → first 0x33 → (data.headD []).length = len → s.event.peers.linkOk = true → ∀ c1 ds,
      s.chip.placeAll o .write false (dst len) = (c1, .ok ds) → (ds.map Loc.key).Nodup →
      ∃ c', Acts s .clRecv c' ∧ HasRun c' o ∧ BytesAre s.chip c' o (ds.zip (data.headD [])))
    ∧ (s.chip.ops.find? (fun q => q.id == s.event.a && s.chip.timedOut q) = some o →
      ∃ c', Acts s .collectiveTimeout c' ∧ FailsWith s c' o 8 ∧ SameMemory s c')

namespace Sys2Proof.Expect

/-- The n bytes from a on, each translated and none of them lost: what they hold (R255, R348, R376). -/
def Reads (c : Chip) (o : EngOp) (a : W64) (n : Nat) (c1 : Chip) (bs : List Byte) : Prop :=
  ∃ ls, c.placeAll o .read false (span a n) = (c1, .ok ls) ∧ (∀ l ∈ ls, c1.locPoison o l = false) ∧ bs = ls.map (c1.locByte o)

/-- They cannot be read: the status of the first address that fails, or 6 for a lost word (R255, R376), of the scratchpad too, which is
the model's choice (log 119). -/
def ReadFails (c : Chip) (o : EngOp) (a : W64) (n st : Nat) : Prop :=
  (∃ c1 f, c.placeAll o .read false (span a n) = (c1, .error f) ∧ st = f.status)
  ∨ ∃ c1 ls, c.placeAll o .read false (span a n) = (c1, .ok ls) ∧ (∃ l ∈ ls, c1.locPoison o l = true) ∧ st = 6

/-- The free blocks of a context on a die (R341). -/
def freeBlocks (c : Chip) (ctx die : Nat) : Nat :=
  let held := fun p : KvBlock → Bool => (c.blocks.filter fun b => b.die == die && p b).length
  min (2 ^ 22 - held fun _ => true) ((if die = 0 then (c.context ctx).kvquota0 else (c.context ctx).kvquota1) - held fun b => b.ctx == ctx)

/-- R339, R348: one entry of an append list: the status it stops with, or the tokens it appends. That its DATA is read before its
RET and that before its SCL is the model's choice (log 137). -/
def EntryServed (c : Chip) (o : EngOp) (e : AppendEntry) : Prop :=
  let stops := fun st : Nat => ∃ c', c.serve o e = (c', .error st) ∧ c'.blocks = c.blocks ∧ c'.sequences = c.sequences ∧ c'.mem = c.mem
  (c.seq? o.ctx e.seq = none → stops 0x20) ∧ ∀ q, c.seq? o.ctx e.seq = some q →
    let len := q.length
    let rb := if q.lg6 then 96 else 256
    let tr := q.nl * q.nh * (2 * rb)
    let tb0 := (len + 63) / 64
    let tb1 := (len + e.n + 63) / 64
    let need := q.p * (tb1 - tb0)
    let scales := if q.lg6 = true ∧ tb0 < tb1 then 16 * q.p else 0
    (65536 < e.n ∨ 2 ^ 24 < len + e.n → stops 0x24)
    ∧ (e.n ≤ 65536 → len + e.n ≤ 2 ^ 24 →
      (∀ st, ReadFails c o e.data (e.n * tr) st → stops st)
      ∧ ∀ c1 data, Reads c o e.data (e.n * tr) c1 data →
        (∀ st, ReadFails c1 o e.ret e.n st → stops st)
        ∧ ∀ c2 ret, Reads c1 o e.ret e.n c2 ret →
          (∀ st, ReadFails c2 o e.scl scales st → stops st)
          ∧ ∀ c3 scl, Reads c2 o e.scl scales c3 scl →
            (freeBlocks c q.ctx q.die < need → stops 0x22)
            ∧ (need ≤ freeBlocks c q.ctx q.die →
              (c.blocks.filter fun b => b.die == q.die && b.spill).length + need ≤ 65536 →
              ∃ c' q', c.serve o e = (c', .ok need) ∧ q' = { q with length := len + e.n } ∧ c'.seq? o.ctx e.seq = some q'
                ∧ c'.mem = c.mem ∧ c'.blocks.length = c.blocks.length + need ∧ (e.n = 0 → c'.blocks = c.blocks)
                ∧ (∀ b ∈ c.blocks, ¬(b.die = q.die ∧ b.owner = q.num) → b ∈ c'.blocks)
                ∧ (64 * q.own0 ≤ len → (q.lg6 = true → q.nh % 2 = 0) →
                  (∀ k, k < q.p → len % 64 ≠ 0 → ∃ b ∈ c.blocks, b.die = q.die ∧ b.owner = q.num ∧ b.lb = len / 64 * q.p + k) →
                  let byte := fun (t k a : Nat) => kvByte c' q' (t / 64) k a
                  let row := fun (t h v x : Nat) => if q.lg6 then 12288 * (h % 2) + 6144 * v + 96 * (t % 64) + x
                    else 16384 * v + 256 * (t % 64) + x
                  (∀ j, j < e.n →
                    (∀ l h v x, l < q.nl → h < q.nh → v < 2 → x < rb →
                      byte (len + j) (l * q.nhb + if q.lg6 then h / 2 else h) (row (len + j) h v x)
                        = data.getD (j * tr + (l * q.nh + h) * (2 * rb) + rb * v + x) 0#8)
                    ∧ ∀ k, k < q.p → byte (len + j) k (32768 + (len + j) % 64) = ret.getD j 0#8
                      ∧ (byte (len + j) k (32768 + 0x40 + (len + j) % 64 / 8)).getLsbD ((len + j) % 8) = true)
                  ∧ (q.lg6 = true → ∀ tb k a, tb0 ≤ tb → tb < tb1 → k < q.p → a < 16 →
                    kvByte c' q' tb k (32768 + 0x48 + a) = scl.getD (16 * k + a) 0#8)
                  ∧ (∀ tb k a, q.own0 ≤ tb → 64 * (tb + 1) ≤ len → k < q.p → kvByte c' q' tb k a = kvByte c q tb k a)
                  ∧ ∀ t k, len / 64 * 64 ≤ t → t < len → k < q.p →
                    (∀ h v x, h < 2 → v < 2 → x < rb → byte t k (row t h v x) = kvByte c q (t / 64) k (row t h v x))
                    ∧ byte t k (32768 + t % 64) = kvByte c q (t / 64) k (32768 + t % 64)
                    ∧ (byte t k (32768 + 0x40 + t % 64 / 8)).getLsbD (t % 8)
                      = (kvByte c q (t / 64) k (32768 + 0x40 + t % 64 / 8)).getLsbD (t % 8)
                    ∧ ∀ a, a < 16 → byte t k (32768 + 0x48 + a) = kvByte c q (t / 64) k (32768 + 0x48 + a))))

/-- R343, R348: kv.append serves the entries of LIST in order until one stops; words A and B. -/
def Appended (c : Chip) (o : EngOp) : Prop :=
  let r := Machine.kvAppend o c
  let list := o.word 16
  let n := cmdNat o.cmd 4 4
  let fails := fun st : Nat => r.status = st ∧ r.a = 0 ∧ r.b = 0 ∧ r.chip.blocks = c.blocks ∧ r.chip.sequences = c.sequences
  (list.toNat % 32 ≠ 0 → fails 2)
  ∧ (list.toNat % 32 = 0 → (∀ st, ReadFails c o list (32 * n) st → fails st)
    ∧ ∀ c1 bs, Reads c o list (32 * n) c1 bs →
      let entry := fun i : Nat => ({ seq := cmdNat bs (32 * i) 4, n := cmdNat bs (32 * i + 4) 4
                                     data := BitVec.ofNat 64 (cmdNat bs (32 * i + 8) 8), ret := BitVec.ofNat 64 (cmdNat bs (32 * i + 16) 8)
                                     scl := BitVec.ofNat 64 (cmdNat bs (32 * i + 24) 8) } : AppendEntry)
      ∃ (cs : Nat → Chip) (took : Nat → Nat) (m : Nat), m ≤ n ∧ cs 0 = c1
        ∧ (∀ i, i < m → (cs i).serve o (entry i) = (cs (i + 1), .ok (took i)))
        ∧ r.a = m ∧ r.b = m + ((List.range m).map took).sum * 2 ^ 32
        ∧ (m = n → r.status = 0 ∧ r.chip = cs m)
        ∧ (m < n → ∃ st, (cs m).serve o (entry m) = (r.chip, .error st) ∧ r.status = st))

end Sys2Proof.Expect

/-- R332 to R336, R339, R343 to R351, R353, R354: an attention command whose RES passes acts at its die and writes its record;
what new, append, fork, release, compact and a cancellation's release leave of the sequences and blocks; the arithmetic
and the outputs of attn, and the bytes of read. That compact leaves the blocks of ancestors, and that attn multiplies the
rows of V beyond L by +0 as they stand, are the model's choices (logs 33 and 94), and so are that attn with L = 0 does not
check QA and that compact copies LG6 codes as they stand (log 54), that a lost scratchpad word among an append's list or sources
gives status 6 (log 119), and that an entry's DATA, RET and SCL are read in that order (log 137). -/
def Obligations.AttentionEvents : Prop :=
  ∀ (s : State) (o : EngOp),
    let f := fun a n : Nat => cmdNat o.cmd a n
    (∀ p ∈ kvTable o, Due s o p.2.1 → ∀ c1 rec_, s.chip.resPlace o = (c1, .ok rec_) →
      let r := p.2.2 c1
      ∃ c', Acts s p.1 c' ∧ HasRun c' o ∧ c'.sequences = r.chip.sequences ∧ c'.blocks = r.chip.blocks
        ∧ (OnChip s o → o.dropped = false → (rec_.map Loc.key).Nodup →
          rec_.map (c'.locByte o) = [BitVec.ofNat 8 r.status, 0#8, 0#8, 0#8] ++ bytesOfNat 4 r.a ++ bytesOfNat 8 r.b
          ∧ ((r.outs.map (·.1.key)).Nodup → (∀ q ∈ r.outs, q.1.key ∉ rec_.map Loc.key) →
            ∀ q ∈ r.outs, c'.locByte o q.1 = q.2)))
    ∧ (∀ p ∈ kvTable o, Due s o p.2.1 → ∀ c1 e, s.chip.resPlace o = (c1, .error e) →
      ∃ c', Acts s p.1 c' ∧ HasRun c' o ∧ c'.sequences = s.chip.sequences ∧ c'.blocks = s.chip.blocks ∧ SameMemory s c')
    ∧ (∀ (c : Chip) n, c.jobOk o.ctx (f 20 2) = true → c.newSeq = some n → (Machine.kvNew o c).status = 0 ∧ (Machine.kvNew o c).a = n
      ∧ (∀ q ∈ c.sequences, q.num ≠ n) ∧ n < 1048576 ∧ ∃ q, (Machine.kvNew o c).chip.sequences = c.sequences ++ [q] ∧ q.num = n
        ∧ q.ctx = o.ctx ∧ q.length = 0 ∧ q.parent = none ∧ q.live = true ∧ q.nl = f 18 1 + 1 ∧ q.nh = f 19 1 + 1 ∧ q.die = f 16 1
        ∧ (q.lg6 = true ↔ f 17 1 = 1) ∧ q.job = f 20 2 ∧ q.own0 = 0)
    ∧ (∀ (c : Chip) q n, c.seq? o.ctx (f 16 4) = some q → c.jobOk o.ctx (f 24 2) = true → c.newSeq = some n →
      f 20 4 ≤ q.length → f 20 4 % 64 = 0 → (q.forkSpans (f 20 4 / 64)).length ≤ 64 →
      (∀ p ∈ q.spans, p.2.2 < q.own0) → (∀ tb, tb < q.own0 → ∃ p ∈ q.spans, p.2.1 ≤ tb ∧ tb ≤ p.2.2) →
      (Machine.kvFork o c).status = 0 ∧ (Machine.kvFork o c).a = n ∧ ∃ k, (Machine.kvFork o c).chip.sequences = c.sequences ++ [k]
        ∧ k.num = n ∧ k.parent = some q.num ∧ k.length = f 20 4 ∧ k.f = f 20 4 ∧ k.job = f 24 2
        ∧ (∀ tb, tb < f 20 4 / 64 → k.ownerOf tb = q.ownerOf tb) ∧ k.ownerOf (f 20 4 / 64) = n
        ∧ (Machine.kvFork o c).chip.blocks = c.blocks)
    ∧ (∀ (c : Chip) q, c.seq? o.ctx (f 16 4) = some q → f 20 4 % 64 ≠ 0 → (Machine.kvFork o c).status = 0 →
      (∀ b ∈ c.blocks, b.owner ≠ (Machine.kvFork o c).a) →
      let r := Machine.kvFork o c
      let tb := f 20 4 / 64
      r.b = q.p ∧ ∃ k, r.chip.sequences = c.sequences ++ [k] ∧ k.num = r.a ∧ k.parent = some q.num ∧ k.length = f 20 4
        ∧ k.f = f 20 4 ∧ k.own0 = tb ∧ k.spans = q.forkSpans tb
        ∧ (∀ t, 64 * tb ≤ t → t < f 20 4 → SlotSame c r.chip q k t t)
        ∧ (∀ j a, j < q.p → a < 16 → kvByte r.chip k tb j (32768 + 0x48 + a) = kvByte c q tb j (32768 + 0x48 + a))
        ∧ (∀ j n, j < q.p → f 20 4 % 64 ≤ n → n < 64 →
          (kvByte r.chip k tb j (32768 + 0x40 + n / 8)).getLsbD (n % 8) = false ∧ kvByte r.chip k tb j (32768 + n) = 0#8)
        ∧ ∀ b ∈ c.blocks, b ∈ r.chip.blocks)
    ∧ (∀ (c : Chip) q, c.seq? o.ctx (f 16 4) = some q → c.nchild q.num = 0 → (Machine.kvRelease o c).status = 0
      ∧ (Machine.kvRelease o c).b = 0 ∧ (∀ r ∈ (Machine.kvRelease o c).chip.sequences, r.num ≠ q.num)
      ∧ ∀ b ∈ (Machine.kvRelease o c).chip.blocks, ¬(b.die = q.die ∧ b.owner = q.num))
    ∧ (∀ (c : Chip) q, c.seq? o.ctx (f 16 4) = some q →
      let r := Machine.kvRelease o c
      let tb := heldOver (kids c q.num) / 64
      (kids c q.num ≠ [] → r.status = 0 ∧ r.b = (kids c q.num).length
        ∧ r.chip.sequences = (c.sequences.map fun k => if k.num = q.num then { k with live := false } else k)
        ∧ r.chip.blocks = (c.blocks.filter fun b => !owned q tb b) ∧ r.a = (c.blocks.filter (owned q tb)).length)
      ∧ (kids c q.num = [] → (c.sequences.map (·.num)).Nodup → ∀ k ∈ c.sequences, q.parent = some k.num → k.num ≠ q.num →
        let left := (kids c k.num).filter fun m => m.num != q.num
        let gone := fun b => owned q 0 b || (!k.live && owned k (heldOver left / 64) b)
        (k.live = true ∨ left ≠ [] ∨ k.parent = none →
          r.chip.blocks = (c.blocks.filter fun b => !gone b) ∧ r.a = (c.blocks.filter gone).length
          ∧ r.chip.sequences = c.sequences.filter fun m => m.num != q.num && (k.live || left != [] || m.num != k.num))))
    ∧ (∀ (c c' : Chip) (e : AppendEntry) n, c.serve o e = (c', .ok n) → ∃ q q', c.seq? o.ctx e.seq = some q
      ∧ c'.seq? o.ctx e.seq = some q' ∧ q'.length = q.length + e.n
      ∧ n = q.p * ((q.length + e.n + 63) / 64 - (q.length + 63) / 64))
    ∧ (∀ c : Chip, Appended c o ∧ ∀ e, EntryServed c o e)
    ∧ (∀ (c : Chip) q, c.seq? o.ctx (f 16 4) = some q → (Machine.kvCompact o c).status = 0 → f 20 1 = 0 →
      (Machine.kvCompact o c).a = q.length)
    ∧ (∀ (c : Chip) q, c.seq? o.ctx (f 16 4) = some q → q.own0 = 0 → 0 < q.p → (∀ b ∈ c.blocks, b.lost = false) →
      let h := 64 * (heldOver (kids c q.num) / 64)
      h ≤ q.length →
      (∀ tb k, tb < (q.length + 63) / 64 → k < q.p →
        ∃ b ∈ c.blocks, b.die = q.die ∧ b.owner = q.ownerOf tb ∧ b.lb = tb * q.p + k) →
      let r := Machine.kvCompact o c
      let kept := ((List.range (q.length - h)).map (h + ·)).filter fun t =>
        decide (f 20 1 ≤ (kvByte c q (t / 64) 0 (32768 + t % 64)).toNat)
      let n := h + kept.length
      r.status = 0 ∧ r.a = n ∧ (∃ k, r.chip.seq? o.ctx q.num = some k ∧ k = { q with length := n })
        ∧ (∀ i t, kept[i]? = some t → SlotSame c r.chip q q t (h + i))
        ∧ (∀ tb k a, tb < h / 64 → k < q.p → kvByte r.chip q tb k a = kvByte c q tb k a)
        ∧ (∀ b ∈ r.chip.blocks, owned q ((n + 63) / 64) b = false)
        ∧ r.b = (c.blocks.filter (owned q ((n + 63) / 64))).length)
    ∧ (∀ (c c1 c2 c3 : Chip) q qa oa sa, o.dropped = false → c.seq? o.ctx (f 16 4) = some q →
      let l := f 20 1
      let h := f 21 1
      let G := f 22 1 % 16 + 1
      let L := f 4 4
      l < q.nl → h < q.nh → L ≤ q.length →
      (L ≠ 0 → (o.word 32).toNat % 16 = 0) → (o.word 40).toNat % 16 = 0 → (f 23 1 % 2 = 1 → (o.word 48).toNat % 16 = 0) →
      (if L = 0 then c1 = c ∧ qa = [] else c.placeAll o .read false (span (o.word 32) (256 * G)) = (c1, .ok qa)) →
      c1.placeAll o .write false (span (o.word 40) (512 * G)) = (c2, .ok oa) →
      (if f 23 1 % 2 = 1 then c2.placeAll o .write false (span (o.word 48) (8 * G)) = (c3, .ok sa) else c3 = c2 ∧ sa = []) →
      (∀ p ∈ qa, c3.locPoison o p = false) → (∀ b ∈ c3.blocks, b.lost = false) →
      let r := Machine.kvAttn o c
      let bf16 := fun g d => fmtBF16.decode (leNat (((qa.map (c3.locByte o)).drop (256 * g + 2 * d)).take 2))
      let row := fun g => attnRow c3 q l h L (f 24 4) (bf16 g)
      r.status = (if L = 0 then 0x10 else 0) ∧ r.a = L ∧ r.b = (L + 63) / 64 ∧ r.outs.map (·.1) = oa ++ sa
        ∧ (∀ g d, g < G → d < 128 → outBytes r (512 * g + 4 * d) 4
          = bytesOfNat 4 (if (row g).2.1 = 0 then 0 else quotientF32 ((row g).2.2 d) (row g).2.1))
        ∧ (f 23 1 % 2 = 1 → ∀ g, g < G →
          outBytes r (512 * G + 8 * g) 8 = bytesOfNat 4 (row g).2.1 ++ bytesOfNat 4 (row g).1))
    ∧ (∀ (c c1 : Chip) q ds, o.dropped = false → c.seq? o.ctx (f 16 4) = some q →
      let l := f 20 1
      let h := f 21 1
      let first := f 24 4
      let N := f 4 4
      let k := l * q.nhb + if q.lg6 then h / 2 else h
      let size := if q.lg6 then 1024 else 512
      l < q.nl → h < q.nh → first + N ≤ q.length → (N ≠ 0 → (o.word 32).toNat % 16 = 0) →
      (if N = 0 then c1 = c ∧ ds = [] else c.placeAll o .write false (span (o.word 32) (N * (size + 1))) = (c1, .ok ds)) →
      (∀ b ∈ c1.blocks, b.lost = false) →
      let r := Machine.kvRead o c
      r.status = 0 ∧ r.a = q.length
        ∧ r.b = heldOver (kids c1 q.num) + (kids c1 q.num).length % 2 ^ 16 * 2 ^ 32 + q.spans.length * 2 ^ 48
        ∧ r.outs.map (·.1) = ds
        ∧ (∀ i, i < N →
          (q.lg6 = true → ∀ v d, v < 2 → d < 128 → outBytes r (1024 * i + 512 * v + 4 * d) 4
            = bytesOfNat 4 (fmtF32.round .rn (kvElem c1 q l h (first + i) d v)).1)
          ∧ (q.lg6 = false → ∀ v j, v < 2 → j < 256 → outBytes r (512 * i + 256 * v + j) 1
            = [kvByte c1 q ((first + i) / 64) k (16384 * v + 256 * ((first + i) % 64) + j)])
          ∧ outBytes r (size * N + i) 1 = [kvByte c1 q ((first + i) / 64) k (32768 + (first + i) % 64)]))
    ∧ ((∃ d, (s.event.a, d) ∈ s.chip.releases) → (∃ q ∈ s.chip.sequences, q.num = s.event.a ∧ q.live = true) →
      ∃ c', Acts s .kvCancelRelease c' ∧ (∀ p ∈ c'.releases, p.1 ≠ s.event.a)
        ∧ (∀ r ∈ c'.sequences, r.num = s.event.a → r.live = false) ∧ SameMemory s c')

/-- R58, R59, R305, R306, R309, R310, R313, R318 to R320, R324, R364, R371: the distributor's events: a fetch-work reply, a team's
placement and retirement (which adds 1 to CCTR for each team that ends, one after another, with what R304 makes of it), an aging step, a pre-emption and the discard that it decides, a region overrun, and a page added
to an arena. Of several recorded successors the one of the lowest grpidx, which is its latest, starts every group. That
fetch-work takes a launch's lowest number, that a successor takes its granules without a test for room, and that a page
attached already is a bad one are the model's choices (logs 42, 57 and 34), and so are the zeros of a fetch-work record's x, y and z
where no team was left (log 135). -/
def Obligations.SchedulingEvents : Prop :=
  ∀ (s : State),
    let ev := s.event
    (∀ (g : Group) (t : Team) (l : Launch) (a : Nat), s.chip.group? ev.a = some g → g.fwOut = some a → s.chip.team? g.team = some t →
      s.chip.launchOf t = some l → (∀ p r, g.wait ≠ some (.rendezvous p r)) →
      let n := l.lowest
      let dx := l.desc.dxm1 + 1
      let dy := l.desc.dym1 + 1
      ∃ c' g' u, Acts s .fwReply c' ∧ SameMemory s c' ∧ c'.group? ev.a = some g' ∧ g'.fwOut = none ∧ c'.team? t.id = some u
        ∧ natAt u.sp a 2 = (match n with | some n => n % dx | none => 0) % 2 ^ 16
        ∧ natAt u.sp (a + 2) 2 = (match n with | some n => n / dx % dy | none => 0) % 2 ^ 16
        ∧ natAt u.sp (a + 4) 2 = (match n with | some n => n / (dx * dy) | none => 0) % 2 ^ 16 ∧ natAt u.sp (a + 6) 2 = 0
        ∧ natAt u.sp (a + 8) 4 = (if n = none then 2 else 1) ∧ natAt u.sp (a + 12) 4 = 0
        ∧ ∀ b, ¬(a ≤ b ∧ b < a + 16) → SMap.get 0#8 u.sp b = SMap.get 0#8 t.sp b)
    ∧ (∀ (t : NextTeam) (k : Nat) (slots : List Nat), s.chip.nextPlacement = some (t, k) →
      slotsFor t.groups.length ((List.range 4).map fun n => s.chip.inSlot k n) = some slots →
      (∀ u ∈ s.chip.teams, u.id ≠ s.chip.nextId) →
      let d := t.launch.desc
      let entry := match t.returned with | some r => r.rec_.entry | none => d.entry
      let arg := match t.returned with | some r => r.rec_.arg | none => 0#64
      ∃ c' u, Acts s .teamPlace c' ∧ SameMemory s c' ∧ c'.team? s.chip.nextId = some u ∧ u.core = k ∧ u.number = t.number
        ∧ u.launch = t.launch.id ∧ u.x = t.number % (d.dxm1 + 1) ∧ u.y = t.number / (d.dxm1 + 1) % (d.dym1 + 1)
        ∧ u.z = t.number / ((d.dxm1 + 1) * (d.dym1 + 1)) ∧ u.sp = [] ∧ u.tiles = [] ∧ u.request = none ∧ u.bars.length = d.nb
        ∧ (∀ g ∈ s.chip.groups, ∃ g' ∈ c'.groups, { g' with lease := g.lease } = g)
        ∧ ∀ i ∈ t.groups, ∃ g ∈ c'.groups, g.team = u.id ∧ g.grpidx = i ∧ g.width = d.width ∧ g.sreg 0 = d.param ∧ g.sreg 1 = arg
          ∧ g.seg = d.width ∧ g.inh = false ∧ g.fst = 0#5
          ∧ ∀ l, l < d.width → g.lanes[l]? = some (if (t.gone i).getLsbD l then { pc := BitVec.allOnes 64, st := .exited }
            else { pc := entry, st := .running }))
    ∧ (∀ (t : Team) (l : Launch), s.chip.team? ev.a = some t → s.chip.launchOf t = some l →
      (∀ g ∈ s.chip.groups, g.team = t.id → s.chip.drained g = true) →
      (t.successor = [] → ∃ c', Acts s .teamRetire c' ∧ c'.team? t.id = none ∧ (∀ g ∈ c'.groups, g.team ≠ t.id)
        ∧ ∀ m, c'.counter m = ((List.range (1 + t.withdrew)).foldl (fun (c : Chip) _ => c.bump 65536 l.desc.cctr fun r =>
          { r with value := r.value + 1, faults := min 0xFFFF r.faults }) s.chip).counter m)
      ∧ (∀ p ∈ t.successor, (∀ q ∈ t.successor, q ≠ p → p.1 < q.1) →
        ∃ c' u, Acts s .teamRetire c' ∧ c'.team? t.id = some u ∧ u.successor = [] ∧ u.sp = t.sp ∧ u.bars = t.bars
        ∧ ∀ i, i < l.desc.groups → ∃ g ∈ c'.groups, g.team = t.id ∧ g.grpidx = i ∧ g.sreg 0 = l.desc.param ∧ g.sreg 1 = 0#64
          ∧ (∀ pl, t.places[i]? = some (some pl) → (g.slot, g.slotIdx) = pl) ∧ ∀ n, n < l.desc.width → g.lanes[n]? = some { pc := p.2, st := .running }))
    ∧ (∀ l, s.chip.launches.find? (fun l => l.id == ev.a && s.chip.agingDue l) = some l → ∃ c', Acts s .agingStep c'
      ∧ (∀ m ∈ c'.launches, m.id = l.id → ∃ m0 ∈ s.chip.launches, m0.id = l.id ∧ m.level = min 7 (m0.level + 1))
      ∧ c'.groups = s.chip.groups ∧ SameMemory s c')
    ∧ ((s.chip.teams.map (·.id)).Nodup →
      let asked := fun (c' : Chip) (us : List Team) =>
        (∀ u ∈ s.chip.teams, ∃ v, c'.team? u.id = some v ∧ (if (∃ w ∈ us, w.id = u.id) ∧ u.request = none then
          v.request = some s.chip.cyc ∧ v.deciding = u.rec_.open_ ∧ v.rec_ = u.rec_ else v = u))
        ∧ SameMemory s c'
      (s.chip.suspendees ≠ [] → ∃ c', Acts s .preemptRequest c' ∧ asked c' s.chip.suspendees)
      ∧ (∀ (t : NextTeam) (ch : Choice), s.chip.suspendees = [] → s.chip.preemption = some (t, ch) →
        ∃ c', Acts s .preemptRequest c' ∧ asked c' ch.teams ∧ (ch.core, some t.launch.id) ∈ c'.preempting))
    ∧ (∀ t, s.chip.team? t.id = some t → t.deciding = true → ∃ c', s.perform (.discard t.id) = .next { s with chip := c' }
      ∧ c'.team? t.id = none ∧ (∀ g ∈ c'.groups, g.team ≠ t.id)
      ∧ ∀ l ∈ s.chip.launches, l.id = t.launch → ∃ l' ∈ c'.launches, l'.id = l.id
        ∧ ∃ r, l'.returned = l.returned ++ [r] ∧ r.number = t.number ∧ r.rec_ = { t.rec_ with open_ := true })
    ∧ (∀ t r, s.chip.teams.find? (fun t => t.id == ev.a && s.chip.overrun t) = some t → t.request = some r →
      ∃ c' u, Acts s .regionOverrun c' ∧ c'.team? t.id = some u ∧ u.request = none ∧ u.deciding = false ∧ SameMemory s c'
        ∧ ∀ g ∈ s.chip.groups, g.team = t.id →
          { g with pendTraps := g.pendTraps ++ [{ cause := 0x0D#8, val := BitVec.ofNat 64 r, mask := 0#64 }] } ∈ c'.groups)
    ∧ (let x := ev.a % 64
      let page := ev.w.toNat % 2 ^ 41
      let job := ev.w.toNat / 2 ^ 48
      let good := ev.w.toNat / 2 ^ 41 % 2 ^ 7 = 0 ∧ s.chip.jobOk x job = true
        ∧ (∃ e, s.chip.walkRoot x (page * 65536) = .ok e ∧ e.size = 65536)
        ∧ (∀ p ∈ s.chip.arenaPages, ¬(p.ctx = x ∧ p.page = page)) ∧ s.chip.arenaPages.length < 1048576
      (good → Acts s .arenaAdd { s.chip with arenaPages := s.chip.arenaPages ++ [{ ctx := x, job, page }] })
      ∧ (¬good → Acts s .arenaAdd s.chip))

/-- R302, R374, R377 to R382, R386, R387, R389: the host's accesses: submission (with the status whose causes
SpawnFetchWorkAndRegions states), cancellation and notification through a doorbell;
CFGCMD; the window, whose read of a poisoned word has the EP bit and every byte 0xFF, and whose write discards the bytes outside
device memory; plain registers; attestation; and the fundamental reset. Before start-up is complete BAR 2 and BAR 4
give unsupported completions. The following are the model's choices: NOTIFY takes any counter (log 67), SHAKE256 is that of
FIPS 202 (log 35), what a reset keeps and the values that the manual does not list (logs 5, 6 and 7), the places of host
memory and the byte that HWINERR names (log 66), and that an AtomicOp's old value comes with its completion (log 59). -/
def Obligations.HostEvents : Prop :=
  ∀ (s : State),
    let ev := s.event
    let x := ev.a % 64
    let k := s.chip.context x
    let up := s.control.bootState = 3
    let answers := fun (i : Instr) (r : Reply) => exec i s = .next { s with replies := s.replies ++ [r] }
    (∀ i ∈ [Instr.doorbellSubmit, .doorbellCancel, .doorbellNotify, .hostWindowRead, .hostWindowWrite, .attestationPeerRequest],
      ¬up → answers i { bytes := [], unsupported := true, poisoned := false })
    ∧ (up → let ws := (List.range 8).map fun i => SMap.get 0#64 k.desc i
      let q := ev.w.toNat % 64
      let st := if k.en then s.chip.submitStatus x q ws k.maint else 6
      ∃ c', Acts s .doorbellSubmit c' ∧ SameMemory s c'
        ∧ c'.context x = { k with subSeq := k.subSeq + 1, subStatus := BitVec.ofNat 8 st }
        ∧ (st ≠ 0 → c'.launches = s.chip.launches)
        ∧ (st = 0 → ∃ l, c'.launches = s.chip.launches ++ [l] ∧ l.ctx = x ∧ l.queue = q ∧ l.desc = Desc.ofWords ws))
    ∧ (up → let n := ev.w.toNat % 2 ^ 16
      let r := s.chip.counter n
      let level := ev.w.toNat / 2 ^ 16 % 4
      let inside := k.cbase ≤ n ∧ n < k.cbase + k.cnum
      ∃ c', Acts s .doorbellCancel c'
        ∧ (c'.context x).canstat = (if ¬inside then 5 else if r.level.toNat ≠ level then 1 else if r.cancelled then 3 else 0)
        ∧ (inside → r.level.toNat = level → (c'.counter n).cancelled = true)
        ∧ (¬inside ∨ r.level.toNat ≠ level → c'.counters = s.chip.counters))
    ∧ (up → let n := ev.w.toNat % 2 ^ 16
      let r := s.chip.counter n
      let hit := ev.w.getLsbD 16 && (r.done || r.cancelled)
      ∃ c', Acts s .doorbellNotify c' ∧ SameMemory s c' ∧ c'.msix = s.chip.msix ++ (if hit then [x] else [])
        ∧ c'.context x = { k with notifyEn := ev.w.getLsbD 16 && !hit, notifyCtr := n })
    ∧ (∀ i ∈ [Instr.cfgcmdRead, .cfgcmdWrite, .cfgcmdHalt], s.control.cfgWait.isSome = true → exec i s = .next s)
    ∧ (s.control.cfgWait = none → (∀ v, s.chip.cfgRead s.control.cfgnum = .ok v →
        exec .cfgcmdRead s = .next { s with control := { s.control with cfgval := BitVec.ofNat 64 v, cfgStatus := 0 } })
      ∧ (∀ st, s.chip.cfgRead s.control.cfgnum = .error st →
        exec .cfgcmdRead s = .next { s with control := { s.control with cfgStatus := BitVec.ofNat 8 st } })
      ∧ (∀ p ∈ plainRegisters, ∀ ctx, ctx < 64 → s.control.cfgnum = BitVec.ofNat 64 (ctx * 2 ^ 16 + p.1) →
        let v := s.control.cfgval.toNat
        ∃ t, exec .cfgcmdWrite s = .next t ∧ t.control = { s.control with cfgStatus := if v < 2 ^ p.2 then 0 else 3 }
          ∧ (v < 2 ^ p.2 → t.chip.ctxRead ctx p.1 = .ok v) ∧ (2 ^ p.2 ≤ v → t.chip = s.chip))
      ∧ (let y := ev.w.toNat / 2 ^ 8 % 64
        let mode := ev.w.toNat / 2 ^ 16 % 4
        let ky := s.chip.context y
        let ends := fun (st : Nat) (P : Context → Prop) => ∃ t, exec .cfgcmdHalt s = .next t
          ∧ t.control = { s.control with cfgStatus := BitVec.ofNat 8 st } ∧ P (t.chip.context y)
        (mode = 0 → ky.en = true → ends 2 fun c => c = ky) ∧ (mode = 0 → ky.en = false → ends 0 fun c => c = { ky with en := true })
        ∧ (mode = 1 → ky.en = false ∨ ky.susp = true → ends 2 fun c => c = ky)
        ∧ (mode = 1 → ky.en = true → ky.susp = false → ky.suspending = false → (∀ t ∈ s.chip.teams, s.chip.ctxOf t ≠ y) →
          ends 0 fun c => c.susp = true)
        ∧ (mode = 1 → ky.en = true → ky.susp = false → ky.suspending = false → (∃ t ∈ s.chip.teams, s.chip.ctxOf t = y) →
          ∃ t, exec .cfgcmdHalt s = .next t ∧ t.control = { s.control with cfgWait := some (y, false) }
            ∧ t.chip.context y = { ky with suspending := true })
        ∧ (mode = 2 → ky.susp = false → ends 2 fun c => c = ky) ∧ (mode = 2 → ky.susp = true → ends 0 fun c => c.susp = false)
        ∧ (mode = 3 → ky.en = false → ends 2 fun c => c = ky) ∧ (mode = 3 → ky.en = true →
          ∃ t, exec .cfgcmdHalt s = .next t ∧ (t.chip.context y).en = false ∧ (t.chip.context y).susp = false
            ∧ (let done := (∀ d ∈ t.chip.drains, d.ctx ≠ y) ∧ t.chip.atoms = [] ∧ (∀ h ∈ t.chip.held, h.ctx ≠ y)
                ∧ ∀ p ∈ t.chip.leaving, p.1.ctx ≠ y
              t.control = if done then { s.control with cfgStatus := 0 } else { s.control with cfgWait := some (y, true) }))))
    ∧ (up → ev.a + ev.b ≤ 2 ^ 28 →
      ((∀ i, i < ev.b → deviceByte (windowAt s ev.a i) = true ∧ windowAt s ev.a i / 4 ∉ s.chip.poison) →
        answers .hostWindowRead { bytes := (List.range ev.b).map fun i => s.chip.byte (windowAt s ev.a i)
                                  unsupported := false, poisoned := false })
      ∧ (∀ j, j < ev.b → (∀ i, i < j → deviceByte (windowAt s ev.a i) = true) → deviceByte (windowAt s ev.a j) = false →
        exec .hostWindowRead s = .next { s with
          control := { s.control with hwinerr := BitVec.ofNat 64 (windowAt s ev.a j) }
          replies := s.replies ++ [{ bytes := [], unsupported := true, poisoned := false }] })
      ∧ ((∀ i, i < ev.b → deviceByte (windowAt s ev.a i) = true) → (∃ i, i < ev.b ∧ windowAt s ev.a i / 4 ∈ s.chip.poison) →
        answers .hostWindowRead { bytes := List.replicate ev.b 0xFF#8, unsupported := false, poisoned := true }))
    ∧ (up → ev.a + ev.bytes.length ≤ 2 ^ 28 → ∀ j, j < ev.bytes.length → deviceByte (windowAt s ev.a j) = false →
      (∀ i, i < j → deviceByte (windowAt s ev.a i) = true) → ∃ t, exec .hostWindowWrite s = .next t
        ∧ t.control = { s.control with hwinerr := BitVec.ofNat 64 (windowAt s ev.a j) } ∧ t.replies = s.replies
        ∧ (∀ i b, ev.bytes[i]? = some b → deviceByte (windowAt s ev.a i) = true → t.chip.byte (windowAt s ev.a i) = b)
        ∧ ((∀ i, i < ev.bytes.length → deviceByte (windowAt s ev.a i) = false) → t.chip = s.chip)
        ∧ ∀ p, (∀ i, i < ev.bytes.length → windowAt s ev.a i = p → deviceByte p = false) → t.chip.byte p = s.chip.byte p)
    ∧ (up → ev.a + ev.bytes.length ≤ 2 ^ 28 → (∀ i, i < ev.bytes.length → deviceByte (windowAt s ev.a i) = true) →
      ∃ c', Acts s .hostWindowWrite c' ∧ (∀ i b, ev.bytes[i]? = some b → c'.byte (windowAt s ev.a i) = b)
        ∧ ∀ p, ¬(windowAt s ev.a 0 ≤ p ∧ p < windowAt s ev.a 0 + ev.bytes.length) → c'.byte p = s.chip.byte p)
    ∧ (∀ off ∈ [0x0100, 0x0108, 0x0208, 0x0210, 0x0320], ev.reg = .bar0 off → ∃ t, exec .registerWrite s = .next t
      ∧ t.bar0Read off = ev.w ∧ ∀ o ∈ [0x0000, 0x0100, 0x0108, 0x0118, 0x0200, 0x0208, 0x0210, 0x0320, 0x0330, 0x0600, 0x0608],
        o ≠ off → t.bar0Read o = s.bar0Read o)
    ∧ (ev.reg = .bar0 0x0200 → ∃ t, exec .registerWrite s = .next t ∧ t.bar0Read 0x0200 = ev.w &&& 0x000FFFFFF0000001#64)
    ∧ (ev.reg = .bar0 0x0600 → ∃ t, exec .registerWrite s = .next t
      ∧ t.bar0Read 0x0600 = BitVec.ofNat 64 (max 1000 (min 3200 (ev.w.toNat % 2 ^ 12))))
    ∧ (∀ off ∈ [0x0000, 0x0118, 0x0330, 0x0608], ev.reg = .bar0 off → exec .registerWrite s = .next s)
    ∧ (∀ p ∈ plainRegisters, ∀ ctx, ctx < 64 → ev.reg = .config (BitVec.ofNat 64 (ctx * 2 ^ 16 + p.1)) →
      ∃ c', Acts s .registerWrite c' ∧ c'.ctxRead ctx p.1 = .ok (ev.w.toNat % 2 ^ p.2))
    ∧ (∀ y off, (¬up → s.doorbellAnswer y off = { bytes := [], unsupported := true, poisoned := false })
      ∧ (up → ∀ i, i < 8 → s.doorbellAnswer y (8 * i) =
        { bytes := bytesOfNat 8 (SMap.get 0#64 (s.chip.context y).desc i).toNat, unsupported := false, poisoned := false }))
    ∧ (∀ i, i < 8 → ∀ y, y < 64 → up → ev.reg = .doorbell y (8 * i) → ∃ c', Acts s .registerWrite c'
      ∧ SMap.get 0#64 (c'.context y).desc i = ev.w ∧ ∀ j, j ≠ i → SMap.get 0#64 (c'.context y).desc j = SMap.get 0#64 (s.chip.context y).desc j)
    ∧ (let pa := s.control.attaddr.toNat % 2 ^ 63
      let nonce := bytesOfNat 32 s.control.attnonce.toNat
      let body := fun n : List Byte => bytesOfNat 4 1 ++ bytesOfNat 2 s.chip.devid.toNat ++ [0#8, 0#8] ++ bytesOfNat 8 Config.serial.toNat ++ n
        ++ ((List.range 8).flatMap fun i => bytesOfNat 64 (s.control.mreg[i]?.getD 0#512).toNat)
        ++ bytesOfNat 8 s.control.bootcnt.toNat ++ bytesOfNat 8 0
      let report := fun n : List Byte => body n ++ ((List.range 114).map fun i => Config.reportSignature (shake256 (body n)) i)
        ++ List.replicate 14 0#8
      let inPlace := pa % 64 = 0 ∧ ∀ i, i < 704 → populated (pa + i) = true ∧ (pa + i < hostBase ↔ s.control.attaddr.msb = true)
      (s.control.attstat ≠ 1 → inPlace → ∃ c', exec .attgo s = .next { s with chip := c', control := { s.control with attstat := 2 } }
        ∧ (report nonce).length = 704 ∧ (∀ i, i < 704 → (report nonce)[i]? = some (c'.byte (pa + i)))
        ∧ ∀ a, ¬(pa ≤ a ∧ a < pa + 704) → c'.byte a = s.chip.byte a)
      ∧ (s.control.attstat ≠ 1 → ¬inPlace → exec .attgo s = .next { s with control := { s.control with attstat := 3 } })
      ∧ (up → ev.bytes.length = 32 →
        answers .attestationPeerRequest { bytes := report ev.bytes, unsupported := false, poisoned := false }))
    ∧ (∃ t, exec .fundamentalReset s = .next t ∧ t.chip = { Chip.reset with fresh := s.chip.fresh } ∧ t.stage = .free ∧ t.picked = []
      ∧ t.control.pwrlim = 3200 ∧ t.control.cfgnum = 0#64 ∧ t.control.attstat = 0
      ∧ ((∀ i, i < 5 → Config.imageSigned i = true) → t.control.bootState = 3 ∧ t.control.bootErr = 0 ∧ ∀ i, i < 5 →
        t.control.mreg[i]? = some (BitVec.ofNat 512 (leNat (shake256 (bytesOfNat 64 0 ++ bytesOfNat 64 (Config.imageDigest i).toNat)))))
      ∧ ∀ j, j < 5 → (∀ i, i < j → Config.imageSigned i = true) → Config.imageSigned j = false →
        t.control.bootState = 4 ∧ t.control.bootErr = j + 1 ∧ ∀ i, j ≤ i → i < 5 → t.control.mreg[i]? = some 0#512)
    ∧ (∀ (a : Atom) (u : AtomUnit) (l : Nat) (d : W64), s.chip.atoms.find? (fun a => a.id == ev.a) = some a →
      a.op ∈ [AtomOp.addS32, .swap, .addS64, .swapS64] → a.units = [u] → u.lanes = [(l, d)] → u.phys.cp = 3 → l < 64 →
      (∀ b ∈ s.chip.atoms, b.group = a.group → a.id ≤ b.id) →
      let n := AtomOp.bytes a.op
      let old := if n = 8 then ev.w else ev.w &&& 0xFFFFFFFF#64
      ∃ c', Acts s .hostAtomicopCompletion c' ∧ (∀ b ∈ c'.atoms, b.id ≠ a.id)
        ∧ (ev.yes = true → c'.hatomic = s.chip.hatomic + 1 ∧ SameMemory s c')
        ∧ (ev.yes = false → u.phys.pa % n = 0 → c'.hatomic = s.chip.hatomic ∧ c'.homeNat u.phys.pa n =
          (if a.op = .addS32 ∨ a.op = .addS64 then old + d else d).toNat % 2 ^ (8 * n))
        ∧ ∀ g, c'.group? a.group = some g → a.dst + n / 4 ≤ 0xFF → ∀ i, i < n / 4 →
          g.vreg (a.dst + i) l = (if ev.yes then BitVec.allOnes 64 else old).extractLsb' (32 * i) 32)

/-- R383, R384, R389: the links' flits and the power and temperature events: the layout of a flit, delivery and
acknowledgement in order, the credits returned, replay, CRC errors, training; the average of 100 microseconds against the
limit, and the coolant's thresholds. That a repeated SEQ is acknowledged again, the circle of 4,096, that the CRED of every
good flit counts and that a nak may name no kept flit (log 68), the parameters of CRC-32C (log 89), and the events' values
and the end of thermal throttling (log 65) are the model's choices. -/
def Obligations.LinkAndPowerEvents : Prop :=
  ∀ (s : State),
    let ev := s.event
    let p := s.chip.port ev.a
    (∀ (t : Nat) (f : Flit), t < 16 → f.payload.length = 56 → (flitBytes t f).length = 64 ∧ flitOf (flitBytes t f) = some (t, f)
      ∧ (flitBytes t f).take 60 = bytesOfNat 2 (4096 * t + f.seq.toNat) ++ bytesOfNat 2 f.cred.toNat ++ f.payload)
    ∧ (ev.a < 144 → p.up = true → (∀ f,
      let q := { p with credits := p.credits + f.cred.toNat }
      (flitOf ev.bytes = some (1, f) →
        (f.seq = p.rxLast + 1 → PortBecomes s .lysobDataFlit
          (answering { q with rxLast := f.seq, received := p.received ++ [f] } (p.owed + 1) 2 f.seq))
        ∧ (f.seq ≠ p.rxLast + 1 → f.seq ≠ p.rxLast → before p.rxLast f.seq = true →
          PortBecomes s .lysobDataFlit (answering q p.owed 3 p.rxLast))
        ∧ (f.seq = p.rxLast ∨ before p.rxLast f.seq = false → PortBecomes s .lysobDataFlit (answering q p.owed 2 p.rxLast)))
      ∧ (flitOf ev.bytes = some (2, f) →
        ∃ n, PortBecomes s .lysobAck { q with kept := p.kept.filter (fun k => !before k.seq f.seq), tries := n }
          ∧ (before p.again f.seq = true → n = 0) ∧ (before p.again f.seq = false → n = p.tries))
      ∧ (flitOf ev.bytes = some (3, f) →
        (∀ k ks, p.kept.filter (fun k => !before k.seq f.seq) = k :: ks →
          (¬(16 ≤ p.tries ∧ p.again = k.seq) → PortBecomes s .lysobNak
            { q with replay := min 0xFFFF (p.replay + 1), again := k.seq, sent := p.sent ++ (k :: ks).map fun k => (1, k)
                     tries := if p.tries ≠ 0 ∧ p.again = k.seq then p.tries + 1 else 1 })
          ∧ (16 ≤ p.tries → p.again = k.seq → ∃ c', Acts s .lysobNak c' ∧ (c'.port ev.a).up = false ∧ (c'.port ev.a).kept = []
            ∧ c'.msix = s.chip.msix ++ [67]))
        ∧ (p.kept.filter (fun k => !before k.seq f.seq) = [] → PortBecomes s .lysobNak q))
      ∧ (flitOf ev.bytes = some (4, f) → PortBecomes s .lysobCredit q)
      ∧ (flitOf ev.bytes = some (0, f) → PortBecomes s .lysobIdle q))
      ∧ ((∀ t f, flitOf ev.bytes = some (t, f) → 5 ≤ t) →
        PortBecomes s .lysobCrcError (answering { p with crcerr := p.crcerr + 1 } p.owed 3 p.rxLast))
      ∧ Acts s .lysobPortTrained s.chip)
    ∧ (ev.a < 144 → p.up = false → ∃ c', Acts s .lysobPortTrained c' ∧ c'.port ev.a = { p with up := true }
      ∧ c'.msix = s.chip.msix ++ [67] ∧ ∀ n, n ≠ ev.a → c'.port n = s.chip.port n)
    ∧ (s.chip.cyc ≠ 0 → s.chip.cyc % 4000 = 0 → 2 ∉ s.chip.hadEvents → ∃ t w, exec .powerAverageStep s = .next t
      ∧ (let l := (w :: s.control.power).take 100
        let avg := l.sum / l.length
        let limit := if s.control.thermal then 1000 else s.control.pwrlim
        t.control.power = l ∧ t.control.pwrnow = avg ∧ (limit < avg → t.control.throttled = true)
        ∧ (avg < limit → t.control.throttled = false) ∧ (avg = limit → t.control.throttled = s.control.throttled)
        ∧ t.chip.msix = s.chip.msix ++ (if t.control.throttled = s.control.throttled then [] else [68])
        ∧ t.chip.mem = s.chip.mem ∧ t.chip.groups = s.chip.groups))
    ∧ (let raised := { s.chip with msix := s.chip.msix ++ [68] }
      (ev.a = 0 → s.control.bootState = 3 → s.control.thermal = false → exec .thermalLimit s =
        .next { s with chip := raised, control := { s.control with thermal := true, throttled := true } })
      ∧ (ev.a = 1 → s.control.bootState = 3 → s.control.thermal = true → exec .thermalLimit s =
        .next { s with chip := raised, control := { s.control with bootState := 5 } })
      ∧ (2 ≤ ev.a → s.control.thermal = true → exec .thermalLimit s =
        .next { s with chip := raised, control := { s.control with thermal := false } }))
end

