-- ==== Sys2Proof/Laws/Maps.lean ====
section
/-! SUPPORT. Sparse maps: a write is read back, leaves every other key alone, and keeps the canonical form; the same
for bytes in memory, and lookups in lists of records. -/
namespace Sys2Proof.Machine

/-! ## One key -/

@[simp] theorem SMap.get_nil {α : Type} (d : α) (a : Nat) : SMap.get d ([] : SMap α) a = d := rfl

theorem SMap.get_cons {α : Type} (d : α) (k a : Nat) (v : α) (m : SMap α) :
    SMap.get d ((k, v) :: m) a = if a = k then v else SMap.get d m a := rfl

/-- A key taken out reads as the value an unlisted key has; the others keep theirs. -/
theorem SMap.get_filter {α : Type} (d : α) (m : SMap α) (a b : Nat) :
    SMap.get d (m.filter fun p => p.1 != a) b = if b = a then d else SMap.get d m b := by
  induction m with
  | nil => simp
  | cons p m ih =>
    obtain ⟨k, w⟩ := p
    rw [List.filter_cons]
    by_cases hk : k = a
    · subst hk
      simp only [bne_self_eq_false, Bool.false_eq_true, if_false, ih, SMap.get_cons]
      split <;> rfl
    · have : (k != a) = true := by simpa using hk
      simp only [this, if_true, SMap.get_cons, ih]
      by_cases hb : b = k
      · subst hb; simp [hk]
      · simp [hb]

/-- An entry put into a map without its key is read back. -/
theorem SMap.get_insert {α : Type} (d : α) (m : SMap α) (a b : Nat) (v : α) (h : ∀ p ∈ m, p.1 ≠ a) :
    SMap.get d (SMap.insert a v m) b = if b = a then v else SMap.get d m b := by
  induction m with
  | nil => rfl
  | cons p m ih =>
    obtain ⟨k, w⟩ := p
    simp only [SMap.insert]
    split
    · rfl
    · rw [SMap.get_cons, SMap.get_cons, ih fun q hq => h q (List.mem_cons_of_mem _ hq)]
      have hk : k ≠ a := h (k, w) List.mem_cons_self
      by_cases hb : b = k
      · subst hb; simp [hk]
      · simp [hb]

/-- Read after write: the key written holds the value, every other key what it held. -/
theorem SMap.get_put {α : Type} [DecidableEq α] (d : α) (m : SMap α) (a b : Nat) (v : α) :
    SMap.get d (SMap.put d m a v) b = if b = a then v else SMap.get d m b := by
  simp only [SMap.put]
  split
  · next hv => rw [SMap.get_filter, hv]
  · rw [SMap.get_insert _ _ _ _ _ (by simp), SMap.get_filter]
    split <;> rfl

/-- A canonical map's tail is canonical. -/
theorem SMap.wf_tail {α : Type} [DecidableEq α] {d : α} {p : Nat × α} {m : SMap α} (h : SMap.wf d (p :: m) = true) :
    SMap.wf d m = true := by
  obtain ⟨k, v⟩ := p
  simp only [SMap.wf, Bool.and_eq_true] at h
  exact h.2

/-- The canonical form of a map with a head: its value is listed for a reason, its key is below all others. -/
theorem SMap.wf_cons {α : Type} [DecidableEq α] (d : α) (k : Nat) (w : α) (m : SMap α) :
    SMap.wf d ((k, w) :: m) = true ↔ w ≠ d ∧ (∀ p ∈ m, k < p.1) ∧ SMap.wf d m = true := by
  induction m generalizing k w with
  | nil => simp [SMap.wf]
  | cons r m ih =>
    obtain ⟨k', w'⟩ := r
    have e : SMap.wf d ((k, w) :: (k', w') :: m) = (decide (w ≠ d) && decide (k < k') && SMap.wf d ((k', w') :: m)) := rfl
    rw [e, Bool.and_eq_true, Bool.and_eq_true, decide_eq_true_eq, decide_eq_true_eq, ih]
    constructor
    · rintro ⟨⟨h1, h2⟩, h3, h4, h5⟩
      refine ⟨h1, fun p hp => ?_, h3, h4, h5⟩
      rcases List.mem_cons.1 hp with rfl | hp
      · exact h2
      · exact Nat.lt_trans h2 (h4 p hp)
    · rintro ⟨h1, h2, h3⟩
      exact ⟨⟨h1, h2 (k', w') List.mem_cons_self⟩, h3⟩

/-- A canonical map without some of its entries is canonical. -/
theorem SMap.filter_wf {α : Type} [DecidableEq α] (d : α) (m : SMap α) (p : Nat × α → Bool) (h : SMap.wf d m = true) :
    SMap.wf d (m.filter p) = true := by
  induction m with
  | nil => rfl
  | cons r m ih =>
    obtain ⟨k, w⟩ := r
    obtain ⟨h1, h2, h3⟩ := (SMap.wf_cons d k w m).1 h
    rw [List.filter_cons]
    split
    · exact (SMap.wf_cons _ _ _ _).2 ⟨h1, fun q hq => h2 q (List.mem_filter.1 hq).1, ih h3⟩
    · exact ih h3

/-- The entries of a map after an entry is put into it. -/
theorem SMap.mem_insert {α : Type} (a : Nat) (v : α) (m : SMap α) (q : Nat × α) (h : q ∈ SMap.insert a v m) :
    q = (a, v) ∨ q ∈ m := by
  induction m with
  | nil => exact .inl (by simpa [SMap.insert] using h)
  | cons r m ih =>
    obtain ⟨k, w⟩ := r
    simp only [SMap.insert] at h
    split at h
    · simpa using h
    · rcases List.mem_cons.1 h with rfl | h
      · exact .inr List.mem_cons_self
      · exact (ih h).imp id (List.mem_cons_of_mem _)

/-- A write keeps the canonical form. -/
theorem SMap.put_wf {α : Type} [DecidableEq α] (d : α) (m : SMap α) (a : Nat) (v : α) (h : SMap.wf d m = true) :
    SMap.wf d (SMap.put d m a v) = true := by
  have key : ∀ m : SMap α, SMap.wf d m = true → (∀ p ∈ m, p.1 ≠ a) → v ≠ d →
      SMap.wf d (SMap.insert a v m) = true := by
    intro m
    induction m with
    | nil => intro _ _ hv; simp [SMap.insert, SMap.wf, hv]
    | cons r m ih =>
      obtain ⟨k, w⟩ := r
      intro h hn hv
      obtain ⟨h1, h2, h3⟩ := (SMap.wf_cons d k w m).1 h
      have hk : k ≠ a := hn (k, w) List.mem_cons_self
      simp only [SMap.insert]
      split
      · next hlt =>
        refine (SMap.wf_cons _ _ _ _).2 ⟨hv, fun p hp => ?_, h⟩
        rcases List.mem_cons.1 hp with rfl | hp
        · exact hlt
        · exact Nat.lt_trans hlt (h2 p hp)
      · refine (SMap.wf_cons _ _ _ _).2 ⟨h1, fun p hp => ?_, ih h3 (fun q hq => hn q (List.mem_cons_of_mem _ hq)) hv⟩
        rcases SMap.mem_insert _ _ _ _ hp with rfl | hp
        · simp only; omega
        · exact h2 p hp
  simp only [SMap.put]
  split
  · exact SMap.filter_wf _ _ _ h
  · next hv => exact key _ (SMap.filter_wf _ _ _ h) (by simp) hv

/-! ## Bytes -/

/-- A write of bytes keeps the canonical form. -/
theorem putBytes_wf (m : SMap Byte) (a : Nat) (bs : List Byte) (h : SMap.wf 0#8 m = true) :
    SMap.wf 0#8 (putBytes m a bs) = true := by
  induction bs generalizing m a with
  | nil => exact h
  | cons b bs ih => exact ih _ _ (SMap.put_wf _ _ _ _ h)

/-- A write of bytes: byte i of the range holds byte i of the list, and every other byte what it held. -/
theorem get_putBytes (m : SMap Byte) (a b : Nat) (bs : List Byte) :
    SMap.get 0#8 (putBytes m a bs) b =
      if a ≤ b ∧ b < a + bs.length then bs[b - a]?.getD 0#8 else SMap.get 0#8 m b := by
  induction bs generalizing m a with
  | nil => rw [if_neg (by simp only [List.length_nil]; omega)]; rfl
  | cons x bs ih =>
    rw [putBytes, ih, SMap.get_put]
    by_cases h1 : b = a
    · subst h1
      rw [if_neg (by omega), if_pos rfl, if_pos (by simp)]
      simp
    · simp only [h1, if_false, List.length_cons]
      by_cases h2 : a + 1 ≤ b ∧ b < a + 1 + bs.length
      · rw [if_pos h2, if_pos (by omega)]
        obtain ⟨n, hn⟩ : ∃ n, b - a = n + 1 := ⟨b - a - 1, by omega⟩
        rw [hn, show b - (a + 1) = n by omega, List.getElem?_cons_succ]
      · rw [if_neg h2, if_neg (by omega)]

/-! ## Records named by number -/

/-- The record that a test names is the changed one, where the change keeps the test. -/
theorem find_updWhere {α : Type} (p : α → Bool) (f : α → α) (l : List α) (hf : ∀ x, p x = true → p (f x) = true) :
    (updWhere p f l).find? p = (l.find? p).map f := by
  induction l with
  | nil => rfl
  | cons x l ih =>
    simp only [updWhere, List.map_cons, List.find?_cons] at ih ⊢
    cases hx : p x with
    | true => simp [hf x hx]
    | false => simpa [hx] using ih

/-- A record that another test names is unchanged. -/
theorem find_updWhere_other {α : Type} (p q : α → Bool) (f : α → α) (l : List α)
    (h : ∀ x, p x = true → q x = false ∧ q (f x) = false) : (updWhere p f l).find? q = l.find? q := by
  induction l with
  | nil => rfl
  | cons x l ih =>
    simp only [updWhere, List.map_cons, List.find?_cons] at ih ⊢
    cases hp : p x with
    | true => simp [(h x hp).1, (h x hp).2, ih]
    | false => cases hq : q x <;> simp [hq, ih]

/-- The group of a number after it has been set. -/
theorem Chip.group?_setGroup (c : Chip) (g g0 : Group) (h : c.group? g.id = some g0) :
    (c.setGroup g).group? g.id = some g := by
  have h1 : (c.setGroup g).group? g.id = (c.groups.find? fun x => x.id == g.id).map fun _ => g :=
    find_updWhere (fun x : Group => x.id == g.id) (fun _ => g) c.groups (by simp)
  rw [h1]
  have : c.groups.find? (fun x => x.id == g.id) = some g0 := h
  rw [this]; rfl

/-- Every other group is unchanged. -/
theorem Chip.group?_setGroup_other (c : Chip) (g : Group) (n : Nat) (h : n ≠ g.id) :
    (c.setGroup g).group? n = c.group? n :=
  find_updWhere_other (fun x : Group => x.id == g.id) (fun x : Group => x.id == n) (fun _ => g) c.groups (by
    intro x hx
    have : x.id = g.id := by simpa using hx
    constructor
    · simp [this]; omega
    · simp; omega)

/-- Setting a group twice is setting it once. -/
theorem Chip.setGroup_setGroup (c : Chip) (a b : Group) (h : a.id = b.id) :
    (c.setGroup a).setGroup b = c.setGroup b := by
  have : updWhere (fun x => x.id == b.id) (fun _ => b) (updWhere (fun x => x.id == a.id) (fun _ => a) c.groups)
      = updWhere (fun x => x.id == b.id) (fun _ => b) c.groups := by
    simp only [updWhere, List.map_map]
    apply List.map_congr_left
    intro x _
    simp only [Function.comp, h]
    cases hx : x.id == b.id <;> simp [hx, h]
  simp only [Chip.setGroup]
  rw [this]

end Sys2Proof.Machine
end

