-- ==== Sys2Proof/Laws/State.lean ====
section
/-! SUPPORT. What each update of the chip and of a group leaves as it was, field by field. -/
namespace Sys2Proof.Machine

/-! ### Chip.setGroup -/

@[simp] theorem Chip.setGroup_cyc (c : Chip) (g : Group) : (c.setGroup g).cyc = c.cyc := rfl
@[simp] theorem Chip.setGroup_teams (c : Chip) (g : Group) : (c.setGroup g).teams = c.teams := rfl
@[simp] theorem Chip.setGroup_launches (c : Chip) (g : Group) : (c.setGroup g).launches = c.launches := rfl
@[simp] theorem Chip.setGroup_counters (c : Chip) (g : Group) : (c.setGroup g).counters = c.counters := rfl
@[simp] theorem Chip.setGroup_liveKids (c : Chip) (g : Group) : (c.setGroup g).liveKids = c.liveKids := rfl
@[simp] theorem Chip.setGroup_arenaPages (c : Chip) (g : Group) : (c.setGroup g).arenaPages = c.arenaPages := rfl
@[simp] theorem Chip.setGroup_leaving (c : Chip) (g : Group) : (c.setGroup g).leaving = c.leaving := rfl
@[simp] theorem Chip.setGroup_contexts (c : Chip) (g : Group) : (c.setGroup g).contexts = c.contexts := rfl
@[simp] theorem Chip.setGroup_lastPlaced (c : Chip) (g : Group) : (c.setGroup g).lastPlaced = c.lastPlaced := rfl
@[simp] theorem Chip.setGroup_uncleared (c : Chip) (g : Group) : (c.setGroup g).uncleared = c.uncleared := rfl
@[simp] theorem Chip.setGroup_preempting (c : Chip) (g : Group) : (c.setGroup g).preempting = c.preempting := rfl
@[simp] theorem Chip.setGroup_hadEvents (c : Chip) (g : Group) : (c.setGroup g).hadEvents = c.hadEvents := rfl
@[simp] theorem Chip.setGroup_slots (c : Chip) (g : Group) : (c.setGroup g).slots = c.slots := rfl
@[simp] theorem Chip.setGroup_mem (c : Chip) (g : Group) : (c.setGroup g).mem = c.mem := rfl
@[simp] theorem Chip.setGroup_forms (c : Chip) (g : Group) : (c.setGroup g).forms = c.forms := rfl
@[simp] theorem Chip.setGroup_owners (c : Chip) (g : Group) : (c.setGroup g).owners = c.owners := rfl
@[simp] theorem Chip.setGroup_poison (c : Chip) (g : Group) : (c.setGroup g).poison = c.poison := rfl
@[simp] theorem Chip.setGroup_l1 (c : Chip) (g : Group) : (c.setGroup g).l1 = c.l1 := rfl
@[simp] theorem Chip.setGroup_l2 (c : Chip) (g : Group) : (c.setGroup g).l2 = c.l2 := rfl
@[simp] theorem Chip.setGroup_victims (c : Chip) (g : Group) : (c.setGroup g).victims = c.victims := rfl
@[simp] theorem Chip.setGroup_quench (c : Chip) (g : Group) : (c.setGroup g).quench = c.quench := rfl
@[simp] theorem Chip.setGroup_tlb (c : Chip) (g : Group) : (c.setGroup g).tlb = c.tlb := rfl
@[simp] theorem Chip.setGroup_icache (c : Chip) (g : Group) : (c.setGroup g).icache = c.icache := rfl
@[simp] theorem Chip.setGroup_drains (c : Chip) (g : Group) : (c.setGroup g).drains = c.drains := rfl
@[simp] theorem Chip.setGroup_atoms (c : Chip) (g : Group) : (c.setGroup g).atoms = c.atoms := rfl
@[simp] theorem Chip.setGroup_held (c : Chip) (g : Group) : (c.setGroup g).held = c.held := rfl
@[simp] theorem Chip.setGroup_fences (c : Chip) (g : Group) : (c.setGroup g).fences = c.fences := rfl
@[simp] theorem Chip.setGroup_ops (c : Chip) (g : Group) : (c.setGroup g).ops = c.ops := rfl
@[simp] theorem Chip.setGroup_parked (c : Chip) (g : Group) : (c.setGroup g).parked = c.parked := rfl
@[simp] theorem Chip.setGroup_regions (c : Chip) (g : Group) : (c.setGroup g).regions = c.regions := rfl
@[simp] theorem Chip.setGroup_mailboxes (c : Chip) (g : Group) : (c.setGroup g).mailboxes = c.mailboxes := rfl
@[simp] theorem Chip.setGroup_sequences (c : Chip) (g : Group) : (c.setGroup g).sequences = c.sequences := rfl
@[simp] theorem Chip.setGroup_blocks (c : Chip) (g : Group) : (c.setGroup g).blocks = c.blocks := rfl
@[simp] theorem Chip.setGroup_releases (c : Chip) (g : Group) : (c.setGroup g).releases = c.releases := rfl
@[simp] theorem Chip.setGroup_ports (c : Chip) (g : Group) : (c.setGroup g).ports = c.ports := rfl
@[simp] theorem Chip.setGroup_routes (c : Chip) (g : Group) : (c.setGroup g).routes = c.routes := rfl
@[simp] theorem Chip.setGroup_devSets (c : Chip) (g : Group) : (c.setGroup g).devSets = c.devSets := rfl
@[simp] theorem Chip.setGroup_die0 (c : Chip) (g : Group) : (c.setGroup g).die0 = c.die0 := rfl
@[simp] theorem Chip.setGroup_die1 (c : Chip) (g : Group) : (c.setGroup g).die1 = c.die1 := rfl
@[simp] theorem Chip.setGroup_devid (c : Chip) (g : Group) : (c.setGroup g).devid = c.devid := rfl
@[simp] theorem Chip.setGroup_hatomic (c : Chip) (g : Group) : (c.setGroup g).hatomic = c.hatomic := rfl
@[simp] theorem Chip.setGroup_msix (c : Chip) (g : Group) : (c.setGroup g).msix = c.msix := rfl
@[simp] theorem Chip.setGroup_fresh (c : Chip) (g : Group) : (c.setGroup g).fresh = c.fresh := rfl
@[simp] theorem Chip.setGroup_nextId (c : Chip) (g : Group) : (c.setGroup g).nextId = c.nextId := rfl

/-! ### Chip.onGroup -/

@[simp] theorem Chip.onGroup_cyc (c : Chip) (id : Nat) (f : Group → Group) : (c.onGroup id f).cyc = c.cyc := rfl
@[simp] theorem Chip.onGroup_teams (c : Chip) (id : Nat) (f : Group → Group) : (c.onGroup id f).teams = c.teams := rfl
@[simp] theorem Chip.onGroup_launches (c : Chip) (id : Nat) (f : Group → Group) : (c.onGroup id f).launches = c.launches := rfl
@[simp] theorem Chip.onGroup_counters (c : Chip) (id : Nat) (f : Group → Group) : (c.onGroup id f).counters = c.counters := rfl
@[simp] theorem Chip.onGroup_liveKids (c : Chip) (id : Nat) (f : Group → Group) : (c.onGroup id f).liveKids = c.liveKids := rfl
@[simp] theorem Chip.onGroup_arenaPages (c : Chip) (id : Nat) (f : Group → Group) : (c.onGroup id f).arenaPages = c.arenaPages := rfl
@[simp] theorem Chip.onGroup_leaving (c : Chip) (id : Nat) (f : Group → Group) : (c.onGroup id f).leaving = c.leaving := rfl
@[simp] theorem Chip.onGroup_contexts (c : Chip) (id : Nat) (f : Group → Group) : (c.onGroup id f).contexts = c.contexts := rfl
@[simp] theorem Chip.onGroup_lastPlaced (c : Chip) (id : Nat) (f : Group → Group) : (c.onGroup id f).lastPlaced = c.lastPlaced := rfl
@[simp] theorem Chip.onGroup_uncleared (c : Chip) (id : Nat) (f : Group → Group) : (c.onGroup id f).uncleared = c.uncleared := rfl
@[simp] theorem Chip.onGroup_preempting (c : Chip) (id : Nat) (f : Group → Group) : (c.onGroup id f).preempting = c.preempting := rfl
@[simp] theorem Chip.onGroup_hadEvents (c : Chip) (id : Nat) (f : Group → Group) : (c.onGroup id f).hadEvents = c.hadEvents := rfl
@[simp] theorem Chip.onGroup_slots (c : Chip) (id : Nat) (f : Group → Group) : (c.onGroup id f).slots = c.slots := rfl
@[simp] theorem Chip.onGroup_mem (c : Chip) (id : Nat) (f : Group → Group) : (c.onGroup id f).mem = c.mem := rfl
@[simp] theorem Chip.onGroup_forms (c : Chip) (id : Nat) (f : Group → Group) : (c.onGroup id f).forms = c.forms := rfl
@[simp] theorem Chip.onGroup_owners (c : Chip) (id : Nat) (f : Group → Group) : (c.onGroup id f).owners = c.owners := rfl
@[simp] theorem Chip.onGroup_poison (c : Chip) (id : Nat) (f : Group → Group) : (c.onGroup id f).poison = c.poison := rfl
@[simp] theorem Chip.onGroup_l1 (c : Chip) (id : Nat) (f : Group → Group) : (c.onGroup id f).l1 = c.l1 := rfl
@[simp] theorem Chip.onGroup_l2 (c : Chip) (id : Nat) (f : Group → Group) : (c.onGroup id f).l2 = c.l2 := rfl
@[simp] theorem Chip.onGroup_victims (c : Chip) (id : Nat) (f : Group → Group) : (c.onGroup id f).victims = c.victims := rfl
@[simp] theorem Chip.onGroup_quench (c : Chip) (id : Nat) (f : Group → Group) : (c.onGroup id f).quench = c.quench := rfl
@[simp] theorem Chip.onGroup_tlb (c : Chip) (id : Nat) (f : Group → Group) : (c.onGroup id f).tlb = c.tlb := rfl
@[simp] theorem Chip.onGroup_icache (c : Chip) (id : Nat) (f : Group → Group) : (c.onGroup id f).icache = c.icache := rfl
@[simp] theorem Chip.onGroup_drains (c : Chip) (id : Nat) (f : Group → Group) : (c.onGroup id f).drains = c.drains := rfl
@[simp] theorem Chip.onGroup_atoms (c : Chip) (id : Nat) (f : Group → Group) : (c.onGroup id f).atoms = c.atoms := rfl
@[simp] theorem Chip.onGroup_held (c : Chip) (id : Nat) (f : Group → Group) : (c.onGroup id f).held = c.held := rfl
@[simp] theorem Chip.onGroup_fences (c : Chip) (id : Nat) (f : Group → Group) : (c.onGroup id f).fences = c.fences := rfl
@[simp] theorem Chip.onGroup_ops (c : Chip) (id : Nat) (f : Group → Group) : (c.onGroup id f).ops = c.ops := rfl
@[simp] theorem Chip.onGroup_parked (c : Chip) (id : Nat) (f : Group → Group) : (c.onGroup id f).parked = c.parked := rfl
@[simp] theorem Chip.onGroup_regions (c : Chip) (id : Nat) (f : Group → Group) : (c.onGroup id f).regions = c.regions := rfl
@[simp] theorem Chip.onGroup_mailboxes (c : Chip) (id : Nat) (f : Group → Group) : (c.onGroup id f).mailboxes = c.mailboxes := rfl
@[simp] theorem Chip.onGroup_sequences (c : Chip) (id : Nat) (f : Group → Group) : (c.onGroup id f).sequences = c.sequences := rfl
@[simp] theorem Chip.onGroup_blocks (c : Chip) (id : Nat) (f : Group → Group) : (c.onGroup id f).blocks = c.blocks := rfl
@[simp] theorem Chip.onGroup_releases (c : Chip) (id : Nat) (f : Group → Group) : (c.onGroup id f).releases = c.releases := rfl
@[simp] theorem Chip.onGroup_ports (c : Chip) (id : Nat) (f : Group → Group) : (c.onGroup id f).ports = c.ports := rfl
@[simp] theorem Chip.onGroup_routes (c : Chip) (id : Nat) (f : Group → Group) : (c.onGroup id f).routes = c.routes := rfl
@[simp] theorem Chip.onGroup_devSets (c : Chip) (id : Nat) (f : Group → Group) : (c.onGroup id f).devSets = c.devSets := rfl
@[simp] theorem Chip.onGroup_die0 (c : Chip) (id : Nat) (f : Group → Group) : (c.onGroup id f).die0 = c.die0 := rfl
@[simp] theorem Chip.onGroup_die1 (c : Chip) (id : Nat) (f : Group → Group) : (c.onGroup id f).die1 = c.die1 := rfl
@[simp] theorem Chip.onGroup_devid (c : Chip) (id : Nat) (f : Group → Group) : (c.onGroup id f).devid = c.devid := rfl
@[simp] theorem Chip.onGroup_hatomic (c : Chip) (id : Nat) (f : Group → Group) : (c.onGroup id f).hatomic = c.hatomic := rfl
@[simp] theorem Chip.onGroup_msix (c : Chip) (id : Nat) (f : Group → Group) : (c.onGroup id f).msix = c.msix := rfl
@[simp] theorem Chip.onGroup_fresh (c : Chip) (id : Nat) (f : Group → Group) : (c.onGroup id f).fresh = c.fresh := rfl
@[simp] theorem Chip.onGroup_nextId (c : Chip) (id : Nat) (f : Group → Group) : (c.onGroup id f).nextId = c.nextId := rfl

/-! ### Chip.onTeam -/

@[simp] theorem Chip.onTeam_cyc (c : Chip) (id : Nat) (f : Team → Team) : (c.onTeam id f).cyc = c.cyc := rfl
@[simp] theorem Chip.onTeam_groups (c : Chip) (id : Nat) (f : Team → Team) : (c.onTeam id f).groups = c.groups := rfl
@[simp] theorem Chip.onTeam_launches (c : Chip) (id : Nat) (f : Team → Team) : (c.onTeam id f).launches = c.launches := rfl
@[simp] theorem Chip.onTeam_counters (c : Chip) (id : Nat) (f : Team → Team) : (c.onTeam id f).counters = c.counters := rfl
@[simp] theorem Chip.onTeam_liveKids (c : Chip) (id : Nat) (f : Team → Team) : (c.onTeam id f).liveKids = c.liveKids := rfl
@[simp] theorem Chip.onTeam_arenaPages (c : Chip) (id : Nat) (f : Team → Team) : (c.onTeam id f).arenaPages = c.arenaPages := rfl
@[simp] theorem Chip.onTeam_leaving (c : Chip) (id : Nat) (f : Team → Team) : (c.onTeam id f).leaving = c.leaving := rfl
@[simp] theorem Chip.onTeam_contexts (c : Chip) (id : Nat) (f : Team → Team) : (c.onTeam id f).contexts = c.contexts := rfl
@[simp] theorem Chip.onTeam_lastPlaced (c : Chip) (id : Nat) (f : Team → Team) : (c.onTeam id f).lastPlaced = c.lastPlaced := rfl
@[simp] theorem Chip.onTeam_uncleared (c : Chip) (id : Nat) (f : Team → Team) : (c.onTeam id f).uncleared = c.uncleared := rfl
@[simp] theorem Chip.onTeam_preempting (c : Chip) (id : Nat) (f : Team → Team) : (c.onTeam id f).preempting = c.preempting := rfl
@[simp] theorem Chip.onTeam_hadEvents (c : Chip) (id : Nat) (f : Team → Team) : (c.onTeam id f).hadEvents = c.hadEvents := rfl
@[simp] theorem Chip.onTeam_slots (c : Chip) (id : Nat) (f : Team → Team) : (c.onTeam id f).slots = c.slots := rfl
@[simp] theorem Chip.onTeam_mem (c : Chip) (id : Nat) (f : Team → Team) : (c.onTeam id f).mem = c.mem := rfl
@[simp] theorem Chip.onTeam_forms (c : Chip) (id : Nat) (f : Team → Team) : (c.onTeam id f).forms = c.forms := rfl
@[simp] theorem Chip.onTeam_owners (c : Chip) (id : Nat) (f : Team → Team) : (c.onTeam id f).owners = c.owners := rfl
@[simp] theorem Chip.onTeam_poison (c : Chip) (id : Nat) (f : Team → Team) : (c.onTeam id f).poison = c.poison := rfl
@[simp] theorem Chip.onTeam_l1 (c : Chip) (id : Nat) (f : Team → Team) : (c.onTeam id f).l1 = c.l1 := rfl
@[simp] theorem Chip.onTeam_l2 (c : Chip) (id : Nat) (f : Team → Team) : (c.onTeam id f).l2 = c.l2 := rfl
@[simp] theorem Chip.onTeam_victims (c : Chip) (id : Nat) (f : Team → Team) : (c.onTeam id f).victims = c.victims := rfl
@[simp] theorem Chip.onTeam_quench (c : Chip) (id : Nat) (f : Team → Team) : (c.onTeam id f).quench = c.quench := rfl
@[simp] theorem Chip.onTeam_tlb (c : Chip) (id : Nat) (f : Team → Team) : (c.onTeam id f).tlb = c.tlb := rfl
@[simp] theorem Chip.onTeam_icache (c : Chip) (id : Nat) (f : Team → Team) : (c.onTeam id f).icache = c.icache := rfl
@[simp] theorem Chip.onTeam_drains (c : Chip) (id : Nat) (f : Team → Team) : (c.onTeam id f).drains = c.drains := rfl
@[simp] theorem Chip.onTeam_atoms (c : Chip) (id : Nat) (f : Team → Team) : (c.onTeam id f).atoms = c.atoms := rfl
@[simp] theorem Chip.onTeam_held (c : Chip) (id : Nat) (f : Team → Team) : (c.onTeam id f).held = c.held := rfl
@[simp] theorem Chip.onTeam_fences (c : Chip) (id : Nat) (f : Team → Team) : (c.onTeam id f).fences = c.fences := rfl
@[simp] theorem Chip.onTeam_ops (c : Chip) (id : Nat) (f : Team → Team) : (c.onTeam id f).ops = c.ops := rfl
@[simp] theorem Chip.onTeam_parked (c : Chip) (id : Nat) (f : Team → Team) : (c.onTeam id f).parked = c.parked := rfl
@[simp] theorem Chip.onTeam_regions (c : Chip) (id : Nat) (f : Team → Team) : (c.onTeam id f).regions = c.regions := rfl
@[simp] theorem Chip.onTeam_mailboxes (c : Chip) (id : Nat) (f : Team → Team) : (c.onTeam id f).mailboxes = c.mailboxes := rfl
@[simp] theorem Chip.onTeam_sequences (c : Chip) (id : Nat) (f : Team → Team) : (c.onTeam id f).sequences = c.sequences := rfl
@[simp] theorem Chip.onTeam_blocks (c : Chip) (id : Nat) (f : Team → Team) : (c.onTeam id f).blocks = c.blocks := rfl
@[simp] theorem Chip.onTeam_releases (c : Chip) (id : Nat) (f : Team → Team) : (c.onTeam id f).releases = c.releases := rfl
@[simp] theorem Chip.onTeam_ports (c : Chip) (id : Nat) (f : Team → Team) : (c.onTeam id f).ports = c.ports := rfl
@[simp] theorem Chip.onTeam_routes (c : Chip) (id : Nat) (f : Team → Team) : (c.onTeam id f).routes = c.routes := rfl
@[simp] theorem Chip.onTeam_devSets (c : Chip) (id : Nat) (f : Team → Team) : (c.onTeam id f).devSets = c.devSets := rfl
@[simp] theorem Chip.onTeam_die0 (c : Chip) (id : Nat) (f : Team → Team) : (c.onTeam id f).die0 = c.die0 := rfl
@[simp] theorem Chip.onTeam_die1 (c : Chip) (id : Nat) (f : Team → Team) : (c.onTeam id f).die1 = c.die1 := rfl
@[simp] theorem Chip.onTeam_devid (c : Chip) (id : Nat) (f : Team → Team) : (c.onTeam id f).devid = c.devid := rfl
@[simp] theorem Chip.onTeam_hatomic (c : Chip) (id : Nat) (f : Team → Team) : (c.onTeam id f).hatomic = c.hatomic := rfl
@[simp] theorem Chip.onTeam_msix (c : Chip) (id : Nat) (f : Team → Team) : (c.onTeam id f).msix = c.msix := rfl
@[simp] theorem Chip.onTeam_fresh (c : Chip) (id : Nat) (f : Team → Team) : (c.onTeam id f).fresh = c.fresh := rfl
@[simp] theorem Chip.onTeam_nextId (c : Chip) (id : Nat) (f : Team → Team) : (c.onTeam id f).nextId = c.nextId := rfl

/-! ### Chip.onLaunch -/

@[simp] theorem Chip.onLaunch_cyc (c : Chip) (id : Nat) (f : Launch → Launch) : (c.onLaunch id f).cyc = c.cyc := rfl
@[simp] theorem Chip.onLaunch_groups (c : Chip) (id : Nat) (f : Launch → Launch) : (c.onLaunch id f).groups = c.groups := rfl
@[simp] theorem Chip.onLaunch_teams (c : Chip) (id : Nat) (f : Launch → Launch) : (c.onLaunch id f).teams = c.teams := rfl
@[simp] theorem Chip.onLaunch_counters (c : Chip) (id : Nat) (f : Launch → Launch) : (c.onLaunch id f).counters = c.counters := rfl
@[simp] theorem Chip.onLaunch_liveKids (c : Chip) (id : Nat) (f : Launch → Launch) : (c.onLaunch id f).liveKids = c.liveKids := rfl
@[simp] theorem Chip.onLaunch_arenaPages (c : Chip) (id : Nat) (f : Launch → Launch) : (c.onLaunch id f).arenaPages = c.arenaPages := rfl
@[simp] theorem Chip.onLaunch_leaving (c : Chip) (id : Nat) (f : Launch → Launch) : (c.onLaunch id f).leaving = c.leaving := rfl
@[simp] theorem Chip.onLaunch_contexts (c : Chip) (id : Nat) (f : Launch → Launch) : (c.onLaunch id f).contexts = c.contexts := rfl
@[simp] theorem Chip.onLaunch_lastPlaced (c : Chip) (id : Nat) (f : Launch → Launch) : (c.onLaunch id f).lastPlaced = c.lastPlaced := rfl
@[simp] theorem Chip.onLaunch_uncleared (c : Chip) (id : Nat) (f : Launch → Launch) : (c.onLaunch id f).uncleared = c.uncleared := rfl
@[simp] theorem Chip.onLaunch_preempting (c : Chip) (id : Nat) (f : Launch → Launch) : (c.onLaunch id f).preempting = c.preempting := rfl
@[simp] theorem Chip.onLaunch_hadEvents (c : Chip) (id : Nat) (f : Launch → Launch) : (c.onLaunch id f).hadEvents = c.hadEvents := rfl
@[simp] theorem Chip.onLaunch_slots (c : Chip) (id : Nat) (f : Launch → Launch) : (c.onLaunch id f).slots = c.slots := rfl
@[simp] theorem Chip.onLaunch_mem (c : Chip) (id : Nat) (f : Launch → Launch) : (c.onLaunch id f).mem = c.mem := rfl
@[simp] theorem Chip.onLaunch_forms (c : Chip) (id : Nat) (f : Launch → Launch) : (c.onLaunch id f).forms = c.forms := rfl
@[simp] theorem Chip.onLaunch_owners (c : Chip) (id : Nat) (f : Launch → Launch) : (c.onLaunch id f).owners = c.owners := rfl
@[simp] theorem Chip.onLaunch_poison (c : Chip) (id : Nat) (f : Launch → Launch) : (c.onLaunch id f).poison = c.poison := rfl
@[simp] theorem Chip.onLaunch_l1 (c : Chip) (id : Nat) (f : Launch → Launch) : (c.onLaunch id f).l1 = c.l1 := rfl
@[simp] theorem Chip.onLaunch_l2 (c : Chip) (id : Nat) (f : Launch → Launch) : (c.onLaunch id f).l2 = c.l2 := rfl
@[simp] theorem Chip.onLaunch_victims (c : Chip) (id : Nat) (f : Launch → Launch) : (c.onLaunch id f).victims = c.victims := rfl
@[simp] theorem Chip.onLaunch_quench (c : Chip) (id : Nat) (f : Launch → Launch) : (c.onLaunch id f).quench = c.quench := rfl
@[simp] theorem Chip.onLaunch_tlb (c : Chip) (id : Nat) (f : Launch → Launch) : (c.onLaunch id f).tlb = c.tlb := rfl
@[simp] theorem Chip.onLaunch_icache (c : Chip) (id : Nat) (f : Launch → Launch) : (c.onLaunch id f).icache = c.icache := rfl
@[simp] theorem Chip.onLaunch_drains (c : Chip) (id : Nat) (f : Launch → Launch) : (c.onLaunch id f).drains = c.drains := rfl
@[simp] theorem Chip.onLaunch_atoms (c : Chip) (id : Nat) (f : Launch → Launch) : (c.onLaunch id f).atoms = c.atoms := rfl
@[simp] theorem Chip.onLaunch_held (c : Chip) (id : Nat) (f : Launch → Launch) : (c.onLaunch id f).held = c.held := rfl
@[simp] theorem Chip.onLaunch_fences (c : Chip) (id : Nat) (f : Launch → Launch) : (c.onLaunch id f).fences = c.fences := rfl
@[simp] theorem Chip.onLaunch_ops (c : Chip) (id : Nat) (f : Launch → Launch) : (c.onLaunch id f).ops = c.ops := rfl
@[simp] theorem Chip.onLaunch_parked (c : Chip) (id : Nat) (f : Launch → Launch) : (c.onLaunch id f).parked = c.parked := rfl
@[simp] theorem Chip.onLaunch_regions (c : Chip) (id : Nat) (f : Launch → Launch) : (c.onLaunch id f).regions = c.regions := rfl
@[simp] theorem Chip.onLaunch_mailboxes (c : Chip) (id : Nat) (f : Launch → Launch) : (c.onLaunch id f).mailboxes = c.mailboxes := rfl
@[simp] theorem Chip.onLaunch_sequences (c : Chip) (id : Nat) (f : Launch → Launch) : (c.onLaunch id f).sequences = c.sequences := rfl
@[simp] theorem Chip.onLaunch_blocks (c : Chip) (id : Nat) (f : Launch → Launch) : (c.onLaunch id f).blocks = c.blocks := rfl
@[simp] theorem Chip.onLaunch_releases (c : Chip) (id : Nat) (f : Launch → Launch) : (c.onLaunch id f).releases = c.releases := rfl
@[simp] theorem Chip.onLaunch_ports (c : Chip) (id : Nat) (f : Launch → Launch) : (c.onLaunch id f).ports = c.ports := rfl
@[simp] theorem Chip.onLaunch_routes (c : Chip) (id : Nat) (f : Launch → Launch) : (c.onLaunch id f).routes = c.routes := rfl
@[simp] theorem Chip.onLaunch_devSets (c : Chip) (id : Nat) (f : Launch → Launch) : (c.onLaunch id f).devSets = c.devSets := rfl
@[simp] theorem Chip.onLaunch_die0 (c : Chip) (id : Nat) (f : Launch → Launch) : (c.onLaunch id f).die0 = c.die0 := rfl
@[simp] theorem Chip.onLaunch_die1 (c : Chip) (id : Nat) (f : Launch → Launch) : (c.onLaunch id f).die1 = c.die1 := rfl
@[simp] theorem Chip.onLaunch_devid (c : Chip) (id : Nat) (f : Launch → Launch) : (c.onLaunch id f).devid = c.devid := rfl
@[simp] theorem Chip.onLaunch_hatomic (c : Chip) (id : Nat) (f : Launch → Launch) : (c.onLaunch id f).hatomic = c.hatomic := rfl
@[simp] theorem Chip.onLaunch_msix (c : Chip) (id : Nat) (f : Launch → Launch) : (c.onLaunch id f).msix = c.msix := rfl
@[simp] theorem Chip.onLaunch_fresh (c : Chip) (id : Nat) (f : Launch → Launch) : (c.onLaunch id f).fresh = c.fresh := rfl
@[simp] theorem Chip.onLaunch_nextId (c : Chip) (id : Nat) (f : Launch → Launch) : (c.onLaunch id f).nextId = c.nextId := rfl

/-! ### Chip.onContext -/

@[simp] theorem Chip.onContext_cyc (c : Chip) (x : Nat) (f : Context → Context) : (c.onContext x f).cyc = c.cyc := rfl
@[simp] theorem Chip.onContext_groups (c : Chip) (x : Nat) (f : Context → Context) : (c.onContext x f).groups = c.groups := rfl
@[simp] theorem Chip.onContext_teams (c : Chip) (x : Nat) (f : Context → Context) : (c.onContext x f).teams = c.teams := rfl
@[simp] theorem Chip.onContext_launches (c : Chip) (x : Nat) (f : Context → Context) : (c.onContext x f).launches = c.launches := rfl
@[simp] theorem Chip.onContext_counters (c : Chip) (x : Nat) (f : Context → Context) : (c.onContext x f).counters = c.counters := rfl
@[simp] theorem Chip.onContext_liveKids (c : Chip) (x : Nat) (f : Context → Context) : (c.onContext x f).liveKids = c.liveKids := rfl
@[simp] theorem Chip.onContext_arenaPages (c : Chip) (x : Nat) (f : Context → Context) : (c.onContext x f).arenaPages = c.arenaPages := rfl
@[simp] theorem Chip.onContext_leaving (c : Chip) (x : Nat) (f : Context → Context) : (c.onContext x f).leaving = c.leaving := rfl
@[simp] theorem Chip.onContext_lastPlaced (c : Chip) (x : Nat) (f : Context → Context) : (c.onContext x f).lastPlaced = c.lastPlaced := rfl
@[simp] theorem Chip.onContext_uncleared (c : Chip) (x : Nat) (f : Context → Context) : (c.onContext x f).uncleared = c.uncleared := rfl
@[simp] theorem Chip.onContext_preempting (c : Chip) (x : Nat) (f : Context → Context) : (c.onContext x f).preempting = c.preempting := rfl
@[simp] theorem Chip.onContext_hadEvents (c : Chip) (x : Nat) (f : Context → Context) : (c.onContext x f).hadEvents = c.hadEvents := rfl
@[simp] theorem Chip.onContext_slots (c : Chip) (x : Nat) (f : Context → Context) : (c.onContext x f).slots = c.slots := rfl
@[simp] theorem Chip.onContext_mem (c : Chip) (x : Nat) (f : Context → Context) : (c.onContext x f).mem = c.mem := rfl
@[simp] theorem Chip.onContext_forms (c : Chip) (x : Nat) (f : Context → Context) : (c.onContext x f).forms = c.forms := rfl
@[simp] theorem Chip.onContext_owners (c : Chip) (x : Nat) (f : Context → Context) : (c.onContext x f).owners = c.owners := rfl
@[simp] theorem Chip.onContext_poison (c : Chip) (x : Nat) (f : Context → Context) : (c.onContext x f).poison = c.poison := rfl
@[simp] theorem Chip.onContext_l1 (c : Chip) (x : Nat) (f : Context → Context) : (c.onContext x f).l1 = c.l1 := rfl
@[simp] theorem Chip.onContext_l2 (c : Chip) (x : Nat) (f : Context → Context) : (c.onContext x f).l2 = c.l2 := rfl
@[simp] theorem Chip.onContext_victims (c : Chip) (x : Nat) (f : Context → Context) : (c.onContext x f).victims = c.victims := rfl
@[simp] theorem Chip.onContext_quench (c : Chip) (x : Nat) (f : Context → Context) : (c.onContext x f).quench = c.quench := rfl
@[simp] theorem Chip.onContext_tlb (c : Chip) (x : Nat) (f : Context → Context) : (c.onContext x f).tlb = c.tlb := rfl
@[simp] theorem Chip.onContext_icache (c : Chip) (x : Nat) (f : Context → Context) : (c.onContext x f).icache = c.icache := rfl
@[simp] theorem Chip.onContext_drains (c : Chip) (x : Nat) (f : Context → Context) : (c.onContext x f).drains = c.drains := rfl
@[simp] theorem Chip.onContext_atoms (c : Chip) (x : Nat) (f : Context → Context) : (c.onContext x f).atoms = c.atoms := rfl
@[simp] theorem Chip.onContext_held (c : Chip) (x : Nat) (f : Context → Context) : (c.onContext x f).held = c.held := rfl
@[simp] theorem Chip.onContext_fences (c : Chip) (x : Nat) (f : Context → Context) : (c.onContext x f).fences = c.fences := rfl
@[simp] theorem Chip.onContext_ops (c : Chip) (x : Nat) (f : Context → Context) : (c.onContext x f).ops = c.ops := rfl
@[simp] theorem Chip.onContext_parked (c : Chip) (x : Nat) (f : Context → Context) : (c.onContext x f).parked = c.parked := rfl
@[simp] theorem Chip.onContext_regions (c : Chip) (x : Nat) (f : Context → Context) : (c.onContext x f).regions = c.regions := rfl
@[simp] theorem Chip.onContext_mailboxes (c : Chip) (x : Nat) (f : Context → Context) : (c.onContext x f).mailboxes = c.mailboxes := rfl
@[simp] theorem Chip.onContext_sequences (c : Chip) (x : Nat) (f : Context → Context) : (c.onContext x f).sequences = c.sequences := rfl
@[simp] theorem Chip.onContext_blocks (c : Chip) (x : Nat) (f : Context → Context) : (c.onContext x f).blocks = c.blocks := rfl
@[simp] theorem Chip.onContext_releases (c : Chip) (x : Nat) (f : Context → Context) : (c.onContext x f).releases = c.releases := rfl
@[simp] theorem Chip.onContext_ports (c : Chip) (x : Nat) (f : Context → Context) : (c.onContext x f).ports = c.ports := rfl
@[simp] theorem Chip.onContext_routes (c : Chip) (x : Nat) (f : Context → Context) : (c.onContext x f).routes = c.routes := rfl
@[simp] theorem Chip.onContext_devSets (c : Chip) (x : Nat) (f : Context → Context) : (c.onContext x f).devSets = c.devSets := rfl
@[simp] theorem Chip.onContext_die0 (c : Chip) (x : Nat) (f : Context → Context) : (c.onContext x f).die0 = c.die0 := rfl
@[simp] theorem Chip.onContext_die1 (c : Chip) (x : Nat) (f : Context → Context) : (c.onContext x f).die1 = c.die1 := rfl
@[simp] theorem Chip.onContext_devid (c : Chip) (x : Nat) (f : Context → Context) : (c.onContext x f).devid = c.devid := rfl
@[simp] theorem Chip.onContext_hatomic (c : Chip) (x : Nat) (f : Context → Context) : (c.onContext x f).hatomic = c.hatomic := rfl
@[simp] theorem Chip.onContext_msix (c : Chip) (x : Nat) (f : Context → Context) : (c.onContext x f).msix = c.msix := rfl
@[simp] theorem Chip.onContext_fresh (c : Chip) (x : Nat) (f : Context → Context) : (c.onContext x f).fresh = c.fresh := rfl
@[simp] theorem Chip.onContext_nextId (c : Chip) (x : Nat) (f : Context → Context) : (c.onContext x f).nextId = c.nextId := rfl

/-! ### Chip.setCounter -/

@[simp] theorem Chip.setCounter_cyc (c : Chip) (n : Nat) (r : Counter) : (c.setCounter n r).cyc = c.cyc := rfl
@[simp] theorem Chip.setCounter_groups (c : Chip) (n : Nat) (r : Counter) : (c.setCounter n r).groups = c.groups := rfl
@[simp] theorem Chip.setCounter_teams (c : Chip) (n : Nat) (r : Counter) : (c.setCounter n r).teams = c.teams := rfl
@[simp] theorem Chip.setCounter_launches (c : Chip) (n : Nat) (r : Counter) : (c.setCounter n r).launches = c.launches := rfl
@[simp] theorem Chip.setCounter_liveKids (c : Chip) (n : Nat) (r : Counter) : (c.setCounter n r).liveKids = c.liveKids := rfl
@[simp] theorem Chip.setCounter_arenaPages (c : Chip) (n : Nat) (r : Counter) : (c.setCounter n r).arenaPages = c.arenaPages := rfl
@[simp] theorem Chip.setCounter_leaving (c : Chip) (n : Nat) (r : Counter) : (c.setCounter n r).leaving = c.leaving := rfl
@[simp] theorem Chip.setCounter_contexts (c : Chip) (n : Nat) (r : Counter) : (c.setCounter n r).contexts = c.contexts := rfl
@[simp] theorem Chip.setCounter_lastPlaced (c : Chip) (n : Nat) (r : Counter) : (c.setCounter n r).lastPlaced = c.lastPlaced := rfl
@[simp] theorem Chip.setCounter_uncleared (c : Chip) (n : Nat) (r : Counter) : (c.setCounter n r).uncleared = c.uncleared := rfl
@[simp] theorem Chip.setCounter_preempting (c : Chip) (n : Nat) (r : Counter) : (c.setCounter n r).preempting = c.preempting := rfl
@[simp] theorem Chip.setCounter_hadEvents (c : Chip) (n : Nat) (r : Counter) : (c.setCounter n r).hadEvents = c.hadEvents := rfl
@[simp] theorem Chip.setCounter_slots (c : Chip) (n : Nat) (r : Counter) : (c.setCounter n r).slots = c.slots := rfl
@[simp] theorem Chip.setCounter_mem (c : Chip) (n : Nat) (r : Counter) : (c.setCounter n r).mem = c.mem := rfl
@[simp] theorem Chip.setCounter_forms (c : Chip) (n : Nat) (r : Counter) : (c.setCounter n r).forms = c.forms := rfl
@[simp] theorem Chip.setCounter_owners (c : Chip) (n : Nat) (r : Counter) : (c.setCounter n r).owners = c.owners := rfl
@[simp] theorem Chip.setCounter_poison (c : Chip) (n : Nat) (r : Counter) : (c.setCounter n r).poison = c.poison := rfl
@[simp] theorem Chip.setCounter_l1 (c : Chip) (n : Nat) (r : Counter) : (c.setCounter n r).l1 = c.l1 := rfl
@[simp] theorem Chip.setCounter_l2 (c : Chip) (n : Nat) (r : Counter) : (c.setCounter n r).l2 = c.l2 := rfl
@[simp] theorem Chip.setCounter_victims (c : Chip) (n : Nat) (r : Counter) : (c.setCounter n r).victims = c.victims := rfl
@[simp] theorem Chip.setCounter_quench (c : Chip) (n : Nat) (r : Counter) : (c.setCounter n r).quench = c.quench := rfl
@[simp] theorem Chip.setCounter_tlb (c : Chip) (n : Nat) (r : Counter) : (c.setCounter n r).tlb = c.tlb := rfl
@[simp] theorem Chip.setCounter_icache (c : Chip) (n : Nat) (r : Counter) : (c.setCounter n r).icache = c.icache := rfl
@[simp] theorem Chip.setCounter_drains (c : Chip) (n : Nat) (r : Counter) : (c.setCounter n r).drains = c.drains := rfl
@[simp] theorem Chip.setCounter_atoms (c : Chip) (n : Nat) (r : Counter) : (c.setCounter n r).atoms = c.atoms := rfl
@[simp] theorem Chip.setCounter_held (c : Chip) (n : Nat) (r : Counter) : (c.setCounter n r).held = c.held := rfl
@[simp] theorem Chip.setCounter_fences (c : Chip) (n : Nat) (r : Counter) : (c.setCounter n r).fences = c.fences := rfl
@[simp] theorem Chip.setCounter_ops (c : Chip) (n : Nat) (r : Counter) : (c.setCounter n r).ops = c.ops := rfl
@[simp] theorem Chip.setCounter_parked (c : Chip) (n : Nat) (r : Counter) : (c.setCounter n r).parked = c.parked := rfl
@[simp] theorem Chip.setCounter_regions (c : Chip) (n : Nat) (r : Counter) : (c.setCounter n r).regions = c.regions := rfl
@[simp] theorem Chip.setCounter_mailboxes (c : Chip) (n : Nat) (r : Counter) : (c.setCounter n r).mailboxes = c.mailboxes := rfl
@[simp] theorem Chip.setCounter_sequences (c : Chip) (n : Nat) (r : Counter) : (c.setCounter n r).sequences = c.sequences := rfl
@[simp] theorem Chip.setCounter_blocks (c : Chip) (n : Nat) (r : Counter) : (c.setCounter n r).blocks = c.blocks := rfl
@[simp] theorem Chip.setCounter_releases (c : Chip) (n : Nat) (r : Counter) : (c.setCounter n r).releases = c.releases := rfl
@[simp] theorem Chip.setCounter_ports (c : Chip) (n : Nat) (r : Counter) : (c.setCounter n r).ports = c.ports := rfl
@[simp] theorem Chip.setCounter_routes (c : Chip) (n : Nat) (r : Counter) : (c.setCounter n r).routes = c.routes := rfl
@[simp] theorem Chip.setCounter_devSets (c : Chip) (n : Nat) (r : Counter) : (c.setCounter n r).devSets = c.devSets := rfl
@[simp] theorem Chip.setCounter_die0 (c : Chip) (n : Nat) (r : Counter) : (c.setCounter n r).die0 = c.die0 := rfl
@[simp] theorem Chip.setCounter_die1 (c : Chip) (n : Nat) (r : Counter) : (c.setCounter n r).die1 = c.die1 := rfl
@[simp] theorem Chip.setCounter_devid (c : Chip) (n : Nat) (r : Counter) : (c.setCounter n r).devid = c.devid := rfl
@[simp] theorem Chip.setCounter_hatomic (c : Chip) (n : Nat) (r : Counter) : (c.setCounter n r).hatomic = c.hatomic := rfl
@[simp] theorem Chip.setCounter_msix (c : Chip) (n : Nat) (r : Counter) : (c.setCounter n r).msix = c.msix := rfl
@[simp] theorem Chip.setCounter_fresh (c : Chip) (n : Nat) (r : Counter) : (c.setCounter n r).fresh = c.fresh := rfl
@[simp] theorem Chip.setCounter_nextId (c : Chip) (n : Nat) (r : Counter) : (c.setCounter n r).nextId = c.nextId := rfl

/-! ### Chip.onSoft -/

@[simp] theorem Chip.onSoft_cyc (c : Chip) (id : Nat) (f : Region → Region) : (c.onSoft id f).cyc = c.cyc := rfl
@[simp] theorem Chip.onSoft_groups (c : Chip) (id : Nat) (f : Region → Region) : (c.onSoft id f).groups = c.groups := rfl
@[simp] theorem Chip.onSoft_teams (c : Chip) (id : Nat) (f : Region → Region) : (c.onSoft id f).teams = c.teams := rfl
@[simp] theorem Chip.onSoft_launches (c : Chip) (id : Nat) (f : Region → Region) : (c.onSoft id f).launches = c.launches := rfl
@[simp] theorem Chip.onSoft_counters (c : Chip) (id : Nat) (f : Region → Region) : (c.onSoft id f).counters = c.counters := rfl
@[simp] theorem Chip.onSoft_liveKids (c : Chip) (id : Nat) (f : Region → Region) : (c.onSoft id f).liveKids = c.liveKids := rfl
@[simp] theorem Chip.onSoft_arenaPages (c : Chip) (id : Nat) (f : Region → Region) : (c.onSoft id f).arenaPages = c.arenaPages := rfl
@[simp] theorem Chip.onSoft_leaving (c : Chip) (id : Nat) (f : Region → Region) : (c.onSoft id f).leaving = c.leaving := rfl
@[simp] theorem Chip.onSoft_contexts (c : Chip) (id : Nat) (f : Region → Region) : (c.onSoft id f).contexts = c.contexts := rfl
@[simp] theorem Chip.onSoft_lastPlaced (c : Chip) (id : Nat) (f : Region → Region) : (c.onSoft id f).lastPlaced = c.lastPlaced := rfl
@[simp] theorem Chip.onSoft_uncleared (c : Chip) (id : Nat) (f : Region → Region) : (c.onSoft id f).uncleared = c.uncleared := rfl
@[simp] theorem Chip.onSoft_preempting (c : Chip) (id : Nat) (f : Region → Region) : (c.onSoft id f).preempting = c.preempting := rfl
@[simp] theorem Chip.onSoft_hadEvents (c : Chip) (id : Nat) (f : Region → Region) : (c.onSoft id f).hadEvents = c.hadEvents := rfl
@[simp] theorem Chip.onSoft_slots (c : Chip) (id : Nat) (f : Region → Region) : (c.onSoft id f).slots = c.slots := rfl
@[simp] theorem Chip.onSoft_mem (c : Chip) (id : Nat) (f : Region → Region) : (c.onSoft id f).mem = c.mem := rfl
@[simp] theorem Chip.onSoft_forms (c : Chip) (id : Nat) (f : Region → Region) : (c.onSoft id f).forms = c.forms := rfl
@[simp] theorem Chip.onSoft_owners (c : Chip) (id : Nat) (f : Region → Region) : (c.onSoft id f).owners = c.owners := rfl
@[simp] theorem Chip.onSoft_poison (c : Chip) (id : Nat) (f : Region → Region) : (c.onSoft id f).poison = c.poison := rfl
@[simp] theorem Chip.onSoft_l1 (c : Chip) (id : Nat) (f : Region → Region) : (c.onSoft id f).l1 = c.l1 := rfl
@[simp] theorem Chip.onSoft_l2 (c : Chip) (id : Nat) (f : Region → Region) : (c.onSoft id f).l2 = c.l2 := rfl
@[simp] theorem Chip.onSoft_victims (c : Chip) (id : Nat) (f : Region → Region) : (c.onSoft id f).victims = c.victims := rfl
@[simp] theorem Chip.onSoft_quench (c : Chip) (id : Nat) (f : Region → Region) : (c.onSoft id f).quench = c.quench := rfl
@[simp] theorem Chip.onSoft_tlb (c : Chip) (id : Nat) (f : Region → Region) : (c.onSoft id f).tlb = c.tlb := rfl
@[simp] theorem Chip.onSoft_icache (c : Chip) (id : Nat) (f : Region → Region) : (c.onSoft id f).icache = c.icache := rfl
@[simp] theorem Chip.onSoft_drains (c : Chip) (id : Nat) (f : Region → Region) : (c.onSoft id f).drains = c.drains := rfl
@[simp] theorem Chip.onSoft_atoms (c : Chip) (id : Nat) (f : Region → Region) : (c.onSoft id f).atoms = c.atoms := rfl
@[simp] theorem Chip.onSoft_held (c : Chip) (id : Nat) (f : Region → Region) : (c.onSoft id f).held = c.held := rfl
@[simp] theorem Chip.onSoft_fences (c : Chip) (id : Nat) (f : Region → Region) : (c.onSoft id f).fences = c.fences := rfl
@[simp] theorem Chip.onSoft_ops (c : Chip) (id : Nat) (f : Region → Region) : (c.onSoft id f).ops = c.ops := rfl
@[simp] theorem Chip.onSoft_parked (c : Chip) (id : Nat) (f : Region → Region) : (c.onSoft id f).parked = c.parked := rfl
@[simp] theorem Chip.onSoft_mailboxes (c : Chip) (id : Nat) (f : Region → Region) : (c.onSoft id f).mailboxes = c.mailboxes := rfl
@[simp] theorem Chip.onSoft_sequences (c : Chip) (id : Nat) (f : Region → Region) : (c.onSoft id f).sequences = c.sequences := rfl
@[simp] theorem Chip.onSoft_blocks (c : Chip) (id : Nat) (f : Region → Region) : (c.onSoft id f).blocks = c.blocks := rfl
@[simp] theorem Chip.onSoft_releases (c : Chip) (id : Nat) (f : Region → Region) : (c.onSoft id f).releases = c.releases := rfl
@[simp] theorem Chip.onSoft_ports (c : Chip) (id : Nat) (f : Region → Region) : (c.onSoft id f).ports = c.ports := rfl
@[simp] theorem Chip.onSoft_routes (c : Chip) (id : Nat) (f : Region → Region) : (c.onSoft id f).routes = c.routes := rfl
@[simp] theorem Chip.onSoft_devSets (c : Chip) (id : Nat) (f : Region → Region) : (c.onSoft id f).devSets = c.devSets := rfl
@[simp] theorem Chip.onSoft_die0 (c : Chip) (id : Nat) (f : Region → Region) : (c.onSoft id f).die0 = c.die0 := rfl
@[simp] theorem Chip.onSoft_die1 (c : Chip) (id : Nat) (f : Region → Region) : (c.onSoft id f).die1 = c.die1 := rfl
@[simp] theorem Chip.onSoft_devid (c : Chip) (id : Nat) (f : Region → Region) : (c.onSoft id f).devid = c.devid := rfl
@[simp] theorem Chip.onSoft_hatomic (c : Chip) (id : Nat) (f : Region → Region) : (c.onSoft id f).hatomic = c.hatomic := rfl
@[simp] theorem Chip.onSoft_msix (c : Chip) (id : Nat) (f : Region → Region) : (c.onSoft id f).msix = c.msix := rfl
@[simp] theorem Chip.onSoft_fresh (c : Chip) (id : Nat) (f : Region → Region) : (c.onSoft id f).fresh = c.fresh := rfl
@[simp] theorem Chip.onSoft_nextId (c : Chip) (id : Nat) (f : Region → Region) : (c.onSoft id f).nextId = c.nextId := rfl

/-! ### Chip.noteWhere -/

@[simp] theorem Chip.noteWhere_cyc (c : Chip) (p : Group → Bool) (r : Nat) (b : Option Nat) : (c.noteWhere p r b).cyc = c.cyc := rfl
@[simp] theorem Chip.noteWhere_teams (c : Chip) (p : Group → Bool) (r : Nat) (b : Option Nat) : (c.noteWhere p r b).teams = c.teams := rfl
@[simp] theorem Chip.noteWhere_launches (c : Chip) (p : Group → Bool) (r : Nat) (b : Option Nat) : (c.noteWhere p r b).launches = c.launches := rfl
@[simp] theorem Chip.noteWhere_counters (c : Chip) (p : Group → Bool) (r : Nat) (b : Option Nat) : (c.noteWhere p r b).counters = c.counters := rfl
@[simp] theorem Chip.noteWhere_liveKids (c : Chip) (p : Group → Bool) (r : Nat) (b : Option Nat) : (c.noteWhere p r b).liveKids = c.liveKids := rfl
@[simp] theorem Chip.noteWhere_arenaPages (c : Chip) (p : Group → Bool) (r : Nat) (b : Option Nat) : (c.noteWhere p r b).arenaPages = c.arenaPages := rfl
@[simp] theorem Chip.noteWhere_leaving (c : Chip) (p : Group → Bool) (r : Nat) (b : Option Nat) : (c.noteWhere p r b).leaving = c.leaving := rfl
@[simp] theorem Chip.noteWhere_contexts (c : Chip) (p : Group → Bool) (r : Nat) (b : Option Nat) : (c.noteWhere p r b).contexts = c.contexts := rfl
@[simp] theorem Chip.noteWhere_lastPlaced (c : Chip) (p : Group → Bool) (r : Nat) (b : Option Nat) : (c.noteWhere p r b).lastPlaced = c.lastPlaced := rfl
@[simp] theorem Chip.noteWhere_uncleared (c : Chip) (p : Group → Bool) (r : Nat) (b : Option Nat) : (c.noteWhere p r b).uncleared = c.uncleared := rfl
@[simp] theorem Chip.noteWhere_preempting (c : Chip) (p : Group → Bool) (r : Nat) (b : Option Nat) : (c.noteWhere p r b).preempting = c.preempting := rfl
@[simp] theorem Chip.noteWhere_hadEvents (c : Chip) (p : Group → Bool) (r : Nat) (b : Option Nat) : (c.noteWhere p r b).hadEvents = c.hadEvents := rfl
@[simp] theorem Chip.noteWhere_slots (c : Chip) (p : Group → Bool) (r : Nat) (b : Option Nat) : (c.noteWhere p r b).slots = c.slots := rfl
@[simp] theorem Chip.noteWhere_mem (c : Chip) (p : Group → Bool) (r : Nat) (b : Option Nat) : (c.noteWhere p r b).mem = c.mem := rfl
@[simp] theorem Chip.noteWhere_forms (c : Chip) (p : Group → Bool) (r : Nat) (b : Option Nat) : (c.noteWhere p r b).forms = c.forms := rfl
@[simp] theorem Chip.noteWhere_owners (c : Chip) (p : Group → Bool) (r : Nat) (b : Option Nat) : (c.noteWhere p r b).owners = c.owners := rfl
@[simp] theorem Chip.noteWhere_poison (c : Chip) (p : Group → Bool) (r : Nat) (b : Option Nat) : (c.noteWhere p r b).poison = c.poison := rfl
@[simp] theorem Chip.noteWhere_l1 (c : Chip) (p : Group → Bool) (r : Nat) (b : Option Nat) : (c.noteWhere p r b).l1 = c.l1 := rfl
@[simp] theorem Chip.noteWhere_l2 (c : Chip) (p : Group → Bool) (r : Nat) (b : Option Nat) : (c.noteWhere p r b).l2 = c.l2 := rfl
@[simp] theorem Chip.noteWhere_victims (c : Chip) (p : Group → Bool) (r : Nat) (b : Option Nat) : (c.noteWhere p r b).victims = c.victims := rfl
@[simp] theorem Chip.noteWhere_quench (c : Chip) (p : Group → Bool) (r : Nat) (b : Option Nat) : (c.noteWhere p r b).quench = c.quench := rfl
@[simp] theorem Chip.noteWhere_tlb (c : Chip) (p : Group → Bool) (r : Nat) (b : Option Nat) : (c.noteWhere p r b).tlb = c.tlb := rfl
@[simp] theorem Chip.noteWhere_icache (c : Chip) (p : Group → Bool) (r : Nat) (b : Option Nat) : (c.noteWhere p r b).icache = c.icache := rfl
@[simp] theorem Chip.noteWhere_drains (c : Chip) (p : Group → Bool) (r : Nat) (b : Option Nat) : (c.noteWhere p r b).drains = c.drains := rfl
@[simp] theorem Chip.noteWhere_atoms (c : Chip) (p : Group → Bool) (r : Nat) (b : Option Nat) : (c.noteWhere p r b).atoms = c.atoms := rfl
@[simp] theorem Chip.noteWhere_held (c : Chip) (p : Group → Bool) (r : Nat) (b : Option Nat) : (c.noteWhere p r b).held = c.held := rfl
@[simp] theorem Chip.noteWhere_fences (c : Chip) (p : Group → Bool) (r : Nat) (b : Option Nat) : (c.noteWhere p r b).fences = c.fences := rfl
@[simp] theorem Chip.noteWhere_ops (c : Chip) (p : Group → Bool) (r : Nat) (b : Option Nat) : (c.noteWhere p r b).ops = c.ops := rfl
@[simp] theorem Chip.noteWhere_parked (c : Chip) (p : Group → Bool) (r : Nat) (b : Option Nat) : (c.noteWhere p r b).parked = c.parked := rfl
@[simp] theorem Chip.noteWhere_regions (c : Chip) (p : Group → Bool) (r : Nat) (b : Option Nat) : (c.noteWhere p r b).regions = c.regions := rfl
@[simp] theorem Chip.noteWhere_mailboxes (c : Chip) (p : Group → Bool) (r : Nat) (b : Option Nat) : (c.noteWhere p r b).mailboxes = c.mailboxes := rfl
@[simp] theorem Chip.noteWhere_sequences (c : Chip) (p : Group → Bool) (r : Nat) (b : Option Nat) : (c.noteWhere p r b).sequences = c.sequences := rfl
@[simp] theorem Chip.noteWhere_blocks (c : Chip) (p : Group → Bool) (r : Nat) (b : Option Nat) : (c.noteWhere p r b).blocks = c.blocks := rfl
@[simp] theorem Chip.noteWhere_releases (c : Chip) (p : Group → Bool) (r : Nat) (b : Option Nat) : (c.noteWhere p r b).releases = c.releases := rfl
@[simp] theorem Chip.noteWhere_ports (c : Chip) (p : Group → Bool) (r : Nat) (b : Option Nat) : (c.noteWhere p r b).ports = c.ports := rfl
@[simp] theorem Chip.noteWhere_routes (c : Chip) (p : Group → Bool) (r : Nat) (b : Option Nat) : (c.noteWhere p r b).routes = c.routes := rfl
@[simp] theorem Chip.noteWhere_devSets (c : Chip) (p : Group → Bool) (r : Nat) (b : Option Nat) : (c.noteWhere p r b).devSets = c.devSets := rfl
@[simp] theorem Chip.noteWhere_die0 (c : Chip) (p : Group → Bool) (r : Nat) (b : Option Nat) : (c.noteWhere p r b).die0 = c.die0 := rfl
@[simp] theorem Chip.noteWhere_die1 (c : Chip) (p : Group → Bool) (r : Nat) (b : Option Nat) : (c.noteWhere p r b).die1 = c.die1 := rfl
@[simp] theorem Chip.noteWhere_devid (c : Chip) (p : Group → Bool) (r : Nat) (b : Option Nat) : (c.noteWhere p r b).devid = c.devid := rfl
@[simp] theorem Chip.noteWhere_hatomic (c : Chip) (p : Group → Bool) (r : Nat) (b : Option Nat) : (c.noteWhere p r b).hatomic = c.hatomic := rfl
@[simp] theorem Chip.noteWhere_msix (c : Chip) (p : Group → Bool) (r : Nat) (b : Option Nat) : (c.noteWhere p r b).msix = c.msix := rfl
@[simp] theorem Chip.noteWhere_fresh (c : Chip) (p : Group → Bool) (r : Nat) (b : Option Nat) : (c.noteWhere p r b).fresh = c.fresh := rfl
@[simp] theorem Chip.noteWhere_nextId (c : Chip) (p : Group → Bool) (r : Nat) (b : Option Nat) : (c.noteWhere p r b).nextId = c.nextId := rfl

/-! ### Chip.retry -/

@[simp] theorem Chip.retry_cyc (c : Chip) (gid : Nat) : (c.retry gid).cyc = c.cyc := rfl
@[simp] theorem Chip.retry_teams (c : Chip) (gid : Nat) : (c.retry gid).teams = c.teams := rfl
@[simp] theorem Chip.retry_launches (c : Chip) (gid : Nat) : (c.retry gid).launches = c.launches := rfl
@[simp] theorem Chip.retry_counters (c : Chip) (gid : Nat) : (c.retry gid).counters = c.counters := rfl
@[simp] theorem Chip.retry_liveKids (c : Chip) (gid : Nat) : (c.retry gid).liveKids = c.liveKids := rfl
@[simp] theorem Chip.retry_arenaPages (c : Chip) (gid : Nat) : (c.retry gid).arenaPages = c.arenaPages := rfl
@[simp] theorem Chip.retry_leaving (c : Chip) (gid : Nat) : (c.retry gid).leaving = c.leaving := rfl
@[simp] theorem Chip.retry_contexts (c : Chip) (gid : Nat) : (c.retry gid).contexts = c.contexts := rfl
@[simp] theorem Chip.retry_lastPlaced (c : Chip) (gid : Nat) : (c.retry gid).lastPlaced = c.lastPlaced := rfl
@[simp] theorem Chip.retry_uncleared (c : Chip) (gid : Nat) : (c.retry gid).uncleared = c.uncleared := rfl
@[simp] theorem Chip.retry_preempting (c : Chip) (gid : Nat) : (c.retry gid).preempting = c.preempting := rfl
@[simp] theorem Chip.retry_hadEvents (c : Chip) (gid : Nat) : (c.retry gid).hadEvents = c.hadEvents := rfl
@[simp] theorem Chip.retry_slots (c : Chip) (gid : Nat) : (c.retry gid).slots = c.slots := rfl
@[simp] theorem Chip.retry_mem (c : Chip) (gid : Nat) : (c.retry gid).mem = c.mem := rfl
@[simp] theorem Chip.retry_forms (c : Chip) (gid : Nat) : (c.retry gid).forms = c.forms := rfl
@[simp] theorem Chip.retry_owners (c : Chip) (gid : Nat) : (c.retry gid).owners = c.owners := rfl
@[simp] theorem Chip.retry_poison (c : Chip) (gid : Nat) : (c.retry gid).poison = c.poison := rfl
@[simp] theorem Chip.retry_l1 (c : Chip) (gid : Nat) : (c.retry gid).l1 = c.l1 := rfl
@[simp] theorem Chip.retry_l2 (c : Chip) (gid : Nat) : (c.retry gid).l2 = c.l2 := rfl
@[simp] theorem Chip.retry_victims (c : Chip) (gid : Nat) : (c.retry gid).victims = c.victims := rfl
@[simp] theorem Chip.retry_quench (c : Chip) (gid : Nat) : (c.retry gid).quench = c.quench := rfl
@[simp] theorem Chip.retry_tlb (c : Chip) (gid : Nat) : (c.retry gid).tlb = c.tlb := rfl
@[simp] theorem Chip.retry_icache (c : Chip) (gid : Nat) : (c.retry gid).icache = c.icache := rfl
@[simp] theorem Chip.retry_drains (c : Chip) (gid : Nat) : (c.retry gid).drains = c.drains := rfl
@[simp] theorem Chip.retry_atoms (c : Chip) (gid : Nat) : (c.retry gid).atoms = c.atoms := rfl
@[simp] theorem Chip.retry_held (c : Chip) (gid : Nat) : (c.retry gid).held = c.held := rfl
@[simp] theorem Chip.retry_fences (c : Chip) (gid : Nat) : (c.retry gid).fences = c.fences := rfl
@[simp] theorem Chip.retry_ops (c : Chip) (gid : Nat) : (c.retry gid).ops = c.ops := rfl
@[simp] theorem Chip.retry_parked (c : Chip) (gid : Nat) : (c.retry gid).parked = c.parked := rfl
@[simp] theorem Chip.retry_regions (c : Chip) (gid : Nat) : (c.retry gid).regions = c.regions := rfl
@[simp] theorem Chip.retry_mailboxes (c : Chip) (gid : Nat) : (c.retry gid).mailboxes = c.mailboxes := rfl
@[simp] theorem Chip.retry_sequences (c : Chip) (gid : Nat) : (c.retry gid).sequences = c.sequences := rfl
@[simp] theorem Chip.retry_blocks (c : Chip) (gid : Nat) : (c.retry gid).blocks = c.blocks := rfl
@[simp] theorem Chip.retry_releases (c : Chip) (gid : Nat) : (c.retry gid).releases = c.releases := rfl
@[simp] theorem Chip.retry_ports (c : Chip) (gid : Nat) : (c.retry gid).ports = c.ports := rfl
@[simp] theorem Chip.retry_routes (c : Chip) (gid : Nat) : (c.retry gid).routes = c.routes := rfl
@[simp] theorem Chip.retry_devSets (c : Chip) (gid : Nat) : (c.retry gid).devSets = c.devSets := rfl
@[simp] theorem Chip.retry_die0 (c : Chip) (gid : Nat) : (c.retry gid).die0 = c.die0 := rfl
@[simp] theorem Chip.retry_die1 (c : Chip) (gid : Nat) : (c.retry gid).die1 = c.die1 := rfl
@[simp] theorem Chip.retry_devid (c : Chip) (gid : Nat) : (c.retry gid).devid = c.devid := rfl
@[simp] theorem Chip.retry_hatomic (c : Chip) (gid : Nat) : (c.retry gid).hatomic = c.hatomic := rfl
@[simp] theorem Chip.retry_msix (c : Chip) (gid : Nat) : (c.retry gid).msix = c.msix := rfl
@[simp] theorem Chip.retry_fresh (c : Chip) (gid : Nat) : (c.retry gid).fresh = c.fresh := rfl
@[simp] theorem Chip.retry_nextId (c : Chip) (gid : Nat) : (c.retry gid).nextId = c.nextId := rfl

/-! ### Group.poke -/

@[simp] theorem Group.poke_id (g : Group) (r : RegName) (x : SMap W64) : (g.poke r x).id = g.id := by
  cases r <;> simp only [Group.poke] <;> (try split) <;> rfl
@[simp] theorem Group.poke_team (g : Group) (r : RegName) (x : SMap W64) : (g.poke r x).team = g.team := by
  cases r <;> simp only [Group.poke] <;> (try split) <;> rfl
@[simp] theorem Group.poke_grpidx (g : Group) (r : RegName) (x : SMap W64) : (g.poke r x).grpidx = g.grpidx := by
  cases r <;> simp only [Group.poke] <;> (try split) <;> rfl
@[simp] theorem Group.poke_slot (g : Group) (r : RegName) (x : SMap W64) : (g.poke r x).slot = g.slot := by
  cases r <;> simp only [Group.poke] <;> (try split) <;> rfl
@[simp] theorem Group.poke_slotIdx (g : Group) (r : RegName) (x : SMap W64) : (g.poke r x).slotIdx = g.slotIdx := by
  cases r <;> simp only [Group.poke] <;> (try split) <;> rfl
@[simp] theorem Group.poke_width (g : Group) (r : RegName) (x : SMap W64) : (g.poke r x).width = g.width := by
  cases r <;> simp only [Group.poke] <;> (try split) <;> rfl
@[simp] theorem Group.poke_lanes (g : Group) (r : RegName) (x : SMap W64) : (g.poke r x).lanes = g.lanes := by
  cases r <;> simp only [Group.poke] <;> (try split) <;> rfl
@[simp] theorem Group.poke_seg (g : Group) (r : RegName) (x : SMap W64) : (g.poke r x).seg = g.seg := by
  cases r <;> simp only [Group.poke] <;> (try split) <;> rfl
@[simp] theorem Group.poke_fst (g : Group) (r : RegName) (x : SMap W64) : (g.poke r x).fst = g.fst := by
  cases r <;> simp only [Group.poke] <;> (try split) <;> rfl
@[simp] theorem Group.poke_sbchk (g : Group) (r : RegName) (x : SMap W64) : (g.poke r x).sbchk = g.sbchk := by
  cases r <;> simp only [Group.poke] <;> (try split) <;> rfl
@[simp] theorem Group.poke_xcause (g : Group) (r : RegName) (x : SMap W64) : (g.poke r x).xcause = g.xcause := by
  cases r <;> simp only [Group.poke] <;> (try split) <;> rfl
@[simp] theorem Group.poke_xpc (g : Group) (r : RegName) (x : SMap W64) : (g.poke r x).xpc = g.xpc := by
  cases r <;> simp only [Group.poke] <;> (try split) <;> rfl
@[simp] theorem Group.poke_xval (g : Group) (r : RegName) (x : SMap W64) : (g.poke r x).xval = g.xval := by
  cases r <;> simp only [Group.poke] <;> (try split) <;> rfl
@[simp] theorem Group.poke_xmask (g : Group) (r : RegName) (x : SMap W64) : (g.poke r x).xmask = g.xmask := by
  cases r <;> simp only [Group.poke] <;> (try split) <;> rfl
@[simp] theorem Group.poke_inh (g : Group) (r : RegName) (x : SMap W64) : (g.poke r x).inh = g.inh := by
  cases r <;> simp only [Group.poke] <;> (try split) <;> rfl
@[simp] theorem Group.poke_hlanes (g : Group) (r : RegName) (x : SMap W64) : (g.poke r x).hlanes = g.hlanes := by
  cases r <;> simp only [Group.poke] <;> (try split) <;> rfl
@[simp] theorem Group.poke_wakeReason (g : Group) (r : RegName) (x : SMap W64) : (g.poke r x).wakeReason = g.wakeReason := by
  cases r <;> simp only [Group.poke] <;> (try split) <;> rfl
@[simp] theorem Group.poke_wakeGated (g : Group) (r : RegName) (x : SMap W64) : (g.poke r x).wakeGated = g.wakeGated := by
  cases r <;> simp only [Group.poke] <;> (try split) <;> rfl
@[simp] theorem Group.poke_starve (g : Group) (r : RegName) (x : SMap W64) : (g.poke r x).starve = g.starve := by
  cases r <;> simp only [Group.poke] <;> (try split) <;> rfl
@[simp] theorem Group.poke_counters (g : Group) (r : RegName) (x : SMap W64) : (g.poke r x).counters = g.counters := by
  cases r <;> simp only [Group.poke] <;> (try split) <;> rfl
@[simp] theorem Group.poke_status (g : Group) (r : RegName) (x : SMap W64) : (g.poke r x).status = g.status := by
  cases r <;> simp only [Group.poke] <;> (try split) <;> rfl
@[simp] theorem Group.poke_seq (g : Group) (r : RegName) (x : SMap W64) : (g.poke r x).seq = g.seq := by
  cases r <;> simp only [Group.poke] <;> (try split) <;> rfl
@[simp] theorem Group.poke_episodes (g : Group) (r : RegName) (x : SMap W64) : (g.poke r x).episodes = g.episodes := by
  cases r <;> simp only [Group.poke] <;> (try split) <;> rfl
@[simp] theorem Group.poke_sleeps (g : Group) (r : RegName) (x : SMap W64) : (g.poke r x).sleeps = g.sleeps := by
  cases r <;> simp only [Group.poke] <;> (try split) <;> rfl
@[simp] theorem Group.poke_lease (g : Group) (r : RegName) (x : SMap W64) : (g.poke r x).lease = g.lease := by
  cases r <;> simp only [Group.poke] <;> (try split) <;> rfl
@[simp] theorem Group.poke_pend (g : Group) (r : RegName) (x : SMap W64) : (g.poke r x).pend = g.pend := by
  cases r <;> simp only [Group.poke] <;> (try split) <;> rfl
@[simp] theorem Group.poke_dist (g : Group) (r : RegName) (x : SMap W64) : (g.poke r x).dist = g.dist := by
  cases r <;> simp only [Group.poke] <;> (try split) <;> rfl
@[simp] theorem Group.poke_busy (g : Group) (r : RegName) (x : SMap W64) : (g.poke r x).busy = g.busy := by
  cases r <;> simp only [Group.poke] <;> (try split) <;> rfl
@[simp] theorem Group.poke_due (g : Group) (r : RegName) (x : SMap W64) : (g.poke r x).due = g.due := by
  cases r <;> simp only [Group.poke] <;> (try split) <;> rfl
@[simp] theorem Group.poke_readyAt (g : Group) (r : RegName) (x : SMap W64) : (g.poke r x).readyAt = g.readyAt := by
  cases r <;> simp only [Group.poke] <;> (try split) <;> rfl
@[simp] theorem Group.poke_wait (g : Group) (r : RegName) (x : SMap W64) : (g.poke r x).wait = g.wait := by
  cases r <;> simp only [Group.poke] <;> (try split) <;> rfl
@[simp] theorem Group.poke_pendTraps (g : Group) (r : RegName) (x : SMap W64) : (g.poke r x).pendTraps = g.pendTraps := by
  cases r <;> simp only [Group.poke] <;> (try split) <;> rfl
@[simp] theorem Group.poke_fwOut (g : Group) (r : RegName) (x : SMap W64) : (g.poke r x).fwOut = g.fwOut := by
  cases r <;> simp only [Group.poke] <;> (try split) <;> rfl
@[simp] theorem Group.poke_begun (g : Group) (r : RegName) (x : SMap W64) : (g.poke r x).begun = g.begun := by
  cases r <;> simp only [Group.poke] <;> (try split) <;> rfl
@[simp] theorem Group.poke_fixedBy (g : Group) (r : RegName) (x : SMap W64) : (g.poke r x).fixedBy = g.fixedBy := by
  cases r <;> simp only [Group.poke] <;> (try split) <;> rfl

/-! ### Group.pokeAll -/

@[simp] theorem Group.pokeAll_id (g : Group) (ps : List PendWrite) : (g.pokeAll ps).id = g.id := by
  unfold Group.pokeAll; induction ps generalizing g with
  | nil => rfl
  | cons p ps ih => simp only [List.foldl_cons, ih, Group.poke_id]
@[simp] theorem Group.pokeAll_team (g : Group) (ps : List PendWrite) : (g.pokeAll ps).team = g.team := by
  unfold Group.pokeAll; induction ps generalizing g with
  | nil => rfl
  | cons p ps ih => simp only [List.foldl_cons, ih, Group.poke_team]
@[simp] theorem Group.pokeAll_grpidx (g : Group) (ps : List PendWrite) : (g.pokeAll ps).grpidx = g.grpidx := by
  unfold Group.pokeAll; induction ps generalizing g with
  | nil => rfl
  | cons p ps ih => simp only [List.foldl_cons, ih, Group.poke_grpidx]
@[simp] theorem Group.pokeAll_slot (g : Group) (ps : List PendWrite) : (g.pokeAll ps).slot = g.slot := by
  unfold Group.pokeAll; induction ps generalizing g with
  | nil => rfl
  | cons p ps ih => simp only [List.foldl_cons, ih, Group.poke_slot]
@[simp] theorem Group.pokeAll_slotIdx (g : Group) (ps : List PendWrite) : (g.pokeAll ps).slotIdx = g.slotIdx := by
  unfold Group.pokeAll; induction ps generalizing g with
  | nil => rfl
  | cons p ps ih => simp only [List.foldl_cons, ih, Group.poke_slotIdx]
@[simp] theorem Group.pokeAll_width (g : Group) (ps : List PendWrite) : (g.pokeAll ps).width = g.width := by
  unfold Group.pokeAll; induction ps generalizing g with
  | nil => rfl
  | cons p ps ih => simp only [List.foldl_cons, ih, Group.poke_width]
@[simp] theorem Group.pokeAll_lanes (g : Group) (ps : List PendWrite) : (g.pokeAll ps).lanes = g.lanes := by
  unfold Group.pokeAll; induction ps generalizing g with
  | nil => rfl
  | cons p ps ih => simp only [List.foldl_cons, ih, Group.poke_lanes]
@[simp] theorem Group.pokeAll_seg (g : Group) (ps : List PendWrite) : (g.pokeAll ps).seg = g.seg := by
  unfold Group.pokeAll; induction ps generalizing g with
  | nil => rfl
  | cons p ps ih => simp only [List.foldl_cons, ih, Group.poke_seg]
@[simp] theorem Group.pokeAll_fst (g : Group) (ps : List PendWrite) : (g.pokeAll ps).fst = g.fst := by
  unfold Group.pokeAll; induction ps generalizing g with
  | nil => rfl
  | cons p ps ih => simp only [List.foldl_cons, ih, Group.poke_fst]
@[simp] theorem Group.pokeAll_sbchk (g : Group) (ps : List PendWrite) : (g.pokeAll ps).sbchk = g.sbchk := by
  unfold Group.pokeAll; induction ps generalizing g with
  | nil => rfl
  | cons p ps ih => simp only [List.foldl_cons, ih, Group.poke_sbchk]
@[simp] theorem Group.pokeAll_xcause (g : Group) (ps : List PendWrite) : (g.pokeAll ps).xcause = g.xcause := by
  unfold Group.pokeAll; induction ps generalizing g with
  | nil => rfl
  | cons p ps ih => simp only [List.foldl_cons, ih, Group.poke_xcause]
@[simp] theorem Group.pokeAll_xpc (g : Group) (ps : List PendWrite) : (g.pokeAll ps).xpc = g.xpc := by
  unfold Group.pokeAll; induction ps generalizing g with
  | nil => rfl
  | cons p ps ih => simp only [List.foldl_cons, ih, Group.poke_xpc]
@[simp] theorem Group.pokeAll_xval (g : Group) (ps : List PendWrite) : (g.pokeAll ps).xval = g.xval := by
  unfold Group.pokeAll; induction ps generalizing g with
  | nil => rfl
  | cons p ps ih => simp only [List.foldl_cons, ih, Group.poke_xval]
@[simp] theorem Group.pokeAll_xmask (g : Group) (ps : List PendWrite) : (g.pokeAll ps).xmask = g.xmask := by
  unfold Group.pokeAll; induction ps generalizing g with
  | nil => rfl
  | cons p ps ih => simp only [List.foldl_cons, ih, Group.poke_xmask]
@[simp] theorem Group.pokeAll_inh (g : Group) (ps : List PendWrite) : (g.pokeAll ps).inh = g.inh := by
  unfold Group.pokeAll; induction ps generalizing g with
  | nil => rfl
  | cons p ps ih => simp only [List.foldl_cons, ih, Group.poke_inh]
@[simp] theorem Group.pokeAll_hlanes (g : Group) (ps : List PendWrite) : (g.pokeAll ps).hlanes = g.hlanes := by
  unfold Group.pokeAll; induction ps generalizing g with
  | nil => rfl
  | cons p ps ih => simp only [List.foldl_cons, ih, Group.poke_hlanes]
@[simp] theorem Group.pokeAll_wakeReason (g : Group) (ps : List PendWrite) : (g.pokeAll ps).wakeReason = g.wakeReason := by
  unfold Group.pokeAll; induction ps generalizing g with
  | nil => rfl
  | cons p ps ih => simp only [List.foldl_cons, ih, Group.poke_wakeReason]
@[simp] theorem Group.pokeAll_wakeGated (g : Group) (ps : List PendWrite) : (g.pokeAll ps).wakeGated = g.wakeGated := by
  unfold Group.pokeAll; induction ps generalizing g with
  | nil => rfl
  | cons p ps ih => simp only [List.foldl_cons, ih, Group.poke_wakeGated]
@[simp] theorem Group.pokeAll_starve (g : Group) (ps : List PendWrite) : (g.pokeAll ps).starve = g.starve := by
  unfold Group.pokeAll; induction ps generalizing g with
  | nil => rfl
  | cons p ps ih => simp only [List.foldl_cons, ih, Group.poke_starve]
@[simp] theorem Group.pokeAll_counters (g : Group) (ps : List PendWrite) : (g.pokeAll ps).counters = g.counters := by
  unfold Group.pokeAll; induction ps generalizing g with
  | nil => rfl
  | cons p ps ih => simp only [List.foldl_cons, ih, Group.poke_counters]
@[simp] theorem Group.pokeAll_status (g : Group) (ps : List PendWrite) : (g.pokeAll ps).status = g.status := by
  unfold Group.pokeAll; induction ps generalizing g with
  | nil => rfl
  | cons p ps ih => simp only [List.foldl_cons, ih, Group.poke_status]
@[simp] theorem Group.pokeAll_seq (g : Group) (ps : List PendWrite) : (g.pokeAll ps).seq = g.seq := by
  unfold Group.pokeAll; induction ps generalizing g with
  | nil => rfl
  | cons p ps ih => simp only [List.foldl_cons, ih, Group.poke_seq]
@[simp] theorem Group.pokeAll_episodes (g : Group) (ps : List PendWrite) : (g.pokeAll ps).episodes = g.episodes := by
  unfold Group.pokeAll; induction ps generalizing g with
  | nil => rfl
  | cons p ps ih => simp only [List.foldl_cons, ih, Group.poke_episodes]
@[simp] theorem Group.pokeAll_sleeps (g : Group) (ps : List PendWrite) : (g.pokeAll ps).sleeps = g.sleeps := by
  unfold Group.pokeAll; induction ps generalizing g with
  | nil => rfl
  | cons p ps ih => simp only [List.foldl_cons, ih, Group.poke_sleeps]
@[simp] theorem Group.pokeAll_lease (g : Group) (ps : List PendWrite) : (g.pokeAll ps).lease = g.lease := by
  unfold Group.pokeAll; induction ps generalizing g with
  | nil => rfl
  | cons p ps ih => simp only [List.foldl_cons, ih, Group.poke_lease]
@[simp] theorem Group.pokeAll_pend (g : Group) (ps : List PendWrite) : (g.pokeAll ps).pend = g.pend := by
  unfold Group.pokeAll; induction ps generalizing g with
  | nil => rfl
  | cons p ps ih => simp only [List.foldl_cons, ih, Group.poke_pend]
@[simp] theorem Group.pokeAll_dist (g : Group) (ps : List PendWrite) : (g.pokeAll ps).dist = g.dist := by
  unfold Group.pokeAll; induction ps generalizing g with
  | nil => rfl
  | cons p ps ih => simp only [List.foldl_cons, ih, Group.poke_dist]
@[simp] theorem Group.pokeAll_busy (g : Group) (ps : List PendWrite) : (g.pokeAll ps).busy = g.busy := by
  unfold Group.pokeAll; induction ps generalizing g with
  | nil => rfl
  | cons p ps ih => simp only [List.foldl_cons, ih, Group.poke_busy]
@[simp] theorem Group.pokeAll_due (g : Group) (ps : List PendWrite) : (g.pokeAll ps).due = g.due := by
  unfold Group.pokeAll; induction ps generalizing g with
  | nil => rfl
  | cons p ps ih => simp only [List.foldl_cons, ih, Group.poke_due]
@[simp] theorem Group.pokeAll_readyAt (g : Group) (ps : List PendWrite) : (g.pokeAll ps).readyAt = g.readyAt := by
  unfold Group.pokeAll; induction ps generalizing g with
  | nil => rfl
  | cons p ps ih => simp only [List.foldl_cons, ih, Group.poke_readyAt]
@[simp] theorem Group.pokeAll_wait (g : Group) (ps : List PendWrite) : (g.pokeAll ps).wait = g.wait := by
  unfold Group.pokeAll; induction ps generalizing g with
  | nil => rfl
  | cons p ps ih => simp only [List.foldl_cons, ih, Group.poke_wait]
@[simp] theorem Group.pokeAll_pendTraps (g : Group) (ps : List PendWrite) : (g.pokeAll ps).pendTraps = g.pendTraps := by
  unfold Group.pokeAll; induction ps generalizing g with
  | nil => rfl
  | cons p ps ih => simp only [List.foldl_cons, ih, Group.poke_pendTraps]
@[simp] theorem Group.pokeAll_fwOut (g : Group) (ps : List PendWrite) : (g.pokeAll ps).fwOut = g.fwOut := by
  unfold Group.pokeAll; induction ps generalizing g with
  | nil => rfl
  | cons p ps ih => simp only [List.foldl_cons, ih, Group.poke_fwOut]
@[simp] theorem Group.pokeAll_begun (g : Group) (ps : List PendWrite) : (g.pokeAll ps).begun = g.begun := by
  unfold Group.pokeAll; induction ps generalizing g with
  | nil => rfl
  | cons p ps ih => simp only [List.foldl_cons, ih, Group.poke_begun]
@[simp] theorem Group.pokeAll_fixedBy (g : Group) (ps : List PendWrite) : (g.pokeAll ps).fixedBy = g.fixedBy := by
  unfold Group.pokeAll; induction ps generalizing g with
  | nil => rfl
  | cons p ps ih => simp only [List.foldl_cons, ih, Group.poke_fixedBy]

/-! ### Group.commit -/

@[simp] theorem Group.commit_id (g : Group) (n : Nat) : (g.commit n).id = g.id := by
  simp [Group.commit]
@[simp] theorem Group.commit_team (g : Group) (n : Nat) : (g.commit n).team = g.team := by
  simp [Group.commit]
@[simp] theorem Group.commit_grpidx (g : Group) (n : Nat) : (g.commit n).grpidx = g.grpidx := by
  simp [Group.commit]
@[simp] theorem Group.commit_slot (g : Group) (n : Nat) : (g.commit n).slot = g.slot := by
  simp [Group.commit]
@[simp] theorem Group.commit_slotIdx (g : Group) (n : Nat) : (g.commit n).slotIdx = g.slotIdx := by
  simp [Group.commit]
@[simp] theorem Group.commit_width (g : Group) (n : Nat) : (g.commit n).width = g.width := by
  simp [Group.commit]
@[simp] theorem Group.commit_lanes (g : Group) (n : Nat) : (g.commit n).lanes = g.lanes := by
  simp [Group.commit]
@[simp] theorem Group.commit_seg (g : Group) (n : Nat) : (g.commit n).seg = g.seg := by
  simp [Group.commit]
@[simp] theorem Group.commit_fst (g : Group) (n : Nat) : (g.commit n).fst = g.fst := by
  simp [Group.commit]
@[simp] theorem Group.commit_sbchk (g : Group) (n : Nat) : (g.commit n).sbchk = g.sbchk := by
  simp [Group.commit]
@[simp] theorem Group.commit_xcause (g : Group) (n : Nat) : (g.commit n).xcause = g.xcause := by
  simp [Group.commit]
@[simp] theorem Group.commit_xpc (g : Group) (n : Nat) : (g.commit n).xpc = g.xpc := by
  simp [Group.commit]
@[simp] theorem Group.commit_xval (g : Group) (n : Nat) : (g.commit n).xval = g.xval := by
  simp [Group.commit]
@[simp] theorem Group.commit_xmask (g : Group) (n : Nat) : (g.commit n).xmask = g.xmask := by
  simp [Group.commit]
@[simp] theorem Group.commit_inh (g : Group) (n : Nat) : (g.commit n).inh = g.inh := by
  simp [Group.commit]
@[simp] theorem Group.commit_hlanes (g : Group) (n : Nat) : (g.commit n).hlanes = g.hlanes := by
  simp [Group.commit]
@[simp] theorem Group.commit_wakeReason (g : Group) (n : Nat) : (g.commit n).wakeReason = g.wakeReason := by
  simp [Group.commit]
@[simp] theorem Group.commit_wakeGated (g : Group) (n : Nat) : (g.commit n).wakeGated = g.wakeGated := by
  simp [Group.commit]
@[simp] theorem Group.commit_starve (g : Group) (n : Nat) : (g.commit n).starve = g.starve := by
  simp [Group.commit]
@[simp] theorem Group.commit_counters (g : Group) (n : Nat) : (g.commit n).counters = g.counters := by
  simp [Group.commit]
@[simp] theorem Group.commit_status (g : Group) (n : Nat) : (g.commit n).status = g.status := by
  simp [Group.commit]
@[simp] theorem Group.commit_seq (g : Group) (n : Nat) : (g.commit n).seq = g.seq := by
  simp [Group.commit]
@[simp] theorem Group.commit_episodes (g : Group) (n : Nat) : (g.commit n).episodes = g.episodes := by
  simp [Group.commit]
@[simp] theorem Group.commit_sleeps (g : Group) (n : Nat) : (g.commit n).sleeps = g.sleeps := by
  simp [Group.commit]
@[simp] theorem Group.commit_lease (g : Group) (n : Nat) : (g.commit n).lease = g.lease := by
  simp [Group.commit]
@[simp] theorem Group.commit_dist (g : Group) (n : Nat) : (g.commit n).dist = g.dist := by
  simp [Group.commit]
@[simp] theorem Group.commit_busy (g : Group) (n : Nat) : (g.commit n).busy = g.busy := by
  simp [Group.commit]
@[simp] theorem Group.commit_due (g : Group) (n : Nat) : (g.commit n).due = g.due := by
  simp [Group.commit]
@[simp] theorem Group.commit_readyAt (g : Group) (n : Nat) : (g.commit n).readyAt = g.readyAt := by
  simp [Group.commit]
@[simp] theorem Group.commit_wait (g : Group) (n : Nat) : (g.commit n).wait = g.wait := by
  simp [Group.commit]
@[simp] theorem Group.commit_pendTraps (g : Group) (n : Nat) : (g.commit n).pendTraps = g.pendTraps := by
  simp [Group.commit]
@[simp] theorem Group.commit_fwOut (g : Group) (n : Nat) : (g.commit n).fwOut = g.fwOut := by
  simp [Group.commit]
@[simp] theorem Group.commit_begun (g : Group) (n : Nat) : (g.commit n).begun = g.begun := by
  simp [Group.commit]
@[simp] theorem Group.commit_fixedBy (g : Group) (n : Nat) : (g.commit n).fixedBy = g.fixedBy := by
  simp [Group.commit]

/-! ### Group.commitAll -/

@[simp] theorem Group.commitAll_id (g : Group)  : (g.commitAll).id = g.id := by
  simp [Group.commitAll]
@[simp] theorem Group.commitAll_team (g : Group)  : (g.commitAll).team = g.team := by
  simp [Group.commitAll]
@[simp] theorem Group.commitAll_grpidx (g : Group)  : (g.commitAll).grpidx = g.grpidx := by
  simp [Group.commitAll]
@[simp] theorem Group.commitAll_slot (g : Group)  : (g.commitAll).slot = g.slot := by
  simp [Group.commitAll]
@[simp] theorem Group.commitAll_slotIdx (g : Group)  : (g.commitAll).slotIdx = g.slotIdx := by
  simp [Group.commitAll]
@[simp] theorem Group.commitAll_width (g : Group)  : (g.commitAll).width = g.width := by
  simp [Group.commitAll]
@[simp] theorem Group.commitAll_lanes (g : Group)  : (g.commitAll).lanes = g.lanes := by
  simp [Group.commitAll]
@[simp] theorem Group.commitAll_seg (g : Group)  : (g.commitAll).seg = g.seg := by
  simp [Group.commitAll]
@[simp] theorem Group.commitAll_fst (g : Group)  : (g.commitAll).fst = g.fst := by
  simp [Group.commitAll]
@[simp] theorem Group.commitAll_sbchk (g : Group)  : (g.commitAll).sbchk = g.sbchk := by
  simp [Group.commitAll]
@[simp] theorem Group.commitAll_xcause (g : Group)  : (g.commitAll).xcause = g.xcause := by
  simp [Group.commitAll]
@[simp] theorem Group.commitAll_xpc (g : Group)  : (g.commitAll).xpc = g.xpc := by
  simp [Group.commitAll]
@[simp] theorem Group.commitAll_xval (g : Group)  : (g.commitAll).xval = g.xval := by
  simp [Group.commitAll]
@[simp] theorem Group.commitAll_xmask (g : Group)  : (g.commitAll).xmask = g.xmask := by
  simp [Group.commitAll]
@[simp] theorem Group.commitAll_inh (g : Group)  : (g.commitAll).inh = g.inh := by
  simp [Group.commitAll]
@[simp] theorem Group.commitAll_hlanes (g : Group)  : (g.commitAll).hlanes = g.hlanes := by
  simp [Group.commitAll]
@[simp] theorem Group.commitAll_wakeReason (g : Group)  : (g.commitAll).wakeReason = g.wakeReason := by
  simp [Group.commitAll]
@[simp] theorem Group.commitAll_wakeGated (g : Group)  : (g.commitAll).wakeGated = g.wakeGated := by
  simp [Group.commitAll]
@[simp] theorem Group.commitAll_starve (g : Group)  : (g.commitAll).starve = g.starve := by
  simp [Group.commitAll]
@[simp] theorem Group.commitAll_counters (g : Group)  : (g.commitAll).counters = g.counters := by
  simp [Group.commitAll]
@[simp] theorem Group.commitAll_status (g : Group)  : (g.commitAll).status = g.status := by
  simp [Group.commitAll]
@[simp] theorem Group.commitAll_seq (g : Group)  : (g.commitAll).seq = g.seq := by
  simp [Group.commitAll]
@[simp] theorem Group.commitAll_episodes (g : Group)  : (g.commitAll).episodes = g.episodes := by
  simp [Group.commitAll]
@[simp] theorem Group.commitAll_sleeps (g : Group)  : (g.commitAll).sleeps = g.sleeps := by
  simp [Group.commitAll]
@[simp] theorem Group.commitAll_lease (g : Group)  : (g.commitAll).lease = g.lease := by
  simp [Group.commitAll]
@[simp] theorem Group.commitAll_dist (g : Group)  : (g.commitAll).dist = g.dist := by
  simp [Group.commitAll]
@[simp] theorem Group.commitAll_busy (g : Group)  : (g.commitAll).busy = g.busy := by
  simp [Group.commitAll]
@[simp] theorem Group.commitAll_due (g : Group)  : (g.commitAll).due = g.due := by
  simp [Group.commitAll]
@[simp] theorem Group.commitAll_readyAt (g : Group)  : (g.commitAll).readyAt = g.readyAt := by
  simp [Group.commitAll]
@[simp] theorem Group.commitAll_wait (g : Group)  : (g.commitAll).wait = g.wait := by
  simp [Group.commitAll]
@[simp] theorem Group.commitAll_pendTraps (g : Group)  : (g.commitAll).pendTraps = g.pendTraps := by
  simp [Group.commitAll]
@[simp] theorem Group.commitAll_fwOut (g : Group)  : (g.commitAll).fwOut = g.fwOut := by
  simp [Group.commitAll]
@[simp] theorem Group.commitAll_begun (g : Group)  : (g.commitAll).begun = g.begun := by
  simp [Group.commitAll]
@[simp] theorem Group.commitAll_fixedBy (g : Group)  : (g.commitAll).fixedBy = g.fixedBy := by
  simp [Group.commitAll]

/-! ### Group.forget -/

@[simp] theorem Group.forget_id (g : Group) (r : RegName) (x : SMap W64) : (g.forget r x).id = g.id := rfl
@[simp] theorem Group.forget_team (g : Group) (r : RegName) (x : SMap W64) : (g.forget r x).team = g.team := rfl
@[simp] theorem Group.forget_grpidx (g : Group) (r : RegName) (x : SMap W64) : (g.forget r x).grpidx = g.grpidx := rfl
@[simp] theorem Group.forget_slot (g : Group) (r : RegName) (x : SMap W64) : (g.forget r x).slot = g.slot := rfl
@[simp] theorem Group.forget_slotIdx (g : Group) (r : RegName) (x : SMap W64) : (g.forget r x).slotIdx = g.slotIdx := rfl
@[simp] theorem Group.forget_width (g : Group) (r : RegName) (x : SMap W64) : (g.forget r x).width = g.width := rfl
@[simp] theorem Group.forget_v (g : Group) (r : RegName) (x : SMap W64) : (g.forget r x).v = g.v := rfl
@[simp] theorem Group.forget_s (g : Group) (r : RegName) (x : SMap W64) : (g.forget r x).s = g.s := rfl
@[simp] theorem Group.forget_m (g : Group) (r : RegName) (x : SMap W64) : (g.forget r x).m = g.m := rfl
@[simp] theorem Group.forget_j (g : Group) (r : RegName) (x : SMap W64) : (g.forget r x).j = g.j := rfl
@[simp] theorem Group.forget_k (g : Group) (r : RegName) (x : SMap W64) : (g.forget r x).k = g.k := rfl
@[simp] theorem Group.forget_lanes (g : Group) (r : RegName) (x : SMap W64) : (g.forget r x).lanes = g.lanes := rfl
@[simp] theorem Group.forget_seg (g : Group) (r : RegName) (x : SMap W64) : (g.forget r x).seg = g.seg := rfl
@[simp] theorem Group.forget_fst (g : Group) (r : RegName) (x : SMap W64) : (g.forget r x).fst = g.fst := rfl
@[simp] theorem Group.forget_sbchk (g : Group) (r : RegName) (x : SMap W64) : (g.forget r x).sbchk = g.sbchk := rfl
@[simp] theorem Group.forget_xcause (g : Group) (r : RegName) (x : SMap W64) : (g.forget r x).xcause = g.xcause := rfl
@[simp] theorem Group.forget_xpc (g : Group) (r : RegName) (x : SMap W64) : (g.forget r x).xpc = g.xpc := rfl
@[simp] theorem Group.forget_xval (g : Group) (r : RegName) (x : SMap W64) : (g.forget r x).xval = g.xval := rfl
@[simp] theorem Group.forget_xmask (g : Group) (r : RegName) (x : SMap W64) : (g.forget r x).xmask = g.xmask := rfl
@[simp] theorem Group.forget_inh (g : Group) (r : RegName) (x : SMap W64) : (g.forget r x).inh = g.inh := rfl
@[simp] theorem Group.forget_hlanes (g : Group) (r : RegName) (x : SMap W64) : (g.forget r x).hlanes = g.hlanes := rfl
@[simp] theorem Group.forget_wakeReason (g : Group) (r : RegName) (x : SMap W64) : (g.forget r x).wakeReason = g.wakeReason := rfl
@[simp] theorem Group.forget_wakeGated (g : Group) (r : RegName) (x : SMap W64) : (g.forget r x).wakeGated = g.wakeGated := rfl
@[simp] theorem Group.forget_starve (g : Group) (r : RegName) (x : SMap W64) : (g.forget r x).starve = g.starve := rfl
@[simp] theorem Group.forget_counters (g : Group) (r : RegName) (x : SMap W64) : (g.forget r x).counters = g.counters := rfl
@[simp] theorem Group.forget_status (g : Group) (r : RegName) (x : SMap W64) : (g.forget r x).status = g.status := rfl
@[simp] theorem Group.forget_seq (g : Group) (r : RegName) (x : SMap W64) : (g.forget r x).seq = g.seq := rfl
@[simp] theorem Group.forget_episodes (g : Group) (r : RegName) (x : SMap W64) : (g.forget r x).episodes = g.episodes := rfl
@[simp] theorem Group.forget_sleeps (g : Group) (r : RegName) (x : SMap W64) : (g.forget r x).sleeps = g.sleeps := rfl
@[simp] theorem Group.forget_lease (g : Group) (r : RegName) (x : SMap W64) : (g.forget r x).lease = g.lease := rfl
@[simp] theorem Group.forget_dist (g : Group) (r : RegName) (x : SMap W64) : (g.forget r x).dist = g.dist := rfl
@[simp] theorem Group.forget_busy (g : Group) (r : RegName) (x : SMap W64) : (g.forget r x).busy = g.busy := rfl
@[simp] theorem Group.forget_due (g : Group) (r : RegName) (x : SMap W64) : (g.forget r x).due = g.due := rfl
@[simp] theorem Group.forget_readyAt (g : Group) (r : RegName) (x : SMap W64) : (g.forget r x).readyAt = g.readyAt := rfl
@[simp] theorem Group.forget_wait (g : Group) (r : RegName) (x : SMap W64) : (g.forget r x).wait = g.wait := rfl
@[simp] theorem Group.forget_pendTraps (g : Group) (r : RegName) (x : SMap W64) : (g.forget r x).pendTraps = g.pendTraps := rfl
@[simp] theorem Group.forget_fwOut (g : Group) (r : RegName) (x : SMap W64) : (g.forget r x).fwOut = g.fwOut := rfl
@[simp] theorem Group.forget_begun (g : Group) (r : RegName) (x : SMap W64) : (g.forget r x).begun = g.begun := rfl
@[simp] theorem Group.forget_fixedBy (g : Group) (r : RegName) (x : SMap W64) : (g.forget r x).fixedBy = g.fixedBy := rfl

/-! ### Group.write -/

@[simp] theorem Group.write_id (g : Group) (p l : Nat) (r : RegName) (x : SMap W64) : (g.write p l r x).id = g.id := by
  unfold Group.write; split <;> simp
@[simp] theorem Group.write_team (g : Group) (p l : Nat) (r : RegName) (x : SMap W64) : (g.write p l r x).team = g.team := by
  unfold Group.write; split <;> simp
@[simp] theorem Group.write_grpidx (g : Group) (p l : Nat) (r : RegName) (x : SMap W64) : (g.write p l r x).grpidx = g.grpidx := by
  unfold Group.write; split <;> simp
@[simp] theorem Group.write_slot (g : Group) (p l : Nat) (r : RegName) (x : SMap W64) : (g.write p l r x).slot = g.slot := by
  unfold Group.write; split <;> simp
@[simp] theorem Group.write_slotIdx (g : Group) (p l : Nat) (r : RegName) (x : SMap W64) : (g.write p l r x).slotIdx = g.slotIdx := by
  unfold Group.write; split <;> simp
@[simp] theorem Group.write_width (g : Group) (p l : Nat) (r : RegName) (x : SMap W64) : (g.write p l r x).width = g.width := by
  unfold Group.write; split <;> simp
@[simp] theorem Group.write_lanes (g : Group) (p l : Nat) (r : RegName) (x : SMap W64) : (g.write p l r x).lanes = g.lanes := by
  unfold Group.write; split <;> simp
@[simp] theorem Group.write_seg (g : Group) (p l : Nat) (r : RegName) (x : SMap W64) : (g.write p l r x).seg = g.seg := by
  unfold Group.write; split <;> simp
@[simp] theorem Group.write_fst (g : Group) (p l : Nat) (r : RegName) (x : SMap W64) : (g.write p l r x).fst = g.fst := by
  unfold Group.write; split <;> simp
@[simp] theorem Group.write_sbchk (g : Group) (p l : Nat) (r : RegName) (x : SMap W64) : (g.write p l r x).sbchk = g.sbchk := by
  unfold Group.write; split <;> simp
@[simp] theorem Group.write_xcause (g : Group) (p l : Nat) (r : RegName) (x : SMap W64) : (g.write p l r x).xcause = g.xcause := by
  unfold Group.write; split <;> simp
@[simp] theorem Group.write_xpc (g : Group) (p l : Nat) (r : RegName) (x : SMap W64) : (g.write p l r x).xpc = g.xpc := by
  unfold Group.write; split <;> simp
@[simp] theorem Group.write_xval (g : Group) (p l : Nat) (r : RegName) (x : SMap W64) : (g.write p l r x).xval = g.xval := by
  unfold Group.write; split <;> simp
@[simp] theorem Group.write_xmask (g : Group) (p l : Nat) (r : RegName) (x : SMap W64) : (g.write p l r x).xmask = g.xmask := by
  unfold Group.write; split <;> simp
@[simp] theorem Group.write_inh (g : Group) (p l : Nat) (r : RegName) (x : SMap W64) : (g.write p l r x).inh = g.inh := by
  unfold Group.write; split <;> simp
@[simp] theorem Group.write_hlanes (g : Group) (p l : Nat) (r : RegName) (x : SMap W64) : (g.write p l r x).hlanes = g.hlanes := by
  unfold Group.write; split <;> simp
@[simp] theorem Group.write_wakeReason (g : Group) (p l : Nat) (r : RegName) (x : SMap W64) : (g.write p l r x).wakeReason = g.wakeReason := by
  unfold Group.write; split <;> simp
@[simp] theorem Group.write_wakeGated (g : Group) (p l : Nat) (r : RegName) (x : SMap W64) : (g.write p l r x).wakeGated = g.wakeGated := by
  unfold Group.write; split <;> simp
@[simp] theorem Group.write_starve (g : Group) (p l : Nat) (r : RegName) (x : SMap W64) : (g.write p l r x).starve = g.starve := by
  unfold Group.write; split <;> simp
@[simp] theorem Group.write_counters (g : Group) (p l : Nat) (r : RegName) (x : SMap W64) : (g.write p l r x).counters = g.counters := by
  unfold Group.write; split <;> simp
@[simp] theorem Group.write_status (g : Group) (p l : Nat) (r : RegName) (x : SMap W64) : (g.write p l r x).status = g.status := by
  unfold Group.write; split <;> simp
@[simp] theorem Group.write_seq (g : Group) (p l : Nat) (r : RegName) (x : SMap W64) : (g.write p l r x).seq = g.seq := by
  unfold Group.write; split <;> simp
@[simp] theorem Group.write_episodes (g : Group) (p l : Nat) (r : RegName) (x : SMap W64) : (g.write p l r x).episodes = g.episodes := by
  unfold Group.write; split <;> simp
@[simp] theorem Group.write_sleeps (g : Group) (p l : Nat) (r : RegName) (x : SMap W64) : (g.write p l r x).sleeps = g.sleeps := by
  unfold Group.write; split <;> simp
@[simp] theorem Group.write_lease (g : Group) (p l : Nat) (r : RegName) (x : SMap W64) : (g.write p l r x).lease = g.lease := by
  unfold Group.write; split <;> simp
@[simp] theorem Group.write_dist (g : Group) (p l : Nat) (r : RegName) (x : SMap W64) : (g.write p l r x).dist = g.dist := by
  unfold Group.write; split <;> simp
@[simp] theorem Group.write_busy (g : Group) (p l : Nat) (r : RegName) (x : SMap W64) : (g.write p l r x).busy = g.busy := by
  unfold Group.write; split <;> simp
@[simp] theorem Group.write_due (g : Group) (p l : Nat) (r : RegName) (x : SMap W64) : (g.write p l r x).due = g.due := by
  unfold Group.write; split <;> simp
@[simp] theorem Group.write_readyAt (g : Group) (p l : Nat) (r : RegName) (x : SMap W64) : (g.write p l r x).readyAt = g.readyAt := by
  unfold Group.write; split <;> simp
@[simp] theorem Group.write_wait (g : Group) (p l : Nat) (r : RegName) (x : SMap W64) : (g.write p l r x).wait = g.wait := by
  unfold Group.write; split <;> simp
@[simp] theorem Group.write_pendTraps (g : Group) (p l : Nat) (r : RegName) (x : SMap W64) : (g.write p l r x).pendTraps = g.pendTraps := by
  unfold Group.write; split <;> simp
@[simp] theorem Group.write_fwOut (g : Group) (p l : Nat) (r : RegName) (x : SMap W64) : (g.write p l r x).fwOut = g.fwOut := by
  unfold Group.write; split <;> simp
@[simp] theorem Group.write_begun (g : Group) (p l : Nat) (r : RegName) (x : SMap W64) : (g.write p l r x).begun = g.begun := by
  unfold Group.write; split <;> simp
@[simp] theorem Group.write_fixedBy (g : Group) (p l : Nat) (r : RegName) (x : SMap W64) : (g.write p l r x).fixedBy = g.fixedBy := by
  unfold Group.write; split <;> simp

/-! ### Group.writeOne -/

@[simp] theorem Group.writeOne_id (g : Group) (p l : Nat) (r : RegName) (x : W64) : (g.writeOne p l r x).id = g.id := by
  simp [Group.writeOne]
@[simp] theorem Group.writeOne_team (g : Group) (p l : Nat) (r : RegName) (x : W64) : (g.writeOne p l r x).team = g.team := by
  simp [Group.writeOne]
@[simp] theorem Group.writeOne_grpidx (g : Group) (p l : Nat) (r : RegName) (x : W64) : (g.writeOne p l r x).grpidx = g.grpidx := by
  simp [Group.writeOne]
@[simp] theorem Group.writeOne_slot (g : Group) (p l : Nat) (r : RegName) (x : W64) : (g.writeOne p l r x).slot = g.slot := by
  simp [Group.writeOne]
@[simp] theorem Group.writeOne_slotIdx (g : Group) (p l : Nat) (r : RegName) (x : W64) : (g.writeOne p l r x).slotIdx = g.slotIdx := by
  simp [Group.writeOne]
@[simp] theorem Group.writeOne_width (g : Group) (p l : Nat) (r : RegName) (x : W64) : (g.writeOne p l r x).width = g.width := by
  simp [Group.writeOne]
@[simp] theorem Group.writeOne_lanes (g : Group) (p l : Nat) (r : RegName) (x : W64) : (g.writeOne p l r x).lanes = g.lanes := by
  simp [Group.writeOne]
@[simp] theorem Group.writeOne_seg (g : Group) (p l : Nat) (r : RegName) (x : W64) : (g.writeOne p l r x).seg = g.seg := by
  simp [Group.writeOne]
@[simp] theorem Group.writeOne_fst (g : Group) (p l : Nat) (r : RegName) (x : W64) : (g.writeOne p l r x).fst = g.fst := by
  simp [Group.writeOne]
@[simp] theorem Group.writeOne_sbchk (g : Group) (p l : Nat) (r : RegName) (x : W64) : (g.writeOne p l r x).sbchk = g.sbchk := by
  simp [Group.writeOne]
@[simp] theorem Group.writeOne_xcause (g : Group) (p l : Nat) (r : RegName) (x : W64) : (g.writeOne p l r x).xcause = g.xcause := by
  simp [Group.writeOne]
@[simp] theorem Group.writeOne_xpc (g : Group) (p l : Nat) (r : RegName) (x : W64) : (g.writeOne p l r x).xpc = g.xpc := by
  simp [Group.writeOne]
@[simp] theorem Group.writeOne_xval (g : Group) (p l : Nat) (r : RegName) (x : W64) : (g.writeOne p l r x).xval = g.xval := by
  simp [Group.writeOne]
@[simp] theorem Group.writeOne_xmask (g : Group) (p l : Nat) (r : RegName) (x : W64) : (g.writeOne p l r x).xmask = g.xmask := by
  simp [Group.writeOne]
@[simp] theorem Group.writeOne_inh (g : Group) (p l : Nat) (r : RegName) (x : W64) : (g.writeOne p l r x).inh = g.inh := by
  simp [Group.writeOne]
@[simp] theorem Group.writeOne_hlanes (g : Group) (p l : Nat) (r : RegName) (x : W64) : (g.writeOne p l r x).hlanes = g.hlanes := by
  simp [Group.writeOne]
@[simp] theorem Group.writeOne_wakeReason (g : Group) (p l : Nat) (r : RegName) (x : W64) : (g.writeOne p l r x).wakeReason = g.wakeReason := by
  simp [Group.writeOne]
@[simp] theorem Group.writeOne_wakeGated (g : Group) (p l : Nat) (r : RegName) (x : W64) : (g.writeOne p l r x).wakeGated = g.wakeGated := by
  simp [Group.writeOne]
@[simp] theorem Group.writeOne_starve (g : Group) (p l : Nat) (r : RegName) (x : W64) : (g.writeOne p l r x).starve = g.starve := by
  simp [Group.writeOne]
@[simp] theorem Group.writeOne_counters (g : Group) (p l : Nat) (r : RegName) (x : W64) : (g.writeOne p l r x).counters = g.counters := by
  simp [Group.writeOne]
@[simp] theorem Group.writeOne_status (g : Group) (p l : Nat) (r : RegName) (x : W64) : (g.writeOne p l r x).status = g.status := by
  simp [Group.writeOne]
@[simp] theorem Group.writeOne_seq (g : Group) (p l : Nat) (r : RegName) (x : W64) : (g.writeOne p l r x).seq = g.seq := by
  simp [Group.writeOne]
@[simp] theorem Group.writeOne_episodes (g : Group) (p l : Nat) (r : RegName) (x : W64) : (g.writeOne p l r x).episodes = g.episodes := by
  simp [Group.writeOne]
@[simp] theorem Group.writeOne_sleeps (g : Group) (p l : Nat) (r : RegName) (x : W64) : (g.writeOne p l r x).sleeps = g.sleeps := by
  simp [Group.writeOne]
@[simp] theorem Group.writeOne_lease (g : Group) (p l : Nat) (r : RegName) (x : W64) : (g.writeOne p l r x).lease = g.lease := by
  simp [Group.writeOne]
@[simp] theorem Group.writeOne_dist (g : Group) (p l : Nat) (r : RegName) (x : W64) : (g.writeOne p l r x).dist = g.dist := by
  simp [Group.writeOne]
@[simp] theorem Group.writeOne_busy (g : Group) (p l : Nat) (r : RegName) (x : W64) : (g.writeOne p l r x).busy = g.busy := by
  simp [Group.writeOne]
@[simp] theorem Group.writeOne_due (g : Group) (p l : Nat) (r : RegName) (x : W64) : (g.writeOne p l r x).due = g.due := by
  simp [Group.writeOne]
@[simp] theorem Group.writeOne_readyAt (g : Group) (p l : Nat) (r : RegName) (x : W64) : (g.writeOne p l r x).readyAt = g.readyAt := by
  simp [Group.writeOne]
@[simp] theorem Group.writeOne_wait (g : Group) (p l : Nat) (r : RegName) (x : W64) : (g.writeOne p l r x).wait = g.wait := by
  simp [Group.writeOne]
@[simp] theorem Group.writeOne_pendTraps (g : Group) (p l : Nat) (r : RegName) (x : W64) : (g.writeOne p l r x).pendTraps = g.pendTraps := by
  simp [Group.writeOne]
@[simp] theorem Group.writeOne_fwOut (g : Group) (p l : Nat) (r : RegName) (x : W64) : (g.writeOne p l r x).fwOut = g.fwOut := by
  simp [Group.writeOne]
@[simp] theorem Group.writeOne_begun (g : Group) (p l : Nat) (r : RegName) (x : W64) : (g.writeOne p l r x).begun = g.begun := by
  simp [Group.writeOne]
@[simp] theorem Group.writeOne_fixedBy (g : Group) (p l : Nat) (r : RegName) (x : W64) : (g.writeOne p l r x).fixedBy = g.fixedBy := by
  simp [Group.writeOne]

/-! ### Group.setScalar -/

@[simp] theorem Group.setScalar_id (g : Group) (n : Nat) (x : W64) : (g.setScalar n x).id = g.id := by
  unfold Group.setScalar; split <;> simp
@[simp] theorem Group.setScalar_team (g : Group) (n : Nat) (x : W64) : (g.setScalar n x).team = g.team := by
  unfold Group.setScalar; split <;> simp
@[simp] theorem Group.setScalar_grpidx (g : Group) (n : Nat) (x : W64) : (g.setScalar n x).grpidx = g.grpidx := by
  unfold Group.setScalar; split <;> simp
@[simp] theorem Group.setScalar_slot (g : Group) (n : Nat) (x : W64) : (g.setScalar n x).slot = g.slot := by
  unfold Group.setScalar; split <;> simp
@[simp] theorem Group.setScalar_slotIdx (g : Group) (n : Nat) (x : W64) : (g.setScalar n x).slotIdx = g.slotIdx := by
  unfold Group.setScalar; split <;> simp
@[simp] theorem Group.setScalar_width (g : Group) (n : Nat) (x : W64) : (g.setScalar n x).width = g.width := by
  unfold Group.setScalar; split <;> simp
@[simp] theorem Group.setScalar_lanes (g : Group) (n : Nat) (x : W64) : (g.setScalar n x).lanes = g.lanes := by
  unfold Group.setScalar; split <;> simp
@[simp] theorem Group.setScalar_seg (g : Group) (n : Nat) (x : W64) : (g.setScalar n x).seg = g.seg := by
  unfold Group.setScalar; split <;> simp
@[simp] theorem Group.setScalar_fst (g : Group) (n : Nat) (x : W64) : (g.setScalar n x).fst = g.fst := by
  unfold Group.setScalar; split <;> simp
@[simp] theorem Group.setScalar_sbchk (g : Group) (n : Nat) (x : W64) : (g.setScalar n x).sbchk = g.sbchk := by
  unfold Group.setScalar; split <;> simp
@[simp] theorem Group.setScalar_xcause (g : Group) (n : Nat) (x : W64) : (g.setScalar n x).xcause = g.xcause := by
  unfold Group.setScalar; split <;> simp
@[simp] theorem Group.setScalar_xpc (g : Group) (n : Nat) (x : W64) : (g.setScalar n x).xpc = g.xpc := by
  unfold Group.setScalar; split <;> simp
@[simp] theorem Group.setScalar_xval (g : Group) (n : Nat) (x : W64) : (g.setScalar n x).xval = g.xval := by
  unfold Group.setScalar; split <;> simp
@[simp] theorem Group.setScalar_xmask (g : Group) (n : Nat) (x : W64) : (g.setScalar n x).xmask = g.xmask := by
  unfold Group.setScalar; split <;> simp
@[simp] theorem Group.setScalar_inh (g : Group) (n : Nat) (x : W64) : (g.setScalar n x).inh = g.inh := by
  unfold Group.setScalar; split <;> simp
@[simp] theorem Group.setScalar_hlanes (g : Group) (n : Nat) (x : W64) : (g.setScalar n x).hlanes = g.hlanes := by
  unfold Group.setScalar; split <;> simp
@[simp] theorem Group.setScalar_wakeReason (g : Group) (n : Nat) (x : W64) : (g.setScalar n x).wakeReason = g.wakeReason := by
  unfold Group.setScalar; split <;> simp
@[simp] theorem Group.setScalar_wakeGated (g : Group) (n : Nat) (x : W64) : (g.setScalar n x).wakeGated = g.wakeGated := by
  unfold Group.setScalar; split <;> simp
@[simp] theorem Group.setScalar_starve (g : Group) (n : Nat) (x : W64) : (g.setScalar n x).starve = g.starve := by
  unfold Group.setScalar; split <;> simp
@[simp] theorem Group.setScalar_counters (g : Group) (n : Nat) (x : W64) : (g.setScalar n x).counters = g.counters := by
  unfold Group.setScalar; split <;> simp
@[simp] theorem Group.setScalar_status (g : Group) (n : Nat) (x : W64) : (g.setScalar n x).status = g.status := by
  unfold Group.setScalar; split <;> simp
@[simp] theorem Group.setScalar_seq (g : Group) (n : Nat) (x : W64) : (g.setScalar n x).seq = g.seq := by
  unfold Group.setScalar; split <;> simp
@[simp] theorem Group.setScalar_episodes (g : Group) (n : Nat) (x : W64) : (g.setScalar n x).episodes = g.episodes := by
  unfold Group.setScalar; split <;> simp
@[simp] theorem Group.setScalar_sleeps (g : Group) (n : Nat) (x : W64) : (g.setScalar n x).sleeps = g.sleeps := by
  unfold Group.setScalar; split <;> simp
@[simp] theorem Group.setScalar_lease (g : Group) (n : Nat) (x : W64) : (g.setScalar n x).lease = g.lease := by
  unfold Group.setScalar; split <;> simp
@[simp] theorem Group.setScalar_dist (g : Group) (n : Nat) (x : W64) : (g.setScalar n x).dist = g.dist := by
  unfold Group.setScalar; split <;> simp
@[simp] theorem Group.setScalar_busy (g : Group) (n : Nat) (x : W64) : (g.setScalar n x).busy = g.busy := by
  unfold Group.setScalar; split <;> simp
@[simp] theorem Group.setScalar_due (g : Group) (n : Nat) (x : W64) : (g.setScalar n x).due = g.due := by
  unfold Group.setScalar; split <;> simp
@[simp] theorem Group.setScalar_readyAt (g : Group) (n : Nat) (x : W64) : (g.setScalar n x).readyAt = g.readyAt := by
  unfold Group.setScalar; split <;> simp
@[simp] theorem Group.setScalar_wait (g : Group) (n : Nat) (x : W64) : (g.setScalar n x).wait = g.wait := by
  unfold Group.setScalar; split <;> simp
@[simp] theorem Group.setScalar_pendTraps (g : Group) (n : Nat) (x : W64) : (g.setScalar n x).pendTraps = g.pendTraps := by
  unfold Group.setScalar; split <;> simp
@[simp] theorem Group.setScalar_fwOut (g : Group) (n : Nat) (x : W64) : (g.setScalar n x).fwOut = g.fwOut := by
  unfold Group.setScalar; split <;> simp
@[simp] theorem Group.setScalar_begun (g : Group) (n : Nat) (x : W64) : (g.setScalar n x).begun = g.begun := by
  unfold Group.setScalar; split <;> simp
@[simp] theorem Group.setScalar_fixedBy (g : Group) (n : Nat) (x : W64) : (g.setScalar n x).fixedBy = g.fixedBy := by
  unfold Group.setScalar; split <;> simp

/-! ### Group.issued -/

@[simp] theorem Group.issued_id (g : Group) (a b c d : Nat) : (g.issued a b c d).id = g.id := rfl
@[simp] theorem Group.issued_team (g : Group) (a b c d : Nat) : (g.issued a b c d).team = g.team := rfl
@[simp] theorem Group.issued_grpidx (g : Group) (a b c d : Nat) : (g.issued a b c d).grpidx = g.grpidx := rfl
@[simp] theorem Group.issued_slot (g : Group) (a b c d : Nat) : (g.issued a b c d).slot = g.slot := rfl
@[simp] theorem Group.issued_slotIdx (g : Group) (a b c d : Nat) : (g.issued a b c d).slotIdx = g.slotIdx := rfl
@[simp] theorem Group.issued_width (g : Group) (a b c d : Nat) : (g.issued a b c d).width = g.width := rfl
@[simp] theorem Group.issued_v (g : Group) (a b c d : Nat) : (g.issued a b c d).v = g.v := rfl
@[simp] theorem Group.issued_s (g : Group) (a b c d : Nat) : (g.issued a b c d).s = g.s := rfl
@[simp] theorem Group.issued_m (g : Group) (a b c d : Nat) : (g.issued a b c d).m = g.m := rfl
@[simp] theorem Group.issued_j (g : Group) (a b c d : Nat) : (g.issued a b c d).j = g.j := rfl
@[simp] theorem Group.issued_k (g : Group) (a b c d : Nat) : (g.issued a b c d).k = g.k := rfl
@[simp] theorem Group.issued_seg (g : Group) (a b c d : Nat) : (g.issued a b c d).seg = g.seg := rfl
@[simp] theorem Group.issued_fst (g : Group) (a b c d : Nat) : (g.issued a b c d).fst = g.fst := rfl
@[simp] theorem Group.issued_sbchk (g : Group) (a b c d : Nat) : (g.issued a b c d).sbchk = g.sbchk := rfl
@[simp] theorem Group.issued_xcause (g : Group) (a b c d : Nat) : (g.issued a b c d).xcause = g.xcause := rfl
@[simp] theorem Group.issued_xpc (g : Group) (a b c d : Nat) : (g.issued a b c d).xpc = g.xpc := rfl
@[simp] theorem Group.issued_xval (g : Group) (a b c d : Nat) : (g.issued a b c d).xval = g.xval := rfl
@[simp] theorem Group.issued_xmask (g : Group) (a b c d : Nat) : (g.issued a b c d).xmask = g.xmask := rfl
@[simp] theorem Group.issued_inh (g : Group) (a b c d : Nat) : (g.issued a b c d).inh = g.inh := rfl
@[simp] theorem Group.issued_hlanes (g : Group) (a b c d : Nat) : (g.issued a b c d).hlanes = g.hlanes := rfl
@[simp] theorem Group.issued_wakeReason (g : Group) (a b c d : Nat) : (g.issued a b c d).wakeReason = g.wakeReason := rfl
@[simp] theorem Group.issued_wakeGated (g : Group) (a b c d : Nat) : (g.issued a b c d).wakeGated = g.wakeGated := rfl
@[simp] theorem Group.issued_counters (g : Group) (a b c d : Nat) : (g.issued a b c d).counters = g.counters := rfl
@[simp] theorem Group.issued_status (g : Group) (a b c d : Nat) : (g.issued a b c d).status = g.status := rfl
@[simp] theorem Group.issued_seq (g : Group) (a b c d : Nat) : (g.issued a b c d).seq = g.seq := rfl
@[simp] theorem Group.issued_episodes (g : Group) (a b c d : Nat) : (g.issued a b c d).episodes = g.episodes := rfl
@[simp] theorem Group.issued_sleeps (g : Group) (a b c d : Nat) : (g.issued a b c d).sleeps = g.sleeps := rfl
@[simp] theorem Group.issued_lease (g : Group) (a b c d : Nat) : (g.issued a b c d).lease = g.lease := rfl
@[simp] theorem Group.issued_pend (g : Group) (a b c d : Nat) : (g.issued a b c d).pend = g.pend := rfl
@[simp] theorem Group.issued_busy (g : Group) (a b c d : Nat) : (g.issued a b c d).busy = g.busy := rfl
@[simp] theorem Group.issued_due (g : Group) (a b c d : Nat) : (g.issued a b c d).due = g.due := rfl
@[simp] theorem Group.issued_wait (g : Group) (a b c d : Nat) : (g.issued a b c d).wait = g.wait := rfl
@[simp] theorem Group.issued_pendTraps (g : Group) (a b c d : Nat) : (g.issued a b c d).pendTraps = g.pendTraps := rfl
@[simp] theorem Group.issued_fwOut (g : Group) (a b c d : Nat) : (g.issued a b c d).fwOut = g.fwOut := rfl
@[simp] theorem Group.issued_fixedBy (g : Group) (a b c d : Nat) : (g.issued a b c d).fixedBy = g.fixedBy := rfl

/-! ### Group.watch -/

@[simp] theorem Group.watch_id (g : Group) (n : Nat) : (g.watch n).id = g.id := by
  unfold Group.watch; split <;> rfl
@[simp] theorem Group.watch_team (g : Group) (n : Nat) : (g.watch n).team = g.team := by
  unfold Group.watch; split <;> rfl
@[simp] theorem Group.watch_grpidx (g : Group) (n : Nat) : (g.watch n).grpidx = g.grpidx := by
  unfold Group.watch; split <;> rfl
@[simp] theorem Group.watch_slot (g : Group) (n : Nat) : (g.watch n).slot = g.slot := by
  unfold Group.watch; split <;> rfl
@[simp] theorem Group.watch_slotIdx (g : Group) (n : Nat) : (g.watch n).slotIdx = g.slotIdx := by
  unfold Group.watch; split <;> rfl
@[simp] theorem Group.watch_width (g : Group) (n : Nat) : (g.watch n).width = g.width := by
  unfold Group.watch; split <;> rfl
@[simp] theorem Group.watch_v (g : Group) (n : Nat) : (g.watch n).v = g.v := by
  unfold Group.watch; split <;> rfl
@[simp] theorem Group.watch_s (g : Group) (n : Nat) : (g.watch n).s = g.s := by
  unfold Group.watch; split <;> rfl
@[simp] theorem Group.watch_m (g : Group) (n : Nat) : (g.watch n).m = g.m := by
  unfold Group.watch; split <;> rfl
@[simp] theorem Group.watch_j (g : Group) (n : Nat) : (g.watch n).j = g.j := by
  unfold Group.watch; split <;> rfl
@[simp] theorem Group.watch_k (g : Group) (n : Nat) : (g.watch n).k = g.k := by
  unfold Group.watch; split <;> rfl
@[simp] theorem Group.watch_lanes (g : Group) (n : Nat) : (g.watch n).lanes = g.lanes := by
  unfold Group.watch; split <;> rfl
@[simp] theorem Group.watch_seg (g : Group) (n : Nat) : (g.watch n).seg = g.seg := by
  unfold Group.watch; split <;> rfl
@[simp] theorem Group.watch_fst (g : Group) (n : Nat) : (g.watch n).fst = g.fst := by
  unfold Group.watch; split <;> rfl
@[simp] theorem Group.watch_sbchk (g : Group) (n : Nat) : (g.watch n).sbchk = g.sbchk := by
  unfold Group.watch; split <;> rfl
@[simp] theorem Group.watch_xcause (g : Group) (n : Nat) : (g.watch n).xcause = g.xcause := by
  unfold Group.watch; split <;> rfl
@[simp] theorem Group.watch_xpc (g : Group) (n : Nat) : (g.watch n).xpc = g.xpc := by
  unfold Group.watch; split <;> rfl
@[simp] theorem Group.watch_xval (g : Group) (n : Nat) : (g.watch n).xval = g.xval := by
  unfold Group.watch; split <;> rfl
@[simp] theorem Group.watch_xmask (g : Group) (n : Nat) : (g.watch n).xmask = g.xmask := by
  unfold Group.watch; split <;> rfl
@[simp] theorem Group.watch_inh (g : Group) (n : Nat) : (g.watch n).inh = g.inh := by
  unfold Group.watch; split <;> rfl
@[simp] theorem Group.watch_hlanes (g : Group) (n : Nat) : (g.watch n).hlanes = g.hlanes := by
  unfold Group.watch; split <;> rfl
@[simp] theorem Group.watch_wakeReason (g : Group) (n : Nat) : (g.watch n).wakeReason = g.wakeReason := by
  unfold Group.watch; split <;> rfl
@[simp] theorem Group.watch_wakeGated (g : Group) (n : Nat) : (g.watch n).wakeGated = g.wakeGated := by
  unfold Group.watch; split <;> rfl
@[simp] theorem Group.watch_starve (g : Group) (n : Nat) : (g.watch n).starve = g.starve := by
  unfold Group.watch; split <;> rfl
@[simp] theorem Group.watch_counters (g : Group) (n : Nat) : (g.watch n).counters = g.counters := by
  unfold Group.watch; split <;> rfl
@[simp] theorem Group.watch_status (g : Group) (n : Nat) : (g.watch n).status = g.status := by
  unfold Group.watch; split <;> rfl
@[simp] theorem Group.watch_seq (g : Group) (n : Nat) : (g.watch n).seq = g.seq := by
  unfold Group.watch; split <;> rfl
@[simp] theorem Group.watch_episodes (g : Group) (n : Nat) : (g.watch n).episodes = g.episodes := by
  unfold Group.watch; split <;> rfl
@[simp] theorem Group.watch_sleeps (g : Group) (n : Nat) : (g.watch n).sleeps = g.sleeps := by
  unfold Group.watch; split <;> rfl
@[simp] theorem Group.watch_lease (g : Group) (n : Nat) : (g.watch n).lease = g.lease := by
  unfold Group.watch; split <;> rfl
@[simp] theorem Group.watch_pend (g : Group) (n : Nat) : (g.watch n).pend = g.pend := by
  unfold Group.watch; split <;> rfl
@[simp] theorem Group.watch_dist (g : Group) (n : Nat) : (g.watch n).dist = g.dist := by
  unfold Group.watch; split <;> rfl
@[simp] theorem Group.watch_busy (g : Group) (n : Nat) : (g.watch n).busy = g.busy := by
  unfold Group.watch; split <;> rfl
@[simp] theorem Group.watch_due (g : Group) (n : Nat) : (g.watch n).due = g.due := by
  unfold Group.watch; split <;> rfl
@[simp] theorem Group.watch_readyAt (g : Group) (n : Nat) : (g.watch n).readyAt = g.readyAt := by
  unfold Group.watch; split <;> rfl
@[simp] theorem Group.watch_wait (g : Group) (n : Nat) : (g.watch n).wait = g.wait := by
  unfold Group.watch; split <;> rfl
@[simp] theorem Group.watch_fwOut (g : Group) (n : Nat) : (g.watch n).fwOut = g.fwOut := by
  unfold Group.watch; split <;> rfl
@[simp] theorem Group.watch_begun (g : Group) (n : Nat) : (g.watch n).begun = g.begun := by
  unfold Group.watch; split <;> rfl
@[simp] theorem Group.watch_fixedBy (g : Group) (n : Nat) : (g.watch n).fixedBy = g.fixedBy := by
  unfold Group.watch; split <;> rfl

/-! ### Group.settleBy -/

@[simp] theorem Group.settleBy_id (g : Group) (n : Nat) : (g.settleBy n).id = g.id := rfl
@[simp] theorem Group.settleBy_team (g : Group) (n : Nat) : (g.settleBy n).team = g.team := rfl
@[simp] theorem Group.settleBy_grpidx (g : Group) (n : Nat) : (g.settleBy n).grpidx = g.grpidx := rfl
@[simp] theorem Group.settleBy_slot (g : Group) (n : Nat) : (g.settleBy n).slot = g.slot := rfl
@[simp] theorem Group.settleBy_slotIdx (g : Group) (n : Nat) : (g.settleBy n).slotIdx = g.slotIdx := rfl
@[simp] theorem Group.settleBy_width (g : Group) (n : Nat) : (g.settleBy n).width = g.width := rfl
@[simp] theorem Group.settleBy_v (g : Group) (n : Nat) : (g.settleBy n).v = g.v := rfl
@[simp] theorem Group.settleBy_s (g : Group) (n : Nat) : (g.settleBy n).s = g.s := rfl
@[simp] theorem Group.settleBy_m (g : Group) (n : Nat) : (g.settleBy n).m = g.m := rfl
@[simp] theorem Group.settleBy_j (g : Group) (n : Nat) : (g.settleBy n).j = g.j := rfl
@[simp] theorem Group.settleBy_k (g : Group) (n : Nat) : (g.settleBy n).k = g.k := rfl
@[simp] theorem Group.settleBy_lanes (g : Group) (n : Nat) : (g.settleBy n).lanes = g.lanes := rfl
@[simp] theorem Group.settleBy_seg (g : Group) (n : Nat) : (g.settleBy n).seg = g.seg := rfl
@[simp] theorem Group.settleBy_fst (g : Group) (n : Nat) : (g.settleBy n).fst = g.fst := rfl
@[simp] theorem Group.settleBy_sbchk (g : Group) (n : Nat) : (g.settleBy n).sbchk = g.sbchk := rfl
@[simp] theorem Group.settleBy_xcause (g : Group) (n : Nat) : (g.settleBy n).xcause = g.xcause := rfl
@[simp] theorem Group.settleBy_xpc (g : Group) (n : Nat) : (g.settleBy n).xpc = g.xpc := rfl
@[simp] theorem Group.settleBy_xval (g : Group) (n : Nat) : (g.settleBy n).xval = g.xval := rfl
@[simp] theorem Group.settleBy_xmask (g : Group) (n : Nat) : (g.settleBy n).xmask = g.xmask := rfl
@[simp] theorem Group.settleBy_inh (g : Group) (n : Nat) : (g.settleBy n).inh = g.inh := rfl
@[simp] theorem Group.settleBy_hlanes (g : Group) (n : Nat) : (g.settleBy n).hlanes = g.hlanes := rfl
@[simp] theorem Group.settleBy_wakeReason (g : Group) (n : Nat) : (g.settleBy n).wakeReason = g.wakeReason := rfl
@[simp] theorem Group.settleBy_wakeGated (g : Group) (n : Nat) : (g.settleBy n).wakeGated = g.wakeGated := rfl
@[simp] theorem Group.settleBy_starve (g : Group) (n : Nat) : (g.settleBy n).starve = g.starve := rfl
@[simp] theorem Group.settleBy_counters (g : Group) (n : Nat) : (g.settleBy n).counters = g.counters := rfl
@[simp] theorem Group.settleBy_status (g : Group) (n : Nat) : (g.settleBy n).status = g.status := rfl
@[simp] theorem Group.settleBy_seq (g : Group) (n : Nat) : (g.settleBy n).seq = g.seq := rfl
@[simp] theorem Group.settleBy_episodes (g : Group) (n : Nat) : (g.settleBy n).episodes = g.episodes := rfl
@[simp] theorem Group.settleBy_sleeps (g : Group) (n : Nat) : (g.settleBy n).sleeps = g.sleeps := rfl
@[simp] theorem Group.settleBy_lease (g : Group) (n : Nat) : (g.settleBy n).lease = g.lease := rfl
@[simp] theorem Group.settleBy_pend (g : Group) (n : Nat) : (g.settleBy n).pend = g.pend := rfl
@[simp] theorem Group.settleBy_dist (g : Group) (n : Nat) : (g.settleBy n).dist = g.dist := rfl
@[simp] theorem Group.settleBy_busy (g : Group) (n : Nat) : (g.settleBy n).busy = g.busy := rfl
@[simp] theorem Group.settleBy_due (g : Group) (n : Nat) : (g.settleBy n).due = g.due := rfl
@[simp] theorem Group.settleBy_readyAt (g : Group) (n : Nat) : (g.settleBy n).readyAt = g.readyAt := rfl
@[simp] theorem Group.settleBy_wait (g : Group) (n : Nat) : (g.settleBy n).wait = g.wait := rfl
@[simp] theorem Group.settleBy_pendTraps (g : Group) (n : Nat) : (g.settleBy n).pendTraps = g.pendTraps := rfl
@[simp] theorem Group.settleBy_fwOut (g : Group) (n : Nat) : (g.settleBy n).fwOut = g.fwOut := rfl
@[simp] theorem Group.settleBy_begun (g : Group) (n : Nat) : (g.settleBy n).begun = g.begun := rfl

/-! ### Group.hold -/

@[simp] theorem Group.hold_id (g : Group) (a b : Nat) (r : List RegName) : (g.hold a b r).id = g.id := rfl
@[simp] theorem Group.hold_team (g : Group) (a b : Nat) (r : List RegName) : (g.hold a b r).team = g.team := rfl
@[simp] theorem Group.hold_grpidx (g : Group) (a b : Nat) (r : List RegName) : (g.hold a b r).grpidx = g.grpidx := rfl
@[simp] theorem Group.hold_slot (g : Group) (a b : Nat) (r : List RegName) : (g.hold a b r).slot = g.slot := rfl
@[simp] theorem Group.hold_slotIdx (g : Group) (a b : Nat) (r : List RegName) : (g.hold a b r).slotIdx = g.slotIdx := rfl
@[simp] theorem Group.hold_width (g : Group) (a b : Nat) (r : List RegName) : (g.hold a b r).width = g.width := rfl
@[simp] theorem Group.hold_v (g : Group) (a b : Nat) (r : List RegName) : (g.hold a b r).v = g.v := rfl
@[simp] theorem Group.hold_s (g : Group) (a b : Nat) (r : List RegName) : (g.hold a b r).s = g.s := rfl
@[simp] theorem Group.hold_m (g : Group) (a b : Nat) (r : List RegName) : (g.hold a b r).m = g.m := rfl
@[simp] theorem Group.hold_j (g : Group) (a b : Nat) (r : List RegName) : (g.hold a b r).j = g.j := rfl
@[simp] theorem Group.hold_k (g : Group) (a b : Nat) (r : List RegName) : (g.hold a b r).k = g.k := rfl
@[simp] theorem Group.hold_lanes (g : Group) (a b : Nat) (r : List RegName) : (g.hold a b r).lanes = g.lanes := rfl
@[simp] theorem Group.hold_seg (g : Group) (a b : Nat) (r : List RegName) : (g.hold a b r).seg = g.seg := rfl
@[simp] theorem Group.hold_fst (g : Group) (a b : Nat) (r : List RegName) : (g.hold a b r).fst = g.fst := rfl
@[simp] theorem Group.hold_sbchk (g : Group) (a b : Nat) (r : List RegName) : (g.hold a b r).sbchk = g.sbchk := rfl
@[simp] theorem Group.hold_xcause (g : Group) (a b : Nat) (r : List RegName) : (g.hold a b r).xcause = g.xcause := rfl
@[simp] theorem Group.hold_xpc (g : Group) (a b : Nat) (r : List RegName) : (g.hold a b r).xpc = g.xpc := rfl
@[simp] theorem Group.hold_xval (g : Group) (a b : Nat) (r : List RegName) : (g.hold a b r).xval = g.xval := rfl
@[simp] theorem Group.hold_xmask (g : Group) (a b : Nat) (r : List RegName) : (g.hold a b r).xmask = g.xmask := rfl
@[simp] theorem Group.hold_inh (g : Group) (a b : Nat) (r : List RegName) : (g.hold a b r).inh = g.inh := rfl
@[simp] theorem Group.hold_hlanes (g : Group) (a b : Nat) (r : List RegName) : (g.hold a b r).hlanes = g.hlanes := rfl
@[simp] theorem Group.hold_wakeReason (g : Group) (a b : Nat) (r : List RegName) : (g.hold a b r).wakeReason = g.wakeReason := rfl
@[simp] theorem Group.hold_wakeGated (g : Group) (a b : Nat) (r : List RegName) : (g.hold a b r).wakeGated = g.wakeGated := rfl
@[simp] theorem Group.hold_starve (g : Group) (a b : Nat) (r : List RegName) : (g.hold a b r).starve = g.starve := rfl
@[simp] theorem Group.hold_counters (g : Group) (a b : Nat) (r : List RegName) : (g.hold a b r).counters = g.counters := rfl
@[simp] theorem Group.hold_status (g : Group) (a b : Nat) (r : List RegName) : (g.hold a b r).status = g.status := rfl
@[simp] theorem Group.hold_seq (g : Group) (a b : Nat) (r : List RegName) : (g.hold a b r).seq = g.seq := rfl
@[simp] theorem Group.hold_episodes (g : Group) (a b : Nat) (r : List RegName) : (g.hold a b r).episodes = g.episodes := rfl
@[simp] theorem Group.hold_sleeps (g : Group) (a b : Nat) (r : List RegName) : (g.hold a b r).sleeps = g.sleeps := rfl
@[simp] theorem Group.hold_lease (g : Group) (a b : Nat) (r : List RegName) : (g.hold a b r).lease = g.lease := rfl
@[simp] theorem Group.hold_pend (g : Group) (a b : Nat) (r : List RegName) : (g.hold a b r).pend = g.pend := rfl
@[simp] theorem Group.hold_dist (g : Group) (a b : Nat) (r : List RegName) : (g.hold a b r).dist = g.dist := rfl
@[simp] theorem Group.hold_busy (g : Group) (a b : Nat) (r : List RegName) : (g.hold a b r).busy = g.busy := rfl
@[simp] theorem Group.hold_readyAt (g : Group) (a b : Nat) (r : List RegName) : (g.hold a b r).readyAt = g.readyAt := rfl
@[simp] theorem Group.hold_wait (g : Group) (a b : Nat) (r : List RegName) : (g.hold a b r).wait = g.wait := rfl
@[simp] theorem Group.hold_pendTraps (g : Group) (a b : Nat) (r : List RegName) : (g.hold a b r).pendTraps = g.pendTraps := rfl
@[simp] theorem Group.hold_fwOut (g : Group) (a b : Nat) (r : List RegName) : (g.hold a b r).fwOut = g.fwOut := rfl
@[simp] theorem Group.hold_begun (g : Group) (a b : Nat) (r : List RegName) : (g.hold a b r).begun = g.begun := rfl
@[simp] theorem Group.hold_fixedBy (g : Group) (a b : Nat) (r : List RegName) : (g.hold a b r).fixedBy = g.fixedBy := rfl

/-! ### Group.raiseFlags -/

@[simp] theorem Group.raiseFlags_id (g : Group) (f : Flags) : (g.raiseFlags f).id = g.id := rfl
@[simp] theorem Group.raiseFlags_team (g : Group) (f : Flags) : (g.raiseFlags f).team = g.team := rfl
@[simp] theorem Group.raiseFlags_grpidx (g : Group) (f : Flags) : (g.raiseFlags f).grpidx = g.grpidx := rfl
@[simp] theorem Group.raiseFlags_slot (g : Group) (f : Flags) : (g.raiseFlags f).slot = g.slot := rfl
@[simp] theorem Group.raiseFlags_slotIdx (g : Group) (f : Flags) : (g.raiseFlags f).slotIdx = g.slotIdx := rfl
@[simp] theorem Group.raiseFlags_width (g : Group) (f : Flags) : (g.raiseFlags f).width = g.width := rfl
@[simp] theorem Group.raiseFlags_v (g : Group) (f : Flags) : (g.raiseFlags f).v = g.v := rfl
@[simp] theorem Group.raiseFlags_s (g : Group) (f : Flags) : (g.raiseFlags f).s = g.s := rfl
@[simp] theorem Group.raiseFlags_m (g : Group) (f : Flags) : (g.raiseFlags f).m = g.m := rfl
@[simp] theorem Group.raiseFlags_j (g : Group) (f : Flags) : (g.raiseFlags f).j = g.j := rfl
@[simp] theorem Group.raiseFlags_k (g : Group) (f : Flags) : (g.raiseFlags f).k = g.k := rfl
@[simp] theorem Group.raiseFlags_lanes (g : Group) (f : Flags) : (g.raiseFlags f).lanes = g.lanes := rfl
@[simp] theorem Group.raiseFlags_seg (g : Group) (f : Flags) : (g.raiseFlags f).seg = g.seg := rfl
@[simp] theorem Group.raiseFlags_sbchk (g : Group) (f : Flags) : (g.raiseFlags f).sbchk = g.sbchk := rfl
@[simp] theorem Group.raiseFlags_xcause (g : Group) (f : Flags) : (g.raiseFlags f).xcause = g.xcause := rfl
@[simp] theorem Group.raiseFlags_xpc (g : Group) (f : Flags) : (g.raiseFlags f).xpc = g.xpc := rfl
@[simp] theorem Group.raiseFlags_xval (g : Group) (f : Flags) : (g.raiseFlags f).xval = g.xval := rfl
@[simp] theorem Group.raiseFlags_xmask (g : Group) (f : Flags) : (g.raiseFlags f).xmask = g.xmask := rfl
@[simp] theorem Group.raiseFlags_inh (g : Group) (f : Flags) : (g.raiseFlags f).inh = g.inh := rfl
@[simp] theorem Group.raiseFlags_hlanes (g : Group) (f : Flags) : (g.raiseFlags f).hlanes = g.hlanes := rfl
@[simp] theorem Group.raiseFlags_wakeReason (g : Group) (f : Flags) : (g.raiseFlags f).wakeReason = g.wakeReason := rfl
@[simp] theorem Group.raiseFlags_wakeGated (g : Group) (f : Flags) : (g.raiseFlags f).wakeGated = g.wakeGated := rfl
@[simp] theorem Group.raiseFlags_starve (g : Group) (f : Flags) : (g.raiseFlags f).starve = g.starve := rfl
@[simp] theorem Group.raiseFlags_counters (g : Group) (f : Flags) : (g.raiseFlags f).counters = g.counters := rfl
@[simp] theorem Group.raiseFlags_status (g : Group) (f : Flags) : (g.raiseFlags f).status = g.status := rfl
@[simp] theorem Group.raiseFlags_seq (g : Group) (f : Flags) : (g.raiseFlags f).seq = g.seq := rfl
@[simp] theorem Group.raiseFlags_episodes (g : Group) (f : Flags) : (g.raiseFlags f).episodes = g.episodes := rfl
@[simp] theorem Group.raiseFlags_sleeps (g : Group) (f : Flags) : (g.raiseFlags f).sleeps = g.sleeps := rfl
@[simp] theorem Group.raiseFlags_lease (g : Group) (f : Flags) : (g.raiseFlags f).lease = g.lease := rfl
@[simp] theorem Group.raiseFlags_pend (g : Group) (f : Flags) : (g.raiseFlags f).pend = g.pend := rfl
@[simp] theorem Group.raiseFlags_dist (g : Group) (f : Flags) : (g.raiseFlags f).dist = g.dist := rfl
@[simp] theorem Group.raiseFlags_busy (g : Group) (f : Flags) : (g.raiseFlags f).busy = g.busy := rfl
@[simp] theorem Group.raiseFlags_due (g : Group) (f : Flags) : (g.raiseFlags f).due = g.due := rfl
@[simp] theorem Group.raiseFlags_readyAt (g : Group) (f : Flags) : (g.raiseFlags f).readyAt = g.readyAt := rfl
@[simp] theorem Group.raiseFlags_wait (g : Group) (f : Flags) : (g.raiseFlags f).wait = g.wait := rfl
@[simp] theorem Group.raiseFlags_pendTraps (g : Group) (f : Flags) : (g.raiseFlags f).pendTraps = g.pendTraps := rfl
@[simp] theorem Group.raiseFlags_fwOut (g : Group) (f : Flags) : (g.raiseFlags f).fwOut = g.fwOut := rfl
@[simp] theorem Group.raiseFlags_begun (g : Group) (f : Flags) : (g.raiseFlags f).begun = g.begun := rfl
@[simp] theorem Group.raiseFlags_fixedBy (g : Group) (f : Flags) : (g.raiseFlags f).fixedBy = g.fixedBy := rfl

/-! ### Group.raise -/

@[simp] theorem Group.raise_id (g : Group) (k : EngClass) : (g.raise k).id = g.id := rfl
@[simp] theorem Group.raise_team (g : Group) (k : EngClass) : (g.raise k).team = g.team := rfl
@[simp] theorem Group.raise_grpidx (g : Group) (k : EngClass) : (g.raise k).grpidx = g.grpidx := rfl
@[simp] theorem Group.raise_slot (g : Group) (k : EngClass) : (g.raise k).slot = g.slot := rfl
@[simp] theorem Group.raise_slotIdx (g : Group) (k : EngClass) : (g.raise k).slotIdx = g.slotIdx := rfl
@[simp] theorem Group.raise_width (g : Group) (k : EngClass) : (g.raise k).width = g.width := rfl
@[simp] theorem Group.raise_v (g : Group) (k : EngClass) : (g.raise k).v = g.v := rfl
@[simp] theorem Group.raise_s (g : Group) (k : EngClass) : (g.raise k).s = g.s := rfl
@[simp] theorem Group.raise_m (g : Group) (k : EngClass) : (g.raise k).m = g.m := rfl
@[simp] theorem Group.raise_j (g : Group) (k : EngClass) : (g.raise k).j = g.j := rfl
@[simp] theorem Group.raise_k (g : Group) (k : EngClass) : (g.raise k).k = g.k := rfl
@[simp] theorem Group.raise_lanes (g : Group) (k : EngClass) : (g.raise k).lanes = g.lanes := rfl
@[simp] theorem Group.raise_seg (g : Group) (k : EngClass) : (g.raise k).seg = g.seg := rfl
@[simp] theorem Group.raise_fst (g : Group) (k : EngClass) : (g.raise k).fst = g.fst := rfl
@[simp] theorem Group.raise_sbchk (g : Group) (k : EngClass) : (g.raise k).sbchk = g.sbchk := rfl
@[simp] theorem Group.raise_xcause (g : Group) (k : EngClass) : (g.raise k).xcause = g.xcause := rfl
@[simp] theorem Group.raise_xpc (g : Group) (k : EngClass) : (g.raise k).xpc = g.xpc := rfl
@[simp] theorem Group.raise_xval (g : Group) (k : EngClass) : (g.raise k).xval = g.xval := rfl
@[simp] theorem Group.raise_xmask (g : Group) (k : EngClass) : (g.raise k).xmask = g.xmask := rfl
@[simp] theorem Group.raise_inh (g : Group) (k : EngClass) : (g.raise k).inh = g.inh := rfl
@[simp] theorem Group.raise_hlanes (g : Group) (k : EngClass) : (g.raise k).hlanes = g.hlanes := rfl
@[simp] theorem Group.raise_wakeReason (g : Group) (k : EngClass) : (g.raise k).wakeReason = g.wakeReason := rfl
@[simp] theorem Group.raise_wakeGated (g : Group) (k : EngClass) : (g.raise k).wakeGated = g.wakeGated := rfl
@[simp] theorem Group.raise_starve (g : Group) (k : EngClass) : (g.raise k).starve = g.starve := rfl
@[simp] theorem Group.raise_status (g : Group) (k : EngClass) : (g.raise k).status = g.status := rfl
@[simp] theorem Group.raise_seq (g : Group) (k : EngClass) : (g.raise k).seq = g.seq := rfl
@[simp] theorem Group.raise_episodes (g : Group) (k : EngClass) : (g.raise k).episodes = g.episodes := rfl
@[simp] theorem Group.raise_sleeps (g : Group) (k : EngClass) : (g.raise k).sleeps = g.sleeps := rfl
@[simp] theorem Group.raise_lease (g : Group) (k : EngClass) : (g.raise k).lease = g.lease := rfl
@[simp] theorem Group.raise_pend (g : Group) (k : EngClass) : (g.raise k).pend = g.pend := rfl
@[simp] theorem Group.raise_dist (g : Group) (k : EngClass) : (g.raise k).dist = g.dist := rfl
@[simp] theorem Group.raise_busy (g : Group) (k : EngClass) : (g.raise k).busy = g.busy := rfl
@[simp] theorem Group.raise_due (g : Group) (k : EngClass) : (g.raise k).due = g.due := rfl
@[simp] theorem Group.raise_readyAt (g : Group) (k : EngClass) : (g.raise k).readyAt = g.readyAt := rfl
@[simp] theorem Group.raise_wait (g : Group) (k : EngClass) : (g.raise k).wait = g.wait := rfl
@[simp] theorem Group.raise_pendTraps (g : Group) (k : EngClass) : (g.raise k).pendTraps = g.pendTraps := rfl
@[simp] theorem Group.raise_fwOut (g : Group) (k : EngClass) : (g.raise k).fwOut = g.fwOut := rfl
@[simp] theorem Group.raise_begun (g : Group) (k : EngClass) : (g.raise k).begun = g.begun := rfl
@[simp] theorem Group.raise_fixedBy (g : Group) (k : EngClass) : (g.raise k).fixedBy = g.fixedBy := rfl

/-! ### Group.onLanes -/

@[simp] theorem Group.onLanes_id (g : Group) (m : W64) (f : Lane → Lane) : (g.onLanes m f).id = g.id := rfl
@[simp] theorem Group.onLanes_team (g : Group) (m : W64) (f : Lane → Lane) : (g.onLanes m f).team = g.team := rfl
@[simp] theorem Group.onLanes_grpidx (g : Group) (m : W64) (f : Lane → Lane) : (g.onLanes m f).grpidx = g.grpidx := rfl
@[simp] theorem Group.onLanes_slot (g : Group) (m : W64) (f : Lane → Lane) : (g.onLanes m f).slot = g.slot := rfl
@[simp] theorem Group.onLanes_slotIdx (g : Group) (m : W64) (f : Lane → Lane) : (g.onLanes m f).slotIdx = g.slotIdx := rfl
@[simp] theorem Group.onLanes_width (g : Group) (m : W64) (f : Lane → Lane) : (g.onLanes m f).width = g.width := rfl
@[simp] theorem Group.onLanes_v (g : Group) (m : W64) (f : Lane → Lane) : (g.onLanes m f).v = g.v := rfl
@[simp] theorem Group.onLanes_s (g : Group) (m : W64) (f : Lane → Lane) : (g.onLanes m f).s = g.s := rfl
@[simp] theorem Group.onLanes_m (g : Group) (m : W64) (f : Lane → Lane) : (g.onLanes m f).m = g.m := rfl
@[simp] theorem Group.onLanes_j (g : Group) (m : W64) (f : Lane → Lane) : (g.onLanes m f).j = g.j := rfl
@[simp] theorem Group.onLanes_k (g : Group) (m : W64) (f : Lane → Lane) : (g.onLanes m f).k = g.k := rfl
@[simp] theorem Group.onLanes_seg (g : Group) (m : W64) (f : Lane → Lane) : (g.onLanes m f).seg = g.seg := rfl
@[simp] theorem Group.onLanes_fst (g : Group) (m : W64) (f : Lane → Lane) : (g.onLanes m f).fst = g.fst := rfl
@[simp] theorem Group.onLanes_sbchk (g : Group) (m : W64) (f : Lane → Lane) : (g.onLanes m f).sbchk = g.sbchk := rfl
@[simp] theorem Group.onLanes_xcause (g : Group) (m : W64) (f : Lane → Lane) : (g.onLanes m f).xcause = g.xcause := rfl
@[simp] theorem Group.onLanes_xpc (g : Group) (m : W64) (f : Lane → Lane) : (g.onLanes m f).xpc = g.xpc := rfl
@[simp] theorem Group.onLanes_xval (g : Group) (m : W64) (f : Lane → Lane) : (g.onLanes m f).xval = g.xval := rfl
@[simp] theorem Group.onLanes_xmask (g : Group) (m : W64) (f : Lane → Lane) : (g.onLanes m f).xmask = g.xmask := rfl
@[simp] theorem Group.onLanes_inh (g : Group) (m : W64) (f : Lane → Lane) : (g.onLanes m f).inh = g.inh := rfl
@[simp] theorem Group.onLanes_hlanes (g : Group) (m : W64) (f : Lane → Lane) : (g.onLanes m f).hlanes = g.hlanes := rfl
@[simp] theorem Group.onLanes_wakeReason (g : Group) (m : W64) (f : Lane → Lane) : (g.onLanes m f).wakeReason = g.wakeReason := rfl
@[simp] theorem Group.onLanes_wakeGated (g : Group) (m : W64) (f : Lane → Lane) : (g.onLanes m f).wakeGated = g.wakeGated := rfl
@[simp] theorem Group.onLanes_starve (g : Group) (m : W64) (f : Lane → Lane) : (g.onLanes m f).starve = g.starve := rfl
@[simp] theorem Group.onLanes_counters (g : Group) (m : W64) (f : Lane → Lane) : (g.onLanes m f).counters = g.counters := rfl
@[simp] theorem Group.onLanes_status (g : Group) (m : W64) (f : Lane → Lane) : (g.onLanes m f).status = g.status := rfl
@[simp] theorem Group.onLanes_seq (g : Group) (m : W64) (f : Lane → Lane) : (g.onLanes m f).seq = g.seq := rfl
@[simp] theorem Group.onLanes_episodes (g : Group) (m : W64) (f : Lane → Lane) : (g.onLanes m f).episodes = g.episodes := rfl
@[simp] theorem Group.onLanes_sleeps (g : Group) (m : W64) (f : Lane → Lane) : (g.onLanes m f).sleeps = g.sleeps := rfl
@[simp] theorem Group.onLanes_lease (g : Group) (m : W64) (f : Lane → Lane) : (g.onLanes m f).lease = g.lease := rfl
@[simp] theorem Group.onLanes_pend (g : Group) (m : W64) (f : Lane → Lane) : (g.onLanes m f).pend = g.pend := rfl
@[simp] theorem Group.onLanes_dist (g : Group) (m : W64) (f : Lane → Lane) : (g.onLanes m f).dist = g.dist := rfl
@[simp] theorem Group.onLanes_busy (g : Group) (m : W64) (f : Lane → Lane) : (g.onLanes m f).busy = g.busy := rfl
@[simp] theorem Group.onLanes_due (g : Group) (m : W64) (f : Lane → Lane) : (g.onLanes m f).due = g.due := rfl
@[simp] theorem Group.onLanes_readyAt (g : Group) (m : W64) (f : Lane → Lane) : (g.onLanes m f).readyAt = g.readyAt := rfl
@[simp] theorem Group.onLanes_wait (g : Group) (m : W64) (f : Lane → Lane) : (g.onLanes m f).wait = g.wait := rfl
@[simp] theorem Group.onLanes_pendTraps (g : Group) (m : W64) (f : Lane → Lane) : (g.onLanes m f).pendTraps = g.pendTraps := rfl
@[simp] theorem Group.onLanes_fwOut (g : Group) (m : W64) (f : Lane → Lane) : (g.onLanes m f).fwOut = g.fwOut := rfl
@[simp] theorem Group.onLanes_begun (g : Group) (m : W64) (f : Lane → Lane) : (g.onLanes m f).begun = g.begun := rfl
@[simp] theorem Group.onLanes_fixedBy (g : Group) (m : W64) (f : Lane → Lane) : (g.onLanes m f).fixedBy = g.fixedBy := rfl

/-! ### Group.markBit -/

@[simp] theorem Group.markBit_id (g : Group) (n l : Nat) (b : Bool) : (g.markBit n l b).id = g.id := by
  simp [Group.markBit]
@[simp] theorem Group.markBit_team (g : Group) (n l : Nat) (b : Bool) : (g.markBit n l b).team = g.team := by
  simp [Group.markBit]
@[simp] theorem Group.markBit_grpidx (g : Group) (n l : Nat) (b : Bool) : (g.markBit n l b).grpidx = g.grpidx := by
  simp [Group.markBit]
@[simp] theorem Group.markBit_slot (g : Group) (n l : Nat) (b : Bool) : (g.markBit n l b).slot = g.slot := by
  simp [Group.markBit]
@[simp] theorem Group.markBit_slotIdx (g : Group) (n l : Nat) (b : Bool) : (g.markBit n l b).slotIdx = g.slotIdx := by
  simp [Group.markBit]
@[simp] theorem Group.markBit_width (g : Group) (n l : Nat) (b : Bool) : (g.markBit n l b).width = g.width := by
  simp [Group.markBit]
@[simp] theorem Group.markBit_lanes (g : Group) (n l : Nat) (b : Bool) : (g.markBit n l b).lanes = g.lanes := by
  simp [Group.markBit]
@[simp] theorem Group.markBit_seg (g : Group) (n l : Nat) (b : Bool) : (g.markBit n l b).seg = g.seg := by
  simp [Group.markBit]
@[simp] theorem Group.markBit_fst (g : Group) (n l : Nat) (b : Bool) : (g.markBit n l b).fst = g.fst := by
  simp [Group.markBit]
@[simp] theorem Group.markBit_sbchk (g : Group) (n l : Nat) (b : Bool) : (g.markBit n l b).sbchk = g.sbchk := by
  simp [Group.markBit]
@[simp] theorem Group.markBit_xcause (g : Group) (n l : Nat) (b : Bool) : (g.markBit n l b).xcause = g.xcause := by
  simp [Group.markBit]
@[simp] theorem Group.markBit_xpc (g : Group) (n l : Nat) (b : Bool) : (g.markBit n l b).xpc = g.xpc := by
  simp [Group.markBit]
@[simp] theorem Group.markBit_xval (g : Group) (n l : Nat) (b : Bool) : (g.markBit n l b).xval = g.xval := by
  simp [Group.markBit]
@[simp] theorem Group.markBit_xmask (g : Group) (n l : Nat) (b : Bool) : (g.markBit n l b).xmask = g.xmask := by
  simp [Group.markBit]
@[simp] theorem Group.markBit_inh (g : Group) (n l : Nat) (b : Bool) : (g.markBit n l b).inh = g.inh := by
  simp [Group.markBit]
@[simp] theorem Group.markBit_hlanes (g : Group) (n l : Nat) (b : Bool) : (g.markBit n l b).hlanes = g.hlanes := by
  simp [Group.markBit]
@[simp] theorem Group.markBit_wakeReason (g : Group) (n l : Nat) (b : Bool) : (g.markBit n l b).wakeReason = g.wakeReason := by
  simp [Group.markBit]
@[simp] theorem Group.markBit_wakeGated (g : Group) (n l : Nat) (b : Bool) : (g.markBit n l b).wakeGated = g.wakeGated := by
  simp [Group.markBit]
@[simp] theorem Group.markBit_starve (g : Group) (n l : Nat) (b : Bool) : (g.markBit n l b).starve = g.starve := by
  simp [Group.markBit]
@[simp] theorem Group.markBit_counters (g : Group) (n l : Nat) (b : Bool) : (g.markBit n l b).counters = g.counters := by
  simp [Group.markBit]
@[simp] theorem Group.markBit_status (g : Group) (n l : Nat) (b : Bool) : (g.markBit n l b).status = g.status := by
  simp [Group.markBit]
@[simp] theorem Group.markBit_seq (g : Group) (n l : Nat) (b : Bool) : (g.markBit n l b).seq = g.seq := by
  simp [Group.markBit]
@[simp] theorem Group.markBit_episodes (g : Group) (n l : Nat) (b : Bool) : (g.markBit n l b).episodes = g.episodes := by
  simp [Group.markBit]
@[simp] theorem Group.markBit_sleeps (g : Group) (n l : Nat) (b : Bool) : (g.markBit n l b).sleeps = g.sleeps := by
  simp [Group.markBit]
@[simp] theorem Group.markBit_lease (g : Group) (n l : Nat) (b : Bool) : (g.markBit n l b).lease = g.lease := by
  simp [Group.markBit]
@[simp] theorem Group.markBit_dist (g : Group) (n l : Nat) (b : Bool) : (g.markBit n l b).dist = g.dist := by
  simp [Group.markBit]
@[simp] theorem Group.markBit_busy (g : Group) (n l : Nat) (b : Bool) : (g.markBit n l b).busy = g.busy := by
  simp [Group.markBit]
@[simp] theorem Group.markBit_due (g : Group) (n l : Nat) (b : Bool) : (g.markBit n l b).due = g.due := by
  simp [Group.markBit]
@[simp] theorem Group.markBit_readyAt (g : Group) (n l : Nat) (b : Bool) : (g.markBit n l b).readyAt = g.readyAt := by
  simp [Group.markBit]
@[simp] theorem Group.markBit_wait (g : Group) (n l : Nat) (b : Bool) : (g.markBit n l b).wait = g.wait := by
  simp [Group.markBit]
@[simp] theorem Group.markBit_pendTraps (g : Group) (n l : Nat) (b : Bool) : (g.markBit n l b).pendTraps = g.pendTraps := by
  simp [Group.markBit]
@[simp] theorem Group.markBit_fwOut (g : Group) (n l : Nat) (b : Bool) : (g.markBit n l b).fwOut = g.fwOut := by
  simp [Group.markBit]
@[simp] theorem Group.markBit_begun (g : Group) (n l : Nat) (b : Bool) : (g.markBit n l b).begun = g.begun := by
  simp [Group.markBit]
@[simp] theorem Group.markBit_fixedBy (g : Group) (n l : Nat) (b : Bool) : (g.markBit n l b).fixedBy = g.fixedBy := by
  simp [Group.markBit]

end Sys2Proof.Machine
end

