-- ==== Sys2Proof/Laws/Memory.lean ====
section
/-! SUPPORT. Every memory operation keeps the canonical form of memory; translation and acquires leave memory alone. -/
namespace Sys2Proof.Machine

/-- A fold keeps what each of its steps keeps. -/
theorem foldl_keeps {α β : Type} (P : α → Prop) (f : α → β → α) (l : List β) (a : α) (h : P a)
    (hf : ∀ a b, P a → P (f a b)) : P (l.foldl f a) := by
  induction l generalizing a with
  | nil => exact h
  | cons b l ih => exact ih _ (hf a b h)

/-- Reset memory is canonical. -/
theorem reset_mem_wf : Memory.wf State.reset.chip.mem := rfl

variable {c : Chip}

/-! ## Home -/

@[simp] theorem Chip.dropWord_mem (c : Chip) (k wa : Nat) : (c.dropWord k wa).mem = c.mem := rfl

@[simp] theorem Chip.refreshWord_mem (c : Chip) (k wa : Nat) : (c.refreshWord k wa).mem = c.mem := rfl
@[simp] theorem Chip.l2Read_mem (c : Chip) (l : Nat) (o : Bool) : (c.l2Read l o).mem = c.mem := rfl

/-- What a write of a word does to memory. -/
theorem Chip.homeWriteWord_mem (c : Chip) (pa : Nat) (bs : List Byte) (s o : Option Nat) :
    (c.homeWriteWord pa bs s o).mem = putBytes c.mem pa bs := by
  simp only [Chip.homeWriteWord]
  cases (SMap.get 0 c.owners (pa / 4) != 0 && some (SMap.get 0 c.owners (pa / 4) - 1) != s) <;> cases o <;> rfl

theorem Chip.homeWriteWord_wf (pa : Nat) (bs : List Byte) (s o : Option Nat) (h : Memory.wf c.mem) :
    Memory.wf (c.homeWriteWord pa bs s o).mem := by
  rw [Chip.homeWriteWord_mem]
  exact putBytes_wf _ _ _ h

@[simp] theorem Chip.reform_mem (c : Chip) (b m : Nat) : (c.reform b m).mem = c.mem := by
  unfold Chip.reform; split <;> rfl

theorem Chip.homeWrite_wf (pa : Nat) (bs : List Byte) (m : Nat) (s o : Option Nat) (h : Memory.wf c.mem) :
    Memory.wf (c.homeWrite pa bs m s o).mem := by
  unfold Chip.homeWrite
  refine foldl_keeps (fun c : Chip => Memory.wf c.mem) _ _ _ ?_ fun c i hc => by simpa using hc
  exact foldl_keeps (fun c : Chip => Memory.wf c.mem) _ _ _ h fun c p hc => Chip.homeWriteWord_wf _ _ _ _ hc

theorem Chip.unitWrite_wf (pa : Nat) (bs : List Byte) (m : Nat) (h : Memory.wf c.mem) :
    Memory.wf (c.unitWrite pa bs m).mem := Chip.homeWrite_wf _ _ _ _ _ h

@[simp] theorem Chip.l2Access_mem (c : Chip) (p : Phys) (n : Nat) : (c.l2Access p n).mem = c.mem := by
  unfold Chip.l2Access; split <;> rfl

theorem Chip.pageWrite_wf (p : Phys) (bs : List Byte) (h : Memory.wf c.mem) : Memory.wf (c.pageWrite p bs).mem :=
  Chip.unitWrite_wf _ _ _ ((Chip.l2Access_mem c p bs.length).symm ▸ h)

/-! ## The quench buffer -/

theorem Chip.quenchApply_wf (q : QuenchEntry) (h : Memory.wf c.mem) : Memory.wf (c.quenchApply q).mem := by
  simp only [Chip.quenchApply, Chip.reform_mem]
  refine foldl_keeps (fun c : Chip => Memory.wf c.mem) _ _ _
    (foldl_keeps (fun c : Chip => Memory.wf c.mem) _ _ _ h fun _ _ hc => hc) fun c i hc => ?_
  split
  · exact Chip.homeWriteWord_wf _ _ _ _ hc
  · exact foldl_keeps (fun c : Chip => Memory.wf c.mem) _ _ _ hc fun c b hc => Chip.homeWriteWord_wf _ _ _ _ hc

theorem Chip.quenchSome_wf (k : Nat) (w p : QuenchEntry → Bool) (h : Memory.wf c.mem) :
    Memory.wf (c.quenchSome k w p).mem := by
  simp only [Chip.quenchSome]
  exact foldl_keeps (fun c : Chip => Memory.wf c.mem) _ _ _ h fun c q hc => Chip.quenchApply_wf _ hc

theorem Chip.quenchLeave_wf (k : Nat) (p : QuenchEntry → Bool) (h : Memory.wf c.mem) :
    Memory.wf (c.quenchLeave k p).mem := Chip.quenchSome_wf _ _ _ h

theorem Chip.quenchTimed_wf (k x : Nat) (p : QuenchEntry → Bool) (h : Memory.wf c.mem) :
    Memory.wf (c.quenchTimed k x p).mem := Chip.quenchSome_wf _ _ _ h

theorem Chip.quenchDrain_wf (k : Nat) (h : Memory.wf c.mem) : Memory.wf (c.quenchDrain k).mem :=
  Chip.quenchLeave_wf _ _ h

theorem Chip.leaveCore_wf (k x : Nat) (ss : List (Nat × Nat)) (pa : Nat) (bs : List Byte) (m : Nat) (o : Option Nat)
    (w : Bool) (h : Memory.wf c.mem) : Memory.wf (c.leaveCore k x ss pa bs m o w).mem := by
  unfold Chip.leaveCore
  split
  · have h1 := Chip.quenchLeave_wf (c := c) k
      (fun q => q.block == pa / 512 && q.bytes.any fun b => b.1 / 4 == pa % 512 / 4) h
    dsimp only
    split <;> exact Chip.homeWrite_wf _ _ _ _ _ h1
  · have last : ∀ d : Chip, Memory.wf d.mem → ∀ w : Nat,
        Memory.wf (if w = 0 then d.quenchTimed k x fun q => q.block == pa / 512 else d).mem := fun d hd w => by
      split
      · exact Chip.quenchTimed_wf _ _ _ hd
      · exact hd
    refine last _ (Chip.quenchLeave_wf _ _ ?_) _
    have h1 := Chip.quenchLeave_wf (c := c) k (fun q => q.block == pa / 512 && q.ctx != x) h
    dsimp only
    revert h1
    generalize c.quenchLeave k (fun q => q.block == pa / 512 && q.ctx != x) = d
    intro h1
    cases d.quench.any fun q => q.core == k && q.block == pa / 512
    · simp only [cond_false]
      split
      · exact h1
      · exact Chip.quenchLeave_wf _ _ h1
    · exact h1

/-! ## The L1 -/

@[simp] theorem Chip.setLine_mem (c : Chip) (l : L1Line) : (c.setLine l).mem = c.mem := rfl
@[simp] theorem Chip.touch_mem (c : Chip) (k l : Nat) : (c.touch k l).mem = c.mem := rfl
@[simp] theorem Chip.countMiss_mem (c : Chip) (k l : Nat) (o : LineOwner) : (c.countMiss k l o).mem = c.mem := by
  unfold Chip.countMiss; split <;> rfl
@[simp] theorem Chip.fillLine_mem (c : Chip) (k l : Nat) : (c.fillLine k l).mem = c.mem := by
  unfold Chip.fillLine; split <;> rfl

theorem Chip.cleanLine_wf (l : L1Line) (h : Memory.wf c.mem) : Memory.wf (c.cleanLine l).mem := by
  simp only [Chip.cleanLine]
  exact foldl_keeps (fun c : Chip => Memory.wf c.mem) _ _ _ h fun c i hc => Chip.leaveCore_wf _ _ _ _ _ _ _ _ hc

theorem Chip.evict_wf (l : L1Line) (h : Memory.wf c.mem) : Memory.wf (c.evict l).mem := Chip.cleanLine_wf l h

theorem Chip.allocLine_wf (k l : Nat) (o : LineOwner) (x m : Nat) (h : Memory.wf c.mem) :
    Memory.wf (c.allocLine k l o x m).mem := by
  simp only [Chip.allocLine]
  split
  · exact h
  · split
    · exact h
    · exact Chip.evict_wf _ h

theorem Chip.loadWord_wf (w : Accessor) (p : Phys) (h : Memory.wf c.mem) : Memory.wf (c.loadWord w p).1.mem := by
  have h1 := Chip.quenchLeave_wf (c := c) w.core (fun q => q.block == p.pa / 512) h
  unfold Chip.loadWord
  dsimp only
  split
  · split
    · exact h1
    · simp only [Chip.touch_mem, Chip.fillLine_mem, Chip.countMiss_mem]
      cases (Chip.line? (c.quenchLeave w.core fun q => q.block == p.pa / 512) w.core (p.pa / 4 / 32)).isSome
      · exact Chip.allocLine_wf _ _ _ _ _ h1
      · exact h1
  · split <;> exact h1

theorem Chip.loadBytes_wf (w : Accessor) (p : Phys) (n : Nat) (h : Memory.wf c.mem) :
    Memory.wf (c.loadBytes w p n).1.mem := by
  unfold Chip.loadBytes
  split
  · have := Chip.loadWord_wf (c := c) w { p with pa := p.pa / 4 * 4 } h
    split
    · next heq => rw [heq] at this; exact this
    · next heq => rw [heq] at this; exact this
  · refine foldl_keeps (fun a : Chip × Option Nat => Memory.wf a.1.mem) _ _ _ h fun a i ha => ?_
    split
    · exact ha
    · next d v =>
      have := Chip.loadWord_wf (c := d) w { p with pa := p.pa + 4 * i } ha
      split
      · next heq => rw [heq] at this; exact this
      · next heq => rw [heq] at this; exact this

theorem Chip.storeCached_wf (w : Accessor) (p : Phys) (bs : List Byte) (h : Memory.wf c.mem) :
    Memory.wf (c.storeCached w p bs).mem := by
  unfold Chip.storeCached
  dsimp only
  split
  · split
    · exact h
    · split
      · exact h
      · exact Chip.leaveCore_wf _ _ _ _ _ _ _ _ h
  · split
    · simpa using Chip.allocLine_wf _ _ _ _ _ h
    · exact Chip.leaveCore_wf _ _ _ _ _ _ _ _ h

theorem Chip.storeThrough_wf (w : Accessor) (p : Phys) (bs : List Byte) (h : Memory.wf c.mem) :
    Memory.wf (c.storeThrough w p bs).mem := by
  unfold Chip.storeThrough
  dsimp only
  split
  · split
    · split <;> exact Chip.leaveCore_wf _ _ _ _ _ _ _ _ h
    · exact Chip.leaveCore_wf _ _ _ _ _ _ _ _ h
  · exact Chip.leaveCore_wf _ _ _ _ _ _ _ _ h

theorem Chip.storeWord_wf (w : Accessor) (p : Phys) (bs : List Byte) (h : Memory.wf c.mem) :
    Memory.wf (c.storeWord w p bs).mem := by
  unfold Chip.storeWord
  split
  · exact Chip.storeCached_wf _ _ _ h
  · exact Chip.homeWrite_wf _ _ _ _ _ h
  · exact Chip.storeThrough_wf _ _ _ h

theorem Chip.storeBytes_wf (w : Accessor) (p : Phys) (bs : List Byte) (h : Memory.wf c.mem) :
    Memory.wf (c.storeBytes w p bs).mem :=
  foldl_keeps (fun c : Chip => Memory.wf c.mem) _ _ _ h fun _ _ hc => Chip.storeWord_wf _ _ _ hc

/-! ## Releases and acquires -/

theorem Chip.registerAll_wf (k : Nat) (h : Memory.wf c.mem) : Memory.wf (c.registerAll k).mem := by
  unfold Chip.registerAll
  refine Chip.quenchDrain_wf _ ?_
  exact foldl_keeps (fun c : Chip => Memory.wf c.mem) _ _ _ (Chip.quenchDrain_wf _ h) fun _ _ hc => Chip.cleanLine_wf _ hc

theorem Chip.release_wf (k : Nat) (sc : Scope) (h : Memory.wf c.mem) : Memory.wf (c.release k sc).mem := by
  cases sc
  · exact h
  · exact h
  · exact Chip.registerAll_wf _ h
  · exact Chip.registerAll_wf _ h

/-- An acquire changes nothing but the L1. -/
theorem Chip.acquire_eq (c : Chip) (k : Nat) (sc : Scope) : c.acquire k sc = { c with l1 := (c.acquire k sc).l1 } := by
  cases sc <;> rfl

/-! ## Translation -/

/-- Filling a TLB changes nothing but the TLB and the counter of free values. -/
theorem Chip.tlbFill_eq (c : Chip) (n : Nat) (e : TlbEntry) :
    c.tlbFill n e = { c with tlb := (c.tlbFill n e).tlb, fresh := (c.tlbFill n e).fresh } := by
  unfold Chip.tlbFill
  dsimp only
  generalize (if n < Config.cores then Config.coreTlb else Config.dieTlb) = cap
  split <;> rfl

/-- Finding a leaf changes nothing but the TLB and the counter of free values. -/
theorem Chip.leaf_eq (c : Chip) (x va : Nat) (ps : List Nat) :
    (c.leaf x va ps).1 = { c with tlb := (c.leaf x va ps).1.tlb, fresh := (c.leaf x va ps).1.fresh } := by
  induction ps generalizing c with
  | nil => rfl
  | cons p ps ih =>
    unfold Chip.leaf
    split
    · rfl
    · have h := ih c
      split
      · next d e heq =>
        rw [heq] at h
        dsimp only at h ⊢
        rw [Chip.tlbFill_eq d p e, h]
      · next d f heq =>
        rw [heq] at h
        exact h

/-- Translation changes nothing but the TLB and the counter of free values. -/
theorem Chip.translate_eq (c : Chip) (ps : List Nat) (x va n : Nat) (a : Access) :
    (c.translate ps x va n a).1 =
      { c with tlb := (c.translate ps x va n a).1.tlb, fresh := (c.translate ps x va n a).1.fresh } := by
  unfold Chip.translate
  split
  · rfl
  · have h := Chip.leaf_eq c x va ps
    split
    · next heq => rw [heq] at h; exact h
    · next heq => rw [heq] at h; exact h

/-! ## Reading home memory back -/

/-- A word written at home reads back, and every byte outside it reads as before. -/
theorem Chip.byte_homeWriteWord (pa b : Nat) (bs : List Byte) (s o : Option Nat) :
    (c.homeWriteWord pa bs s o).byte b = if pa ≤ b ∧ b < pa + bs.length then bs[b - pa]?.getD 0#8 else c.byte b := by
  rw [Chip.byte, Chip.homeWriteWord_mem]
  exact get_putBytes _ _ _ _

end Sys2Proof.Machine
end

