-- ==== Sys2Proof/Laws/Registers.lean ====
section
/-! SUPPORT. What a register reads after a write, at once and once every pending write has completed. -/
namespace Sys2Proof.Machine

/-- Lane values written into the lane registers, read back. -/
theorem get_vput (n : Nat) (x : SMap W64) (m : SMap W32) (r l : Nat) (hl : l < 64) :
    SMap.get 0#32 (x.foldl (fun v p => if p.1 < 64 then SMap.put 0#32 v (64 * n + p.1) (p.2.setWidth 32) else v) m)
        (64 * r + l) =
      if r = n then
        match x.reverse.find? (fun p => p.1 == l) with
        | some p => p.2.setWidth 32
        | none => SMap.get 0#32 m (64 * r + l)
      else SMap.get 0#32 m (64 * r + l) := by
  induction x generalizing m with
  | nil => simp
  | cons p x ih =>
    obtain ⟨k, v⟩ := p
    rw [List.foldl_cons, ih]
    rw [List.reverse_cons, List.find?_append]
    by_cases hr : r = n
    · subst hr
      simp only [if_true]
      cases hf : x.reverse.find? (fun p => p.1 == l) with
      | some q => simp
      | none =>
        simp only [Option.none_or]
        by_cases hk : k = l
        · subst hk
          simp [hl, SMap.get_put]
        · have h1 : (k == l) = false := by simpa using hk
          simp only [List.find?_cons, h1, List.find?_nil]
          split
          · rw [SMap.get_put, if_neg (by omega)]
          · rfl
    · simp only [hr, if_false]
      split
      · rw [SMap.get_put, if_neg (by omega)]
      · rfl

/-- A lane register after a write of it. -/
theorem Group.reg_poke_v (g : Group) (n : Nat) (x : SMap W64) (l : Nat) (hl : l < 64) :
    (g.poke (.v n) x).reg (.v n) l =
      match x.reverse.find? (fun p => p.1 == l) with
      | some p => (p.2.setWidth 32).setWidth 64
      | none => g.reg (.v n) l := by
  simp only [Group.reg, Group.vreg, Group.poke, get_vput _ _ _ _ _ hl, if_true]
  split <;> rfl

/-- A value for each of some lanes, read back. -/
theorem find_lanes (ls : List Nat) (f : Nat → W64) (l : Nat) :
    (ls.map fun k => (k, f k)).reverse.find? (fun p => p.1 == l) = if l ∈ ls then some (l, f l) else none := by
  split
  · next h =>
    have : ((ls.map fun k => (k, f k)).reverse.find? (fun p => p.1 == l)).isSome = true := by
      rw [List.find?_isSome]
      exact ⟨(l, f l), List.mem_reverse.2 (List.mem_map.2 ⟨l, h, rfl⟩), by simp⟩
    obtain ⟨p, hp⟩ := Option.isSome_iff_exists.1 this
    have h1 := List.find?_some hp
    have h2 := List.mem_of_find?_eq_some hp
    simp only [List.mem_reverse, List.mem_map] at h2
    obtain ⟨a, _, rfl⟩ := h2
    have h1 : a = l := by simpa using h1
    subst h1; exact hp
  · next h =>
    rw [List.find?_eq_none]
    rintro p hp hl
    simp only [List.mem_reverse, List.mem_map] at hp
    obtain ⟨a, ha, rfl⟩ := hp
    have : a = l := by simpa using hl
    subst this; exact h ha

/-- Other registers are as they were. -/
theorem Group.reg_poke_other (g : Group) (q r : RegName) (x : SMap W64) (l : Nat) (hl : l < 64) (h : q ≠ r) :
    (g.poke q x).reg r l = g.reg r l := by
  cases q with
  | v n =>
    cases r with
    | v m =>
      have : m ≠ n := fun e => h (by rw [e])
      simp only [Group.reg, Group.vreg, Group.poke, get_vput _ _ _ _ _ hl, if_neg this]
    | _ => rfl
  | s n =>
    cases r with
    | s m =>
      have : m ≠ n := fun e => h (by rw [e])
      simp only [Group.reg, Group.sreg, Group.poke, SMap.get_put, if_neg this]
    | _ => rfl
  | m n =>
    cases r with
    | m k =>
      have : k ≠ n := fun e => h (by rw [e])
      simp only [Group.reg, Group.mreg, Group.poke]
      by_cases hn : n = 0 <;> simp [hn, SMap.get_put, this]
    | _ => simp only [Group.poke]; split <;> rfl
  | j n =>
    cases r with
    | j m =>
      have : m ≠ n := fun e => h (by rw [e])
      simp only [Group.reg, Group.jreg, Group.poke, SMap.get_put, if_neg this]
    | _ => rfl
  | k n =>
    cases r with
    | k m =>
      have : m ≠ n := fun e => h (by rw [e])
      simp only [Group.reg, Group.kreg, Group.poke]
      by_cases hn : n = 0 <;> simp [hn, SMap.get_put, this]
    | _ => simp only [Group.poke]; split <;> rfl

/-- A scalar register after a write of it. -/
theorem Group.reg_poke_s (g : Group) (n : Nat) (x : SMap W64) (l : Nat) :
    (g.poke (.s n) x).reg (.s n) l = SMap.get 0#64 x 0 := by
  simp [Group.reg, Group.sreg, Group.poke, SMap.get_put]

/-- A mask register after a write of it; m0 stays all ones (R80). -/
theorem Group.reg_poke_m (g : Group) (n : Nat) (x : SMap W64) (l : Nat) :
    (g.poke (.m n) x).reg (.m n) l = if n = 0 then BitVec.allOnes 64 else SMap.get 0#64 x 0 := by
  simp only [Group.reg, Group.mreg, Group.poke]
  split
  · rfl
  · simp [SMap.get_put]

/-- A join register after a write of it (R49). -/
theorem Group.reg_poke_j (g : Group) (n : Nat) (x : SMap W64) (l : Nat) :
    (g.poke (.j n) x).reg (.j n) l = SMap.get 0#64 x 0 &&& fullMask g.width &&& ~~~g.exited := by
  simp [Group.reg, Group.jreg, Group.poke, SMap.get_put]

/-- A tile predicate after a write of it; k0 stays all ones (R80). -/
theorem Group.reg_poke_k (g : Group) (n : Nat) (x : SMap W64) (l : Nat) :
    (g.poke (.k n) x).reg (.k n) l = if n = 0 then BitVec.allOnes 64 else SMap.get 0#64 x 0 := by
  simp only [Group.reg, Group.kreg, Group.poke]
  split
  · rfl
  · simp [SMap.get_put]

/-! ## Pending writes -/

/-- Groups whose register r reads alike and whose lanes and width agree still do after the same write. -/
theorem Group.reg_poke_congr (g h : Group) (q r : RegName) (x : SMap W64) (l : Nat) (hl : l < 64)
    (hr : g.reg r l = h.reg r l) (hw : g.width = h.width) (hx : g.lanes = h.lanes) :
    (g.poke q x).reg r l = (h.poke q x).reg r l := by
  by_cases hq : q = r
  · subst hq
    cases q with
    | v n => rw [Group.reg_poke_v _ _ _ _ hl, Group.reg_poke_v _ _ _ _ hl, hr]
    | s n => rw [Group.reg_poke_s, Group.reg_poke_s]
    | m n => rw [Group.reg_poke_m, Group.reg_poke_m]
    | j n =>
      rw [Group.reg_poke_j, Group.reg_poke_j]
      have : g.exited = h.exited := by simp only [Group.exited, Group.maskBy, hw, hx]
      rw [hw, this]
    | k n => rw [Group.reg_poke_k, Group.reg_poke_k]
  · rw [Group.reg_poke_other _ _ _ _ _ hl hq, Group.reg_poke_other _ _ _ _ _ hl hq, hr]

theorem Group.reg_pokeAll_congr (g h : Group) (ps : List PendWrite) (r : RegName) (l : Nat) (hl : l < 64)
    (hr : g.reg r l = h.reg r l) (hw : g.width = h.width) (hx : g.lanes = h.lanes) :
    (g.pokeAll ps).reg r l = (h.pokeAll ps).reg r l := by
  induction ps generalizing g h with
  | nil => exact hr
  | cons p ps ih =>
    exact ih _ _ (Group.reg_poke_congr g h _ _ _ _ hl hr hw hx) (by simpa using hw) (by simpa using hx)

/-- Pending writes of other registers leave a register as it is. -/
theorem Group.reg_pokeAll_other (g : Group) (ps : List PendWrite) (r : RegName) (l : Nat) (hl : l < 64)
    (h : ∀ p ∈ ps, p.reg ≠ r) : (g.pokeAll ps).reg r l = g.reg r l := by
  induction ps generalizing g with
  | nil => rfl
  | cons p ps ih =>
    have := ih (g.poke p.reg p.values) fun q hq => h q (List.mem_cons_of_mem _ hq)
    exact this.trans (Group.reg_poke_other _ _ _ _ _ hl (h p List.mem_cons_self))

/-- One more pending write, of another register, makes no difference to a register. -/
theorem Group.reg_pokeAll_insert (g : Group) (x : PendWrite) (ps : List PendWrite) (f : PendWrite → Nat) (r : RegName)
    (l : Nat) (hl : l < 64) (h : x.reg ≠ r) : (g.pokeAll (insertBy f x ps)).reg r l = (g.pokeAll ps).reg r l := by
  have one : ∀ (g : Group) (ps : List PendWrite), (g.pokeAll (x :: ps)).reg r l = (g.pokeAll ps).reg r l := by
    intro g ps
    exact Group.reg_pokeAll_congr _ _ _ _ _ hl (Group.reg_poke_other _ _ _ _ _ hl h) (by simp) (by simp)
  induction ps generalizing g with
  | nil => exact one g []
  | cons p ps ih =>
    simp only [insertBy]
    split
    · exact one g (p :: ps)
    · exact ih _

/-- The only pending write of a register decides what it will hold. -/
theorem Group.reg_pokeAll_insert_self (g : Group) (x : PendWrite) (ps : List PendWrite) (f : PendWrite → Nat)
    (l : Nat) (hl : l < 64) (h : ∀ p ∈ ps, p.reg ≠ x.reg) :
    (g.pokeAll (insertBy f x ps)).reg x.reg l = (g.poke x.reg x.values).reg x.reg l := by
  induction ps generalizing g with
  | nil => rfl
  | cons p ps ih =>
    simp only [insertBy]
    split
    · exact Group.reg_pokeAll_other (g.poke x.reg x.values) (p :: ps) _ _ hl h
    · refine (ih (g.poke p.reg p.values) fun q hq => h q (List.mem_cons_of_mem _ hq)).trans ?_
      exact Group.reg_poke_congr _ _ _ _ _ _ hl
        (Group.reg_poke_other _ _ _ _ _ hl (h p List.mem_cons_self)) (by simp) (by simp)

/-- Reading a group does not depend on its list of pending writes. -/
theorem Group.reg_pend (g : Group) (ps : List PendWrite) (r : RegName) (l : Nat) :
    Group.reg { g with pend := ps } r l = g.reg r l := by cases r <;> rfl

theorem Group.reg_pokeAll_pend (g : Group) (qs ps : List PendWrite) (r : RegName) (l : Nat) (hl : l < 64) :
    (Group.pokeAll { g with pend := qs } ps).reg r l = (g.pokeAll ps).reg r l :=
  Group.reg_pokeAll_congr _ _ _ _ _ hl (Group.reg_pend _ _ _ _) rfl rfl

theorem Group.regEnd_eq (g : Group) (r : RegName) (l : Nat) : g.regEnd r l = (g.pokeAll g.pend).reg r l := by
  simp only [Group.regEnd, Group.commitAll, Group.reg_pend]

/-- Cutting the pending writes of a register makes no difference to another. -/
theorem Group.reg_pokeAll_cut (g : Group) (q r : RegName) (x : SMap W64) (ps : List PendWrite) (l : Nat)
    (hl : l < 64) (h : q ≠ r) :
    (g.pokeAll ((ps.map fun p =>
      if p.reg = q then { p with values := p.values.filter fun y => !(x.any fun z => z.1 == y.1) } else p).filter
        fun p => p.reg != q || !p.values.isEmpty)).reg r l = (g.pokeAll ps).reg r l := by
  induction ps generalizing g with
  | nil => rfl
  | cons p ps ih =>
    by_cases hp : p.reg = q
    · subst hp
      simp only [List.map_cons, if_true, List.filter_cons, bne_self_eq_false, Bool.false_or]
      have key : ∀ v, (g.poke p.reg v).reg r l = (g.poke p.reg p.values).reg r l := fun v => by
        rw [Group.reg_poke_other _ _ _ _ _ hl h, Group.reg_poke_other _ _ _ _ _ hl h]
      split
      · exact (ih _).trans (Group.reg_pokeAll_congr _ _ _ _ _ hl (key _) (by simp) (by simp))
      · refine (ih g).trans (Group.reg_pokeAll_congr _ _ _ _ _ hl ?_ (by simp) (by simp))
        rw [Group.reg_poke_other _ _ _ _ _ hl h]
    · have h1 : (p.reg != q) = true := by simpa using hp
      simp only [List.map_cons, hp, if_false, List.filter_cons, h1, Bool.true_or, if_true]
      exact ih _

/-- With no pending write of a register, replacing them changes nothing. -/
theorem Group.forget_settled (g : Group) (r : RegName) (x : SMap W64) (h : g.settled r = true) : g.forget r x = g := by
  have h' : ∀ p ∈ g.pend, p.reg ≠ r := by simpa [Group.settled] using h
  have : (g.pend.map fun p =>
      if p.reg = r then { p with values := p.values.filter fun y => !(x.any fun z => z.1 == y.1) } else p).filter
        (fun p => p.reg != r || !p.values.isEmpty) = g.pend := by
    have e : (g.pend.map fun p =>
        if p.reg = r then { p with values := p.values.filter fun y => !(x.any fun z => z.1 == y.1) } else p) = g.pend := by
      exact (List.map_congr_left (g := fun p => p) fun p hp => by simp [h' p hp]).trans (List.map_id' _)
    rw [e, List.filter_eq_self]
    intro p hp; simp [h' p hp]
  simp only [Group.forget, this]

/-- A write of a register leaves what every other register will hold. -/
theorem Group.regEnd_write_other (g : Group) (p lat : Nat) (q r : RegName) (x : SMap W64) (l : Nat) (hl : l < 64)
    (h : q ≠ r) : (g.write p lat q x).regEnd r l = g.regEnd r l := by
  rw [Group.regEnd_eq, Group.regEnd_eq]
  unfold Group.write
  split
  · rw [Group.poke_pend]
    refine (Group.reg_pokeAll_congr _ (g.forget q x) _ _ _ hl (Group.reg_poke_other _ _ _ _ _ hl h) (by simp)
      (by simp)).trans ?_
    exact (Group.reg_pokeAll_pend g _ _ _ _ hl).trans (Group.reg_pokeAll_cut g q r x g.pend l hl h)
  · exact (Group.reg_pokeAll_pend g _ _ _ _ hl).trans
      (Group.reg_pokeAll_insert g { reg := q, values := x, ready := p + lat } g.pend _ r l hl h)

/-- A write of a register with no write pending decides what the register will hold. -/
theorem Group.regEnd_write_self (g : Group) (p lat : Nat) (r : RegName) (x : SMap W64) (l : Nat) (hl : l < 64)
    (h : g.settled r = true) : (g.write p lat r x).regEnd r l = (g.poke r x).reg r l := by
  have h' : ∀ p ∈ g.pend, p.reg ≠ r := by simpa [Group.settled] using h
  rw [Group.regEnd_eq]
  unfold Group.write
  split
  · rw [Group.forget_settled g r x h, Group.poke_pend]
    exact Group.reg_pokeAll_other _ _ _ _ hl h'
  · exact (Group.reg_pokeAll_pend g _ _ _ _ hl).trans
      (Group.reg_pokeAll_insert_self g { reg := r, values := x, ready := p + lat } g.pend _ l hl h')

/-- A write of a register leaves the others settled. -/
theorem Group.settled_write (g : Group) (p lat : Nat) (q r : RegName) (x : SMap W64) (h : q ≠ r)
    (hs : g.settled r = true) : (g.write p lat q x).settled r = true := by
  have h' : ∀ p ∈ g.pend, p.reg ≠ r := by simpa [Group.settled] using hs
  have ins : ∀ (y : PendWrite) (ps : List PendWrite), (∀ z ∈ ps, z.reg ≠ r) → y.reg ≠ r →
      ∀ z ∈ insertBy (·.ready) y ps, z.reg ≠ r := by
    intro y ps hps hy
    induction ps with
    | nil => intro z hz; simp only [insertBy, List.mem_singleton] at hz; rw [hz]; exact hy
    | cons w ps ih =>
      intro z hz
      simp only [insertBy] at hz
      split at hz
      · rcases List.mem_cons.1 hz with rfl | hz
        · exact hy
        · exact hps z hz
      · rcases List.mem_cons.1 hz with rfl | hz
        · exact hps _ List.mem_cons_self
        · exact ih (fun v hv => hps v (List.mem_cons_of_mem _ hv)) z hz
  have goal : ∀ z ∈ (g.write p lat q x).pend, z.reg ≠ r := by
    unfold Group.write
    split
    · rw [Group.poke_pend]
      intro z hz
      simp only [Group.forget, List.mem_filter, List.mem_map] at hz
      obtain ⟨⟨w, hw, rfl⟩, _⟩ := hz
      have := h' w hw
      split <;> exact this
    · exact ins _ _ h' h
  simpa [Group.settled] using goal

end Sys2Proof.Machine
end

