-- ==== Sys2Proof/Laws/Issue.lean ====
section
/-! SUPPORT. What the issue of an instruction comes to, and what the shared result operations leave in a group. -/
namespace Sys2Proof.Machine

variable {s : State} {i : Instr} {x : Issue}

/-! ## The issue -/

/-- An instruction that issues carries out its effect. -/
theorem issueC_of (h : Issues s i x) (f : Issue → Chip → Eff Chip) :
    issueC i s f = .next { s with chip :=
      (if x.g0.begun then s.chip else s.chip.acquire x.core .dev).settle x (f x (x.chip0 s)) } := by
  unfold issueC issueMore
  rw [h.group]
  have h1 := h.free
  have h2 := h.spaced
  simp only [List.append_nil, List.map_nil, h1, h2, h.unfenced, Bool.or_false, Bool.false_eq_true, if_false, Issue.chip0]

/-- The same with registers that the encoding alone does not give. -/
theorem issueMore_of (h : Issues s i x) (more : Chip → Issue → List RegName × List RegName)
    (f : Issue → Chip → Eff Chip)
    (hm : x.g0.mustWait x.now (readsOf i x.g.width ++ (more s.chip x).1)
      (writesOf i x.g.width ++ (more s.chip x).2.map fun r => (r, 0)) = false)
    (hp : (x.g0.sbchk && x.g0.stallShort x.pos (readsOf i x.g.width ++ (more s.chip x).1)
      (writesOf i x.g.width ++ (more s.chip x).2.map fun r => (r, 0))) = false) :
    issueMore i s more f = .next { s with chip :=
      (if x.g0.begun then s.chip else s.chip.acquire x.core .dev).settle x (f x (x.chip0 s)) } := by
  unfold issueMore
  rw [h.group]
  simp only [hm, hp, h.unfenced, Bool.or_false, Bool.false_eq_true, if_false, Issue.chip0]

/-- An instruction with an effect in its group that always comes about. -/
theorem issueOk_of (h : Issues s i x) (f : Issue → Group) :
    issueOk i s f = .next { s with chip := (x.chip0 s).setGroup (f x) } := by
  unfold issueOk issueG
  rw [issueC_of h]
  rfl

/-- An instruction whose effect within its group comes about. -/
theorem issueG_ok (h : Issues s i x) (f : Issue → Eff Group) (g : Group) (hf : f x = .ok g) :
    issueG i s f = .next { s with chip := (x.chip0 s).setGroup g } := by
  unfold issueG
  rw [issueC_of h]
  simp only [hf, Eff.map, Chip.settle]

/-- An instruction whose effect on the chip comes about. -/
theorem issueC_ok (h : Issues s i x) (f : Issue → Chip → Eff Chip) (c : Chip) (hf : f x (x.chip0 s) = .ok c) :
    issueC i s f = .next { s with chip := c } := by
  rw [issueC_of h, hf]; rfl

/-- No byte of memory changes before an effect. -/
theorem Issue.chip0_mem (x : Issue) (s : State) : (x.chip0 s).mem = s.chip.mem := by
  unfold Issue.chip0
  split
  · rfl
  · rw [Chip.acquire_eq]; rfl

/-- Lanes of an issue are numbers below 64. -/
theorem Issue.lanes_lt {x : Issue} {l : Nat} (h : l ∈ x.lanes) : l < 64 := by
  simp only [Issue.lanes, lanesOf, List.mem_filter] at h
  exact BitVec.lt_of_getLsbD h.2

/-! ## Frames -/

theorem Group.FrameOf.refl (g : Group) (ws : List RegName) (fl : Bool) : g.FrameOf g ws fl :=
  ⟨fun _ _ _ _ => rfl, fun _ => rfl, rfl⟩

theorem Group.write_bare (g : Group) (p l : Nat) (r : RegName) (y : SMap W64) : (g.write p l r y).bare = g.bare := by
  unfold Group.write
  split
  · cases r <;> simp only [Group.poke] <;> (try split) <;> rfl
  · rfl

theorem Group.FrameOf.write {g g0 : Group} {ws : List RegName} {fl : Bool} (h : g.FrameOf g0 ws fl) (p l : Nat)
    (r : RegName) (y : SMap W64) (hr : r ∈ ws) : (g.write p l r y).FrameOf g0 ws fl := by
  refine ⟨fun q hq k hk => ?_, fun hf => ?_, ?_⟩
  · rw [Group.regEnd_write_other _ _ _ _ _ _ _ hk (by rintro rfl; exact hq hr)]
    exact h.regs q hq k hk
  · rw [Group.write_fst]; exact h.flags hf
  · rw [Group.write_bare]; exact h.rest

/-- A larger list of registers frames as well. -/
theorem Group.FrameOf.mono {g g0 : Group} {ws us : List RegName} {fl : Bool} (h : g.FrameOf g0 ws fl)
    (hs : ∀ r ∈ ws, r ∈ us) : g.FrameOf g0 us fl :=
  ⟨fun r hr => h.regs r fun e => hr (hs r e), h.flags, h.rest⟩

/-- Raising flags changes no register. -/
theorem Group.regEnd_raiseFlags (g : Group) (f : Flags) (r : RegName) (l : Nat) (hl : l < 64) :
    (g.raiseFlags f).regEnd r l = g.regEnd r l := by
  rw [Group.regEnd_eq, Group.regEnd_eq]
  exact Group.reg_pokeAll_congr _ _ _ _ _ hl (by cases r <;> rfl) rfl rfl

/-- Flags raised over a frame that leaves them. -/
theorem Group.FrameOf.raise {g g0 : Group} {ws : List RegName} {fl : Bool} (h : g.FrameOf g0 ws fl) (f : Flags) :
    (g.raiseFlags f).FrameOf g0 ws true :=
  ⟨fun r hr l hl => (Group.regEnd_raiseFlags g f r l hl).trans (h.regs r hr l hl), by simp, h.rest⟩

/-! ## Lane results -/

/-- One lane register written. -/
theorem Issue.regEnd_write (x : Issue) (g : Group) (p lat n : Nat) (f : Nat → W64) (l : Nat) (hl : l < 64)
    (hs : g.settled (.v n) = true) :
    (g.write p lat (.v n) (x.lanes.map fun k => (k, f k))).regEnd (.v n) l =
      if l ∈ x.lanes then ((f l).setWidth 32).setWidth 64 else g.regEnd (.v n) l := by
  rw [Group.regEnd_write_self _ _ _ _ _ _ hl hs, Group.reg_poke_v _ _ _ _ hl, find_lanes]
  split
  · next heq =>
    split at heq
    · next hm => simp only [Option.some.injEq] at heq; rw [if_pos hm, ← heq]
    · exact absurd heq (by simp)
  · next heq =>
    split at heq
    · exact absurd heq (by simp)
    · next hm =>
      rw [if_neg hm, Group.regEnd_eq]
      exact (Group.reg_pokeAll_other _ _ _ _ hl (by simpa [Group.settled] using hs)).symm

/-- What putN leaves: a frame and its values. -/
theorem Issue.putN_spec (x : Issue) (g : Group) (d : BitVec 8) (n : Nat) (f : Nat → Nat → W32)
    (hs : g.allSettled (dregs d n)) :
    (x.putN g d n f).FrameOf g (dregs d n) false ∧
      (d ≠ 0xFF#8 → ∀ i, i < n → ∀ l, l < 64 → (x.putN g d n f).regEnd (.v (d.toNat + i)) l =
        if l ∈ x.lanes then (f i l).setWidth 64 else g.regEnd (.v (d.toNat + i)) l) := by
  unfold Issue.putN
  by_cases hd : d = 0xFF#8
  · simp only [hd, if_true]
    exact ⟨Group.FrameOf.refl _ _ _, fun h => absurd rfl h⟩
  · simp only [hd, if_false]
    have hs' : ∀ i, i < n → g.settled (.v (d.toNat + i)) = true := fun i hi => hs _ (by
      simp only [dregs, hd, if_false, vecRegs, List.mem_map, List.mem_range]; exact ⟨i, hi, rfl⟩)
    have hmem : ∀ i, i < n → RegName.v (d.toNat + i) ∈ dregs d n := fun i hi => by
      simp only [dregs, hd, if_false, vecRegs, List.mem_map, List.mem_range]; exact ⟨i, hi, rfl⟩
    have key : ∀ k, k ≤ n →
        let h := (List.range k).foldl (fun g i =>
          g.write x.pos x.lat (.v (d.toNat + i)) (x.lanes.map fun l => (l, (f i l).setWidth 64))) g
        h.FrameOf g (dregs d n) false ∧
          (∀ i, i < k → ∀ l, l < 64 → h.regEnd (.v (d.toNat + i)) l =
            if l ∈ x.lanes then (f i l).setWidth 64 else g.regEnd (.v (d.toNat + i)) l) ∧
          (∀ i, k ≤ i → i < n → h.settled (.v (d.toNat + i)) = true ∧
            ∀ l, l < 64 → h.regEnd (.v (d.toNat + i)) l = g.regEnd (.v (d.toNat + i)) l) := by
      intro k
      induction k with
      | zero =>
        intro _
        exact ⟨Group.FrameOf.refl _ _ _, fun i hi => absurd hi (by omega), fun i _ hi => ⟨hs' i hi, fun _ _ => rfl⟩⟩
      | succ k ih =>
        intro hk
        obtain ⟨h1, h2, h3⟩ := ih (by omega)
        simp only [List.range_succ, List.foldl_append, List.foldl_cons, List.foldl_nil]
        generalize (List.range k).foldl (fun g i =>
          g.write x.pos x.lat (.v (d.toNat + i)) (x.lanes.map fun l => (l, (f i l).setWidth 64))) g = h at h1 h2 h3 ⊢
        refine ⟨h1.write _ _ _ _ (hmem k (by omega)), ?_, ?_⟩
        · intro i hi l hl
          by_cases he : i = k
          · subst he
            obtain ⟨h4, h5⟩ := h3 i (by omega) (by omega)
            rw [Issue.regEnd_write x h _ _ _ (fun l => (f i l).setWidth 64) l hl h4, h5 l hl]
            split
            · simp
            · rfl
          · rw [Group.regEnd_write_other _ _ _ _ _ _ _ hl (by simp; omega)]
            exact h2 i (by omega) l hl
        · intro i hi hn
          obtain ⟨h4, h5⟩ := h3 i (by omega) hn
          refine ⟨Group.settled_write _ _ _ _ _ _ (by simp; omega) h4, fun l hl => ?_⟩
          rw [Group.regEnd_write_other _ _ _ _ _ _ _ hl (by simp; omega)]
          exact h5 l hl
    obtain ⟨h1, h2, _⟩ := key n (Nat.le_refl n)
    exact ⟨h1, fun _ => h2⟩

/-- A result of one register. -/
theorem Issue.put_eq (x : Issue) (g : Group) (d : BitVec 8) (f : Nat → W32) : x.put g d f = x.putN g d 1 fun _ => f := by
  unfold Issue.put Issue.putN
  split <;> rfl

/-- A result of a pair. -/
theorem Issue.put2_eq (x : Issue) (g : Group) (d : BitVec 8) (f : Nat → W64) :
    x.put2 g d f = x.putN g d 2 (pairWord f) := by
  unfold Issue.put2 Issue.putN
  split
  · rfl
  · have e0 : ∀ w : W64, w &&& 0xFFFFFFFF#64 = (w.extractLsb' 0 32).setWidth 64 := by
      intro w
      apply BitVec.eq_of_getLsbD_eq
      intro k hk
      have : (0xFFFFFFFF#64).getLsbD k = decide (k < 32) := by
        have : ∀ j : Fin 64, (0xFFFFFFFF#64).getLsbD j = decide (j.val < 32) := by decide
        exact this ⟨k, hk⟩
      simp only [BitVec.getLsbD_and, this, BitVec.getLsbD_setWidth, BitVec.getLsbD_extractLsb']
      by_cases h : k < 32 <;> simp [h, hk]
    have e1 : ∀ w : W64, w >>> 32 = (w.extractLsb' 32 32).setWidth 64 := by
      intro w
      apply BitVec.eq_of_getLsbD_eq
      intro k hk
      simp only [BitVec.getLsbD_ushiftRight, BitVec.getLsbD_setWidth, BitVec.getLsbD_extractLsb']
      by_cases h : k < 32
      · simp [h, hk]
      · simp [h, BitVec.getLsbD_of_ge _ _ (by omega : 64 ≤ 32 + k)]
    simp only [e0, e1]
    rfl

/-- An instruction that puts lane results has them. -/
theorem laneEffect_putN (h : Issues s i x) (d : BitVec 8) (n : Nat) (f : Nat → Nat → W32) (F : Issue → Group)
    (he : exec i s = issueOk i s F) (hF : F x = x.putN x.g d n f) : LaneEffect s i x d n f := by
  intro hs
  obtain ⟨h1, h2⟩ := Issue.putN_spec x x.g d n f hs
  refine ⟨_, by rw [he, issueOk_of h, hF], h1, h2, fun a => ?_⟩
  simp only [Chip.byte, Chip.setGroup_mem, Issue.chip0_mem]

/-- The same with flags. -/
theorem flagEffect_putN (h : Issues s i x) (d : BitVec 8) (n : Nat) (f : Nat → Nat → W32) (fl : Nat → Flags)
    (F : Issue → Group) (he : exec i s = issueOk i s F)
    (hF : F x = (x.putN x.g d n f).raiseFlags (orFlags (x.lanes.map fl))) : FlagEffect s i x d n f fl := by
  intro hs
  obtain ⟨h1, h2⟩ := Issue.putN_spec x x.g d n f hs
  refine ⟨_, by rw [he, issueOk_of h, hF], h1.raise _, ⟨fun hd i hi l hl => ?_, ?_⟩, fun a => ?_⟩
  · rw [Group.regEnd_raiseFlags _ _ _ _ hl]; exact h2 hd i hi l hl
  · simp only [Group.raiseFlags, h1.flags rfl]
  · simp only [Chip.byte, Chip.setGroup_mem, Issue.chip0_mem]

/-! ## Group-scope results -/

/-- A register of another class than j, written. -/
theorem Group.regEnd_writeOne (g : Group) (p lat : Nat) (r : RegName) (v : W64) (hs : g.settled r = true)
    (hv : ∀ n, r ≠ .v n) (hj : ∀ n, r ≠ .j n) :
    (g.writeOne p lat r v).regEnd r 0 = if r = .m 0 ∨ r = .k 0 then BitVec.allOnes 64 else v := by
  unfold Group.writeOne
  rw [Group.regEnd_write_self _ _ _ _ _ _ (by omega) hs]
  cases r with
  | v n => exact absurd rfl (hv n)
  | j n => exact absurd rfl (hj n)
  | s n => rw [Group.reg_poke_s]; simp [SMap.get]
  | m n => rw [Group.reg_poke_m]; simp [SMap.get]
  | k n => rw [Group.reg_poke_k]; simp [SMap.get]

theorem scalarName_not_v (v : Nat) (r : RegName) (h : scalarName v = some r) (n : Nat) : r ≠ .v n := by
  intro e; subst e
  unfold scalarName at h
  repeat' split at h
  all_goals simp at h

/-- What putS leaves. -/
theorem Issue.putS_spec (x : Issue) (g : Group) (d : BitVec 8) (v : W64) (hs : g.allSettled (sregs d)) :
    (x.putS g d v).FrameOf g (sregs d) false ∧ ScalarResult (x.putS g d v) d v := by
  unfold Issue.putS ScalarResult sregs
  cases hn : scalarName d.toNat with
  | none => exact ⟨Group.FrameOf.refl _ _ _, fun r hr => by cases hr⟩
  | some r =>
    refine ⟨(Group.FrameOf.refl g _ _).write _ _ _ _ (by simp), fun q hq hj => ?_⟩
    simp only [Option.some.injEq] at hq; subst hq
    exact Group.regEnd_writeOne _ _ _ _ _ (hs r (by simp [sregs, hn])) (scalarName_not_v _ _ hn) hj

/-- An instruction that puts a group-scope result has it. -/
theorem scalarEffect_putS (h : Issues s i x) (d : BitVec 8) (v : W64) (F : Issue → Group)
    (he : exec i s = issueOk i s F) (hF : F x = x.putS x.g d v) : ScalarEffect s i x d v := by
  intro hs
  obtain ⟨h1, h2⟩ := Issue.putS_spec x x.g d v hs
  refine ⟨_, by rw [he, issueOk_of h, hF], h1, h2, fun a => ?_⟩
  simp only [Chip.byte, Chip.setGroup_mem, Issue.chip0_mem]

end Sys2Proof.Machine
end

