-- ==== Sys2Proof/Laws/Scratchpad.lean ====
section
/-! SUPPORT. What the two views of a scratchpad are where nothing is unseen, and what a view holds (R286). -/
namespace Sys2Proof.Machine

@[simp] theorem Team.spPut_sp (t : Team) (a : Nat) (bs : List Byte) : (t.spPut a bs).sp = putBytes t.sp a bs := rfl

@[simp] theorem Team.spStore_sp (t : Team) (g : Nat) (late : Nat → Bool) (a : Nat) (bs : List Byte) :
    (t.spStore g late a bs).sp = putBytes t.sp a bs := rfl

@[simp] theorem lagAfter_nil (ls : List LagByte) (g : Nat) (late : Nat → Bool) : lagAfter ls g late [] = ls := by
  simp [lagAfter]

theorem Team.hashView_of_seen {t : Team} (h : t.lag = []) : t.hashView = t := by
  cases t; simp_all [Team.hashView, Team.swapLag]

theorem Team.fromHash_of_seen {t u : Team} (h : t.lag = []) (hu : u.lag = []) : t.fromHash u = u := by
  cases u; simp_all [Team.fromHash, Team.swapLag]

@[simp] theorem Team.changed_self (t : Team) : t.changed t = [] := by simp [Team.changed]

/-- Where the hash unit sees every store and has written nothing, the team is as it was. -/
theorem Team.afterHash_same {t : Team} (g : Nat) (late : Nat → Bool) (h : t.lag = []) : t.afterHash g late t = t := by
  simp [Team.afterHash, Team.fromHash_of_seen h h]

/-- Bytes put at their own addresses: a later one stands over an earlier one. -/
theorem get_putLags (ls : List LagByte) (m : SMap Byte) (a : Nat) (h : (ls.map (·.at_)).Nodup) :
    SMap.get 0#8 (ls.foldl (fun m l => putBytes m l.at_ [l.byte]) m) a
      = ((ls.find? fun l => l.at_ == a).map (·.byte)).getD (SMap.get 0#8 m a) := by
  induction ls generalizing m with
  | nil => rfl
  | cons l ls ih =>
    simp only [List.map_cons, List.nodup_cons] at h
    rw [List.foldl_cons, ih _ h.2, List.find?_cons]
    by_cases hl : l.at_ = a
    · have : ls.find? (fun k => k.at_ == a) = none := by
        simp only [List.find?_eq_none, beq_iff_eq]
        intro k hk hka
        exact h.1 (List.mem_map.2 ⟨k, hk, hka.trans hl.symm⟩)
      simp [hl, this, putBytes, SMap.get_put]
    · simp [beq_eq_false_iff_ne.2 hl, putBytes, SMap.get_put, Ne.symm hl]

/-- The hash unit sees the byte that stands for it where it does not see a store yet, and the scratchpad's elsewhere. -/
theorem Team.get_hashView (t : Team) (a : Nat) (h : (t.lag.map (·.at_)).Nodup) :
    SMap.get 0#8 t.hashView.sp a = ((t.lag.find? fun l => l.at_ == a).map (·.byte)).getD (SMap.get 0#8 t.sp a) :=
  get_putLags t.lag t.sp a h

end Sys2Proof.Machine
end

