-- ==== Sys2Proof/Tests/Slice0.lean ====
section
/-! SUPPORT. Tests of the model on fixed values that the manual states or that follow from it by hand, and for every
statement with hypotheses a state that meets them. -/
open Sys2Proof Sys2Proof.Machine Sys2Proof.Expect

namespace Sys2Proof.Tests

set_option maxRecDepth 20000

/-! ## Small states -/

/-- Lane registers from registers with the values of lanes 0, 1, …. -/
def vecs (v : List (Nat × List W32)) : SMap W32 :=
  (v.flatMap fun p => (List.range p.2.length).map fun l => (64 * p.1 + l, p.2.getD l 0#32)).foldl
    (fun m p => SMap.put 0#32 m p.1 p.2) []

/-- Scalar registers from their values. -/
def scals (s : List (Nat × W64)) : SMap W64 := s.foldl (fun m p => SMap.put 0#64 m p.1 p.2) []

/-- A team of one group of 8 << wc lanes at address 0 whose next instruction is the one being executed. -/
def world (wc : Nat) (f : Group → Group) (h : Team → Team) : State :=
  let d := { placedDesc with wc }
  let g := Group.create 2 1 0 0 0 d 0#64 0#64 0#64 0#64
  let c := Chip.placed Chip.reset []
  { State.reset with
    chip := { c with
      groups := [f { g with begun := true, lease := { g.lease with active := true } }]
      teams := c.teams.map h
      launches := [{ Launch.ofDesc 0 0 0 d with next := 1 }] }
    control := { Control.reset with bootState := 3 }
    current := some 2 }

/-- The same with 8 lanes and given lane and scalar registers. -/
def small (v : List (Nat × List W32)) (s : List (Nat × W64)) : State :=
  world 0 (fun g => { g with v := vecs v, s := scals s }) fun t => t

/-- The state after an instruction, where it completes. -/
def after (i : Instr) (s : State) : Option State :=
  match exec i s with
  | .next t => some t
  | _ => none

/-- The group after an instruction. -/
def groupAfter (i : Instr) (s : State) : Option Group := (after i s).bind fun t => t.chip.group? 2

/-- v[r] of lane l after an instruction. -/
def vAfter (i : Instr) (s : State) (r l : Nat) : Option W64 := (groupAfter i s).map fun g => g.regEnd (.v r) l

/-- A scalar, mask or predicate register after an instruction. -/
def rAfter (i : Instr) (s : State) (r : RegName) : Option W64 := (groupAfter i s).map fun g => g.regEnd r 0

/-- v[4] of lane 0 after an instruction on v2 = a, v3 = b and v7 = c. -/
def of3 (i : Instr) (a b c : W32) : Option W64 := vAfter i (small [(2, [a]), (3, [b]), (7, [c])] []) 4 0

/-- v[5] ‖ v[4] of lane 0 after an instruction on the pairs v2, v6 and v8. -/
def of64 (i : Instr) (a b c : W64) : Option W64 :=
  let s := small ([(2, a), (6, b), (8, c)].flatMap fun p =>
    [(p.1, [p.2.extractLsb' 0 32]), (p.1 + 1, [p.2.extractLsb' 32 32])]) []
  (vAfter i s 5 0).bind fun h => (vAfter i s 4 0).map fun l => (h.setWidth 32 ++ l.setWidth 32 : W64)

/-- The sticky flags after an instruction on v2 = a, v3 = b and v7 = c. -/
def flagsOf (i : Instr) (a b c : W32) : Option (BitVec 5) := (groupAfter i (small [(2, [a]), (3, [b]), (7, [c])] [])).map (·.fst)

/-- s[4] after an instruction on s2 = a and s3 = b. -/
def ofS (i : Instr) (a b : W64) : Option W64 := rAfter i (small [] [(2, a), (3, b)]) (.s 4)

/-- d = 4, a = 2. -/
def eA : Enc := { blank with d := 4, a := 2 }
/-- d = 4, a = 2, b = 3. -/
def eAB : Enc := { eA with b := 3 }
/-- d = 4, a = 2, b = 3, c = 7. -/
def eABC : Enc := { eAB with c := 7 }
/-- Pairs: d = 4, a = 2, b = 6. -/
def pAB : Enc := { eA with b := 6 }
/-- v4 and v2 of a one-word form. -/
def sh : BEnc := { q := 0, stall := 0, d := 4, a := 2 }

/-- A one-word two-address form: v4 = x, v2 = y. -/
def ofB (i : Instr) (x y : W32) : Option W64 := vAfter i (small [(4, [x]), (2, [y])] []) 4 0

/-! ## Integer instructions (R118 to R120) -/

theorem test_add_wraps : of3 (.add eAB) 0x7FFFFFFF#32 1#32 0#32 = some 0x80000000#64 := by decide
theorem test_add_saturates : of3 (.add { eAB with sat := true }) 0x7FFFFFFF#32 1#32 0#32 = some 0x7FFFFFFF#64 := by decide
theorem test_addB : ofB (.addB sh) 40#32 2#32 = some 42#64 := by decide
theorem test_add_carries_to_high_word :
    of64 (.add { pAB with ty := .z64 }) 0xFFFFFFFF#64 1#64 0#64 = some 0x100000000#64 := by decide
theorem test_sub_z32_saturates : of3 (.sub { eAB with ty := .z32, sat := true }) 3#32 5#32 0#32 = some 0#64 := by decide
theorem test_subB_order : ofB (.subB sh) 9#32 4#32 = some 5#64 := by decide
theorem test_mul_saturates :
    of3 (.mul { eAB with sat := true }) 0x10000#32 0x10000#32 0#32 = some 0x7FFFFFFF#64 := by decide
theorem test_mulB_wraps : ofB (.mulB sh) 0x10001#32 0x10000#32 = some 0x10000#64 := by decide
theorem test_mulh_signed : of3 (.mulh eAB) 0xFFFFFFFF#32 0xFFFFFFFF#32 0#32 = some 0#64 := by decide
theorem test_mulh_unsigned :
    of3 (.mulh { eAB with ty := .z32 }) 0xFFFFFFFF#32 0xFFFFFFFF#32 0#32 = some 0xFFFFFFFE#64 := by decide
theorem test_mad : of3 (.mad eABC) 3#32 4#32 5#32 = some 17#64 := by decide
theorem test_min_signed : of3 (.min eAB) 0xFFFFFFFF#32 1#32 0#32 = some 0xFFFFFFFF#64 := by decide
theorem test_minB : ofB (.minB sh) 3#32 0xFFFFFFFE#32 = some 0xFFFFFFFE#64 := by decide
theorem test_max_unsigned : of3 (.max { eAB with ty := .z32 }) 0xFFFFFFFF#32 1#32 0#32 = some 0xFFFFFFFF#64 := by decide
theorem test_maxB : ofB (.maxB sh) 3#32 0xFFFFFFFE#32 = some 3#64 := by decide
theorem test_abs_saturates : of3 (.abs { eA with sat := true }) 0x80000000#32 0#32 0#32 = some 0x7FFFFFFF#64 := by decide
theorem test_abs_wraps : of3 (.abs eA) 0x80000000#32 0#32 0#32 = some 0x80000000#64 := by decide
theorem test_and : of3 (.and eAB) 0xF0F0#32 0xFF00#32 0#32 = some 0xF000#64 := by decide
theorem test_andB : ofB (.andB sh) 0xF0F0#32 0xFF00#32 = some 0xF000#64 := by decide
theorem test_or : of3 (.or eAB) 0xF0F0#32 0xFF00#32 0#32 = some 0xFFF0#64 := by decide
theorem test_orB : ofB (.orB sh) 0xF0F0#32 0xFF00#32 = some 0xFFF0#64 := by decide
theorem test_xor : of3 (.xor eAB) 0xF0F0#32 0xFF00#32 0#32 = some 0x0FF0#64 := by decide
theorem test_xorB : ofB (.xorB sh) 0xF0F0#32 0xFF00#32 = some 0x0FF0#64 := by decide
theorem test_not : of3 (.not eA) 0x0000FFFF#32 0#32 0#32 = some 0xFFFF0000#64 := by decide
theorem test_notB : ofB (.notB sh) 7#32 0x0000FFFF#32 = some 0xFFFF0000#64 := by decide
theorem test_shl_by_width : of3 (.shl eAB) 1#32 32#32 0#32 = some 0#64 := by decide
theorem test_shlB : ofB (.shlB sh) 3#32 4#32 = some 0x30#64 := by decide
theorem test_shr : of3 (.shr eAB) 0x80000000#32 31#32 0#32 = some 1#64 := by decide
theorem test_shrB : ofB (.shrB sh) 0x80000000#32 4#32 = some 0x08000000#64 := by decide
theorem test_sar_by_more_than_width : of3 (.sar eAB) 0x80000000#32 99#32 0#32 = some 0xFFFFFFFF#64 := by decide
theorem test_sarB : ofB (.sarB sh) 0x80000000#32 4#32 = some 0xF8000000#64 := by decide
theorem test_fsh : of3 (.fsh eABC) 0x12345678#32 0x9ABCDEF0#32 8#32 = some 0x789ABCDE#64 := by decide
theorem test_bfx_unsigned : of3 (.bfx { eA with ty := .z32, c := 0xFF, imm := 0x304 }) 0xF6#32 0#32 0#32 = some 7#64 := by decide
theorem test_bfx_signed :
    of3 (.bfx { eA with c := 0xFF, imm := 0x304 }) 0xF6#32 0#32 0#32 = some 0xFFFFFFFF#64 := by decide
theorem test_bfi :
    of3 (.bfi { eAB with c := 0xFF, imm := 0x804 }) 0x11111111#32 0xAB#32 0#32 = some 0x11111AB1#64 := by decide
theorem test_popc : of3 (.popc eA) 0xF0F0F0F0#32 0#32 0#32 = some 16#64 := by decide
theorem test_clz : of3 (.clz eA) 0x00010000#32 0#32 0#32 = some 15#64 := by decide
theorem test_clz_of_zero : of64 (.clz { eA with ty := .z64 }) 0#64 0#64 0#64 = some 64#64 := by decide
theorem test_brev : of3 (.brev eA) 0x00000003#32 0#32 0#32 = some 0xC0000000#64 := by decide
theorem test_perm_reverses : of3 (.perm { eAB with c := 0xFF, imm := 0x0053 }) 0x11223344#32 0#32 0#32 = some 0x44332211#64 := by decide
theorem test_perm_extends_sign :
    of3 (.perm { eAB with c := 0xFF, imm := 0xE000 }) 0x11223394#32 0#32 0#32 = some 0xFFFFFF94#64 := by decide
theorem test_cmp : rAfter (.cmp .lt { eAB with d := 0x41 })
    (small [(2, [0xFFFFFFFF#32, 1#32, 5#32]), (3, [0#32, 1#32, 6#32])] []) (.m 1) = some 5#64 := by decide
theorem test_cmp_unsigned : rAfter (.cmp .lt { eAB with d := 0x41, ty := .z32 })
    (small [(2, [0xFFFFFFFF#32, 1#32, 5#32]), (3, [0#32, 1#32, 6#32])] []) (.m 1) = some 4#64 := by decide
theorem test_sel : of3 (.sel { eAB with c := 0x40 }) 8#32 9#32 0#32 = some 8#64 := by decide
theorem test_mov : of3 (.mov eA) 0xABCD#32 0#32 0#32 = some 0xABCD#64 := by decide
theorem test_movB : ofB (.movB sh) 1#32 0xABCD#32 = some 0xABCD#64 := by decide
theorem test_lea_signed_index :
    of64 (.lea { pAB with c := 2, imm := 4 }) 0x1000#64 0xFFFFFFFF#64 0#64 = some 0x1000#64 := by decide
theorem test_sad : of3 (.sad eABC) 0x01020304#32 0x04030201#32 100#32 = some 108#64 := by decide

/-! ## Floating point (R122 to R134) -/

/-- eAB and eA at f32. -/
def fAB : Enc := { eAB with ty := .f32 }
def fA : Enc := { eA with ty := .f32 }

theorem test_fadd : of3 (.fadd fAB) 0x3F800000#32 0x40000000#32 0#32 = some 0x40400000#64 := by decide
theorem test_faddB : ofB (.faddB sh) 0x3F800000#32 0x40000000#32 = some 0x40400000#64 := by decide
theorem test_fadd_rounds_up : of3 (.fadd { fAB with rnd := .rp }) 0x3F800000#32 0x00000001#32 0#32 = some 0x3F800001#64 := by
  decide
theorem test_fadd_inexact : flagsOf (.fadd fAB) 0x3F800000#32 0x00000001#32 0#32 = some flagNX := by decide
theorem test_fsub_zero_sign : of3 (.fsub { fAB with rnd := .rm }) 0x3F800000#32 0x3F800000#32 0#32 = some 0x80000000#64 := by
  decide
theorem test_fsubB : ofB (.fsubB sh) 0x40400000#32 0x3F800000#32 = some 0x40000000#64 := by decide
theorem test_fmul : of3 (.fmul fAB) 0x40000000#32 0xC0400000#32 0#32 = some 0xC0C00000#64 := by decide
theorem test_fmulB : ofB (.fmulB sh) 0x40000000#32 0x40400000#32 = some 0x40C00000#64 := by decide
theorem test_fmul_zero_times_infinity : of3 (.fmul fAB) 0#32 0x7F800000#32 0#32 = some 0x7FC00000#64 := by decide
theorem test_fma : of3 (.fma { eABC with ty := .f32 }) 0x40000000#32 0x40400000#32 0x3F800000#32 = some 0x40E00000#64 := by
  decide
theorem test_fmin_zeros : of3 (.fmin fAB) 0#32 0x80000000#32 0#32 = some 0x80000000#64 := by decide
theorem test_fminB : ofB (.fminB sh) 0x40000000#32 0x3F800000#32 = some 0x3F800000#64 := by decide
theorem test_fmax_nan : of3 (.fmax fAB) 0x7FC00000#32 0x3F800000#32 0#32 = some 0x3F800000#64 := by decide
theorem test_fmaxB : ofB (.fmaxB sh) 0x40000000#32 0x3F800000#32 = some 0x40000000#64 := by decide
theorem test_fneg : of3 (.fneg fA) 0x3F800000#32 0#32 0#32 = some 0xBF800000#64 := by decide
theorem test_fabs : of3 (.fabs fA) 0xBF800000#32 0#32 0#32 = some 0x3F800000#64 := by decide
theorem test_fcopysign : of3 (.fcopysign fAB) 0x3F800000#32 0x80000000#32 0#32 = some 0xBF800000#64 := by decide
theorem test_fcmp : rAfter (.fcmp .le { fAB with d := 0x41 })
    (small [(2, [0#32, 0x7FC00000#32, 0x40000000#32]), (3, [0x80000000#32, 0#32, 0x3F800000#32])] []) (.m 1) = some 0xF9#64 := by
  decide
theorem test_fdot2 : of3 (.fdot2 { eABC with ty := .bf16 }) 0x3F803F80#32 0x33803380#32 0x3F800000#32 = some 0x3F800001#64 := by
  decide
theorem test_fclass : of3 (.fclass fA) 0x80000001#32 0#32 0#32 = some 4#64 := by decide
theorem test_frnd_to_even : of3 (.frnd fA) 0x40200000#32 0#32 0#32 = some 0x40000000#64 := by decide
theorem test_fscale : of3 (.fscale fAB) 0x3F800000#32 3#32 0#32 = some 0x41000000#64 := by decide
theorem test_cvt_to_integer : of3 (.cvt .s32F32 eA) 0xC0600000#32 0#32 0#32 = some 0xFFFFFFFC#64 := by decide
theorem test_cvt_saturates : of3 (.cvt .s32F32 eA) 0x4F32D05E#32 0#32 0#32 = some 0x7FFFFFFF#64
    ∧ flagsOf (.cvt .s32F32 eA) 0x4F32D05E#32 0#32 0#32 = some flagNV := by decide
theorem test_pack16 : of3 (.pack16 .bf16 eAB) 0xAAAA1111#32 0xBBBB2222#32 0#32 = some 0x22221111#64 := by decide
theorem test_pack8_saturates : vAfter (.pack8 .z { blank with d := 4, a := 8, sat := true })
    (small [(8, [0xFFFFFFFF#32]), (9, [0x100#32])] []) 4 0 = some 0xFF00#64 := by decide
theorem test_unpk16 : vAfter (.unpk16 .f16 { blank with d := 4, a := 2 }) (small [(2, [0x22221111#32])] []) 5 0
    = some 0x2222#64 := by decide
theorem test_unpk8 : vAfter (.unpk8 .s { blank with d := 4, a := 2 }) (small [(2, [0x8001#32])] []) 5 0
    = some 0xFFFFFF80#64 := by decide
theorem test_sfu_rcp_of_zero : of3 (.sfuRcp fA) 0x80000000#32 0#32 0#32 = some 0xFF800000#64
    ∧ flagsOf (.sfuRcp fA) 0x80000000#32 0#32 0#32 = some flagDZ := by decide
theorem test_sfu_rsqrt : of3 (.sfuRsqrt fA) 0x40800000#32 0#32 0#32 = some 0x3F000000#64 := by decide
theorem test_sfu_sqrt : of3 (.sfuSqrt fA) 0x41100000#32 0#32 0#32 = some 0x40400000#64 := by decide
theorem test_sfu_exp2 : of3 (.sfuExp2 fA) 0x40400000#32 0#32 0#32 = some 0x41000000#64 := by decide
theorem test_sfu_log2 : of3 (.sfuLog2 fA) 0x41000000#32 0#32 0#32 = some 0x40400000#64 := by decide
theorem test_lgq_code : of3 (.lgqCode { eA with b := 0xFF }) 0x40400000#32 0#32 0#32 = some 0x16#64
    ∧ of3 (.lgqCode eAB) 0xC0400000#32 4#32 0#32 = some 0x32#64 := by decide
theorem test_lgq_pairs : of3 (.lgqPairs { eA with b := 0xFF }) 0x41600000#32 0x3F8C1BF8#32 0#32 = some 0x101F#64 := by decide
theorem test_lgx : of3 (.lgx { eA with b := 0xFF }) 0x1F#32 0#32 0#32 = some 0x415744FD#64 := by decide
theorem test_lgpk_pack : vAfter (.lgpkPack { blank with d := 12, a := 8 })
    (small [(8, [0x3510#32]), (11, [0x3F000000#32])] []) 14 0 = some 0xFC000000#64 := by decide
theorem test_lgpk_unpack : vAfter (.lgpkUnpack { blank with d := 16, a := 12 })
    (small [(12, [0xD50#32]), (14, [0xFC000000#32])] []) 19 0 = some 0x3F000000#64 := by decide

/-! ## Lane exchange and reductions (R60 to R70) -/

/-- Lanes 0 to 7 hold 10 to 17 in v2; v3 holds 1 in lanes 0 and 1, else 2. -/
def ranks : State :=
  small [(2, (List.range 8).map fun l => BitVec.ofNat 32 (10 + l)), (3, [1#32, 1#32, 2#32, 2#32, 2#32, 2#32, 2#32, 2#32])] []

/-- The same with s2 = 1 and m2 = lanes 1, 2 and 5. -/
def marked : State := { ranks with chip := ranks.chip.onGroup 2 fun g => { g with s := scals [(2, 1#64)], m := scals [(2, 0x26#64)] } }

theorem test_vote_any : vAfter (.voteAny { blank with d := 4, a := 0x42, as_ := true }) marked 4 7 = some 1#64 := by decide
theorem test_vote_all : vAfter (.voteAll { blank with d := 4, a := 0x42, q := 2, as_ := true }) marked 4 5 = some 1#64 := by decide
theorem test_vote_ballot : rAfter (.voteBallot { blank with d := 4, a := 0x42, as_ := true }) marked (.s 4) = some 0x26#64 := by decide
theorem test_vote_count : vAfter (.voteCount { blank with d := 4, a := 0x42, as_ := true }) marked 4 6 = some 3#64 := by decide
theorem test_lx_get : vAfter (.lxGet { blank with d := 4, a := 2, b := 0xFF, c := 3, imm := 3 }) ranks 4 0 = some 13#64 := by decide
theorem test_lx_rise : vAfter (.lxRise { blank with d := 4, a := 2, b := 0xFF, c := 3, imm := 1 }) ranks 4 5 = some 14#64
    ∧ vAfter (.lxRise { blank with d := 4, a := 2, b := 0xFF, c := 3, imm := 1 }) ranks 4 0 = some 1#64 := by decide
theorem test_lx_fall : vAfter (.lxFall { blank with d := 4, a := 2, b := 0xFF, c := 3, imm := 1 }) ranks 4 5 = some 16#64 := by
  decide
theorem test_lx_flip : vAfter (.lxFlip { blank with d := 4, a := 2, b := 0xFF, c := 3, imm := 3 }) ranks 4 5 = some 16#64 := by
  decide
theorem test_lx_turn : vAfter (.lxTurn { blank with d := 4, a := 2, b := 0xFF, c := 3, imm := 3 }) ranks 4 6 = some 11#64 := by
  decide
theorem test_match : vAfter (.matchLanes .s32 { blank with d := 4, a := 3 }) ranks 4 1 = some 3#64 := by decide
theorem test_rdc : rAfter (.rdc .addS32 { blank with d := 4, a := 2 }) ranks (.s 4) = some 108#64 := by decide
theorem test_scan : vAfter (.scan .s32Exc { blank with d := 4, a := 2 }) ranks 4 2 = some 21#64 := by decide
theorem test_topk : rAfter (.topk .s32 { blank with d := 0x41, a := 2, b := 0xFF, c := 0xFF, imm := 2 }) ranks (.m 1)
    = some 0xC0#64 := by decide
theorem test_rank : vAfter (.rank { blank with d := 4, q := 2 }) marked 4 5 = some 2#64 := by decide
theorem test_elect : rAfter (.elect { blank with d := 0x41, q := 2 }) marked (.m 1) = some 2#64 := by decide

/-! ## Scalar instructions (R135 to R140) -/

theorem test_salu_add : ofS (.saluAdd eAB) 0xFFFFFFFFFFFFFFFF#64 2#64 = some 1#64 := by decide
theorem test_salu_sub : ofS (.saluSub eAB) 3#64 5#64 = some 0xFFFFFFFFFFFFFFFE#64 := by decide
theorem test_salu_mul : ofS (.saluMul eAB) 0x100000001#64 3#64 = some 0x300000003#64 := by decide
theorem test_salu_and : ofS (.saluAnd eAB) 12#64 10#64 = some 8#64 := by decide
theorem test_salu_or : ofS (.saluOr eAB) 12#64 10#64 = some 14#64 := by decide
theorem test_salu_xor : ofS (.saluXor eAB) 12#64 10#64 = some 6#64 := by decide
theorem test_salu_shl : ofS (.saluShl eAB) 1#64 64#64 = some 0#64 := by decide
theorem test_salu_shr : ofS (.saluShr eAB) 0x8000000000000000#64 63#64 = some 1#64 := by decide
theorem test_salu_sar : ofS (.saluSar eAB) 0x8000000000000000#64 64#64 = some 0xFFFFFFFFFFFFFFFF#64 := by decide
theorem test_salu_mins : ofS (.saluMinS eAB) 0xFFFFFFFFFFFFFFFF#64 1#64 = some 0xFFFFFFFFFFFFFFFF#64 := by decide
theorem test_salu_maxs : ofS (.saluMaxS eAB) 0xFFFFFFFFFFFFFFFF#64 1#64 = some 1#64 := by decide
theorem test_salu_minz : ofS (.saluMinZ eAB) 0xFFFFFFFFFFFFFFFF#64 1#64 = some 1#64 := by decide
theorem test_salu_maxz : ofS (.saluMaxZ eAB) 0xFFFFFFFFFFFFFFFF#64 1#64 = some 0xFFFFFFFFFFFFFFFF#64 := by decide
theorem test_salu_mov : ofS (.saluMov { blank with d := 4, b := 0xFF, imm := 0xFFFFFFFE }) 0#64 0#64 = some 0xFFFFFFFFFFFFFFFE#64 := by
  decide
theorem test_salu_lea : ofS (.saluLea { eAB with c := 3, imm := 5 }) 100#64 2#64 = some 121#64 := by decide
theorem test_salu_not : ofS (.saluNot eA) 1#64 0#64 = some 0xFFFFFFFFFFFFFFFE#64 := by decide
theorem test_scmp_signed : ofS (.scmp .lt eAB) 0xFFFFFFFFFFFFFFFF#64 1#64 = some 1#64 := by decide
theorem test_scmp_unsigned : ofS (.scmp .ltz eAB) 0xFFFFFFFFFFFFFFFF#64 1#64 = some 0#64 := by decide
theorem test_bcast : vAfter (.bcast { blank with d := 4, a := 2 }) (small [] [(2, 0x1234567890#64)]) 4 7 = some 0x34567890#64 := by
  decide
theorem test_pick : rAfter (.pick { blank with d := 4, a := 2, b := 0xFF, imm := 11 }) ranks (.s 4) = some 13#64 := by decide
/-- Masks in m2 and m3. -/
def masks (a b : W64) : State := world 0 (fun g => { g with m := scals [(2, a), (3, b)] }) fun t => t
/-- m1 from m2 and m3. -/
def mAB : Enc := { blank with d := 0x41, a := 0x42, b := 0x43 }

theorem test_mmov_and : rAfter (.mmovAnd mAB) (masks 0x1F5#64 0x1FC#64) (.m 1) = some 0xF4#64 := by decide
theorem test_mmov_or : rAfter (.mmovOr mAB) (masks 5#64 8#64) (.m 1) = some 13#64 := by decide
theorem test_mmov_xor : rAfter (.mmovXor mAB) (masks 5#64 4#64) (.m 1) = some 1#64 := by decide
theorem test_mmov_andn : rAfter (.mmovAndn mAB) (masks 7#64 2#64) (.m 1) = some 5#64 := by decide
theorem test_mmov_not : rAfter (.mmovNot { mAB with b := 0 }) (masks 0xF0#64 0#64) (.m 1) = some 0x0F#64 := by decide
theorem test_mmov_froms : rAfter (.mmovFroms { blank with d := 0x41, a := 2 }) (small [] [(2, 0xFFFF#64)]) (.m 1) = some 0xFF#64 := by
  decide
theorem test_mmov_tos : rAfter (.mmovTos { blank with d := 4, a := 0x40 }) (small [] []) (.s 4) = some 0xFF#64 := by decide
theorem test_mmov_popc : rAfter (.mmovPopc { blank with d := 4, a := 0x42 }) marked (.s 4) = some 3#64 := by decide

/-! ## Control, joins, traps (R42 to R62, R82, R359 to R363) -/

/-- The program counter of a lane after an instruction. -/
def pcAfter (i : Instr) (s : State) (l : Nat) : Option W64 := (groupAfter i s).bind fun g => (g.lanes[l]?).map (·.pc)
/-- What a lane does after an instruction. -/
def stAfter (i : Instr) (s : State) (l : Nat) : Option LaneState := (groupAfter i s).bind fun g => (g.lanes[l]?).map (·.st)
/-- A state with context 0 changed. -/
def inCtx (f : Context → Context) (s : State) : State := { s with chip := s.chip.onContext 0 f }
/-- A state whose context has a handler at 0x800. -/
def handled (s : State) : State := inCtx (fun k => { k with xhandler := 0x800 }) s
/-- A group in its handler in every lane. -/
def inHandler : State := handled (world 0 (fun g => { g with inh := true, hlanes := 0xFF, xpc := 0x40 }) fun t => t)

theorem test_nop : pcAfter (.nop blank) marked 3 = some 12#64 := by decide
theorem test_nopB : pcAfter (.nopB sh) marked 3 = some 4#64 := by decide
theorem test_br_takes_active_lanes : pcAfter (.br { blank with q := 2, imm := 0x40 }) marked 5 = some 0x40#64
    ∧ pcAfter (.br { blank with q := 2, imm := 0x40 }) marked 4 = some 12#64 := by decide
theorem test_jmp : pcAfter (.jmp { blank with a := 2, as_ := true }) (small [] [(2, 0x80#64)]) 0 = some 0x80#64 := by decide
theorem test_call_links : rAfter (.call { blank with d := 5, imm := 0x40 }) (small [] []) (.s 5) = some 12#64 := by decide
theorem test_ret : pcAfter (.ret { blank with a := 2 }) (small [] [(2, 0x84#64)]) 0 = some 0x84#64 := by decide
theorem test_retB : pcAfter (.retB { q := 0, stall := 0, d := 0, a := 2 }) (small [] [(2, 0x84#64)]) 0 = some 0x84#64 := by decide
theorem test_ret_misaligned : (groupAfter (.ret { blank with a := 2 }) (handled (small [] [(2, 0x82#64)]))).map
    (fun g => (g.xcause, g.xval, g.xpc, g.inh)) = some (0x09#8, 0x82#64, 0#64, true) := by decide
theorem test_sbr_nz : pcAfter (.sbrNz { blank with a := 2, imm := 0x40 }) marked 0 = some 0x40#64 := by decide
theorem test_sbr_z : pcAfter (.sbrZ { blank with a := 2, imm := 0x40 }) marked 0 = some 12#64 := by decide
theorem test_jset_m : rAfter (.jsetM { blank with d := 0x51, a := 2 }) (small [] [(2, 0xF0F#64)]) (.j 1) = some 0x0F#64 := by decide
theorem test_jset_act : rAfter (.jsetAct { blank with d := 0x51, q := 2 }) marked (.j 1) = some 0x26#64 := by decide
theorem test_jclr : rAfter (.jclr { blank with d := 0x51 }) (world 0 (fun g => { g with j := scals [(1, 7#64)] }) fun t => t) (.j 1)
    = some 0#64 := by decide
theorem test_jwait_parks : stAfter (.jwait { blank with a := 0x51, b := 0xFF, q := 2 })
    (world 0 (fun g => { g with j := scals [(1, 0xFF#64)], m := scals [(2, 0x26#64)] }) fun t => t) 5 = some (.parked 1 none) := by
  decide
theorem test_jwait_releases : stAfter (.jwait { blank with a := 0x51, b := 0xFF, q := 2 })
    (world 0 (fun g => { g with j := scals [(1, 0x26#64)], m := scals [(2, 0x26#64)] }) fun t => t) 5 = some .running := by decide
theorem test_exit : stAfter (.exit { blank with q := 2 }) marked 5 = some .exited ∧ stAfter (.exit { blank with q := 2 }) marked 4
    = some .running := by decide
theorem test_exitB : stAfter (.exitB { q := 2, stall := 0, d := 0, a := 0 }) marked 2 = some .exited := by decide
theorem test_exitc_outside_maintenance : (groupAfter (.exitc blank) (handled marked)).map (·.xcause) = some 0x12#8 := by decide
theorem test_seg : (groupAfter (.seg { blank with a := 4 }) marked).map (·.seg) = some 4 := by decide
theorem test_segB : (groupAfter (.segB { q := 0, stall := 0, d := 0, a := 2 }) marked).map (·.seg) = some 2 := by decide
theorem test_sleep_cyc : (groupAfter (.sleepCyc { blank with a := 0xFF, imm := 100 }) marked).map (fun g => g.sleeps.map (·.deadline))
    = some [100#64] := by decide
theorem test_sleep_until : stAfter (.sleepUntil { blank with a := 2, q := 2 }) marked 5 = some (.asleep 3) := by decide
theorem test_sleep_prm : (groupAfter (.sleepPrm { blank with a := 2, b := 4, imm := 3 }) marked).map (fun g => g.sleeps.map (·.prm))
    = some [some (.attn, 3)] := by decide
theorem test_gsr_lane : vAfter (.gsr { blank with d := 4, a := 0x60 }) marked 4 3 = some 3#64 := by decide
theorem test_gsr_width : rAfter (.gsr { blank with d := 4, a := 0x61 }) marked (.s 4) = some 8#64 := by decide
theorem test_ssr_fst : (groupAfter (.ssr { blank with d := 0x6D, a := 2 }) (small [] [(2, 0x15#64)])).map (·.fst) = some 0x15#5 := by
  decide
theorem test_ssr_reserved_bit : (groupAfter (.ssr { blank with d := 0x6D, a := 2 }) (handled (small [] [(2, 0x20#64)]))).map
    (fun g => (g.xcause, g.xval)) = some (0x02#8, 0x20#64) := by decide
theorem test_trap : (groupAfter (.trap { blank with imm := 5 }) (handled marked)).map
    (fun g => (g.xcause, g.xval, g.xpc, g.xmask, g.inh)) = some (0x10#8, 5#64, 12#64, 0xFF#64, true) := by decide
theorem test_trap_enters_handler : pcAfter (.trap { blank with imm := 5 }) (handled marked) 7 = some 0x800#64 := by decide
theorem test_brk : (groupAfter (.brk { blank with q := 2 }) (handled marked)).map (fun g => (g.xcause, g.xmask))
    = some (0x11#8, 0x26#64) := by decide
theorem test_rft : pcAfter (.rft blank) inHandler 0 = some 0x40#64 ∧ (groupAfter (.rft blank) inHandler).map (·.inh) = some false := by
  decide
theorem test_rft_outside_handler : (groupAfter (.rft blank) (handled marked)).map (·.xcause) = some 0x01#8 := by decide
theorem test_illegal : (groupAfter (.illegal [0x00000FE0#32]) (handled marked)).map (fun g => (g.xcause, g.xval))
    = some (0x01#8, 0x00000FE0#64) := by decide
/-- add v4, v2, v3 beside sub v5, v3, v2. -/
def addSub : Instr := .pair { q := 0, stall := 0, d1 := 4, a1 := 2, b1 := 3, p1 := 0, d2 := 5, a2 := 3, b2 := 2, p2 := 1 }
theorem test_pair : vAfter addSub (small [(2, [10#32]), (3, [3#32])] []) 4 0 = some 13#64
    ∧ vAfter addSub (small [(2, [10#32]), (3, [3#32])] []) 5 0 = some 0xFFFFFFF9#64 := by decide

/-! ## Scratchpad and the matrix array (R85 to R93, R141 to R161) -/

/-- A number of n bytes of the scratchpad of team 1. -/
def spOf (n a : Nat) (t : State) : Option Nat := (t.chip.team? 1).map fun u => natAt u.sp a n
/-- A team with bytes in its scratchpad, s2 = 0x100, and register v4 = 0x89ABCDEF. -/
def pad : State :=
  world 0 (fun g => { g with s := scals [(2, 0x100#64)], v := vecs [(4, [0x89ABCDEF#32, 0x11111111#32]), (8, [0x200#32]), (10, [0x100#32])] })
    fun t => t.spPut 0x100 [0xF0#8, 0x11#8, 0x22#8, 0x33#8, 0x44#8]
/-- One active lane: lane 0. -/
def lane0 (s : State) : State := { s with chip := s.chip.onGroup 2 fun g => { g with m := scals [(2, 1#64)] } }

theorem test_lds_sign : vAfter (.lds .s8 { blank with d := 6, a := 2, b := 0xFF, as_ := true }) pad 6 0 = some 0xFFFFFFF0#64 := by decide
theorem test_lds_word : vAfter (.lds .w32 { blank with d := 6, a := 2, b := 0xFF, as_ := true }) pad 6 0 = some 0x332211F0#64 := by
  decide
theorem test_sts_highest_lane_stands : (after (.sts .w16 { blank with d := 4, a := 2, b := 0xFF, as_ := true, q := 2 })
    (lane0 pad)).bind (spOf 4 0x100) = some 0x3322CDEF := by decide
theorem test_sts_hearth : (groupAfter (.sts .w32 { blank with d := 4, a := 0xFF, b := 0xFF, as_ := true, imm := 0x1FFC00 })
    (handled pad)).map (·.xcause) = some 0x06#8 := by decide
theorem test_lds_misaligned : (groupAfter (.lds .w32 { blank with d := 6, a := 2, b := 0xFF, as_ := true, imm := 2 }) (handled pad)).map
    (fun g => (g.xcause, g.xval)) = some (0x09#8, 0x102#64) := by decide
theorem test_ldsv : vAfter (.ldsv { blank with d := 6, a := 2, c := 1 }) pad 6 1 = some 0x44#64 := by decide
theorem test_stsv : (after (.stsv { blank with d := 4, a := 2, c := 1 }) pad).bind (spOf 4 0x104) = some 0x11111111 := by decide
theorem test_movx : (after (.movx { blank with d := 8, a := 10, c := 1, q := 2 }) (lane0 pad)).bind (spOf 4 0x200) = some 0x332211F0 := by
  decide
theorem test_ldh_outside_hearth : (groupAfter (.ldh { blank with d := 8, a := 2 }) (handled pad)).map (·.xcause) = some 0x08#8 := by
  decide
/-- Barrier 2 expects 3 arrivals. -/
def barred : State := { pad with chip := pad.chip.onBarrier 1 2 fun y => { y with expect := 3 } }
theorem test_ldh_barrier_object : rAfter (.ldh { blank with d := 8, a := 0xFF, imm := 0x1FFC20 }) barred (.s 8) = some 3#64 := by decide

/-- A 64-lane group with tile elements, registers v8 to v15 of one value in every lane and k1. -/
def mx (v : W32) (tiles : List (Nat × W32)) : State :=
  world 3 (fun g => { g with
      v := vecs ((List.range 12).map fun r => (8 + r, List.replicate 64 v)), k := scals [(1, 1#64), (2, 2#64)]
      s := scals [(2, 0x400#64), (3, 0x80#64), (4, 0x1000#64), (5, 0x80#64)] })
    fun t => { t with tiles }
/-- Tile 0's element (i, j) after an instruction. -/
def tileAfter (i : Instr) (s : State) (r c : Nat) : Option W32 := ((after i s).bind fun t => t.chip.team? 1).map fun t => t.tile 0 r c
/-- d = t0, a = v8, b = v12. -/
def eM : Enc := { blank with d := 0x80, a := 8, b := 12 }


theorem test_tzero : tileAfter (.tzero { blank with d := 0x80 }) (mx 0#32 [(33, 5#32)]) 1 1 = some 0#32 := by decide
theorem test_tile_predicate : tileAfter (.tzero { blank with d := 0x80, c := 0x40 }) (mx 0#32 [(33, 5#32)]) 1 1 = some 5#32 := by decide
theorem test_tadd : tileAfter (.tadd { blank with d := 0x80, a := 0x80 }) (mx 0#32 [(33, 5#32)]) 1 1 = some 10#32 := by decide
theorem test_mma_integer : (mmaInt true false (fun _ => some 0xFF) (fun _ => some 2) 7#32).1 = 0xFFFFFF87#32 := by decide
theorem test_mma_lg6 : mmaFloat .lg6 .rn (fun k => [some 0x14, some 0x35][k]?.getD (some 0)) (fun k => [some 0x11, some 0x11][k]?.getD (some 0))
    (fun b => if b = 0 then 4 else 0) (fun _ => 0) 0x3F000000#32 = (0xBECCD030#32, 0#5) := by decide
theorem test_rows_rotate : Rows.addr ((world 3 (fun g => { g with s := scals [(4, 0x10000001000#64), (5, 0x400000000#64)] }) fun t => t).chip.groups.headD
    (Group.create 0 0 0 0 0 placedDesc 0 0 0 0) |>.rows 4 0) 3 0 = 0x1000 + 3 * 256 + 48 := by decide
theorem test_kset : rAfter (.ksetNonzero { blank with d := 0x59, a := 0x80, ty := .f32 }) (mx 0#32 [(33, 0x80000000#32)]) (.k 1)
    = some 0#64 := by decide
theorem test_kset_not : rAfter (.ksetNot { blank with d := 0x59, a := 0x5A }) (mx 0#32 []) (.k 1) = some 0xFFFFFFFFFFFFFFFD#64 := by
  decide
theorem test_mx_width : (groupAfter (.tzero { blank with d := 0x80 }) (handled marked)).map (fun g => (g.xcause, g.xval, g.xmask))
    = some (0x0A#8, 8#64, 0#64) := by decide

/-! ## Device memory, leases and order (R195 to R241) -/

/-- The word that core 0 sees at an address of the placed page. -/
def seen (a : Nat) (t : State) : Option W32 :=
  (t.chip.loadWord { core := 0, ctx := 0, group := 2, owner := .group 2 } { pa := 0x20000 + a, cp := 0, cmp := 0 }).2
/-- A state with a word at its home. -/
def homed (a : Nat) (w : W32) (s : State) : State :=
  { s with chip := { s.chip with mem := putBytes s.chip.mem (0x20000 + a) (leBytes 4 w.toNat) } }
/-- s2 = 0x1000, where −2 is stored; v4 = 7 in lane 0; m2 = lane 0. -/
def dev : State :=
  homed 0x1000 0xFFFFFFFE#32 (world 0 (fun g => { g with s := scals [(2, 0x1000#64), (3, 9#64)], v := vecs [(4, [7#32])], m := scals [(2, 1#64)] })
    fun t => t)
/-- The address s2. -/
def eG : Enc := { blank with d := 4, a := 2, b := 0xFF, as_ := true, q := 2 }

theorem test_ldg : vAfter (.ldg .s16 { eG with d := 6 }) dev 6 0 = some 0xFFFFFFFE#64 := by decide
theorem test_stg : (after (.stg .w32 eG) dev).bind (seen 0x1000) = some 7#32 := by decide
theorem test_stg_misaligned : (groupAfter (.stg .w32 { eG with imm := 1 }) (handled dev)).map (fun g => (g.xcause, g.xval, g.xmask))
    = some (0x09#8, 0x1001#64, 1#64) := by decide
theorem test_ldg_unmapped : (groupAfter (.ldg .w32 { eG with imm := 0x10000 }) (handled dev)).map (fun g => (g.xcause, g.xval))
    = some (0x07#8, 0x11000#64) := by decide
theorem test_ldsc_sign : rAfter (.ldsc { blank with d := 4, a := 2 }) dev (.s 4) = some 0xFFFFFFFFFFFFFFFE#64 := by decide
theorem test_stsc : (after (.stsc { blank with d := 3, a := 2 }) dev).bind (seen 0x1000) = some 9#32 := by decide
theorem test_ldac : vAfter (.ldac { eG with d := 6, ty := .f32 }) dev 6 0 = some 0xFFFFFFFE#64 := by decide
theorem test_strl_holds_its_store : (after (.strl { eG with ty := .f32 }) dev).bind (seen 0x1000) = some 0xFFFFFFFE#32
    ∧ ((after (.strl { eG with ty := .f32 }) dev).bind fun t => t.chip.held.head?.bind fun h => match t.perform (.store h.id) with
      | .next u => seen 0x1000 u | _ => none) = some 7#32 := by decide
theorem test_atom_is_sent : (after (.atom .addS32 { eG with d := 6, b := 4, c := 0xFF, ty := .f32 }) dev).map
    (fun t => t.chip.atoms.map fun a => (a.dst, (a.units.flatMap fun u => u.lanes).map (·.2), a.units.map (·.phys.pa)))
    = some [(6, [7#64], [0x21000])] := by decide
theorem test_atomOp : (AtomOp.apply .addBf16x2 0x3F803F80#64 0x3F803B80#64) = 0x40003F80#64 := by decide
theorem test_lease_set : (groupAfter (.leaseSet { blank with a := 0xFF, imm := 0x900 }) dev).map (·.lease.decl) = some 1792 := by decide
theorem test_lease_get : rAfter (.leaseGet { blank with d := 9 }) dev (.s 9) = some 0x0010004000400040#64 := by decide
theorem test_lease_mode : (groupAfter (.leaseMode { blank with a := 0xFF, imm := 2 }) dev).map (·.lease.mode) = some 2 := by decide
theorem test_lease_mode_3 : (groupAfter (.leaseMode { blank with a := 0xFF, imm := 3 }) (handled dev)).map (fun g => (g.xcause, g.xval))
    = some (0x01#8, 3#64) := by decide
theorem test_lease_pref : (groupAfter (.leasePref { blank with a := 0xFF, imm := 100 }) dev).map (fun g => (g.lease.floor, g.lease.meas))
    = some (100, 100) := by decide
/-- dev after its store: the word is dirty in the L1. -/
def dirty : State := (after (.stg .w32 eG) dev).getD dev
theorem test_store_waits_in_l1 : dirty.chip.homeWord 0x21000 = 0xFFFFFFFE#32 := by decide
theorem test_fence_rel : (after (.fenceRel { blank with ty := .f32 }) dirty).map (fun t => t.chip.homeWord 0x21000) = some 7#32 := by decide
theorem test_fence_ar : (after (.fenceAr { blank with ty := .f32 }) dirty).map (fun t => t.chip.homeWord 0x21000) = some 7#32 := by decide
/-- dev after a load: the word is clean in the L1, and its home has changed since. -/
def stale : State := homed 0x1000 5#32 ((after (.ldg .w32 { eG with d := 6 }) dev).getD dev)
theorem test_stale_word_is_read : seen 0x1000 stale = some 0xFFFFFFFE#32 := by decide
theorem test_fence_acq : (after (.fenceAcq { blank with ty := .f32 }) stale).bind (seen 0x1000) = some 5#32 := by decide

/-! ## Barriers, mailboxes, engines (R242 to R268) -/

/-- Barrier 1 of the team after an instruction, before which it expected n arrivals and had k. -/
def barAfter (i : Instr) (n k : Nat) : Option Barrier :=
  ((after i { dev with chip := dev.chip.onBarrier 1 1 fun y => { y with expect := n, arrived := k } }).bind fun t => t.chip.team? 1).bind
    fun u => u.bars[1]?
/-- Barrier 1. -/
def eB : Enc := { blank with d := 6, a := 0xC1, b := 3 }
theorem test_bar_init : (barAfter (.barInit { eB with d := 0 }) 0 5).map (fun y => (y.expect, y.arrived)) = some (9, 0) := by decide
theorem test_bar_expect : (barAfter (.barExpect { eB with d := 0 }) 3 0).map (·.bytes) = some 9#64 := by decide
theorem test_bar_arrive_flips : (barAfter (.barArrive { eB with b := 0 }) 3 2).map (fun y => (y.phase, y.arrived)) = some (true, 0) := by
  decide
theorem test_bar_sync_waits : (groupAfter (.barSync { eB with b := 0 }) { dev with chip := dev.chip.onBarrier 1 1 fun y => { y with expect := 3 } }).map
    (·.wait) = some (some (.barrier 1 false)) := by decide
theorem test_bar_wait_passes : (groupAfter (.barWait { eB with d := 0 }) dev).map (·.wait) = some none := by decide
theorem test_bar_query : rAfter (.barQuery { eB with b := 0 }) { dev with chip := dev.chip.onBarrier 1 1 fun y => { y with expect := 3, arrived := 2 } }
    (.s 6) = some 0x20003#64 := by decide
/-- Mailbox 3 of core 0 is full. -/
def mailed : State :=
  { dev with chip := { dev.chip with mailboxes := SMap.put Mailbox.reset [] 3 { value := 77#64, full := true, ctx := 0 } } }
theorem test_mbx_send : (after (.mbxSend { blank with d := 6, a := 3, b := 2 }) dev).map
    (fun t => SMap.get Mailbox.reset t.chip.mailboxes 9) = some { value := 0x1000#64, full := true, ctx := 0 } := by decide
theorem test_mbx_send_to_full : rAfter (.mbxSend { blank with d := 6, a := 4, b := 2 })
    { mailed with chip := mailed.chip.onGroup 2 fun g => { g with s := scals [(4, 3#64)] } } (.s 6) = some 1#64 := by decide
theorem test_mbx_recv : rAfter (.mbxRecv { blank with d := 6, a := 0xFF, imm := 3 }) mailed (.s 6) = some 77#64
    ∧ (after (.mbxRecv { blank with d := 6, a := 0xFF, imm := 3 }) mailed).map (fun t => SMap.get Mailbox.reset t.chip.mailboxes 3) = some { value := 77#64, full := false, ctx := 0 } := by decide
theorem test_mbx_peek : rAfter (.mbxPeek { blank with d := 6, a := 0xFF, imm := 3 }) mailed (.s 7) = some 1#64
    ∧ (after (.mbxPeek { blank with d := 6, a := 0xFF, imm := 3 }) mailed).map (fun t => t.chip.mailboxes) = some mailed.chip.mailboxes := by
  decide

/-- Eight scalar registers from s8 on that hold a command's doublewords. -/
def commanded (ws : List W64) : State :=
  { dev with chip := dev.chip.onGroup 2 fun g => { g with s := scals ((List.range ws.length).map fun k => (8 + k, ws.getD k 0#64)) } }
/-- cp.fill of 8 bytes at 0x2000. -/
def fill : List W64 := [0x0000000800FF0003#64, 0x2000#64, 0x0807060504030201#64]
/-- d = s6, the command from s8. -/
def eP : Enc := { blank with d := 6, a := 8 }
theorem test_push_copy : (after (.pushCopy eP) (commanded fill)).map (fun t => t.chip.ops.map fun o => (o.cls, o.seq, o.started))
    = some [(.copy, 1#32, false)] := by decide
theorem test_push_counts : (groupAfter (.pushCopy eP) (commanded fill)).map (fun g => (g.counters.copy, g.regEnd (.s 6) 0)) = some (1, 0#64) := by
  decide
theorem test_push_bad_command : (groupAfter (.pushIndex eP) (commanded [0x0000000000000077#64])).map (fun g => (g.counters.index, g.status.index))
    = some (0, 0x100017701#64) := by decide
theorem test_push_coll_bad_command : (groupAfter (.pushColl eP) (commanded [0#64])).map (fun g => g.status.coll.toNat % 256) = some 1 := by decide
theorem test_push_attn : (after (.pushAttn eP) (commanded [0x0000000000FF0020#64])).map (fun t => t.chip.ops.map (·.cls)) = some [.attn] := by decide
theorem test_wcnt_reads_and_clears : let s := { dev with chip := dev.chip.onGroup 2 fun g => { g with status := g.status.set 5#64 .copy } }
    rAfter (.wcnt .copy { blank with d := 7 }) s (.s 7) = some 5#64
      ∧ (groupAfter (.wcnt .copy { blank with d := 7 }) s).map (·.status.copy) = some 0#64 := by decide
theorem test_wcnt_waits : (groupAfter (.wcnt .index { blank with d := 7 }) { dev with chip := dev.chip.onGroup 2 fun g => g.raise .index }).map (·.wait)
    = some (some (.counter .index 0 7)) := by decide
/-- The fill accepted, and its step due. -/
def filling : State := (after (.pushCopy eP) (commanded fill)).getD dev
theorem test_cp_fill : (after .cpFill { filling with event := { a := (filling.chip.ops.map (·.id)).headD 0 } }).map
    (fun t => t.chip.bytes 0x22000 9) = some [1#8, 2#8, 3#8, 4#8, 5#8, 6#8, 7#8, 8#8, 0#8] := by decide


/-! ## Soft regions and hash tables (R162 to R187, R270 to R293) -/

/-- Little-endian bytes of 64-bit words. -/
def dwords (ws : List W64) : List Byte := ws.flatMap fun w => leBytes 8 w.toNat
/-- A soft region of two slots of one f32 element is described at 0x200 of the scratchpad, its data 2.0 and 4.0 at 0x300; s2 is its
address; v8 holds the weights 0.5 and 0.5, v9 the element 1.0. -/
def bare0 : State :=
  world 0 (fun g => { g with s := scals [(2, 0x8000000000000200#64), (4, 0#64)], m := scals [(2, 3#64)]
                             v := vecs [(8, [0x3F000000#32, 0x3F000000#32]), (9, [0x3F800000#32])] })
    fun t => (t.spPut 0x200 (dwords [0x300#64, 0#64, 0#64, 1#64, 0#64, 0#64, 0#64, 0#64])).spPut 0x300 (dwords [0x4080000040000000#64])
/-- d = s6 or v6, the region of s2, the weights v8. -/
def eS : Enc := { blank with d := 6, a := 2, b := 8 }
theorem test_sinit : rAfter (.sinit { eS with b := 0 }) bare0 (.s 6) = some 0#64
    ∧ (after (.sinit { eS with b := 0 }) bare0).map (fun t => t.chip.regions.map fun r => (r.n, r.w, r.base)) = some [(2, 1, 0x300#64)] := by
  decide
/-- The region live. -/
def live : State := (after (.sinit { eS with b := 0 }) bare0).getD bare0
theorem test_sinit_busy : rAfter (.sinit { eS with b := 0 }) live (.s 6) = some 4#64 := by decide
theorem test_sinit_rel : (after (.sinitRel { eS with b := 0, c := 1 }) live).map (fun t => t.chip.regions) = some [] := by decide
theorem test_sld_accepted : (after (.sldFwd eS) live).map (fun t => t.chip.regions.map fun r => (r.ticket, r.ops.map (·.form)))
    = some [(1#32, [.sldFwd])] := by decide
/-- The region after an operation is accepted, and its step due. -/
def softDue (i : Instr) : State :=
  let t := (after i live).getD live
  { t with event := { a := (t.chip.regions.map (·.id)).headD 0 } }
theorem test_sld_fwd : vAfter .softOpApply (softDue (.sldFwd eS)) 6 0 = some 0x40400000#64 := by decide
/-- Two steps of the application: one for each slot. -/
def softTwice (i : Instr) : Option State := (after .softOpApply (softDue i)).bind fun t => after .softOpApply { t with event := (softDue i).event }
theorem test_sst_write_first : (after .softOpApply (softDue (.sstWrite { eS with d := 9 }))).bind (spOf 8 0x300) = some 0x408000003FC00000 := by
  decide
theorem test_sst_write : (softTwice (.sstWrite { eS with d := 9 })).bind (spOf 8 0x300) = some 0x402000003FC00000 := by
  decide
theorem test_sst_add : (softTwice (.sstAdd { eS with d := 9 })).bind (spOf 8 0x300) = some 0x4090000040200000 := by
  decide
theorem test_sst_blend : (after .softOpApply (softDue (.sstBlend { eS with d := 9, c := 0xFF }))).bind (spOf 4 0x300) = some 0x40200000 := by
  decide
theorem test_sld_bwd : vAfter .softOpApply (softDue (.sldBwd { eS with c := 9 })) 6 1 = some 0x40800000#64 := by decide
theorem test_sst_bwd_without_tape : (groupAfter (.sstBwd { eS with c := 9 }) (handled live)).map (·.xcause) = some 0x0C#8 := by decide
theorem test_sseq : rAfter (.sseq { eS with b := 0xFF }) live (.s 6) = some 0#64 := by decide
theorem test_sfence : rAfter (.sfence { eS with b := 0xFF }) live (.s 6) = some 0#64 := by decide
theorem test_stape : (groupAfter (.stape { eS with b := 2 }) (handled live)).map (fun g => (g.xcause, g.xval)) = some (0x08#8, 0x8000000000000200#64) := by
  decide
theorem test_hard_idx : rAfter (.hardIdx { blank with d := 4, a := 8, imm := 4 })
    (small [(8, [0#32, 0x3F000000#32, 0x3F000000#32, 0#32])] []) (.s 4) = some 1#64 := by decide
theorem test_hard_onehot : vAfter (.hardOnehot { blank with d := 4, a := 8, imm := 4 })
    (small [(8, [0x7FC00000#32, 0x80000000#32, 0#32, 0#32])] []) 4 1 = some 0x3F800000#64 := by decide

/-- s2 claims a table of one bucket at 0x400 whose spill descriptor is at 0x600; v4 holds keys and v5 values. -/
def keyed : State :=
  world 0 (fun g => { g with s := scals [(2, 0x60000000400#64)], v := vecs [(4, [5#32, 5#32, 6#32, 0xFFFFFFFF#32]), (5, [10#32, 20#32, 30#32])]
                             m := scals [(2, 0xF#64)] }) fun t => t
theorem test_hclaim : rAfter (.hclaim { blank with d := 6, a := 2, imm := 3 }) keyed (.s 6) = some 0#64
    ∧ (after (.hclaim { blank with d := 6, a := 2, imm := 3 }) keyed).bind (spOf 4 0x41C) = some 0xFFFFFFFF := by decide
theorem test_hclaim_bad_word : rAfter (.hclaim { blank with d := 6, a := 2 })
    { keyed with chip := keyed.chip.onGroup 2 fun g => { g with s := scals [(2, 0x60000000401#64)] } } (.s 6) = some 1#64 := by decide
/-- A state with its team changed. -/
def onPad (s : State) (f : Team → Team) : State := { s with chip := s.chip.onTeam 1 f }
/-- The table claimed as h3. -/
def tabled : State := onPad ((after (.hclaim { blank with d := 6, a := 2, imm := 3 }) keyed).getD keyed) fun u => { u with old := [] }
/-- d = v6, keys v4, values v5, status v7, table h3, lanes 0 to 3. -/
def eH : Enc := { blank with q := 2, d := 6, a := 4, b := 5, c := 7, imm := 3 }
theorem test_hop_forms_steps : (after (.hopAcc .addS32 eH) tabled).map (fun t => t.chip.teams.flatMap fun u => u.steps.map fun st => (st.key, st.lanes.map (·.2)))
    = some [(5#64, [10#64, 20#64]), (6#64, [30#64])] := by decide
theorem test_hop_reserved_key : vAfter (.hopAcc .addS32 eH) tabled 7 3 = some 5#64 := by decide
/-- The event names the first hash instruction that has a step. -/
def nextHash (t : State) : State := { t with event := { a := ((t.chip.teams.flatMap (·.steps)).map (·.id)).headD 0 } }
/-- The first step of a hop, due. -/
def hashDue (i : Instr) : State := nextHash ((after i tabled).getD tabled)
theorem test_hash_step_accumulates : vAfter .hashStep (hashDue (.hopAcc .addS32 eH)) 7 0 = some 0#64
    ∧ (after .hashStep (hashDue (.hopAcc .addS32 eH))).bind (spOf 4 0x420) = some 30 := by decide
theorem test_hash_step_probe : vAfter .hashStep (hashDue (.hopProbe { eH with b := 0 })) 7 1 = some 4#64 := by decide
theorem test_hash_step_ins : vAfter .hashStep (hashDue (.hopIns eH)) 7 1 = some 1#64 := by decide
theorem test_hash_step_del : vAfter .hashStep (hashDue (.hopDel { eH with b := 0 })) 7 0 = some 4#64 := by decide
/-- Bytes that the hash unit still sees as empty key bytes, though a store has put the key 5 there (R286). -/
def laggingKey (s : State) : State := onPad s fun u => { u.spPut 0x400 (leBytes 4 5) with
  lag := (List.range 4).map fun i => { at_ := 0x400 + i, byte := 0xFF, groups := [2] } }
theorem test_hash_unit_sees_late : vAfter .hashStep (laggingKey (hashDue (.hopProbe { eH with b := 0 }))) 7 0 = some 4#64
    ∧ (after .hashStep (laggingKey (hashDue (.hopProbe { eH with b := 0 })))).bind (spOf 4 0x400) = some 5 := by decide
theorem test_hop_of_other_width : (groupAfter (.hopIns64 { eH with b := 4, d := 8 }) (handled tabled)).map (fun g => (g.xcause, g.xval))
    = some (0x01#8, 3#64) := by decide
theorem test_hop_unclaimed : (groupAfter (.hopProbe64 { eH with b := 0, imm := 4 }) (handled tabled)).map (fun g => (g.xcause, g.xval))
    = some (0x08#8, 4#64) := by decide
theorem test_hrel : (after (.hrel { blank with d := 6, imm := 3 }) tabled).map (fun t => t.chip.teams.map fun u => u.tables.length) = some [0] := by
  decide
theorem test_hclr_unclaimed : rAfter (.hclr { blank with d := 6, imm := 4 }) tabled (.s 6) = some 5#64 := by decide
/-- The table after a key group of 5 has been put in it, and the cursor s9. -/
def filled : State :=
  let t := (after .hashStep (hashDue (.hopAcc .addS32 eH))).getD tabled
  { t with chip := { (t.chip.onTeam 1 fun u => { u with steps := [], old := [] }).onGroup 2 fun g => { g with busy := [], due := [] } with cyc := 1000 } }
theorem test_hstat : rAfter (.hstat { blank with d := 12, imm := 3 }) filled (.s 12) = some 1#64 := by decide
/-- A drain formed, its first step due. -/
def drainDue (i : Instr) : State := nextHash ((after i filled).getD filled)
/-- d = v10, values v11, statuses v12, cursor s9. -/
def eC : Enc := { blank with q := 2, d := 10, b := 11, c := 12, a := 9, imm := 3 }
theorem test_hdrain_keep : vAfter .hashStep (drainDue (.hdrainKeep eC)) 10 0 = some 5#64
    ∧ vAfter .hashStep (drainDue (.hdrainKeep eC)) 12 0 = some 1#64 := by decide
theorem test_hdrain_clear : vAfter .hashStep (drainDue (.hdrainClear eC)) 11 0 = some 30#64
    ∧ (after .hashStep (drainDue (.hdrainClear eC))).bind (spOf 4 0x400) = some 0xFFFFFFFF := by decide
theorem test_hash32 : hash32 1#32 = 0x9A637E91#32 := by decide

/-! ## Work, regions, jobs and system instructions (R301 to R328, R369 to R374) -/

/-- A descriptor whose completion counter is 5 and job 6. -/
def launchWords (cctr : Nat) : List W64 :=
  [0x40#64, 0#64, 0x1008#64, 0#64, BitVec.ofNat 64 (cctr * 2 ^ 32 + 64), 0xFFFFFFFF00000000#64, 6#64, 0#64]
/-- The context owns counters 0 to 15, of which 6 is a job; s8 to s15 hold the descriptor; s2 = 5, s3 = 6 and s4 = 7. -/
def jobbed : State :=
  let s := inCtx (fun k => { k with cnum := 16 }) (commanded (launchWords 5))
  let regs := fun g : Group => SMap.put 0 (SMap.put 0 (SMap.put 0 g.s 2 5#64) 3 6#64) 4 7#64
  { s with chip := (s.chip.onGroup 2 fun g => { g with s := regs g }).setCounter 6 { Counter.reset with level := 3 } }
theorem test_spawn : rAfter (.spawn { eP with imm := 3 }) jobbed (.s 6) = some 0#64
    ∧ (after (.spawn { eP with imm := 3 }) jobbed).map (fun t => (t.chip.counter 5).target) = some 1#32 := by decide
theorem test_spawn_bad_counter : rAfter (.spawn eP) (inCtx (fun k => { k with cnum := 4 }) jobbed) (.s 6) = some 4#64 := by decide
theorem test_fw : (groupAfter (.fw { blank with a := 0xFF, imm := 0x100 }) pad).map (·.fwOut) = some (some 0x100)
    ∧ (after (.fw { blank with a := 0xFF, imm := 0x100 }) pad).bind (spOf 8 0x100) = some 0 := by decide
theorem test_fw_misaligned : (groupAfter (.fw { blank with a := 0xFF, imm := 0x108 }) (handled pad)).map (fun g => (g.xcause, g.xval))
    = some (0x09#8, 0x108#64) := by decide
theorem test_rgn_enter : (after (.rgnEnter { blank with a := 2 }) pad).map (fun t => t.chip.teams.map fun u => (u.rec_.entry, u.rec_.arg))
    = some [(12#64, 0x100#64)] := by decide
theorem test_job_cwait_waits : (groupAfter (.jobCwait { blank with d := 9, a := 2, b := 0xFF, imm := 1 }) jobbed).map (·.wait)
    = some (some (.jobCounter 5 1 9)) := by decide
theorem test_job_cadd : (after (.jobCadd { blank with d := 9, a := 2, b := 4 }) jobbed).map (fun t => (t.chip.counter 5).value) = some 7#32 := by decide
theorem test_job_cadd_init_level : rAfter (.jobCaddInit { blank with d := 9, a := 2, b := 4, c := 1 }) jobbed (.s 9) = some 1#64 := by decide
theorem test_job_cancel_level : rAfter (.jobCancel { blank with d := 9, a := 3, imm := 1 }) jobbed (.s 9) = some 1#64 := by decide
theorem test_job_cancel : (after (.jobCancel { blank with d := 9, a := 3, imm := 3 }) jobbed).map (fun t => (t.chip.counter 6).cancelled) = some true := by
  decide
/-- The team belongs to job 6. -/
def inJob : State := { jobbed with chip := { jobbed.chip with launches := jobbed.chip.launches.map fun l => { l with desc := { l.desc with job := 6 } } } }
theorem test_job_fork : rAfter (.jobFork { blank with d := 9, a := 2, b := 4 }) inJob (.s 9) = some 0#64
    ∧ (after (.jobFork { blank with d := 9, a := 2, b := 4 }) inJob).map (fun t => ((t.chip.counter 5).level, (t.chip.counter 5).parent))
      = some (3#2, 6#16) := by decide
theorem test_job_counter_out_of_range : (groupAfter (.jobCadd { blank with d := 9, a := 2, b := 4 }) (handled dev)).map (·.xcause) = some 0x08#8 := by
  decide

/-- Context 0 may run sys instructions; contexts 1 and 2 are absent; s2 = a, s3 = b. -/
def ruling (a b : W64) : State := inCtx (fun k => { k with priv := true }) (small [] [(2, a), (3, b)])
/-- d = s6, a = s2, b = s3. -/
def eY : Enc := { blank with d := 6, a := 2, b := 3 }
theorem test_sys_needs_privilege : (groupAfter (.sysCfgrd { eY with b := 0 }) (handled (small [] []))).map (·.xcause) = some 0x13#8 := by decide
theorem test_sys_cfgrd : rAfter (.sysCfgrd { eY with b := 0 }) (ruling 0x3#64 0#64) (.s 6) = some 0x00100000#64 := by decide
theorem test_sys_cfgwr : (after (.sysCfgwr eY) (ruling 0x4#64 0x123#64)).map (fun t => (t.chip.context 0).wcbWait) = some 0x123 := by decide
theorem test_sys_cfgwr_read_only : rAfter (.sysCfgwr eY) (ruling 0xE#64 0#64) (.s 6) = some 2#64 := by decide
theorem test_sys_tlbinv_leaf : rAfter (.sysTlbinvLeaf eY) (ruling 0#64 64#64) (.s 6) = some 1#64 := by decide
theorem test_sys_tlbinv_context : rAfter (.sysTlbinvContext { eY with imm := 1 }) (ruling 0#64 0#64) (.s 6) = some 0#64 := by decide
theorem test_sys_tlbinv_all : rAfter (.sysTlbinvAll { eY with imm := 2 }) (ruling 0#64 1#64) (.s 6) = some 0#64 := by decide
theorem test_sys_fqreplay_retry : rAfter (.sysFqreplayRetry { eY with b := 0 }) (ruling 5#64 0#64) (.s 6) = some 1#64 := by decide
theorem test_sys_fqreplay_discard : rAfter (.sysFqreplayDiscard { eY with b := 0, imm := 1 }) (ruling 5#64 0#64) (.s 6) = some 1#64 := by decide
theorem test_sys_halt_enable : (after (.sysHaltEnable { eY with b := 0 }) (ruling 1#64 0#64)).map (fun t => (t.chip.context 1).en) = some true := by
  decide
theorem test_sys_halt_suspend : rAfter (.sysHaltSuspend { eY with b := 0, imm := 1 }) (ruling 1#64 0#64) (.s 6) = some 2#64 := by decide
theorem test_sys_halt_resume : rAfter (.sysHaltResume { eY with b := 0, imm := 2 }) (ruling 0#64 0#64) (.s 6) = some 1#64 := by decide
theorem test_sys_halt_teardown : rAfter (.sysHaltTeardown { eY with b := 0, imm := 3 }) (ruling 1#64 0#64) (.s 6) = some 2#64 := by decide


/-! ## Well-formedness: one ill-formed term for each check (R13 to R19, R26, R27, R31, R76) -/

/-- Not well formed under the largest limits. -/
def bad (i : Instr) : Bool := !wellFormed .top i
/-- Limits of a small team: 32 registers, 2 tiles, 1 barrier, no hash tables, 8 lanes. -/
def few : Limits := { nRegs := 32, tiles := 2, bars := 1, hc := false, width := 8 }

theorem test_wf_accepts : wellFormed .top (.add { blank with d := 4, a := 2, b := 3 }) = true
    ∧ wellFormed few (.add { blank with d := 31, a := 2, b := 3 }) = true := by decide
theorem test_wf_forms : bad (.fsh { blank with form := .el 0, d := 4, a := 2, b := 3, c := 5 }) = true
    ∧ bad (.nop { blank with form := .el 0 }) = true ∧ bad (.mulh { blank with form := .bl 0, d := 4 }) = true := by decide
theorem test_wf_types : bad (.add { blank with d := 4, a := 2, b := 3, ty := .lg6 }) = true := by decide
theorem test_wf_register_pairs : bad (.add { blank with d := 5, a := 2, b := 6, ty := .z64 }) = true := by decide
theorem test_wf_register_limit : wellFormed few (.add { blank with d := 32, a := 2, b := 3 }) = false := by decide
theorem test_wf_register_block : bad (.mmaBf16 { blank with d := 0x80, a := 9, b := 16 }) = true
    ∧ bad (.mmaBf16 { blank with d := 0x80, a := 0xFF, b := 16 }) = true := by decide
theorem test_wf_scalar_source : bad (.add { blank with d := 4, a := 0x40, b := 3, as_ := true }) = true := by decide
theorem test_wf_scalar_classes : bad (.ret { blank with a := 0x40 }) = true ∧ bad (.ret { blank with a := 0xFF }) = true
    ∧ bad (.cmp .eq { blank with d := 0x40 }) = true ∧ bad (.jclr { blank with d := 0x58 }) = true
    ∧ bad (.ksetNot { blank with d := 0x58, a := 0x59 }) = true ∧ bad (.hdrainKeep { blank with a := 0x40 }) = true
    ∧ bad (.mmovNot { blank with d := 0x41, a := 3 }) = true := by decide
theorem test_wf_scalar_pairs : bad (.ldh { blank with d := 5, a := 2 }) = true ∧ bad (.spawn { blank with d := 5, a := 9 }) = true
    ∧ bad (.pushCopy { blank with d := 0x3F, a := 8 }) = true := by decide
theorem test_wf_tiles_and_barriers : wellFormed few (.tzero { blank with d := 0x82 }) = false
    ∧ wellFormed few (.barQuery { blank with d := 5, a := 0xC1 }) = false := by decide
theorem test_wf_hash_claim : wellFormed few (.hclaim { blank with d := 5, a := 2 }) = false := by decide
theorem test_wf_scale : bad (.lea { blank with d := 4, a := 2, b := 3, c := 5, ty := .z64 }) = true
    ∧ bad (.lea { blank with d := 4, a := 2, b := 3, c := 8, ty := .z64 }) = true := by decide
theorem test_wf_segment : bad (.seg { blank with a := 3 }) = true ∧ wellFormed few (.segB { q := 0, stall := 0, d := 0, a := 16 }) = false := by
  decide
theorem test_wf_special_registers : bad (.gsr { blank with d := 4, a := 0x76 }) = true ∧ bad (.ssr { blank with d := 0x60, a := 2 }) = true := by
  decide
theorem test_wf_counts : bad (.ldsv { blank with d := 4, a := 2, c := 3 }) = true ∧ bad (.movx { blank with d := 4, a := 2, c := 8 }) = true
    ∧ bad (.sleepPrm { blank with a := 2, b := 6 }) = true ∧ bad (.hardIdx { blank with d := 4, a := 2, imm := 1 }) = true := by decide
theorem test_wf_lg6_scales : wellFormed few (.mmaLg6 { blank with d := 0x80, a := 4, b := 16, imm := 0x20 }) = false := by decide
theorem test_wf_reserved_fields : bad (.nop { blank with d := 1 }) = true ∧ bad (.sleepCyc { blank with a := 2, c := 0x20 }) = true
    ∧ bad (.tzero { blank with d := 0x80, c := 1 }) = true := by decide
theorem test_wf_reserved_bits : bad (.nop { blank with as_ := true }) = true ∧ bad (.nop { blank with bs := true }) = true
    ∧ bad (.min { blank with d := 4, sat := true }) = true ∧ bad (.add { blank with d := 4, rnd := .rz }) = true
    ∧ bad (.saluAdd { blank with d := 4, q := 1 }) = true ∧ bad (.atom .and { blank with d := 4, a := 2, ty := .bf16 }) = true
    ∧ bad (.fenceAcq { blank with ty := .bf16 }) = true := by decide
theorem test_wf_immediates : bad (.nop { blank with imm := 1 }) = true ∧ bad (.bfx { blank with d := 4, a := 2, c := 3, imm := 0x10000 }) = true
    ∧ bad (.leaseSet { blank with a := 2, imm := 1 }) = true ∧ bad (.saluAdd { blank with d := 4, a := 2, b := 3, imm := 1 }) = true := by decide
theorem test_wf_literals : bad (.br { blank with form := .el 8, imm := 1 }) = true ∧ bad (.jclr { blank with form := .el 1, d := 0x50 }) = true
    ∧ bad (.exit { blank with form := .bl 1 }) = true := by decide
theorem test_wf_short_form : bad (.mov { blank with form := .bl 1, d := 4, a := 0xFF, c := 1 }) = true := by decide
theorem test_wf_row_of_fields : bad (.sinit { blank with d := 4, a := 2, c := 1 }) = true
    ∧ bad (.sysTlbinvAll { blank with d := 4, a := 2, b := 3, imm := 1 }) = true := by decide
/-- A pair of adds on separate banks. -/
def twoAdds : PEnc := { q := 0, stall := 0, d1 := 4, a1 := 8, b1 := 9, p1 := 0, d2 := 5, a2 := 10, b2 := 11, p2 := 0 }
theorem test_wf_pair : wellFormed .top (.pair twoAdds) = true := by decide
theorem test_wf_pair_codes : bad (.pair { twoAdds with p1 := 0x3F }) = true := by decide
theorem test_wf_pair_operands : bad (.pair { twoAdds with p1 := 0x19, d1 := 7 }) = true := by decide
theorem test_wf_pair_banks : bad (.pair { twoAdds with d2 := 8 }) = true ∧ bad (.pair { twoAdds with b1 := 12, a2 := 16 }) = true := by decide
theorem test_wf_pair_multiplies : bad (.pair { twoAdds with p1 := 0x02, p2 := 0x02 }) = true := by decide
theorem test_wf_pair_depends : bad (.pair { twoAdds with a2 := 4 }) = true ∧ bad (.pair { twoAdds with a1 := 5 }) = true := by decide
theorem test_wf_pair_reserved : bad (.pair { twoAdds with p1 := 0x0B, b1 := 1 }) = true := by decide
theorem test_wf_illegal_words : wellFormed .top (.illegal [0x00000FE0#32]) = true ∧ bad (.illegal []) = true
    ∧ bad (.illegal [0x00000FE1#32]) = true ∧ bad (.illegal [0x00000FA0#32]) = true := by decide
theorem test_wf_events : bad .hashStep = true := by decide

/-! ## Decoding the manual's words -/

/-- An instruction decodes from its words, and they are the words it encodes to. -/
def reads (ws : List W32) (i : Instr) : Bool :=
  match decodeWords .top ws with
  | .ok j => j == i && encode i == ws
  | .error _ => false

theorem test_decode_short : reads [0x0090420C#32] (.addB { q := 0, stall := 3, d := 4, a := 9 }) = true
    ∧ reads [0x000000E0#32] (.exitB { q := 0, stall := 0, d := 0, a := 0 }) = true
    ∧ reads [0x00400120#32] (.segB { q := 0, stall := 0, d := 0, a := 4 }) = true := by decide
theorem test_decode_short_literal :
    reads [0x0FF04616#32, 0x40300000#32, 0#32] (.fadd (shortEnc 0x30 (.bl 0x40300000#64) { q := 0, stall := 5, d := 4, a := 0xFF })) = true := by
  decide
theorem test_decode_control : reads [0x253000C1#32, 0x00000045#32, 0x000003E8#32] (.jwait { blank with q := 2, a := 0x53, b := 0x45, imm := 1000 }) = true
    ∧ reads [0x00500141#32, 0x00020000#32, 0#32] (.sleepPrm { blank with a := 5 }) = true
    ∧ reads [0x06905161#32, 0#32, 0#32] (.gsr { blank with d := 5, a := 0x69 }) = true := by decide
theorem test_decode_integer : reads [0x0020340D#32, 0x0100FF00#32, 0x304#32]
      (.bfx { blank with stall := 3, d := 3, a := 2, c := 0xFF, ty := .z32, imm := 0x304 }) = true
    ∧ reads [0x001414C1#32, 0x00030009#32, 0#32] (.cmp .le { blank with d := 0x41, a := 1, b := 9 }) = true
    ∧ reads [0x0010528D#32, 0x20000302#32, 0#32] (.mad { blank with stall := 3, d := 5, a := 1, b := 2, c := 3, sat := true }) = true := by decide
theorem test_decode_float : reads [0x30206675#32, 0x0A000703#32, 0#32]
      (.fma { blank with q := 3, stall := 5, d := 6, a := 2, b := 3, c := 7, rnd := .rz, ty := .f32 }) = true
    ∧ reads [0x00102815#32, 0x00060000#32, 0#32] (.cvt .s32F32 { blank with stall := 5, d := 2, a := 1 }) = true := by decide
theorem test_decode_exchange : reads [0x00102935#32, 0x0001FFFF#32, 1#32]
      (.lxRise { blank with stall := 5, d := 2, a := 1, b := 0xFF, c := 0xFF, imm := 1 }) = true := by decide
theorem test_decode_scalar : reads [0x00003A01#32, 0x000D00FF#32, 0#32] (.saluMov { blank with d := 3, b := 0xFF }) = true := by decide
theorem test_decode_pair : reads [0x00804FD5#32, 0x02814009#32, 0x0000200D#32]
      (.pair { q := 0, stall := 5, d1 := 4, a1 := 8, b1 := 9, p1 := 0, d2 := 5, a2 := 10, b2 := 13, p2 := 0x20 }) = true := by decide
theorem test_decode_scratchpad : reads [0x0FF08BA1#32, 0#32, 0x001FFC20#32] (.ldh { blank with d := 8, a := 0xFF, imm := 0x1FFC20 }) = true := by decide
theorem test_decode_matrix : reads [0x01083C01#32, 0x00000018#32, 0#32] (.mmaBf16 { blank with d := 0x83, a := 0x10, b := 0x18 }) = true
    ∧ reads [0x00885C01#32, 0x40044128#32, 0x00013D3C#32]
      (.mmaLg6 { blank with d := 0x85, a := 8, b := 0x28, c := 0x41, as_ := true, imm := 0x13D3C }) = true
    ∧ reads [0x00A84C21#32, 0x0205000B#32, 0#32] (.tdrainAdd { blank with d := 0x84, a := 10, b := 11, ty := .f32 }) = true := by decide
theorem test_decode_soft : reads [0x00614C81#32, 0x00000008#32, 0#32] (.sldFwd { blank with d := 0x14, a := 6, b := 8 }) = true
    ∧ reads [0x0060CCA1#32, 0x20010008#32, 0#32] (.sstWrite { blank with d := 12, a := 6, b := 8, sat := true }) = true
    ∧ reads [0x00804CC1#32, 0#32, 4#32] (.hardIdx { blank with d := 4, a := 8, imm := 4 }) = true := by decide
theorem test_decode_hash : reads [0x00805D01#32, 0#32, 1#32] (.hclaim { blank with d := 5, a := 8, imm := 1 }) = true
    ∧ reads [0x00406D21#32, 0x00030705#32, 2#32] (.hopAcc .addS32 { blank with d := 6, a := 4, b := 5, c := 7, imm := 2 }) = true
    ∧ reads [0x0090AD41#32, 0x00000C0B#32, 0#32] (.hdrainKeep { blank with d := 10, a := 9, b := 11, c := 12 }) = true
    ∧ reads [0x0000CD61#32, 0#32, 3#32] (.hstat { blank with d := 12, imm := 3 }) = true := by decide
theorem test_decode_memory : reads [0x0FF00DE1#32, 0#32, 0x100#32] (.leaseSet { blank with a := 0xFF, imm := 0x100 }) = true
    ∧ reads [0x00009DE1#32, 0x00010000#32, 0#32] (.leaseGet { blank with d := 9 }) = true
    ∧ reads [0x00206E01#32, 0x42000507#32, 0#32] (.atom .addS32 { blank with d := 6, a := 2, b := 7, c := 5, ty := .f32, as_ := true }) = true := by
  decide
theorem test_decode_engines : reads [0x00007EA1#32, 0#32, 0#32] (.wcnt .copy { blank with d := 7 }) = true
    ∧ reads [0x000FFEA1#32, 0x00010000#32, 2#32] (.wcnt .index { blank with d := 0xFF, imm := 2 }) = true
    ∧ reads [0x0C006EC1#32, 0x00030000#32, 0#32] (.barSync { blank with d := 6, a := 0xC0 }) = true
    ∧ reads [0x00A09EE1#32, 0x0000000B#32, 0#32] (.mbxSend { blank with d := 9, a := 10, b := 11 }) = true
    ∧ reads [0x0FF0CEE1#32, 0x00010000#32, 3#32] (.mbxRecv { blank with d := 12, a := 0xFF, imm := 3 }) = true := by decide
theorem test_decode_work : reads [0x01028F01#32, 0#32, 3#32] (.spawn { blank with d := 0x28, a := 0x10, imm := 3 }) = true
    ∧ reads [0x00500F21#32, 0#32, 0x40#32] (.fw { blank with a := 5, imm := 0x40 }) = true
    ∧ reads [0x00700F41#32, 0#32, 0#32] (.rgnEnter { blank with a := 7 }) = true
    ∧ reads [0x00A09F61#32, 0x00020000#32, 3#32] (.jobCancel { blank with d := 9, a := 10, imm := 3 }) = true := by decide
theorem test_decode_system : reads [0x00000F81#32, 0#32, 5#32] (.trap { blank with imm := 5 }) = true
    ∧ reads [0x00000F81#32, 0x00010000#32, 0#32] (.brk blank) = true ∧ reads [0x00000F81#32, 0x00020000#32, 0#32] (.rft blank) = true
    ∧ reads [0x00403FA1#32, 5#32, 0#32] (.sysTlbinvLeaf { blank with d := 3, a := 4, b := 5 }) = true
    ∧ reads [0x00602FA1#32, 0x00010000#32, 0#32] (.sysCfgrd { blank with d := 2, a := 6 }) = true
    ∧ reads [0x00602FA1#32, 0x00020007#32, 0#32] (.sysCfgwr { blank with d := 2, a := 6, b := 7 }) = true
    ∧ reads [0x00802FA1#32, 0x00030000#32, 0#32] (.sysFqreplayRetry { blank with d := 2, a := 8 }) = true
    ∧ reads [0x00902FA1#32, 0x00040000#32, 1#32] (.sysHaltSuspend { blank with d := 2, a := 9, imm := 1 }) = true := by decide
theorem test_decode_refuses : decodeTableWord 32 0x00000FC0 = none ∧ decodeTableWord 96 0x00000E21 = some (.fenceAcq blank)
    ∧ decodeTableWord 96 (0x40000000 * 2 ^ 32 + 0x00000E21) = none := by decide
theorem test_step_runs_placed_word : (match step (State.reset.withFetchWord 32 0x0090420C) with
    | .next t => (t.chip.group? 2).map fun g => (g.lanes.map (·.pc)).headD 0
    | _ => none) = some 4#64 := by decide


/-! ## Witnesses: for each statement with hypotheses, states and operands that meet them -/

/-- The issue of an instruction in a state: it need not wait, is not too close to a producer, and has a property. -/
def issuesWith (s : State) (i : Instr) (p : Issue → Bool) : Bool :=
  match s.current.bind fun gid => s.chip.issueAt gid i with
  | none => false
  | some x => !x.g0.mustWait x.now (readsOf i x.g.width) (writesOf i x.g.width)
      && !(x.g0.sbchk && x.g0.stallShort x.pos (readsOf i x.g.width) (writesOf i x.g.width))
      && !s.chip.fenced x.g.id i && p x

/-- Some issue of the instruction has the property: the hypotheses of a statement about it are met. -/
def CanIssue (s : State) (i : Instr) (p : Issue → Bool) : Prop := ∃ x, Issues s i x ∧ p x = true

theorem canIssue_of_issuesWith {s : State} {i : Instr} {p : Issue → Bool} (h : issuesWith s i p = true) : CanIssue s i p := by
  unfold issuesWith at h
  cases hx : s.current.bind fun gid => s.chip.issueAt gid i with
  | none => rw [hx] at h; cases h
  | some x =>
    rw [hx] at h
    simp only [Bool.and_eq_true, Bool.not_eq_true'] at h
    exact ⟨x, ⟨hx, h.1.1.1, h.1.1.2, h.1.2⟩, h.2⟩

/-- Every one of some states, instructions and properties can be met. -/
def Meets (l : List (State × Instr × (Issue → Bool))) : Prop := ∀ q ∈ l, CanIssue q.1 q.2.1 q.2.2

theorem meets {l : List (State × Instr × (Issue → Bool))} (h : (l.all fun q => issuesWith q.1 q.2.1 q.2.2) = true) : Meets l :=
  fun q hq => canIssue_of_issuesWith (List.all_eq_true.mp h q hq)

/-- No further hypothesis. -/
def always (_ : Issue) : Bool := true
/-- No write of the registers is pending. -/
def calm (ws : List RegName) (x : Issue) : Bool := ws.all x.g.settled
/-- 8 lanes without a register set. -/
def idle : State := small [] []
/-- No lane is active: m2 is empty, Q = 2. -/
def eNone : Enc := { blank with q := 2 }
/-- The check of an Except that comes second. -/
def passes {α ε : Type} (r : Except ε α) : Bool := match r with | .ok _ => true | .error _ => false

theorem witness_IntegerResults : Meets ((arithmetic eAB sh ++ arithmetic { pAB with ty := .z64, sat := true } sh ++ bitwise eAB sh
    ++ bitwise { pAB with ty := .s64 } sh).map fun p => (idle, p.1, calm (dregs 4 2))) := meets (by decide)

theorem witness_IntegerFieldAndCompareResults : Meets (([Instr.fsh eABC, .bfx { eA with c := 7 }, .bfi eABC, .perm eABC, .popc eA, .clz eA, .brev eA,
    .clz { eA with ty := .z64 }, .sad eABC, .sel { eAB with c := 0x41 }, .lea { pAB with ty := .s64 }].map fun i => (idle, i, calm (dregs 4 2)))
    ++ [Rel.eq, .ne, .lt, .le, .gt, .ge].map fun r => (idle, .cmp r { eAB with d := 0x4F }, calm (sregs 0x4F))) := meets (by decide)

theorem witness_FloatResults : Meets (([Ty.f32, .f16, .bf16].flatMap fun ty => floating { eABC with ty } sh).map fun p =>
    (idle, p.1, calm (dregs 4 1))) := meets (by decide)

theorem witness_FloatScaleDotCompare : Meets ([(idle, .fscale fAB, calm (dregs 4 1)), (idle, .fdot2 { eABC with ty := .f16 }, calm (dregs 4 1))]
    ++ [FRel.eq, .ne, .lt, .le, .gt, .ge, .unord, .ord].map fun r => (idle, .fcmp r { fAB with d := 0x41 }, calm (sregs 0x41))) := meets (by decide)

theorem witness_RepresentableValuesRoundToThemselves : ([fmtF32, fmtF16, fmtBF16].all fun f =>
    [0, 1, 2 ^ (f.bits - 1), 2 ^ (f.bits - 1) - 2 ^ f.mb].all fun a => decide (a < 2 ^ f.bits) && !(f.decode a).isNaN) = true := by decide

theorem witness_ConversionAndPackingResults : Meets (([CvtPair.f16F32, .bf16F32, .f32F16, .f32Bf16, .bf16F16, .f16Bf16, .s32F32, .z32F32, .s64F32,
    .z64F32, .s32F16, .s32Bf16, .f32S32, .f32Z32, .f32S64, .f32Z64, .f16S32, .bf16S32, .s64S32, .z64Z32, .s32S64, .z32Z64].map fun p =>
      (idle, .cvt p eA, calm (dregs 4 2)))
    ++ [Instr.pack16 .f16 eAB, .pack8 .s { eA with a := 8 }, .unpk16 .f16 eA, .unpk8 .z eA, .lgqCode eAB, .lgqPairs eAB, .lgx eAB,
      .lgpkPack { eA with a := 8 }, .lgpkUnpack { eA with a := 8 }].map fun i => (idle, i, calm (dregs 4 4))) := meets (by decide)

/-- 65,520 toward zero overflows to the largest finite number, as the worked case under R100 has it. -/
theorem test_round_to_zero_overflows : convertFmt fmtF32 fmtF16 .rz 0x477FF000 = (0x7BFF, flagOF ||| flagNX) := by decide
theorem witness_SpecialFunctionResults : Meets ([Instr.sfuRcp fA, .sfuRsqrt fA, .sfuSqrt fA, .sfuExp2 fA, .sfuLog2 fA].map fun i =>
    (idle, i, calm (dregs 4 1))) := meets (by decide)
theorem witness_SpecialFunctionOperands : (fmtF32.decode 0x7F800001).isNaN = true ∧ (fmtF32.decode 0xFFFFFFFF).isNaN = true
    ∧ 0x80000000 < (0x80000001#32).toNat ∧ (0xFF7FFFFF#32).toNat < 0xFF800000 := by decide

theorem witness_SpecialFunctionValues : (∀ a ∈ [0x3F800000#32, 0x3FC00000#32, 0x43800000#32, 0xC3800000#32, 0x00000001#32], finiteF32 a)
    ∧ f32Value 0x3F800000#32 = 1 ∧ f32Value 0x3FC00000#32 = 3 / 2 ∧ 128 ≤ f32Value 0x43800000#32 ∧ f32Value 0xC3800000#32 ≤ -150
    ∧ 2 ^ 128 - 2 ^ 103 ≤ |(f32Value 0x00000001#32)⁻¹| := by
  have h1 : fmtF32.decode (0x3F800000#32).toNat = .fin false 8388608 (-23) := by decide
  have h2 : fmtF32.decode (0x3FC00000#32).toNat = .fin false 12582912 (-23) := by decide
  have h3 : fmtF32.decode (0x43800000#32).toNat = .fin false 8388608 (-15) := by decide
  have h4 : fmtF32.decode (0xC3800000#32).toNat = .fin true 8388608 (-15) := by decide
  have h5 : fmtF32.decode (0x00000001#32).toNat = .fin false 1 (-149) := by decide
  refine ⟨?_, ?_, ?_, ?_, ?_, ?_⟩
  · intro a ha
    simp only [List.mem_cons, List.not_mem_nil, or_false] at ha
    rcases ha with rfl | rfl | rfl | rfl | rfl
    exacts [⟨_, _, _, h1⟩, ⟨_, _, _, h2⟩, ⟨_, _, _, h3⟩, ⟨_, _, _, h4⟩, ⟨_, _, _, h5⟩]
  · rw [f32Value, h1, valueOf]; norm_num
  · rw [f32Value, h2, valueOf]; norm_num
  · rw [f32Value, h3, valueOf]; norm_num
  · rw [f32Value, h4, valueOf]; norm_num
  · rw [f32Value, h5, valueOf]; norm_num

theorem witness_VoteMatchRankResults : Meets ([(Instr.voteAny { eA with as_ := true }, dregs 4 1), (.voteAll eA, dregs 4 1), (.voteCount eA, dregs 4 1),
    (.voteBallot { eA with d := 0x41 }, sregs 0x41), (.matchLanes .s32 eA, dregs 4 2), (.matchLanes .s64 eA, dregs 4 2), (.rank { eA with a := 0 }, dregs 4 1),
    (.elect { blank with d := 0x41 }, sregs 0x41)].map fun p => (ranks, p.1, fun x => decide (0 < x.g.seg) && calm p.2 x)) := meets (by decide)

theorem witness_LaneExchangeResults : Meets ((lxSources eABC ++ lxSources { pAB with c := 8, ty := .z64 }).map fun p =>
    (ranks, p.1, fun x => decide (0 < x.g.seg) && calm (dregs 4 2) x)) := meets (by decide)

/-- The group and its segments have 2^3 lanes. -/
def eights (x : Issue) : Bool := x.g.width == 2 ^ 3 && x.g.seg == 2 ^ 3
theorem witness_ReductionResults : Meets (([RdcOp.addS32, .addF32, .minS32, .maxS32, .minF32, .maxF32, .and, .or, .xor].flatMap fun op =>
      [(ranks, .rdc op { eA with as_ := true }, fun x => eights x && calm (dregs 4 1) x), (ranks, .rdc op eA, fun x => eights x && calm (sregs 4) x)])
    ++ [ScanOp.s32Inc, .s32Exc, .f32Inc, .f32Exc].map (fun op => (ranks, .scan op eA, fun x => eights x && calm (dregs 4 1) x))
    ++ [TopkOp.f32, .s32, .f32Nz, .s32Nz].map fun op =>
      (ranks, .topk op { blank with d := 0x41, a := 2, c := 4 }, fun x => eights x && calm (sregs 0x41 ++ dregs 4 1) x)) :=
  meets (by decide)

theorem witness_ScalarAndMaskResults : Meets ((saluTable eAB).map (fun p => (idle, p.1, calm (sregs 4)))
    ++ [SRel.eq, .ne, .lt, .le, .gt, .ge, .ltz, .lez, .gtz, .gez].map (fun r => (idle, .scmp r eAB, calm (sregs 4)))
    ++ [(idle, .saluLea { eAB with c := 4 }, calm (sregs 4)), (idle, .bcast eA, calm (dregs 4 1)), (idle, .bcast { eA with ty := .z64 }, calm (dregs 4 2)),
      (ranks, .pick eAB, calm (sregs 4))]
    ++ ([Instr.mmovAnd mAB, .mmovOr mAB, .mmovXor mAB, .mmovAndn mAB, .mmovNot { mAB with b := 0 }, .mmovFroms { mAB with a := 3, b := 0 },
        .mmovTos { mAB with d := 4, b := 0 }, .mmovPopc { mAB with d := 4, b := 0 }].map fun i =>
      (masks 1#64 2#64, i, fun x => decide (x.g.width ≤ 64) && calm (sregs 0x41 ++ sregs 4) x))) := meets (by decide)

theorem witness_IssueBookkeeping : marked.current = some 2 ∧ Meets [(marked, .nop { blank with q := 2, stall := 7 }, always), (marked, .add eAB, always)] :=
  ⟨by decide, meets (by decide)⟩

/-- The address of a transfer in s2. -/
def jumping (a : W64) : State := small [] [(2, a)]
theorem witness_ControlTransfers : Meets ([(idle, .nop blank, always), (idle, .nopB sh, always)]
    ++ ([Instr.br { blank with imm := 0x80 }, .jmp { blank with a := 2, as_ := true }, .ret { blank with a := 2 }, .retB { sh with d := 0 },
        .call { blank with d := 4, a := 2, as_ := true }].map fun i => (jumping 0x80#64, i, fun x => x.act != 0#64 && calm (sregs 4) x))
    ++ ([Instr.jmp { blank with a := 2, as_ := true }, .ret { blank with a := 2 }, .retB { sh with d := 0 }, .call { blank with d := 4, a := 2, as_ := true }].map
      fun i => (jumping 0x81#64, i, fun x => x.act != 0#64 && (x.g.scalar 2).toNat % 4 != 0))
    ++ [(idle, .jmp { eNone with imm := 1 }, fun x => x.act == 0#64), (idle, .br { blank with imm := 2 }, fun x => x.act != 0#64),
      (jumping 1#64, .sbrNz { blank with a := 2, imm := 8 }, always), (jumping 1#64, .sbrNz { blank with a := 2, imm := 6 }, always),
      (jumping 1#64, .sbrZ { blank with a := 2, imm := 8 }, always), (jumping 0#64, .sbrZ { blank with a := 2, imm := 8 }, always),
      (jumping 0#64, .sbrZ { blank with a := 2, imm := 1 }, always), (jumping 0#64, .sbrNz { blank with a := 2, imm := 8 }, always)]) :=
  meets (by decide)

/-- j7 holds a mask and m2 another. -/
def joined (j m : W64) : State := world 0 (fun g => { g with j := scals [(7, j)], m := scals [(2, m)] }) fun t => t
/-- Some running lane of the group is not active. -/
def restRuns (x : Issue) : Bool := (List.range x.g.width).any fun l => ((x.g.lanes[l]?).any fun y => y.st.isRunning) && !x.act.getLsbD l
/-- Lanes 4 to 7 are parked at j7, which names them all. -/
def lanesParked : State :=
  { joined 0xFF#64 0xF#64 with chip := (joined 0xFF#64 0xF#64).chip.onGroup 2 fun g => { g with
      lanes := (List.range 8).map fun l => if l < 4 then { pc := 0, st := .running } else { pc := 0, st := .parked 7 (some 1) } } }
theorem witness_JoinResults : Meets (([Instr.jsetM { blank with d := 0x57, a := 2 }, .jsetM { blank with d := 0x57, a := 0xFF }, .jsetAct { blank with d := 0x57, q := 2 },
      .jclr { blank with d := 0x57 }].map fun i => (joined 7#64 3#64, i, fun x => x.g.lanes.all (fun y => !y.st.isParked) && x.g.settled (.j 7)))
    ++ ([Instr.jsetM { blank with d := 0x57, a := 2, q := 2 }, .jclr { blank with d := 0x57, q := 2 }].map fun i =>
      (lanesParked, i, fun x => x.g.parkedAt 7 != 0#64 && x.g.settled (.j 7)))
    ++ [(lanesParked, .jwait { blank with a := 0x56, b := 0x4F }, fun x => x.act != 0#64 && !restRuns x && (x.g.parkedAt 7) != 0#64),
      (joined 7#64 0#64, .jwait { blank with a := 0x57, b := 0xFF, q := 2 }, fun x => x.act == 0#64),
      (joined 7#64 3#64, .jwait { blank with a := 0x57, b := 0xFF, q := 2, imm := 9 }, fun x => x.act != 0#64 && !x.g.inh && restRuns x
        && (x.g.jreg 7 &&& ~~~x.g.exited &&& ~~~(x.g.parkedAt 7 ||| x.act)) != 0#64),
      (joined 3#64 3#64, .jwait { blank with a := 0x57, b := 0x4F, q := 2 }, fun x => x.act != 0#64 && !x.g.inh && restRuns x
        && (x.g.jreg 7 &&& ~~~x.g.exited &&& ~~~(x.g.parkedAt 7 ||| x.act)) == 0#64)]) := meets (by decide)

/-- The launch is a maintenance launch. -/
def maintained (s : State) : State :=
  { s with chip := { s.chip with launches := s.chip.launches.map fun l => { l with desc := { l.desc with maint := true } } } }
/-- Lanes 0 to 3, the active ones, are the handler's; lanes 4 and 5 are held and 6 and 7 parked at j7, which names lane 0 too. -/
def leaving : State :=
  { joined 0xC1#64 0xF#64 with chip := (joined 0xC1#64 0xF#64).chip.onGroup 2 fun g => { g with
      inh := true, hlanes := 0xF#64
      lanes := (List.range 8).map fun l => { pc := 0, st := if l < 4 then .running else if l < 6 then .held else .parked 7 (some 4) } } }
/-- The last running lanes are active, and the others are parked at j6 and j7, each of which names a lane parked at the other. -/
def stranded : State :=
  { joined 0xF0#64 0xF#64 with chip := (joined 0xF0#64 0xF#64).chip.onGroup 2 fun g => { g with
      j := scals [(6, 0x20#64), (7, 0xF0#64)]
      lanes := (List.range 8).map fun l => { pc := 0, st := if l < 4 then .running else .parked (if l = 4 then 6 else 7) (some 4) } } }
theorem witness_ExitsOfLanes : Meets [(marked, .exit { blank with q := 2 }, always), (marked, .exitB { q := 2, stall := 0, d := 0, a := 0 }, always),
    (lanesParked, .exit { blank with q := 2 }, fun x => x.g.parkedAt 7 != 0#64),
    (leaving, .exit { blank with q := 2 }, fun x => x.g.inh && x.g.hlanes == x.act && x.g.parkedAt 7 != 0#64),
    (stranded, .exit { blank with q := 2 }, fun x => x.g.parkedAt 7 != 0#64 && !restRuns x),
    (idle, .exit blank, always), (maintained (jumping 0x80#64), .exitc { blank with a := 2, as_ := true }, fun x => x.desc.maint
      && x.act != 0#64 && (x.g.scalar 2).toNat % 4 == 0), (jumping 0x80#64, .exitc { blank with a := 2, as_ := true }, fun x => !x.desc.maint)] :=
  meets (by decide)
/-- R54: the exit of the last running lanes releases the parked ones, marked; R361: that of all lanes of H ends the handler. -/
theorem test_exit_strands : (groupAfter (.exit { blank with q := 2 }) stranded).map (fun g => ((g.lanes.drop 4).map (·.st), g.mreg 4))
    = some (List.replicate 4 .running, 0xF0#64) := by decide
theorem test_exit_leaves_handler : (groupAfter (.exit { blank with q := 2 }) leaving).map (fun g => (g.inh, (g.lanes.drop 4).map (·.st)))
    = some (false, List.replicate 4 .running) := by decide

/-- Nothing older of the group is outstanding. -/
def settledChip (s : State) (x : Issue) : Bool := !(x.chip0 s).olderPending x.g
theorem witness_SegmentSizes : Meets [(jumping 8#64, .seg { blank with a := 2, as_ := true }, fun x => decide ((x.g.scalar 2).toNat ≤ x.g.width)),
    (jumping 16#64, .seg { blank with a := 2, as_ := true }, fun x => decide (x.g.width < (x.g.scalar 2).toNat)), (idle, .seg { blank with a := 2 }, always),
    (jumping 3#64, .seg { blank with a := 2, as_ := true }, always), (world 3 (fun g => g) fun t => t, .segB { sh with d := 0, a := 64 }, always),
    (jumping 16#64, .ssr { blank with d := 0x6C, a := 2 }, settledChip (jumping 16#64))] :=
  meets (by decide)
theorem witness_SegmentSizes_decoding : (match decodeWords Limits.top [0x00400120#32] with
    | .ok (.segB b) => b.a == 4#8 | _ => false) = true
    ∧ (match decodeWords Limits.top [0x04000121#32, 0#32, 0#32] with | .ok (.seg e) => !e.as_ && e.a == 64#8 | _ => false) = true
    ∧ passes (decodeWords { Limits.top with width := 8 } [0x01000120#32]) = false := by decide

theorem witness_SpecialRegisters : Meets (((List.range 0x16).map fun k => (idle, Instr.gsr { blank with d := 4, a := BitVec.ofNat 8 (0x60 + k) },
      fun x => settledChip idle x && calm (dregs 4 2 ++ sregs 4) x))
    ++ ([(0x6D#8, 0x1F#64), (0x70#8, 1#64), (0x71#8, 0xFF#64), (0x72#8, 0x80#64), (0x73#8, 5#64), (0x74#8, 7#64), (0x6C#8, 8#64)].map fun p =>
      (jumping p.2, Instr.ssr { blank with d := p.1, a := 2 }, settledChip (jumping p.2)))
    ++ ([(0x6D#8, 0x20#64), (0x70#8, 2#64), (0x71#8, 0x100#64), (0x6C#8, 0x80#64)].map fun p =>
      (jumping p.2, Instr.ssr { blank with d := p.1, a := 2 }, settledChip (jumping p.2)))) := meets (by decide)

/-- The first failing lane's cause. -/
def failing (x : Issue) (f : Nat → Option (BitVec 8 × W64)) : Option (BitVec 8) := (x.lanes.findSome? f).map (·.1)
/-- s2 = the address of a scratchpad access. -/
def padded (a : W64) : State := world 0 (fun g => { g with s := scals [(2, a)], v := vecs [(8, [BitVec.ofNat 32 a.toNat])], m := scals [(2, 1#64)] }) fun t => t
/-- The scratchpad at s2, in every lane. -/
def eL : Enc := { blank with d := 4, a := 2, b := 0xFF, as_ := true }
/-- Lane 0 moves from v8 to v8. -/
def eX : Enc := { blank with d := 8, a := 8, c := 4, q := 2 }
theorem witness_ScratchpadAccesses : Meets (
    (([(LdType.s8, 0x3FFF#64), (.z8, 0#64), (.s16, 0x3FFE#64), (.z16, 0#64), (.w32, 0x3FFC#64), (.w64, 0x3FF8#64), (.w128, 0x3FF0#64), (.w32, 0x1FFFFC#64)].map fun p =>
      (padded p.2, Instr.lds p.1 eL, fun x => (failing x fun l => spFault x false (LdType.bytes p.1) (x.spAddr eL l)).isNone && calm (dregs 4 4) x)))
    ++ ([(0x102#64, 0x09#8), (0x4000#64, 0x08#8), (0x200000#64, 0x08#8)].map fun p =>
      (padded p.1, Instr.lds .w32 eL, fun x => failing x (fun l => spFault x false 4 (x.spAddr eL l)) == some p.2))
    ++ ([(StWidth.w8, 0x3FFF#64), (.w16, 0x3FFE#64), (.w32, 0x3FFC#64), (.w64, 0x3FF8#64), (.w128, 0x3FF0#64)].map fun p =>
      (padded p.2, Instr.sts p.1 eL, fun x => (failing x fun l => spFault x true (StWidth.bytes p.1) (x.spAddr eL l)).isNone))
    ++ ([(0x102#64, 0x09#8), (0x4000#64, 0x08#8), (0x1FFC00#64, 0x06#8), (0x1FFFFC#64, 0x06#8)].map fun p =>
      (padded p.1, Instr.sts .w32 eL, fun x => failing x (fun l => spFault x true 4 (x.spAddr eL l)) == some p.2))
    ++ [(padded 0x100#64, .ldsv { blank with d := 4, a := 2, c := 4 }, fun x => ((List.range 4).all fun j => x.lanes.all fun l =>
          (spFault x false 4 (x.svAddr { blank with d := 4, a := 2, c := 4 } j l)).isNone) && calm (dregs 4 4) x),
      (padded 0x3FF0#64, .ldsv { blank with d := 4, a := 2, c := 1 }, fun x => failing x (fun l => spFault x false 4 (x.svAddr { blank with d := 4, a := 2, c := 1 } 0 l))
        == some 0x08#8),
      (padded 0x100#64, .stsv { blank with d := 4, a := 2, c := 2 }, fun x => (List.range 2).all fun j => x.lanes.all fun l =>
          (spFault x true 4 (x.svAddr { blank with d := 4, a := 2, c := 2 } j l)).isNone),
      (padded 0x1FFC00#64, .stsv { blank with d := 4, a := 2, c := 1 }, fun x => failing x (fun l => spFault x true 4 (x.svAddr { blank with d := 4, a := 2, c := 1 } 0 l))
        == some 0x06#8),
      (padded 0x3FF0#64, .movx eX, fun x => x.lanes.all fun l => (spFault x true 16 (x.movxDst eX l)).isNone && (spFault x false 16 (x.movxSrc eX l)).isNone),
      (padded 0x108#64, .movx eX, fun x => failing x (fun l => spFault x true 16 (x.movxDst eX l)) == some 0x09#8),
      (padded 0x1FFFF0#64, .ldh { blank with d := 4, a := 2 }, fun x => calm [.s 4, .s 5] x), (padded 0x1FFC00#64, .ldh { blank with d := 62, a := 2 }, fun x => calm [.s 62, .s 63] x),
      (padded 0x1FFC08#64, .ldh { blank with d := 4, a := 2 }, always), (padded 0x1FFBF0#64, .ldh { blank with d := 4, a := 2 }, always),
      (padded 0x200000#64, .ldh { blank with d := 4, a := 2 }, always)]) := meets (by decide)

/-- The instructions of the matrix array. -/
def mxAll (e : Enc) : List Instr :=
  [.mmaBf16 e, .mmaF16 e, .mmaS8 e, .mmaZ8 e, .mmaLg6 e, .tzero e, .tld e, .tst e, .tcvt e, .tadd e, .tdrain e, .tdrainAdd e]
/-- Fewer than 63 drains are outstanding. -/
def mayDrain (x : Issue) : Bool := decide (x.g.counters.drain < 63)
/-- Every lane that has not exited is active. -/
def wholeGroup (x : Issue) : Bool := ~~~x.g0.exited &&& ~~~x.act == 0#64
theorem witness_MatrixMaskAndTilePredicates : Meets ((mxAll eM).flatMap (fun i => [(idle, i, fun x => mayDrain x && x.g.width != 64)])
    ++ (mxAll { eM with q := 2 }).map (fun i => (mx 0 [], i, fun x => mayDrain x && x.g.width == 64 && !wholeGroup x))
    ++ (mxAll { eM with c := 0x40 }).map (fun i => (mx 0 [], i, fun x => mayDrain x && x.g.width == 64 && wholeGroup x && !predicated x { eM with c := 0x40 }))
    ++ [Instr.ksetFroms { blank with d := 0x59, a := 2 }, .ksetNonzero { blank with d := 0x59, a := 0xBF }, .ksetAnd { blank with d := 0x59, a := 0x59, b := 0x5A },
      .ksetOr { blank with d := 0x59, a := 0x59, b := 0x5A }, .ksetNot { blank with d := 0x5F, a := 0x58 }].map fun i => (mx 0 [], i, calm (sregs 0x59 ++ sregs 0x5F))) :=
  meets (by decide)

/-- The array takes the instruction and its tile's predicate holds. -/
def arrayReady (e : Enc) (x : Issue) : Bool := x.g.width == 64 && wholeGroup x && x.team.lostWords.isEmpty && predicated x e
/-- Both operands of an mma pass their checks. -/
def operandsPass (e : Enc) (m : MmaKind) (x : Issue) : Bool :=
  (x.operandFail m e.as_ e.a.toNat (fieldOf e.imm.toNat 23 16) false).isNone && (x.operandFail m e.bs e.b.toNat (fieldOf e.imm.toNat 31 24) true).isNone
/-- Rows of 128 bytes from 0x1000 in s4 and s5. -/
def tiled : State := world 3 (fun g => { g with s := scals [(4, 0x8000001000#64)] }) fun t => t
/-- Tile 0 and the rows of s4. -/
def eT : Enc := { blank with d := 0x80, a := 4 }
theorem witness_TileAndStoreResults : Meets (
    ([(Instr.mmaBf16 eM, MmaKind.bf16), (.mmaF16 eM, .f16), (.mmaLg6 eM, .lg6), (.mmaS8 eM, .s8), (.mmaZ8 eM, .z8)].map fun p =>
      (mx 0 [], p.1, fun x => arrayReady eM x && operandsPass eM p.2 x))
    ++ [(tiled, .mmaBf16 { eT with b := 4, as_ := true, bs := true }, fun x => arrayReady eT x && operandsPass { eT with b := 4, as_ := true, bs := true } .bf16 x),
      (mx 0 [], .tzero { blank with d := 0x80 }, arrayReady { blank with d := 0x80 }),
      (tiled, .tld eT, fun x => arrayReady eT x && ((x.tileRows eT).fail x.spSize false 32 128).isNone),
      (mx 0 [], .tadd { blank with d := 0x80, a := 0x81, ty := .f32 }, arrayReady { blank with d := 0x80 }),
      (mx 0 [], .tadd { blank with d := 0x80, a := 0x80 }, arrayReady { blank with d := 0x80 }),
      (tiled, .tst eT, fun x => arrayReady eT x && ((x.tileRows eT).fail x.spSize true 32 128).isNone)]
    ++ [(Ty.bf16, 64), (.f32, 128)].map fun p => (tiled, .tcvt { eT with ty := p.1 }, fun x => arrayReady eT x && ((x.tileRows eT).fail x.spSize true 32 p.2).isNone)) := meets (by decide)


/-- The check of a list of places passes. -/
def fits {α β : Type} (r : α × List β × List (Nat × BitVec 8 × W64)) : Bool := r.2.2.isEmpty
/-- No lost word stands in the team, every lane is active and the group has 64 lanes. -/
def arrayTakes (x : Issue) : Bool := x.g.width == 64 && wholeGroup x && x.team.lostWords.isEmpty
/-- The rows of a drain pass their checks. -/
def drains (s : State) (e : Enc) (add : Bool) (x : Issue) : Bool :=
  arrayTakes x && predicated x e && mayDrain x && (match ((x.chip0 s).drainRows x e add).2 with | .ok _ => true | .error _ => false)
/-- Rows of 128 bytes from s4 at the stride s5. -/
def eD : Enc := { blank with d := 0x80, a := 4, b := 5 }
theorem witness_DrainsAccepted : Meets [(mx 0 [], .tdrain eD, fun x => drains (mx 0 []) eD false x && x.g.scalar 4 == 0x1000#64),
    (mx 0 [], .tdrainAdd { eD with ty := .f32 }, fun x => drains (mx 0 []) { eD with ty := .f32 } true x && x.g.scalar 5 == 0x80#64)] := meets (by decide)
/-- The base and the stride of a drain. -/
def rowsAt (a b : W64) : State := { mx 0 [] with chip := (mx 0 []).chip.onGroup 2 fun g => { g with s := SMap.put 0 (SMap.put 0 g.s 4 a) 5 b } }
theorem witness_DrainsAccepted_traps : Meets ([(Instr.tdrain eD, false, 4), (.tdrainAdd { eD with ty := .f32 }, true, 128)].flatMap fun i =>
    ([(0x1002#64, 0x80#64), (0x1000#64, 0x82#64), (0x10000#64, 0x80#64), (0xFF80#64, 0x80#64)].map fun p =>
      (rowsAt p.1 p.2, i.1, fun x => arrayTakes x && predicated x eD && mayDrain x && decide (x.g.counters.drain < 63)
        && (decide (p.1.toNat % 4 = 0) == decide (p.1.toNat % i.2.2 = 0)) && (p.1 == 0x1002 || p.2 == 0x82
          || !passes ((x.chip0 (rowsAt p.1 p.2)).drainRows x { eD with ty := .f32 } i.2.1).2)))) := meets (by decide)

/-- s2 is the address of a device access of lane 0; v4 and s3 are its data. -/
def devAt (a : W64) : State :=
  homed 0x1000 0xFFFFFFFE#32 (world 0 (fun g => { g with s := scals [(2, a), (3, 9#64)], v := vecs [(4, [7#32])], m := scals [(2, 1#64)] })
    fun t => t)
/-- The lanes' addresses pass, stand before no atom, and their words are whole. -/
def loads (s : State) (n : Nat) (at_ : Issue → Nat → W64) (x : Issue) : Bool :=
  let r := (x.chip0 s).checkLanes x n .read (at_ x)
  fits r && !(x.chip0 s).behindAtom x.g n (r.2.1.map (·.2)) && (r.1.loadLanes x.who n r.2.1).2.2.isNone
/-- The lanes' addresses pass and stand before no atom. -/
def stores (s : State) (n : Nat) (at_ : Issue → Nat → W64) (x : Issue) : Bool :=
  let r := (x.chip0 s).checkLanes x n .write (at_ x)
  fits r && !(x.chip0 s).behindAtom x.g n (r.2.1.map (·.2))
/-- Some lane's address fails with a cause. -/
def fails (s : State) (n : Nat) (acc : Access) (at_ : Issue → Nat → W64) (cause : BitVec 8) (x : Issue) : Bool :=
  match (x.chip0 s).checkLanes x n acc (at_ x) with
  | (_, _, (_, k, _) :: _) => k == cause
  | _ => false
/-- The one address of a scalar access passes. -/
def scPasses (s : State) (e : Enc) (n : Nat) (acc : Access) (x : Issue) : Bool :=
  let r := (x.chip0 s).checkAccess x.core x.ctx n acc (x.scAddr e)
  match r.2 with
  | .ok p => !(x.chip0 s).behindAtom x.g n [p] && (r.1.loadBytes x.whoReserve p n).2.isSome
  | .error _ => false
/-- The whole of a 64-bit scalar at s2. -/
def eSc : Enc := { blank with d := 4, a := 2, ty := .z64 }
theorem witness_DeviceAccesses : Meets (
    ([(LdType.s8, 0xFFFF#64), (.z8, 0#64), (.s16, 0xFFFE#64), (.z16, 0x1002#64), (.w32, 0xFFFC#64), (.w64, 0xFFF8#64), (.w128, 0xFFF0#64)].map fun p =>
      (devAt p.2, Instr.ldg p.1 { eG with d := 8 }, fun x => loads (devAt p.2) (LdType.bytes p.1) (fun x l => x.memAddr eG l) x && calm (dregs 8 4) x))
    ++ ([StWidth.w8, .w16, .w32, .w64, .w128].map fun st => (devAt 0x1010#64, Instr.stg st eG, stores (devAt 0x1010#64) (StWidth.bytes st) fun x l => x.memAddr eG l))
    ++ [(devAt 0x1000#64, .ldsc eSc, fun x => x.act != 0#64 && scPasses (devAt 0x1000#64) eSc 8 .read x && calm [.s 4] x),
      (devAt 0x1000#64, .ldsc { eSc with q := 4 }, fun x => x.act == 0#64), (devAt 0x1000#64, .stsc { eSc with q := 4 }, fun x => x.act == 0#64),
      (devAt 0x1000#64, .stsc eSc, fun x => x.act != 0#64 && scPasses (devAt 0x1000#64) eSc 8 .write x)]
    ++ ([(0x1002#64, 0x09#8), (0x10000#64, 0x07#8)].flatMap fun p =>
      let s := devAt p.1
      [(s, Instr.ldg .w32 eG, fails s 4 .read (fun x l => x.memAddr eG l) p.2), (s, .stg .w32 eG, fails s 4 .write (fun x l => x.memAddr eG l) p.2),
        (s, .ldac { eG with ty := .f32 }, fails s 4 .read (fun x l => x.memAddr eG l) p.2),
        (s, .strl { eG with ty := .f32 }, fails s 4 .write (fun x l => x.memAddr eG l) p.2),
        (s, .atom .addS32 { eG with d := 6, b := 4, c := 0xFF, ty := .f32 }, fails s 4 .both (fun x l => x.devAddr { eG with d := 6, b := 4, c := 0xFF, ty := .f32 } 0xFF 4 l) p.2)])) :=
  meets (by decide)
/-- The one address of a scalar access is misaligned, or has no page. -/
theorem witness_DeviceAccesses_scalar : Meets ([(0x1004#64, Ty.z64), (0x1002#64, .s32), (0x10000#64, .z64), (0x10000#64, .s32)].flatMap fun p =>
    [(Instr.ldsc { eSc with ty := p.2 }, Access.read), (.stsc { eSc with ty := p.2 }, .write)].map fun i => (devAt p.1, i.1, fun x => x.act != 0#64
      && (p.1 != 0x10000 || !passes ((x.chip0 (devAt p.1)).translate (corePlaces x.core) x.ctx 0x10000 (if p.2.is64 then 8 else 4) i.2).2))) := meets (by decide)
theorem test_stsc_misaligned : (groupAfter (.stsc eSc) (handled (devAt 0x1004#64))).map (fun g => (g.xcause, g.xval)) = some (0x09#8, 0x1004#64) := by decide

/-- The machine after a word is stored by the first core. -/
def firstCore : Accessor := { core := 0, ctx := 0, group := 2, owner := .group 2 }
theorem witness_StoreThenLoad : ∀ p ∈ [Phys.mk 0x21000 0 0, .mk 0x21000 1 0, .mk 0x21000 2 0, .mk 0x21000 1 1, .mk 0x21000 3 0],
    p.pa % 4 = 0 ∧ p.cp ≤ 3 ∧ (p.cp ≠ 0 → dev.chip.line? firstCore.core (p.pa / 128) = none) ∧ ∀ q ∈ dev.chip.quench, q.block ≠ p.pa / 512 := by decide

/-- A store of the group is on its way home in the quench buffer. -/
def storing : State := { dev with chip := { dev.chip with quench := [{ core := 0, block := 0x108, ctx := 0, opened := 0, bytes := [(0, 7)], owned := [], stores := [(2, 0)] }] } }
/-- An atom of the group is out. -/
def atomOut : State := (after (.atom .addS32 { eG with d := 6, b := 4, c := 0xFF, ty := .f32 }) dev).getD dev
/-- A store of a strl is held. -/
def heldOut : State := (after (.strl { eG with ty := .f32 }) dev).getD dev
/-- An atom of the group is older than the next instruction; a store of a strl is; or a store stands in the quench buffer. -/
def older (s : State) : Bool := s.chip.atoms.any (fun a => a.group == 2 && decide (a.id < s.chip.nextId))
def behind (s : State) (x : Issue) : Bool :=
  (s.chip.held.any fun h => h.group == 2 && decide (h.id < s.chip.nextId)) || (x.chip0 s).storesOut x.core x.g.id
/-- The lanes of an ldac meet no held store. -/
def clearOf (s : State) (e : Enc) (x : Issue) : Bool :=
  let r := (x.chip0 s).checkLanes x 4 .read fun l => x.memAddr e l
  s.chip.held.all fun h => r.2.1.all fun p => !h.ordered p.2 4
theorem witness_FencesAndOrderedAccesses : Meets (
    ([Instr.fenceAcq { blank with ty := .f32 }, .fenceRel { blank with ty := .f32 }, .fenceAr { blank with ty := .s32 }].flatMap
      fun i => [(dirty, i, fun x => !older dirty && !behind dirty x), (atomOut, i, fun _ => older atomOut)])
    ++ ([Instr.fenceRel { blank with ty := .f32 }, .fenceAr { blank with ty := .s32 }, .strl { eG with ty := .f32, imm := 0x40 }].map
      fun i => (heldOut, i, behind heldOut))
    ++ [(storing, .fenceRel { blank with ty := .z32 }, behind storing),
      (stale, .ldac { eG with d := 12, ty := .f32 }, fun x => stale.chip.atoms.isEmpty && loads stale 4 (fun x l => x.memAddr eG l) x && calm (dregs 12 1) x),
      (heldOut, .ldac { eG with d := 12, ty := .f32, imm := 0x40 }, fun x => !heldOut.chip.held.isEmpty && heldOut.chip.atoms.isEmpty
        && loads heldOut 4 (fun x l => x.memAddr { eG with imm := 0x40 } l) x && clearOf heldOut { eG with imm := 0x40 } x && calm (dregs 12 1) x),
      (dirty, .strl { eG with ty := .f32 }, fun x => dirty.chip.atoms.isEmpty && stores dirty 4 (fun x l => x.memAddr eG l) x)]) := meets (by decide)
/-- A release waits for the group's atom; once the atom is gone it may complete, and the store of a strl may be made. -/
def fenceOut : State := (after (.fenceRel { blank with ty := .f32 }) atomOut).getD dev
theorem witness_FencesAndOrderedAccesses_later : (fenceOut.chip.fences.any fun f => f.rel && fenceOut.chip.fenceWaits f
      && !{ fenceOut.chip with atoms := [] }.fenceWaits f) = true
    ∧ (heldOut.chip.held.any fun h => heldOut.chip.heldFree h && heldOut.chip.fences.all (fun f => f.number != h.fence)
      && heldOut.chip.held.all (fun k => decide (h.fence ≤ k.fence)) && heldOut.chip.atoms.isEmpty) = true := by decide
/-- R229, R238: a later ldac of another word is not held back by a strl, and a waiting release holds back later writes alone. -/
theorem test_ldac_passes_strl : vAfter (.ldac { eG with d := 12, ty := .f32, imm := 0x40 }) heldOut 12 0 = some 0#64 := by decide
theorem test_fence_holds_writes : (fenceOut.chip.fenced 2 (.stg .w32 eG), fenceOut.chip.fenced 2 (.ldg .w32 eG), fenceOut.chip.fenced 2 (.add eAB))
    = (true, false, false) := by decide

theorem witness_LeaseResults : Meets ([(dev, Instr.leaseSet { blank with a := 0xFF, imm := 0x900 }, always),
    (dev, .leaseMode { blank with a := 0xFF, imm := 2 }, always), (dev, .leaseMode { blank with a := 0xFF, imm := 3 }, always),
    (dev, .leasePref { blank with a := 0xFF, imm := 100 }, always), (dev, .leaseGet { blank with d := 9 }, calm [.s 9])]) := meets (by decide)

/-- VA 0x10000 maps a host page. -/
def hosted : State :=
  let s := devAt 0x10000#64
  { s with chip := { s.chip with mem := putBytes s.chip.mem 0xC008 (leBytes 8 0x800000000007F) } }
/-- An atom at s2, its data v4. -/
def eAt : Enc := { eG with d := 6, b := 4, c := 0xFF, ty := .f32 }
/-- The lanes' places, where all of them pass. -/
def atomPlaces (s : State) (op : AtomOp) (e : Enc) (x : Issue) : List (Nat × Phys) :=
  let r := (x.chip0 s).checkLanes x (AtomOp.bytes op) .both fun l => x.devAddr e e.c (AtomOp.bytes op) l
  if fits r then r.2.1 else []
theorem witness_AtomsSentOrTrapped : Meets (
    ([AtomOp.addS32, .addF32, .addBf16x2, .minS32, .maxS32, .minZ32, .maxZ32, .and, .or, .xor, .swap, .addS64, .swapS64].map fun op =>
      (dev, Instr.atom op eAt, fun x => !(atomPlaces dev op eAt x).isEmpty && (atomPlaces dev op eAt x).all fun p => p.2.cp != 3))
    ++ ([AtomOp.addS32, .swap, .addS64, .swapS64].map fun op => (hosted, .atom op { eAt with ty := .f16 }, fun x => { eAt with ty := .f16 }.tyBits.toNat % 4 == 3
      && (atomPlaces hosted op { eAt with ty := .f16 } x).any fun p => p.2.cp == 3))
    ++ ([(AtomOp.minS32, eAt), (.addS32, { eAt with ty := .s32 })].map fun p =>
      (hosted, .atom p.1 p.2, fun x => (atomPlaces hosted p.1 p.2 x).any fun p => p.2.cp == 3))
    ++ [({ dev with chip := dev.chip.onGroup 2 fun g => { g with m := [] } }, .atom .addS32 { eAt with q := 4 }, fun x => x.act == 0#64)]) := meets (by decide)

/-- The state after an atom is sent. -/
def sent : State := (after (.atom .minS32 eAt) dev).getD dev
/-- The same for add.bf16x2, and after its low halves. -/
def sentBf16 : State := let t := (after (.atom .addBf16x2 eAt) dev).getD dev
  { t with event := { a := (t.chip.atoms.map (·.id)).headD 0 } }
def halfDone : State := (after .atomApply sentBf16).getD dev
/-- The atom's units pass the conditions of its application. -/
def unitsReady (s : State) : Bool := !s.chip.atoms.isEmpty && s.chip.atoms.all fun a => (s.chip.group? a.group).isSome
  && decide (a.dst + AtomOp.bytes a.op / 4 ≤ 0xFF) && !a.units.isEmpty && a.units.all fun u => u.phys.pa % AtomOp.bytes a.op == 0
    && !s.chip.poisoned u.phys.pa (AtomOp.bytes a.op) && !u.lanes.isEmpty && u.lanes.all (fun p => decide (p.2.toNat < 2 ^ 32))
    && decide ((u.lanes.map (·.1)).Pairwise (· < ·))
theorem witness_AtomUnitsApplied : unitsReady sent = true ∧ (sent.chip.atoms.all fun a => a.op != .addBf16x2) = true
    ∧ unitsReady sentBf16 = true ∧ (sentBf16.chip.atoms.all fun a => a.op == .addBf16x2 && a.units.all fun u => !u.high) = true
    ∧ unitsReady halfDone = true ∧ (halfDone.chip.atoms.all fun a => a.op == .addBf16x2 && a.units.all (·.high)) = true := by decide

/-- Both operations of a pair write free registers. -/
def pairFree (p : PEnc) (x : Issue) : Bool :=
  let ws := fun (k : BitVec 6) (d : BitVec 8) => dregs d (if k = 0x19#6 then 2 else 1)
  !pairIll Limits.top p && calm (ws p.p1 p.d1 ++ ws p.p2 p.d2) x
/-- v4 and v10 from v2 and v3. -/
def pairOf (k1 k2 : BitVec 6) : PEnc := { q := 0, stall := 0, d1 := 4, a1 := 2, b1 := 3, p1 := k1, d2 := 10, a2 := 2, b2 := 3, p2 := k2 }
/-- The instructions that a pair's operations are. -/
def pairForms (e : Enc) : List Instr :=
  [.add e, .sub e, .mul e, .mulh e, .mad e, .min e, .max e, .abs e, .and e, .or e, .xor e, .not e, .shl e, .shr e, .sar e, .fsh e, .bfx e, .bfi e,
   .popc e, .clz e, .brev e, .perm e, .sel e, .mov e, .lea e, .sad e, .fadd e, .fsub e, .fmul e, .fma e, .fmin e, .fmax e]
theorem witness_PairResults : Meets ([pairOf 0 1, pairOf 0x18 0x20, pairOf 0x19 0x25, pairOf 0x21 0x08].map (fun p => (idle, Instr.pair p, pairFree p))
    ++ (pairForms eABC).map fun i => (idle, i, always)) := meets (by decide)

/-- The issue of an instruction in a state has a property, whether or not it must wait. -/
def issueIs (s : State) (i : Instr) (p : Issue → Bool) : Bool := ((s.current.bind fun gid => s.chip.issueAt gid i).map p) == some true
/-- A group with one write of v2 pending in one of the two ways, and SBCHK. -/
def pendingOn (f : Group → Group) : State := world 0 (fun g => f { g with sbchk := true }) fun t => t
/-- The issue waits. -/
def waits (i : Instr) (x : Issue) : Bool := x.g0.mustWait x.now (readsOf i x.g.width) (writesOf i x.g.width)
theorem witness_ScoreboardWaitsAndTraps :
    issueIs (pendingOn fun g => { g with busy := [.v 2] }) (.add eAB) (waits (.add eAB)) = true
    ∧ issueIs (pendingOn fun g => { g with due := [(.v 4, 50)] }) (.add eAB) (waits (.add eAB)) = true
    ∧ issueIs (pendingOn fun g => { g with pend := [{ reg := .v 2, values := [], ready := 50 }] }) (.add eAB) (fun x => !waits (.add eAB) x && x.g0.busy.isEmpty
        && x.g0.due.isEmpty && x.g0.sbchk && x.g0.pend.any fun p => (readsOf (.add eAB) 8).contains p.reg) = true
    ∧ issueIs (pendingOn fun g => { g with pend := [{ reg := .v 4, values := [], ready := 50 }] }) (.add eAB) (fun x => x.g0.pend.any fun p =>
        (writesOf (.add eAB) 8).any fun w => w.1 == p.reg && w.2 != 0 && decide (x.pos + w.2 < p.ready)) = true
    ∧ issueIs fenceOut (.stg .w32 eG) (fun x => fenceOut.chip.fenced x.g.id (.stg .w32 eG)) = true := by decide

/-- The first group and its team, with their launch. -/
def placedIn (c : Chip) (p : Group → Team → Launch → Bool) : Bool :=
  c.groups.any fun g => (c.team? g.team).any fun t => (c.launchOf t).any fun l => (c.group? g.id).isSome && p g t l
theorem witness_TrapEntry : placedIn (handled marked).chip (fun g t _ => ((handled marked).chip.context ((handled marked).chip.ctxOf t)).xhandler != 0#64
    && !g.inh && g.lanes.any fun y => y.st.isRunning) = true ∧ 0x01#8 ∉ [0x04#8, 0x0D#8, 0x0E#8] := by decide
/-- The launch's completion counter is 5, its target 9 and its FPOL f. -/
def policed (f : Nat) : State :=
  let s := marked
  { s with chip := (s.chip.setCounter 5 { Counter.reset with target := 9 }) |> fun c =>
      { c with launches := c.launches.map fun l => { l with desc := { l.desc with cctr := 5, fpol := f } } } }
theorem witness_FaultPolicyDiscardsTheTeam : placedIn (policed 0).chip (fun _ t l => l.desc.fpol == 0 && t.withdrew == 0
      && ((policed 0).chip.context l.ctx).xhandler == 0#64 && !((policed 0).chip.counter l.desc.cctr).cancelled
      && ((policed 0).chip.counter l.desc.cctr).value + 1 != ((policed 0).chip.counter l.desc.cctr).target) = true
    ∧ placedIn inHandler.chip (fun g _ _ => g.inh) = true ∧ placedIn (handled (policed 1)).chip (fun _ _ _ => true) = true := by decide

theorem witness_TrapInstructions : Meets [(marked, .illegal [0x00000FE0#32], always), (marked, .trap { blank with imm := 5 }, fun x => x.act != 0#64),
    (marked, .trap { blank with q := 4, imm := 5 }, fun x => x.act == 0#64), (marked, .brk blank, fun x => x.act != 0#64),
    (marked, .brk { blank with q := 4 }, fun x => x.act == 0#64), (marked, .rft blank, fun x => !x.g.inh),
    (inHandler, .rft blank, fun x => x.g.inh && x.g.xpc.toNat % 4 == 0),
    ({ inHandler with chip := inHandler.chip.onGroup 2 fun g => { g with xpc := 0x42#64 } }, .rft blank, fun x => x.g.inh && x.g.xpc.toNat % 4 != 0)] :=
  meets (by decide)

/-- The live region with a tape of 256 bytes at 0x500, and a change. -/
def tapedBy (f : Region → Region) : State :=
  { live with chip := { live.chip with regions := live.chip.regions.map fun r => f { r with tv := true, tcap := 256, tbase := 0x500#64 } } }
/-- The same after one taped operation is applied, a step for each slot. -/
def popping : State :=
  let t := (after (.sstBlend { eS with d := 9, c := 0xFF, sat := true }) (tapedBy fun r => r)).getD live
  let ev : EvArg := { a := (t.chip.regions.map (·.id)).headD 0 }
  let u := (after .softOpApply { (after .softOpApply { t with event := ev }).getD live with event := ev }).getD live
  { u with event := {}, chip := { u.chip.onGroup 2 fun g => { g with busy := [], due := [] } with cyc := 1000 } }
/-- An accepted operation of the region: the hypotheses of its statement. -/
def accepts (s : State) (e : Enc) (p : Instr × SoftForm × Option (BitVec 8) × W32) (x : Issue) : Bool :=
  let c := x.chip0 s
  let f := p.2.1
  let addr := x.g.sreg e.a.toNat
  let null := x.act == 0#64 || f == .null
  let more := softMore p.1 f e s.chip x
  !x.g0.mustWait x.now (readsOf p.1 x.g.width ++ more.1) (writesOf p.1 x.g.width ++ more.2.map fun r => (r, 0)) && !x.g0.sbchk
    && (x.descFail addr).isNone && decide (x.g.counters.blend < 63) && s.chip.atoms.isEmpty && s.chip.held.isEmpty
    && (c.softAt x addr).any fun r =>
      let bs := softBlocks f e.d e.b e.c r x.g.width
      let vals := if null then [] else bs.1.map x.g.blockVals
      let taping := !null && e.sat && [SoftForm.blend, .write, .add].contains f
      let len := if taping then r.recLen (touched (vals.headD [])).length else 0
      ((bs.1 ++ bs.2).all fun b => (b.overLimit x.g.width x.desc.regs).isNone)
        && (!r.ordered || (decide (r.ahead p.2.2.2 < 64) && r.ops.all fun o => o.ticket != p.2.2.2))
        && (f != .sstBwd || (if r.ordered then p.2.2.2 == r.appl else r.ops.isEmpty))
        && (len == 0 || (r.tv && decide (r.tfill + r.reserved + len ≤ r.tcap)))
        && (match c.framesOf x (if addr.msb then [] else (addr.toNat, 64, Access.read) :: softSpans f r null len false) with
          | (c1, .ok fr) => !c1.storesOut x.core x.g.id && passes (if f == .sstBwd && !null then (c1.softSent x.core r).popCheck r fr else .ok len)
          | _ => false)
theorem witness_SoftOperationsAccepted : Meets (
    ((softTable { eS with b := 8, c := 9 } ((live.chip.group? 2).getD (Group.create 0 0 0 0 0 placedDesc 0 0 0 0))).filter (fun p => p.2.1 != .sstBwd && p.2.1 != .null)
      |>.map fun p => (live, p.1, accepts live { eS with b := 8, c := 9 } p))
    ++ [(live, .sseq { eS with b := 4 }, accepts live { eS with b := 4 } (.sseq { eS with b := 4 }, .null, some 6, 0)),
      (live, .sseq { eS with b := 0xFF }, accepts live { eS with b := 0xFF } (.sseq { eS with b := 0xFF }, .null, some 6, 0)),
      (tapedBy fun r => r, .sstAdd { eS with d := 9, sat := true }, accepts (tapedBy fun r => r) { eS with d := 9, sat := true } (.sstAdd { eS with d := 9, sat := true }, .add, none, 0)),
      (tapedBy fun r => { r with ordered := true }, .sstAdd { eS with d := 9, imm := 63 },
        accepts (tapedBy fun r => { r with ordered := true }) { eS with d := 9, imm := 63 } (.sstAdd { eS with d := 9, imm := 63 }, .add, none, 63)),
      (popping, .sstBwd { eS with d := 10, c := 20 }, accepts popping { eS with d := 10, c := 20 } (.sstBwd { eS with d := 10, c := 20 }, .sstBwd, none, 0))]) := meets (by decide)
/-- An operation of the region that must wait for its acceptance: the hypotheses of its statement (R173). -/
def waitsSoft (s : State) (e : Enc) (p : Instr × SoftForm × Option (BitVec 8) × W32) (x : Issue) : Bool :=
  let c := x.chip0 s
  let addr := x.g.sreg e.a.toNat
  (x.descFail addr).isNone && decide (x.g.counters.blend < 63) && (c.softAt x addr).any fun r => r.ordered && r.ops.isEmpty
    && decide (64 ≤ r.ahead p.2.2.2 ∧ r.ahead p.2.2.2 < 2 ^ 31)
    && passes (c.framesOf x (if addr.msb then [] else (addr.toNat, 64, Access.read) :: softSpans p.2.1 r false 0 true)).2
theorem witness_SoftOperationsAccepted_waits : Meets [(tapedBy fun r => { r with ordered := true }, .sstAdd { eS with d := 9, imm := 100 },
    waitsSoft (tapedBy fun r => { r with ordered := true }) { eS with d := 9, imm := 100 } (.sstAdd { eS with d := 9, imm := 100 }, .add, none, 100))] :=
  meets (by decide)
theorem test_soft_waits_for_acceptance : (groupAfter (.sstAdd { eS with d := 9, imm := 100 }) (tapedBy fun r => { r with ordered := true })).map
    (fun g => (match g.wait with | some (.accept _ _) => true | _ => false, g.counters.blend)) = some (true, 1) := by decide
/-- The first region's operation whose ticket has come, with a property. -/
def applies (s : State) (p : Region → SoftOp → Bool) : Bool :=
  (s.chip.regions.find? fun q => q.id == s.event.a).any fun r => (s.chip.softNext r).any fun o => p r o
/-- Its next step writes one element of several, and finds no lost word. -/
def writesNext (s : State) (r : Region) (o : SoftOp) : Bool :=
  let a := s.chip.applied r o 8
  let n := (o.progress.map (·.next)).getD 0
  !o.nullOp && decide (n + 1 < a.puts.length) && (a.puts[n]?).any fun q =>
    (s.chip.spanLost r o.frames [(((a.reads[n]?).getD q.1), q.2.1.length)]).isNone
/-- Two slots and two elements, so that an operation has four steps: the first is done. -/
def halfApplied (i : Instr) : State :=
  let wide := { live with chip := { live.chip with regions := live.chip.regions.map fun r => { r with w := 2 } } }
  let t := (after i wide).getD live
  let ev : EvArg := { a := (t.chip.regions.map (·.id)).headD 0 }
  { (after .softOpApply { t with event := ev }).getD live with event := ev }
theorem witness_SoftOperationsApplied : ([softDue (.sldFwd eS), softDue (.sseq { eS with b := 0xFF })].all fun s =>
      applies s fun r o => (s.chip.softPoison r o).isNone && (o.nullOp || o.form == .sldFwd)) = true
    ∧ ([halfApplied (.sstBlend { eS with d := 9, c := 0xFF }), halfApplied (.sstWrite { eS with d := 9 }), halfApplied (.sstAdd { eS with d := 9 })].all fun s =>
      applies s fun r o => o.progress.isSome && writesNext s r o) = true := by decide
/-- An operation due at the region, a word of slot 0 lost. -/
def lostDue (i : Instr) : State :=
  let s := softDue i
  { s with chip := s.chip.onTeam 1 fun t => { t with lostWords := [{ word := some (.sp 0x300), val := 0x300#64, met := none, reported := false }] } }
/-- An operation whose first element is written, so that one step is left. -/
def lastDue (i : Instr) : State := { (after .softOpApply (softDue i)).getD live with event := (softDue i).event }
/-- The region is the only one of its number, and the operation of a group of a team. -/
def alone (s : State) (r : Region) (o : SoftOp) : Bool :=
  (s.chip.regions.all fun u => u.id != r.id || u == r) && (s.chip.group? o.group).any fun g => g.width == 8 && (s.chip.team? g.team).isSome
theorem witness_SoftOperationsApplied_ended :
    (applies (softDue (.sseq { eS with b := 0xFF })) fun r o => alone (softDue (.sseq { eS with b := 0xFF })) r o && o.nullOp && o.progress.isNone) = true
    ∧ (applies (softDue (.sldFwd eS)) fun r o => let s := softDue (.sldFwd eS)
      alone s r o && o.progress.isNone && (s.chip.softPoison r o).isNone && (s.chip.applied r o 8).tape == [] && (s.chip.applied r o 8).puts.isEmpty) = true
    ∧ ([Instr.sldFwd eS, .sstAdd { eS with d := 9 }].all fun i => applies (lostDue i) fun r o => alone (lostDue i) r o && o.progress.isNone && (lostDue i).chip.softPoison r o == some 0x300#64) = true
    ∧ ([Instr.sstBlend { eS with d := 9, c := 0xFF }, .sstWrite { eS with d := 9 }, .sstAdd { eS with d := 9 }].all fun i => applies (lastDue i) fun r o =>
        let a := (lastDue i).chip.applied r o 8
        alone (lastDue i) r o && o.progress.any fun p => p.next + 1 == a.puts.length && (a.puts[p.next]?).any fun q =>
          ((lastDue i).chip.spanLost r o.frames [((a.reads[p.next]?).getD q.1, q.2.1.length)]).isNone) = true := by decide
/-- The region with a tape, and an operation of it due; G is at 0x320. -/
def tapeDue (i : Instr) (s : State) : State :=
  let t := (after i { s with chip := { s.chip with regions := s.chip.regions.map fun r => { r with gv := true, gbase := 0x320#64 } } }).getD s
  { t with event := { a := (t.chip.regions.map (·.id)).headD 0 } }
theorem witness_SoftAdjointsAndTape :
    (applies (tapeDue (.sldBwd { eS with c := 9 }) live) fun _ o => !o.nullOp && o.form == .sldBwd) = true
    ∧ (applies (tapeDue (.sstBwd { eS with d := 10, c := 20 }) popping) fun _ o => !o.nullOp && o.form == .sstBwd) = true
    ∧ ([(SoftForm.blend, Instr.sstBlend { eS with d := 9, c := 0xFF, sat := true }), (.write, .sstWrite { eS with d := 9, sat := true }),
        (.add, .sstAdd { eS with d := 9, sat := true })].all fun p => let s := tapeDue p.2 (tapedBy fun r => r)
      applies s fun r o => o.form == p.1 && o.tape && !o.nullOp && o.progress.isNone && (s.chip.softPoison r o).isNone && writesNext s r o
        && o.bytes == 16 * ((((List.range o.w.length).filter fun i => (o.w.getD i 0#32).toNat % 2 ^ 31 != 0).length * r.w * r.esize + 15) / 16) + 48) = true := by decide
/-- The worked record of R179: its pre-images, mask and header; and sst.bwd puts the pre-images back and pops it. -/
theorem test_tape_record : (after .softOpApply (tapeDue (.sstWrite { eS with d := 9, sat := true }) (tapedBy fun r => r))).map (fun t =>
    ((spOf 8 0x500 t), (spOf 8 0x510 t), (spOf 8 0x530 t), (spOf 8 0x538 t)))
    = some (some 0x4080000040000000, some 3, some 0x0004000200000000, some 2) := by decide
theorem test_sst_bwd : ((List.range 4).foldl (fun (s : State) _ => (after .softOpApply { s with event := (tapeDue (.sstBwd { eS with d := 10, c := 20 }) popping).event }).getD s)
    (tapeDue (.sstBwd { eS with d := 10, c := 20 }) popping)).chip.regions.map (fun r => (r.tfill, r.ops.length)) = [(0, 0)] := by decide

theorem witness_HardResults : Meets [(idle, .hardIdx { blank with d := 4, a := 8, imm := 4 }, fun x => decide (0 < x.g.width) && calm [.s 4] x),
    (idle, .hardOnehot { blank with d := 4, a := 8, imm := 4 }, fun x => decide (x.g.width ≤ 64) && calm (dregs 4 (blockRegs 4 x.g.width)) x),
    (idle, .hardOnehot { blank with d := 0xFF, a := 8, imm := 255 }, always)] := meets (by decide)

/-- The descriptor passes its checks. -/
def described (s : State) (x : Issue) : Bool := match ((x.chip0 s).descriptor x (x.g.scalar 2)).2 with | .ok _ => true | .error _ => false
/-- sinit finds the descriptor good and room for the region. -/
def sinitOk (s : State) (x : Issue) : Bool :=
  let addr := x.g.scalar 2
  match (x.chip0 s).descriptor x addr with
  | (c, .ok p) => (c.softAt x addr).isNone && (match c.readDesc x addr p with
    | (c1, some b) => (match regionOf x addr p c1.nextId b with
      | .ok r => addr.msb && !c1.regionsFull r && !x.team.loses (spReads [addr.toNat % 2 ^ 21] 64)
      | .error _ => false)
    | _ => false)
  | _ => false
/-- The region named by s2 with a property. -/
def regionIs (s : State) (p : Region → Bool) (x : Issue) : Bool :=
  described s x && ((x.chip0 s).softAt x (x.g.scalar 2)).any fun r => p r && (x.chip0 s).softTurn r (x.chip0 s).nextId
/-- The region with an operation outstanding. -/
def waiting : State := (after (.sstAdd { eS with d := 9 }) live).getD live
/-- The region with 64 bytes of records, and a value in s4. -/
def refilling (v : W64) : State := { popping with chip := popping.chip.onGroup 2 fun g => { g with s := SMap.put 0 g.s 4 v } }
theorem witness_SoftRegionInstructions : Meets [(bare0, .sinit eS, sinitOk bare0), (live, .sinitRel eS, regionIs live fun r => r.ops.isEmpty),
    (bare0, .sinitRel eS, fun x => described bare0 x && ((x.chip0 bare0).softAt x (x.g.scalar 2)).isNone),
    (bare0, .sfence eS, fun x => described bare0 x && ((x.chip0 bare0).softAt x (x.g.scalar 2)).isNone),
    (bare0, .stape eS, fun x => described bare0 x && ((x.chip0 bare0).softAt x (x.g.scalar 2)).isNone),
    (live, .sfence { eS with b := 0xFF }, fun x => calm [.s 6] x && regionIs live (fun r => r.ops.isEmpty) x && decide (live.chip.regions.length = 1)),
    (live, .sfence { eS with b := 4 }, regionIs live fun r => r.ops.isEmpty && (live.chip.groups.headD (Group.create 0 0 0 0 0 placedDesc 0 0 0 0)).scalar 4 == r.appl.setWidth 64),
    (waiting, .sfence { eS with b := 0xFF }, regionIs waiting fun r => !r.ops.isEmpty),
    (popping, .stape { eS with b := 4 }, fun x => regionIs popping (fun r => r.ops.isEmpty && decide (0 < r.tfill)) x && x.g.scalar 4 == 0#64),
    (popping, .stape { eS with b := 0xFF }, regionIs popping fun r => r.ops.isEmpty && r.tfill % 16 == 0),
    (refilling 64#64, .stape { eS with b := 4 }, regionIs (refilling 64#64) fun r => r.ops.isEmpty && r.tfill == 64),
    (refilling 8#64, .stape { eS with b := 4 }, regionIs (refilling 8#64) fun r => r.ops.isEmpty),
    (refilling 80#64, .stape { eS with b := 4 }, regionIs (refilling 80#64) fun r => r.ops.isEmpty && decide (r.tfill < 80)),
    (waiting, .stape { eS with b := 0xFF }, regionIs waiting fun r => !r.ops.isEmpty),
    (waiting, .stape { eS with b := 4 }, regionIs waiting fun r => !r.ops.isEmpty)] := meets (by decide)
/-- A stape waits for the operation that stands before it. -/
def taping (e : Enc) : State := (after (.stape e) waiting).getD waiting
theorem witness_SoftRegionInstructions_resume : ([{ eS with b := 0xFF }, { eS with b := 4 }].all fun e => ((taping e).chip.group? 2).any fun g =>
    match g.wait with
    | some (.tape id w) => ((taping e).chip.regions.find? fun q => q.id == id).any fun r => decide (w.dst < 0x40)
        && (let fill := match w.set with | some v => v.toNat % 2 ^ 32 | none => r.tfill
          (fill % 16 == 0 || w.set.isNone) && decide (fill ≤ r.tfill))
    | _ => false) = true := by decide

/-- The same table with 64-bit keys. -/
def tabled64 : State := { tabled with chip := tabled.chip.onTeam 1 fun u => { u with tables := u.tables.map fun t => { t with wide := true } } }
/-- Even registers for the 64-bit forms. -/
def eW : Enc := { eH with a := 4, b := 8, d := 12, c := 20 }
/-- Every key is all ones. -/
def reserved (s : State) : State :=
  { s with chip := s.chip.onGroup 2 fun g => { g with v := vecs [(4, List.replicate 8 0xFFFFFFFF#32), (5, List.replicate 8 0xFFFFFFFF#32)] } }
/-- The handle's table: none, or one of a width. -/
def handle (p : Option Table → Bool) (x : Issue) : Bool := p (x.team.table? 3)
theorem witness_HashOperationsFormSteps : Meets ((hopTable eW .addS32).flatMap fun p =>
    [(keyed, p.1, handle (·.isNone)), (if p.2.1 then tabled else tabled64, p.1, handle fun t => t.any fun t => t.wide != p.2.1),
      (if p.2.1 then tabled64 else tabled, p.1, handle fun t => t.any fun t => t.wide == p.2.1),
      (reserved (if p.2.1 then tabled64 else tabled), p.1, fun x => handle (fun t => t.any fun t => t.wide == p.2.1) x
        && x.lanes.all fun l => (x.g.vec eW 4 l).toNat == 2 ^ 32 - 1 && (x.g.vec eW 5 l).toNat == 2 ^ 32 - 1)]) := meets (by decide)
theorem witness_HashOperationsFormSteps_team : [tabled, tabled64].all (fun s => s.chip.teams.all fun u => s.chip.team? u.id == some u) = true := by decide

theorem witness_HashInsertThenLookup : ([(after (.hopIns eH) tabled), after (.hopAcc .addS32 eH) tabled, after (.hopAcc64 { eW with q := 2 }) tabled64].all fun s =>
    s.any fun s => s.chip.teams.any fun m => s.chip.team? m.id == some m && m.tables.any fun t => m.steps.any fun st =>
      decide (st.key.toNat < 2 ^ t.kbits - 2) && decide ((if st.op = .ins then (st.lanes.map fun l => l.2.toNat).headD 0 else st.combined.1) < 2 ^ t.kbits)
        && s.chip.lookup m 0 t st.key == (s.chip, .nowhere)
        && (t.places st.key).any fun p => [t.emptyKey, t.tombKey].contains (natAt m.sp (t.keyAt p.1 p.2) t.ks)) = true := by decide

/-- The table with a spill array of n entries at VA 0x4000 and its count word, k, at VA 0x5000; its one bucket has overflowed. -/
def spilled (n k : Nat) (entry : List W32) : State :=
  let s := onPad tabled fun u => (u.spPut 0x440 [1#8]).onTable 3 fun t => { t with sbase := 0x4000#64, cnta := 0x5000#64, scap := n }
  { s with chip := { s.chip with mem := putBytes (putBytes s.chip.mem 0x24000 (entry.flatMap fun w => leBytes 4 w.toNat)) 0x25000 (leBytes 4 k) } }
/-- The bucket is full of keys 100 to 107. -/
def stuffed (s : State) : State := onPad s fun u => u.spPut 0x400 ((List.range 8).flatMap fun i => leBytes 4 (100 + i))
/-- The first step of a hop, with the table and the lookup of its key. -/
def stepIs (i : Instr) (s : State) (p : Chip → Team → Table → HashStep → Found → Bool) : Bool :=
  let t := (after i s).getD s
  t.chip.teams.any fun m => (m.table? 3).any fun u => (m.steps.head?).any fun st => p t.chip m u st (t.chip.lookup m 0 u st.key).2
/-- The forms of a hop. -/
def hops : List Instr := [.hopIns eH, .hopProbe { eH with b := 0 }, .hopDel { eH with b := 0 }, .hopAcc .maxF32 eH]
/-- A place of the spill array can be reached. -/
def reaches (c : Chip) (m : Team) (va n : Nat) (acc : Access) : Bool := match (c.spillPlace m.core 0 va n acc).2 with
  | .ok p => p.pa % n == 0 | .error _ => false
theorem witness_HashStepResults :
    (hops.all fun i => stepIs i (onPad tabled fun u => u.spPut 0x404 (leBytes 4 5)) fun _ _ u st f => f == .bucket 0 1 && (u.places st.key)[1]? == some (0, 1)) = true
    ∧ (hops.all fun i => stepIs i (spilled 4 1 [5#32, 40#32]) fun c m u _ f => f == .spill 0 40 && reaches c m (u.spillAt 0) u.ks .write
        && reaches c m (u.spillAt 0 + u.ks) u.ks .both) = true
    ∧ (hops.all fun i => stepIs i (stuffed (spilled 4 1 [6#32, 40#32])) fun c m u _ f => f == .nowhere && reaches c m u.cnta.toNat 4 .both
        && reaches c m (u.spillAt 1) (2 * u.ks) .write) = true
    ∧ (hops.all fun i => stepIs i (stuffed (spilled 1 1 [6#32, 40#32])) fun c _ u _ f => f == .nowhere && decide (u.scap ≤ c.homeNat 0x25000 4)) = true
    ∧ (hops.all fun i => stepIs i (stuffed tabled) fun _ _ u _ f => f == .nowhere && u.scap == 0) = true
    ∧ (hops.all fun i => stepIs i tabled fun _ _ _ _ f => f == .nowhere) = true := by decide
/-- The spill array's page, or its count word's, cannot be reached. -/
theorem witness_HashStepFailures : (hops.all fun i => stepIs i (stuffed (onPad (spilled 4 0 []) fun u => u.onTable 3 fun t => { t with cnta := 0x15000#64, sbase := 0x14000#64 }))
      fun c m u _ f => f == .failed 3 && !reaches c m u.cnta.toNat 4 .both) = true
    ∧ (hops.all fun i => stepIs i (stuffed (onPad (spilled 4 0 []) fun u => u.onTable 3 fun t => { t with sbase := 0x14000#64 }))
      fun c m u _ f => f == .nowhere && !reaches c m (u.spillAt 0) 8 .write) = true := by decide
/-- Its key is in no bucket of a home that has overflowed, and the count word or the first entry cannot be read; or an entry of the window is free. -/
theorem witness_HashStepResults_lookups :
    (hops.all fun i => stepIs i (stuffed (onPad (spilled 4 1 []) fun u => u.onTable 3 fun t => { t with cnta := 0x15000#64 })) fun c m u st f => f == .failed 3
        && m.ovf u (u.home st.key) && !passes (c.spillCount m.core 0 u).2 && (u.places st.key).all fun p => natAt m.sp (u.keyAt p.1 p.2) u.ks != st.key.toNat) = true
    ∧ (hops.all fun i => stepIs i (stuffed (onPad (spilled 4 1 []) fun u => u.onTable 3 fun t => { t with sbase := 0x14000#64 })) fun c m u st f => f == .failed 3
        && m.ovf u (u.home st.key) && (match (c.spillCount m.core 0 u).2 with | .ok n => decide (0 < n) | .error _ => false)
        && !passes ((c.spillCount m.core 0 u).1.spillRead m.core 0 u 0).2 && (u.places st.key).all fun p => natAt m.sp (u.keyAt p.1 p.2) u.ks != st.key.toNat) = true
    ∧ (hops.all fun i => stepIs i (onPad (stuffed tabled) fun u => u.spPut 0x404 (leBytes 4 0xFFFFFFFE)) fun _ m u st f => f == .nowhere
        && (u.places st.key)[1]? == some (0, 1) && natAt m.sp (u.keyAt 0 0) u.ks == 100 && natAt m.sp (u.keyAt 0 1) u.ks == u.tombKey) = true := by decide
/-- The first step of the event's instruction, due, with its team and table. -/
def firstStep (s : State) (p : Team → Table → HashStep → Bool) : Bool :=
  (s.chip.teams.find? fun t => t.steps.any fun q => q.id == s.event.a).any fun m => s.chip.team? m.id == some m && s.chip.teams == [m] && m.lag.isEmpty
    && (m.steps.head?).any fun st => st.id == s.event.a && (!st.last || decide (st.since + 30 ≤ s.chip.cyc)) && !st.lanes.isEmpty
      && (m.table? st.handle).any fun t => p m t st
/-- A state at another cycle, with what its event names. -/
def atCycle (n : Nat) (ev : EvArg) (s : State) : State := { s with chip := { s.chip with cyc := n }, event := ev }
/-- One hop step of lane 2, the last of its group, 50 cycles after its issue. -/
def lastHop (i : Instr) : State :=
  let t := (after i { tabled with chip := tabled.chip.onGroup 2 fun g => { g with m := scals [(2, 4#64)] } }).getD tabled
  nextHash (atCycle (t.chip.cyc + 50) {} t)
/-- A word of the scratchpad is lost. -/
def lostWord (a : Nat) (s : State) : State := onPad s fun u => { u with lostWords := [{ word := some (.sp a), val := 0#64, met := none, reported := false }] }
theorem witness_HashStepLanes : ((hops.map hashDue ++ hops.map lastHop).all fun s => firstStep s fun m _ st =>
    m.lostWords.isEmpty && decide ((st.lanes.map (·.1)).Nodup ∧ (hashRegs st.wide st.dst st.st).Nodup)) = true := by decide
/-- The hash unit does not see a store yet, at a step, a claim and a clear (R286). -/
theorem witness_HashViews : ((hops.map hashDue).all fun s => firstStep s fun _ _ _ => true) = true
    ∧ ((hops.map hashDue ++ [keyed, tabled]).all fun s => (laggingKey s).chip.teams.all fun m => (laggingKey s).chip.team? m.id == some m
      && !m.lag.isEmpty && decide ((m.lag.map (·.at_)).Nodup ∧ (m.old.map (·.at_)).Nodup)) = true := by decide
theorem witness_HashStepLost : ((hops.map fun i => lostWord 0x404 (hashDue i)) ++ hops.map fun i => lostWord 0x440 (lastHop i)).all (fun s =>
    firstStep s fun m t st => m.loses (spRanges (m.stepReads t st.key))) = true := by decide
/-- A key found in the spill array is deleted there (R282); a new one is spilled, its lead taking 2 and the other lane 1 for ins. -/
theorem test_hash_step_del_spill : (after .hashStep (nextHash ((after (.hopDel { eH with b := 0 }) (spilled 4 1 [5#32, 40#32])).getD keyed))).map
    (fun t => (t.chip.homeNat 0x24000 4, t.chip.homeNat 0x24004 4)) = some (0xFFFFFFFE, 40) := by decide
theorem test_hash_step_spills : (after .hashStep (nextHash ((after (.hopIns eH) (stuffed (spilled 4 1 [6#32, 40#32]))).getD keyed))).bind
    (fun t => (t.chip.group? 2).map fun g => (t.chip.homeNat 0x25000 4, t.chip.homeNat 0x24008 8, g.vreg 7 0, g.vreg 7 1)) = some (2, 0xA00000005, 2#32, 1#32) := by decide

/-- The claim word in s2 of a group with lanes 0 to 3. -/
def claiming (s : State) (w : W64) : State := { s with chip := s.chip.onGroup 2 fun g => { g with s := SMap.put 0 g.s 2 w } }
/-- The claim word passes, with a property of the table. -/
def claims (s : State) (h : Nat) (p : Table → Issue → Bool) (x : Issue) : Bool :=
  (tableOf h (x.g.scalar 2)).any fun t => match (x.chip0 s).withSpill x t with
  | (_, some t) => p t x
  | _ => false
/-- A cursor in s9 and nothing of the group's steps outstanding. -/
def drawn (w : W64) (q : Nat) (more : Group → Group) : State :=
  { filled with chip := filled.chip.onGroup 2 fun g => more { g with s := SMap.put 0 g.s 9 w, m := SMap.put 0 g.m q 0xF#64 } }
/-- A drain with its cursor in s9. -/
def eR : Enc := { blank with q := 2, d := 10, b := 12, c := 14, a := 9, imm := 3 }
/-- A drain's hypotheses. -/
def drainable (x : Issue) : Bool :=
  (x.team.table? 3).any fun t => !t.wide && (cursorOf t (x.g.scalar 9)).isSome && x.team.steps.all (fun st => st.group != x.g.id) && x.g.settled (.s 9) && !x.g0.sbchk
/-- hclaim of a table of 8 buckets with a descriptor of 32 bytes at 0x600. -/
def describes (ws : List W64) : State := onPad keyed fun u => u.spPut 0x600 (dwords ws)
/-- The table's shape passes, and its descriptor or its place does not. -/
def badClaim (s : State) (x : Issue) : Bool := (tableOf 3 (x.g.scalar 2)).any fun t => ((x.chip0 s).withSpill x t).2.isNone
theorem witness_HashTableAndDrainResults : Meets (
    [(claiming keyed 0x60000000401#64, Instr.hclaim { blank with d := 6, a := 2, imm := 3 }, fun x => (tableOf 3 (x.g.scalar 2)).isNone),
      (keyed, .hclaim { blank with d := 6, a := 2, imm := 3 }, claims keyed 3 fun t x => (x.team.table? 3).isNone && !tableClash t x.team.tables),
      (tabled, .hclaim { blank with d := 6, a := 2, imm := 3 }, claims tabled 3 fun _ x => (x.team.table? 3).isSome),
      (tabled, .hclaim { blank with d := 6, a := 2, imm := 4 }, claims tabled 4 fun t x => (x.team.table? 4).isNone && tableClash t x.team.tables),
      (keyed, .hrel { blank with d := 6, imm := 3 }, handle (·.isNone)), (keyed, .hclr { blank with d := 6, imm := 3 }, handle (·.isNone)),
      (tabled, .hrel { blank with d := 6, imm := 3 }, fun x => handle (·.isSome) x && x.team.steps.isEmpty),
      (tabled, .hclr { blank with d := 6, imm := 3 }, fun x => x.team.steps.isEmpty && (x.team.table? 3).any fun t =>
        ((x.chip0 tabled).withSpill x { t with tomb := 0, live := 0, fails := 0, ovf := 0, spills := 0 }).2.isSome),
      (filled, .hstat { blank with d := 12, imm := 3 }, fun x => handle (·.isSome) x && x.team.steps.isEmpty && calm [.s 12, .s 13] x),
      (keyed, .hstat { blank with d := 12, imm := 3 }, handle (·.isNone))]
    ++ ([Instr.hdrainKeep eR, .hdrainClear eR].flatMap fun i => [(keyed, i, handle (·.isNone)), (drawn 0#64 2 fun g => g, i, fun x => drainable x && x.act != 0#64),
      (drawn (BitVec.allOnes 64) 2 fun g => g, i, fun x => drainable x && x.act != 0#64), (drawn 0#64 4 fun g => { g with m := [] }, i, fun x => drainable x && x.act == 0#64)])) :=
  meets (by decide)
/-- The steps of a hop on the table are outstanding. -/
def hopping : State := (after (.hopAcc .addS32 eH) tabled).getD tabled
/-- The claimed table again, with no counts. -/
def again (s : State) (x : Issue) (p : Option Table → Bool) : Bool :=
  (x.team.table? 3).any fun t => p ((x.chip0 s).withSpill x { t with tomb := 0, live := 0, fails := 0, ovf := 0, spills := 0 }).2
/-- The table's descriptor names a spill array without a page, or with one. -/
def redescribed (a : W64) : State := onPad tabled fun u => u.spPut 0x600 (dwords [a, 1#64, 0x5000#64])
theorem witness_HashTableAndDrainResults_waits : Meets (
    ([Instr.hrel { blank with d := 6, imm := 3 }, .hclr { blank with d := 6, imm := 3 }].map fun i =>
      (hopping, i, fun x => handle (·.isSome) x && x.team.steps.any fun st => st.handle == 3))
    ++ [(hopping, .hstat { blank with d := 12, imm := 3 }, fun x => handle (·.isSome) x && x.team.steps.any fun st => st.group == x.g.id),
      (redescribed 0x14000#64, .hclr { blank with d := 6, imm := 3 }, fun x => x.team.steps.isEmpty && x.team.lostWords.isEmpty && again (redescribed 0x14000#64) x (·.isNone)),
      (redescribed 0x4000#64, .hclr { blank with d := 6, imm := 3 }, fun x => x.team.steps.isEmpty && x.team.lostWords.isEmpty && again (redescribed 0x4000#64) x (·.any fun t => t.scap == 1)),
      (describes [0x4000#64, 1#64, 0x5000#64], .hclaim { blank with d := 6, a := 2, imm := 3 }, claims (describes [0x4000#64, 1#64, 0x5000#64]) 3 fun t x =>
        (x.team.table? 3).isNone && !tableClash t x.team.tables && t.scap == 1 && x.team.lostWords.isEmpty),
      (lostWord 0x610 keyed, .hclaim { blank with d := 6, a := 2, imm := 3 }, fun x => (tableOf 3 (x.g.scalar 2)).any fun t => x.team.loses (spRanges [(t.sda, 32)])),
      (lostWord 0x610 tabled, .hclr { blank with d := 6, imm := 3 }, fun x => x.team.steps.isEmpty && (x.team.table? 3).any fun t => x.team.loses (spRanges [(t.sda, 32)]))]) :=
  meets (by decide)
theorem witness_HashTableAndDrainResults_more : Meets (
    ([claiming keyed 0x600001FFFC0#64, claiming keyed 0x1FFFE000000400#64, describes [0#64, 0x100000000#64], describes [0#64, 0#64, 0#64, 1#64],
        describes [8#64, 1#64, 0#64], describes [0#64, 1#64, 2#64], describes [0x200000000000000#64, 1#64, 0#64],
        describes [0x14000#64, 1#64, 0x5000#64], describes [0x4000#64, 1#64, 0x15000#64]].map fun s =>
      (s, Instr.hclaim { blank with d := 6, a := 2, imm := 3 }, badClaim s))) := meets (by decide)
/-- A drain of two lanes in its spill phase at position k, due. -/
def spillDrain (s : State) (k : Nat) (clear : Bool) : State :=
  let st : HashStep :=
    { id := 2, group := 2, handle := 3, op := .drain clear, wide := false, key := BitVec.ofNat 64 (2 ^ 62 + k), lanes := [(0, 0#64), (1, 0#64)]
      dst := 10, st := 12, last := false, val := 11, cur := 9, since := 0, region := 0 }
  onPad { s with event := { a := 2 } } fun u => { u with steps := [st] }
/-- The same drain at another cursor, over a bucket with a tombstone, two live entries and a tombstone between them. -/
def bucketDrain (w : W64) (clear : Bool) : State :=
  onPad (spillDrain tabled 0 clear) fun u => { u.spPut 0x400 ([0xFFFFFFFE, 5, 0xFFFFFFFE, 6].flatMap fun k => leBytes 4 k) with
    steps := u.steps.map fun st => { st with key := w } }
/-- A drain step's hypotheses, at a cursor. -/
def drainAt (s : State) (p : Team → Cursor → Bool) : Bool :=
  firstStep s fun m t st => !st.last && (cursorOf t st.key).any (p m) && decide ((drainRegs t.wide st.dst st.val st.st).Nodup)
theorem witness_DrainBucketPhase : ([false, true].all fun clear =>
    (drainAt (bucketDrain 0#64 clear) fun m k => !k.fin && !k.spill && k.pos == 0 && m.lostWords.isEmpty)
    && (drainAt (bucketDrain 2#64 clear) fun m k => !k.fin && !k.spill && k.pos == 2 && m.lostWords.isEmpty)
    && (drainAt (bucketDrain 7#64 clear) fun m k => !k.fin && !k.spill && k.pos == 7 && m.lostWords.isEmpty)
    && (drainAt (bucketDrain (BitVec.allOnes 64) clear) fun m k => k.fin && m.lostWords.isEmpty)
    && drainAt (lostWord 0x40A (bucketDrain 2#64 clear)) fun m k => !k.fin && !k.spill && m.lostWords.any fun l => l.word == some (.sp 0x40A)) = true := by decide
/-- A cursor behind two entries; the tombstones before the last of them become empty and the bucket's others stay (R290). -/
theorem test_hdrain_cursor : rAfter .hashStep (bucketDrain 0#64 true) (.s 9) = some 4#64
    ∧ ([0x400, 0x408].map fun a => (after .hashStep (bucketDrain 0#64 true)).bind (spOf 4 a)) = [some 0xFFFFFFFF, some 0xFFFFFFFF] := by decide
theorem witness_DrainSpillPhase : ([(0, true), (1, false), (2, false)].all fun p => (spillDrain (spilled 4 1 [5#32, 40#32]) p.1 true).chip.teams.any fun m =>
      (m.table? 3).any fun t => (cursorOf t (BitVec.ofNat 64 (2 ^ 62 + p.1)) == some { fin := false, spill := true, pos := p.1 })
        && (match ((spillDrain (spilled 4 1 [5#32, 40#32]) p.1 true).chip.spillCount m.core 0 t).2 with | .ok n => decide (p.1 < n) == p.2 | .error _ => false)) = true
    ∧ ((spillDrain (onPad (spilled 4 1 []) fun u => u.onTable 3 fun t => { t with cnta := 0x15000#64 }) 0 false).chip.teams.any fun m => (m.table? 3).any fun t =>
      !passes ((spillDrain (onPad (spilled 4 1 []) fun u => u.onTable 3 fun t => { t with cnta := 0x15000#64 }) 0 false).chip.spillCount m.core 0 t).2) = true := by decide
theorem test_hdrain_spill_entry : vAfter .hashStep (spillDrain (spilled 4 1 [5#32, 40#32]) 0 false) 11 0 = some 40#64
    ∧ vAfter .hashStep (spillDrain (onPad (spilled 4 1 []) fun u => u.onTable 3 fun t => { t with cnta := 0x15000#64 }) 0 false) 12 0 = some 3#64 := by decide

theorem witness_EncodeDecodeRoundTrip : ([Instr.mad eABC, .jwait { blank with a := 0x57, b := 0x4F, imm := 9 }, .pair (pairOf 0x19 0x25), .exitB { q := 0, stall := 0, d := 0, a := 0 },
    .illegal [0x00000FE0#32]].all fun i => wellFormed Limits.top i && (match decodeWords Limits.top (encode i) with | .ok j => j == i | _ => false)) = true := by decide

/-- The placed word 0x0090420C is to issue, and its page is cached. -/
def stepping : State :=
  let s := State.reset.withFetchWord 32 0x0090420C
  { s with chip := (s.chip.translate (corePlaces 0) 0 0 4 .fetch).1 }
theorem witness_StepRunsTheDecodedInstruction : stepping.control.bootState = 3 ∧ stepping.stage = .issue ∧ stepping.chip.icache = [] ∧ first stepping.picked = stepping.picked
    ∧ (stepping.picked.all fun r => (stepping.chip.group? r.group).any fun g => g.pendTraps.isEmpty && (stepping.chip.team? g.team).any (fun m => m.lostWords.isEmpty && !m.deciding) && g.issueAddress == some 0
      && (stepping.chip.site g).any fun p => p.1 == 0 && p.2.1 == 0 && (match stepping.chip.translate (corePlaces 0) 0 0 4 .fetch with
        | (c, .ok p) => c == stepping.chip && !c.poisoned p.pa 4 && c.homeWord p.pa == 0x0090420C#32
        | _ => false)) = true
    ∧ reads [0x0090420C#32] (.addB { q := 0, stall := 3, d := 4, a := 9 }) = true ∧ lengthWords 0x0090420C#32 = 1 := by decide
theorem witness_StepNeverStops : (∀ p ∈ stepping.agenda, shapeOf p.1 = none)
    ∧ shapeOf .fundamentalReset = none ∧ shapeOf .attgo = none := by decide

/-- A queue with n operations of a class. -/
def crowded (cls : EngClass) (n : Nat) (ws : List W64) : State :=
  let o := (filling.chip.ops.map fun o => { o with cls, group := 9 }).take 1
  { commanded ws with chip := { (commanded ws).chip with ops := (List.replicate n o).flatten } }
/-- What holds of a push: its queue's length, and whether its command is sound. -/
def pushing (s : State) (cls : EngClass) (full : Nat) (room sound : Bool) (x : Issue) : Bool :=
  let cmd := (List.range 64).map fun k => (x.g.sreg (8 + k / 8)).extractLsb' (8 * (k % 8)) 8
  let queued := (s.chip.ops.filter fun o => o.core == x.core && o.cls == cls).length
  decide (x.g.counters.get cls < 63) && decide (queued < full) == room && s.chip.atoms.isEmpty && calm [.s 6, .s 7] x
    && (!room || (headerOk cls x.desc.nb cmd && bodyOk cls cmd) == sound)
/-- A fill that asks for a promise. -/
def promised : List W64 := [0x0000000800FF0103#64, 0x2000#64, 0x0807060504030201#64]
theorem witness_SleepPushAndCounterWaits : Meets (
    ([Instr.sleepUntil { blank with a := 2, c := 7 }, .sleepCyc { blank with a := 0xFF, imm := 100 }, .sleepPrm { blank with a := 2, b := 5, imm := 63 },
        .sleepPrm { blank with a := 2, b := 0, imm := 0 }].map fun i => (dev, i, fun x => x.act != 0#64))
    ++ ([Instr.sleepUntil { blank with q := 4, a := 2 }, .sleepCyc { blank with q := 4, a := 2 }, .sleepPrm { blank with q := 4, a := 2 }].map fun i => (dev, i, fun x => x.act == 0#64))
    ++ [(crowded .copy 128 fill, .pushCopy eP, pushing (crowded .copy 128 fill) .copy 128 false true),
      (crowded .index 64 fill, .pushIndex eP, pushing (crowded .index 64 fill) .index 64 false true),
      (crowded .attn 64 fill, .pushAttn eP, pushing (crowded .attn 64 fill) .attn 64 false true),
      (crowded .coll 32 fill, .pushColl eP, pushing (crowded .coll 32 fill) .coll 32 false true),
      (crowded .coll 31 [0#64], .pushColl eP, pushing (crowded .coll 31 [0#64]) .coll 32 true false),
      (commanded fill, .pushCopy eP, pushing (commanded fill) .copy 128 true true), (commanded promised, .pushCopy eP, pushing (commanded promised) .copy 128 true true),
      (commanded [0x100#64], .pushCopy eP, pushing (commanded [0x100#64]) .copy 128 true false),
      (commanded [0x77#64], .pushIndex eP, pushing (commanded [0x77#64]) .index 64 true false),
      (commanded [0x0000000100FF0010#64], .pushIndex eP, pushing (commanded [0x0000000100FF0010#64]) .index 64 true false),
      (commanded [0x00FF0020#64], .pushAttn eP, pushing (commanded [0x00FF0020#64]) .attn 64 true true)]
    ++ ([EngClass.copy, .index, .drain, .blend, .attn, .coll].flatMap fun cls =>
      let busy := { dev with chip := dev.chip.onGroup 2 fun g => g.raise cls }
      [(busy, Instr.wcnt cls { blank with d := 7 }, fun x => decide (0 < x.g.counters.get cls)),
        (busy, .wcnt cls { blank with d := 7, imm := 1 }, fun x => decide (x.g.counters.get cls ≤ 1)),
        (dev, .wcnt cls { blank with d := 0xFF }, fun x => decide (x.g.counters.get cls ≤ 0))])) := meets (by decide)

/-- Nothing of the group is sent and unanswered. -/
def freeOf (s : State) (_ : Issue) : Bool := s.chip.atoms.isEmpty && s.chip.teams.all fun t => t.steps.isEmpty
/-- dev with barrier 1 expecting 3 and k arrived. -/
def barWith (k : Nat) : State := { dev with chip := dev.chip.onBarrier 1 1 fun y => { y with expect := 3, arrived := k } }
/-- dev with a value in s3. -/
def withS3 (s : State) (v : W64) : State := { s with chip := s.chip.onGroup 2 fun g => { g with s := SMap.put 0 g.s 3 v } }
/-- The team has the barrier that the instruction names. -/
def hasBar (p : Barrier → Bool) (x : Issue) : Bool := (x.team.bars[1]?).any p
theorem witness_BarriersAndMailboxes : Meets (
    ([1#64, 65535#64].map fun v => (withS3 dev v, Instr.barInit { eB with d := 0 }, fun x => hasBar (fun _ => true) x && x.g.scalar 3 == v))
    ++ ([0#64, 65536#64].map fun v => (withS3 dev v, Instr.barInit { eB with d := 0 }, fun x => hasBar (fun _ => true) x && x.g.scalar 3 == v))
    ++ [(dev, .barExpect { eB with d := 0 }, hasBar fun _ => true)]
    ++ ([Instr.barArrive { eB with b := 0 }, .barSync { eB with b := 0 }].flatMap fun i =>
      [(barWith 1, i, fun x => freeOf (barWith 1) x && hasBar (fun y => !barrierDone { y with arrived := y.arrived + 1 }) x),
        (barWith 2, i, fun x => freeOf (barWith 2) x && hasBar (fun y => barrierDone { y with arrived := y.arrived + 1 }) x)])
    ++ [(dev, .barWait { eB with d := 0, b := 0xFF }, hasBar fun y => !y.phase), (dev, .barWait { eB with d := 0 }, hasBar fun y => !y.phase),
      (barWith 1, .barQuery { eB with b := 0 }, fun x => hasBar (fun _ => true) x && calm [.s 6] x),
      (withS3 dev 4095#64, .mbxSend { blank with d := 6, a := 3, b := 2 }, fun x => dev.chip.atoms.isEmpty && decide ((x.g.scalar 3).toNat < 4096) && calm [.s 6] x),
      (withS3 mailed 3#64, .mbxSend { blank with d := 6, a := 3, b := 2 }, fun x => (SMap.get Mailbox.reset mailed.chip.mailboxes 3).full
        && (SMap.get Mailbox.reset mailed.chip.mailboxes 3).ctx == x.ctx),
      (withS3 dev 4096#64, .mbxSend { blank with d := 6, a := 3, b := 2 }, fun x => decide (4096 ≤ (x.g.scalar 3).toNat))]
    ++ ([Instr.mbxRecv, .mbxPeek].flatMap fun f => [(mailed, f { blank with d := 6, a := 0xFF, imm := 16 }, always), (mailed, f { blank with d := 6, a := 0xFF, imm := 3 }, calm [.s 6, .s 7]),
      (mailed, f { blank with d := 6, a := 0xFF, imm := 15 }, calm [.s 6, .s 7])])) := meets (by decide)

/-- The team of the placed group with its request or its groups changed. -/
def onTeam1 (s : State) (f : Team → Team) : State := { s with chip := s.chip.onTeam 1 f }
/-- A second group of the team. -/
def paired : State := { pad with chip := { pad.chip with groups := pad.chip.groups ++ pad.chip.groups.map fun g => { g with id := 3, grpidx := 1 } } }
/-- What R302 asks of a submission to queue 3 of context 0, one check of each status: a full queue, a misaligned entry, granules beyond
the pool, a completion counter outside the range, a cancelled job. -/
def submission (c : Chip) (ws : List W64) : List Bool :=
  let f := fun k hi lo : Nat => (ws.getD k 0#64).toNat / 2 ^ lo % 2 ^ (hi + 1 - lo)
  let k := c.context 0
  [decide (256 ≤ (c.launches.filter fun l => l.ctx == 0 && l.queue == 3 && l.unplaced).length), f 0 63 0 % 4 != 0,
    decide (1535 < (f 3 51 48 + 1) * (8 * 2 ^ f 3 53 52 / 8) * f 2 3 0 + f 2 18 8 + 4 * f 2 30 24),
    !decide (k.cbase ≤ f 4 47 32 ∧ f 4 47 32 < k.cbase + k.cnum), (c.counter (f 6 15 0)).cancelled]
/-- A queue of 256 launches with teams to place. -/
def queueFull : Chip :=
  { jobbed.chip with launches := (List.range 256).map fun i => { Launch.ofDesc i 0 3 placedDesc with next := 0 } }
theorem witness_SubmitStatuses : [(queueFull, launchWords 5), (jobbed.chip, (launchWords 5).set 0 0x42#64), (jobbed.chip, (launchWords 5).set 2 0x5FF08#64),
      (jobbed.chip, launchWords 99), ((jobbed.chip.setCounter 6 { Counter.reset with level := 3, cancelled := true }), launchWords 5), (jobbed.chip, launchWords 5)].map (fun p => submission p.1 p.2)
    = [[true, false, false, false, false], [false, true, false, false, false], [false, false, true, false, false], [false, false, false, true, false],
      [false, false, false, false, true], [false, false, false, false, false]]
    ∧ [(jobbed.chip, (launchWords 5).set 2 0x5FF08#64, 3), ((jobbed.chip.setCounter 6 { Counter.reset with level := 3, cancelled := true }), launchWords 5, 5)].all (fun p => p.1.submitStatus 0 3 p.2.1 false == p.2.2) = true := by decide
theorem witness_SpawnFetchWorkAndRegions : Meets [
    (jobbed, .spawn { eP with imm := 3 }, fun x => jobbed.chip.atoms.isEmpty && calm [.s 6] x
      && jobbed.chip.submitStatus x.ctx 3 ((List.range 8).map fun k => x.g.sreg (8 + k)) false == 0),
    (dev, .spawn eP, fun x => dev.chip.atoms.isEmpty && calm [.s 6] x && dev.chip.submitStatus x.ctx 0 ((List.range 8).map fun k => x.g.sreg (8 + k)) false != 0),
    (pad, .fw { blank with a := 0xFF, imm := 0x108 }, fun x => (spFault x true 16 0x108#64).isSome),
    (pad, .fw { blank with a := 2, imm := 0x10 }, fun x => (spFault x true 16 0x110#64).isNone && x.g.fwOut.isNone),
    (paired, .rgnEnter { blank with a := 2 }, fun x => paired.chip.groups.any fun h => h.team == x.team.id && h.id != x.g.id && h.wait.isNone),
    (pad, .rgnEnter { blank with a := 0xFF }, fun x => (pad.chip.groups.all fun h => h.team != x.team.id || h.id == x.g.id) && x.g.fwOut.isNone && x.team.request.isNone)] :=
  meets (by decide)

/-- jobbed with s2 and s4 and counter 5 changed. -/
def jobs (a v : W64) (r : Counter) : State :=
  { jobbed with chip := (jobbed.chip.onGroup 2 fun g => { g with s := SMap.put 0 (SMap.put 0 g.s 2 a) 4 v }).setCounter 5 r }
/-- The counter of s2 and whether it is the context's. -/
def jobOf (s : State) (inside : Bool) (p : Chip → Counter → Bool) (x : Issue) : Bool :=
  let n := (x.g.scalar 2).toNat
  let k := s.chip.context x.ctx
  decide (k.cbase ≤ n ∧ n < k.cbase + k.cnum ∧ n < 65536) == inside && p s.chip (s.chip.counter n) && s.chip.atoms.isEmpty && calm [.s 9] x
/-- Whether a counter may be begun. -/
def begun (c : Chip) (n : Nat) : Bool := (c.launches.any fun l => l.desc.cctr == n) || ((c.counter n).level == 3#2 && !(c.counter n).done)
/-- d = s9, a = s2, b = s4. -/
def eJ : Enc := { blank with d := 9, a := 2, b := 4 }
/-- A record of level 3 under a parent. -/
def levelled (v : Nat) (f : Counter → Counter) : Counter := f { Counter.reset with value := BitVec.ofNat 32 v, target := 9, level := 3, parent := 0xFFFF }
/-- The team belongs to a job that is its own parent (no run reaches it, and it is deeper than any), or to a cancelled one. -/
def chained (cancel : Bool) : State :=
  let s := jobs 5#64 7#64 Counter.reset
  { s with chip := { s.chip with
      counters := [(100, { Counter.reset with level := 3, parent := if cancel then 0xFFFF else 100, cancelled := cancel })]
      launches := s.chip.launches.map fun l => { l with desc := { l.desc with job := 100 } } } }
/-- Counter 1 becomes full, then its parent 2, and 3 gains one (R304). -/
def counting : Chip :=
  let r := fun v t p : Nat => { Counter.reset with value := BitVec.ofNat 32 v, target := BitVec.ofNat 32 t, parent := BitVec.ofNat 16 p, level := 1 }
  { dev.chip with counters := [(1, r 3 4 2), (2, r 0 1 3), (3, r 5 9 4)] }
theorem test_counters_propagate :
    ((counting.bump 4 1 fun r => { r with value := r.value + 1 }).counters.map fun p => (p.1, p.2.value, p.2.done)) = [(1, 4#32, true), (2, 1#32, true), (3, 6#32, false)]
    ∧ ((counting.bump 4 3 fun r => { r with value := r.value + 4 }).counter 4).value = 1#32 := by decide
theorem witness_JobInstructions : Meets (
    ((jobAll eJ).flatMap fun i => [(jobs 65536#64 7#64 Counter.reset, i, always), (jobs 16#64 7#64 Counter.reset, i, jobOf (jobs 16#64 7#64 Counter.reset) false fun _ _ => true)])
    ++ [(jobs 5#64 7#64 (levelled 7 fun r => r), .jobCwait eJ, jobOf (jobs 5#64 7#64 (levelled 7 fun r => r)) true fun _ r => decide (7 ≤ r.value.toNat)),
      (jobs 5#64 7#64 (levelled 6 fun r => r), .jobCwait eJ, jobOf (jobs 5#64 7#64 (levelled 6 fun r => r)) true fun _ r => !r.cancelled && decide (r.value.toNat < 7)),
      (jobs 5#64 7#64 (levelled 6 fun r => { r with cancelled := true }), .jobCwait eJ, jobOf (jobs 5#64 7#64 (levelled 6 fun r => { r with cancelled := true })) true fun _ r => r.cancelled),
      (jobs 5#64 7#64 (levelled 6 fun r => { r with cancelled := true }), .jobCadd eJ, jobOf (jobs 5#64 7#64 (levelled 6 fun r => { r with cancelled := true })) true fun _ r => r.cancelled),
      (jobs 5#64 7#64 (levelled 1 fun r => r), .jobCadd eJ, jobOf (jobs 5#64 7#64 (levelled 1 fun r => r)) true fun _ r => !r.cancelled && r.value + 7 != r.target),
      (jobs 5#64 8#64 (levelled 1 fun r => r), .jobCadd eJ, jobOf (jobs 5#64 8#64 (levelled 1 fun r => r)) true fun _ r => !r.cancelled && r.value + 8 == r.target),
      (jobs 5#64 (BitVec.ofNat 64 (3 * 2 ^ 48)) Counter.reset, .jobCaddInit { eJ with c := 1 }, jobOf (jobs 5#64 (BitVec.ofNat 64 (3 * 2 ^ 48)) Counter.reset) true fun _ _ => true),
      (jobs 5#64 (BitVec.ofNat 64 (2 ^ 50)) Counter.reset, .jobCaddInit { eJ with c := 1 }, jobOf (jobs 5#64 (BitVec.ofNat 64 (2 ^ 50)) Counter.reset) true fun _ _ => true),
      (jobs 5#64 (BitVec.ofNat 64 (2 ^ 48)) (levelled 0 fun r => r), .jobCaddInit { eJ with c := 1 }, jobOf (jobs 5#64 (BitVec.ofNat 64 (2 ^ 48)) (levelled 0 fun r => r)) true fun c _ => begun c 5),
      (jobs 5#64 (BitVec.ofNat 64 (2 ^ 49 + 7)) Counter.reset, .jobCaddInit { eJ with c := 1 }, jobOf (jobs 5#64 (BitVec.ofNat 64 (2 ^ 49 + 7)) Counter.reset) true fun c _ => !begun c 5),
      (jobs 5#64 7#64 (levelled 0 fun r => r), .jobCancel { eJ with imm := 1 }, jobOf (jobs 5#64 7#64 (levelled 0 fun r => r)) true fun _ r => r.level != 1#2),
      (jobs 5#64 7#64 (levelled 0 fun r => { r with cancelled := true }), .jobCancel { eJ with imm := 3 },
        jobOf (jobs 5#64 7#64 (levelled 0 fun r => { r with cancelled := true })) true fun _ r => r.level == 3#2 && r.cancelled),
      (jobs 5#64 7#64 (levelled 0 fun r => r), .jobCancel { eJ with imm := 3 }, jobOf (jobs 5#64 7#64 (levelled 0 fun r => r)) true fun c r =>
        r.level == 3#2 && !r.cancelled && c.launches.all fun l => !c.inSubtree 3 5 l),
      (jobs 5#64 7#64 (levelled 0 fun r => r), .jobFork eJ, jobOf (jobs 5#64 7#64 (levelled 0 fun r => r)) true fun c _ => begun c 5),
      (chained true, .jobFork eJ, jobOf (chained true) true fun c _ => !begun c 5 && c.jobCancelled 257 100),
      (chained false, .jobFork eJ, jobOf (chained false) true fun c _ => !begun c 5 && !c.jobCancelled 257 100 && decide (255 < c.jobDepth 257 100 + 1)),
      (inJob, .jobFork eJ, jobOf inJob true fun c _ => !begun c 5 && !c.jobCancelled 257 6)]) := meets (by decide)

/-- What holds of a sys instruction's state. -/
def rules (s : State) (p : Chip → Issue → Bool) (x : Issue) : Bool := (s.chip.context x.ctx).priv && s.chip.atoms.isEmpty && calm [.s 6, .s 7] x && p s.chip x
/-- Context 1 in a state. -/
def ctx1 (f : Context → Context) (s : State) : State := { s with chip := s.chip.onContext 1 f }
/-- A parked unit of the token 5. -/
def parkedUnit (void : Bool) : State :=
  let s := ruling 5#64 0#64
  { s with chip := { s.chip with ops := filling.chip.ops.map fun o => { o with started := true }
                                 parked := filling.chip.ops.map fun o => { token := 5, die := 0, op := o.id, unit := 0, va := 0x1000, reason := 3, slot := 0, void } } }
theorem witness_PrivilegedInstructions : Meets (
    ((sysAll eY).map fun i => (small [] [], i, fun x => !((small [] []).chip.context x.ctx).priv))
    ++ [(ruling 0#64 64#64, .sysTlbinvLeaf eY, rules (ruling 0#64 64#64) fun _ _ => true), (ruling 0#64 1#64, .sysTlbinvLeaf { eY with imm := 3 }, rules (ruling 0#64 1#64) fun _ _ => true)]
    ++ ([Instr.sysTlbinvLeaf eY, .sysTlbinvContext eY, .sysTlbinvAll eY].map fun i => (ruling 0#64 63#64, i, rules (ruling 0#64 63#64) fun c _ => !c.walksOut none && !c.walksOut (some 63)))
    ++ [(ruling 3#64 0#64, .sysCfgrd eY, rules (ruling 3#64 0#64) fun c _ => passes (c.cfgRead 3#64)),
      (ruling 0x1F#64 0#64, .sysCfgrd eY, rules (ruling 0x1F#64 0#64) fun c _ => !passes (c.cfgRead 0x1F#64)),
      (ruling 0x100000000#64 0#64, .sysCfgwr eY, rules (ruling 0x100000000#64 0#64) fun _ _ => true)]
    ++ (plainRegisters.flatMap fun p => [(ruling (BitVec.ofNat 64 (63 * 2 ^ 16 + p.1)) (BitVec.ofNat 64 (2 ^ p.2 - 1)), Instr.sysCfgwr eY,
          rules (ruling (BitVec.ofNat 64 (63 * 2 ^ 16 + p.1)) (BitVec.ofNat 64 (2 ^ p.2 - 1))) fun _ _ => true),
        (ruling (BitVec.ofNat 64 p.1) (BitVec.ofNat 64 (2 ^ p.2)), .sysCfgwr eY, rules (ruling (BitVec.ofNat 64 p.1) (BitVec.ofNat 64 (2 ^ p.2))) fun _ _ => true)])
    ++ ([Instr.sysFqreplayRetry eY, .sysFqreplayDiscard eY].flatMap fun i => [(ruling 5#64 0#64, i, rules (ruling 5#64 0#64) fun c _ => c.parked.isEmpty),
        (parkedUnit true, i, rules (parkedUnit true) fun c _ => (c.parked.find? fun u => u.token == 5).any (·.void)),
        (parkedUnit false, i, rules (parkedUnit false) fun c _ => (c.parked.find? fun u => u.token == 5).any fun u => !u.void && c.ops.any fun o => o.id == u.op)])
    ++ ([Instr.sysHaltEnable eY, .sysHaltSuspend eY, .sysHaltResume eY, .sysHaltTeardown eY].flatMap fun i => [(ruling 64#64 0#64, i, rules (ruling 64#64 0#64) fun _ _ => true),
        (ruling 0#64 0#64, i, rules (ruling 0#64 0#64) fun _ x => x.ctx == 0)])
    ++ ([(Instr.sysHaltEnable eY, true, false), (.sysHaltEnable eY, false, false), (.sysHaltSuspend eY, false, false), (.sysHaltSuspend eY, true, true), (.sysHaltSuspend eY, true, false),
        (.sysHaltResume eY, true, false), (.sysHaltResume eY, true, true), (.sysHaltTeardown eY, false, false), (.sysHaltTeardown eY, true, false)].map fun p =>
      let s := ctx1 (fun k => { k with en := p.2.1, susp := p.2.2 }) (ruling 1#64 0#64)
      (s, p.1, rules s fun c _ => (c.context 1).en == p.2.1 && (c.context 1).susp == p.2.2 && !(c.context 1).suspending && c.teams.all fun t => c.ctxOf t != 1))) :=
  meets (by decide)

/-- A config number (R371). -/
def cfgNum (blk f i : Nat) : W64 := BitVec.ofNat 64 (blk * 2 ^ 24 + f * 2 ^ 16 + i)
/-- The state that writes v to a config number over a changed chip. -/
def writing (f : Chip → Chip) (n v : W64) : State := let s := ruling n v; { s with chip := f s.chip }
/-- Context 5 has rings that are not empty, a frame held and a range of counters; die 1 has a fault queue that is not empty;
device set 0 of context 0 is valid. -/
def ringed (c : Chip) : Chip :=
  let c := c.onContext 5 fun k => { k with flog := { k.flog with tail := 1, log2n := 3 }, arena := { k.arena with tail := 1 }, arenaHeld := [0x10000]
                                           cbase := 10, cnum := 5 }
  { c.onDie 1 fun d => { d with fq := { d.fq with tail := 1 } } with devSets := [(2, 1#64)] }
theorem witness_PrivilegedInstructions_config : Meets (
    ([cfgNum 5 0 0, cfgNum 255 255 65535, cfgNum 0 64 1, cfgNum 4 64 0, cfgNum 2 2 0, cfgNum 0 3 0x14, cfgNum 2 1 5, cfgNum 4 3 1024, cfgNum 4 3 7,
      cfgNum 1 2 9, cfgNum 3 1 0, cfgNum 3 0 5, cfgNum 3 0 0x190, cfgNum 3 0 0x2000, cfgNum 2 1 4, cfgNum 0 63 0xB, cfgNum 0 63 0xC, cfgNum 0 63 0xE].map
        fun n => (writing id n 0#64, Instr.sysCfgwr eY, rules (writing id n 0#64) fun _ _ => true))
    ++ (([(0, 15), (0, 16), (1, 2 ^ 51), (1, 1), (2, 4), (2, 2), (0xD, 64), (0xD, 32), (8, 0xFFFF * 65536), (8, 0xFFFF * 65536 + 1), (0xF, 32), (0xF, 1),
        (0x10, 20), (0x10, 21), (0x11, 8), (0x11, 1), (0x12, 20), (0x12, 32)] : List (Nat × Nat)).map fun q =>
      (writing id (cfgNum 0 63 q.1) (BitVec.ofNat 64 q.2), Instr.sysCfgwr eY, rules (writing id (cfgNum 0 63 q.1) (BitVec.ofNat 64 q.2)) fun c _ =>
        (c.context 63).flog.empty && (c.context 63).arena.empty))
    ++ (([(0xF, 32), (0xF, 1), (0x10, 3), (0x10, 4), (0x10, 36), (0x12, 0), (0x12, 1), (0x11, 8)] : List (Nat × Nat)).map fun q =>
      (writing ringed (cfgNum 0 5 q.1) (BitVec.ofNat 64 q.2), Instr.sysCfgwr eY, rules (writing ringed (cfgNum 0 5 q.1) (BitVec.ofNat 64 q.2)) fun c _ =>
        !(c.context 5).flog.empty && !(c.context 5).arena.empty))
    ++ (([5 * 65536 + 6, 4 * 65536 + 6] : List Nat).map fun v => (writing ringed (cfgNum 0 4 8) (BitVec.ofNat 64 v), Instr.sysCfgwr eY,
        rules (writing ringed (cfgNum 0 4 8) (BitVec.ofNat 64 v)) fun c _ => c.rangeMeets 4 6 5 && !c.rangeMeets 4 6 4))
    ++ (([(1, 0, 9, 2 ^ 48), (1, 0, 9, 2 ^ 62), (1, 1, 9, 2 ^ 48), (1, 1, 9, 2 ^ 47), (2, 0, 0, 32), (2, 0, 0, 1), (2, 1, 0, 32), (2, 1, 0, 1), (2, 0, 1, 20),
        (2, 0, 1, 21), (2, 1, 1, 1), (2, 1, 2, 5), (2, 1, 3, 5), (3, 0, 0, 4095), (3, 0, 0, 4096), (3, 0, 0x100, 1), (3, 0, 0x18F, 2), (3, 0, 0x1000, 143),
        (3, 0, 0x1FFF, 144), (4, 63, 1020, 2 ^ 16 + 2), (4, 63, 1020, 2 ^ 16 + 1), (4, 63, 1021, 64), (4, 63, 1021, 1), (4, 63, 1022, 1), (4, 63, 1022, 2),
        (4, 0, 0, 1), (4, 0, 1, 1), (4, 0, 2, 0)] : List (Nat × Nat × Nat × Nat)).map fun q =>
      let s := writing ringed (cfgNum q.1 q.2.1 q.2.2.1) (BitVec.ofNat 64 q.2.2.2)
      (s, Instr.sysCfgwr eY, rules s fun c _ => (c.setWord 0 0 2).getLsbD 0 && !(c.setWord 63 255 2).getLsbD 0))) := meets (by decide)
/-- ARENAADD of a 64 KiB page to the job 6, or to no job. -/
def attaching (job : Nat) (pages : List ArenaPage) : State :=
  let s := inCtx (fun k => { k with priv := true }) jobbed
  { s with chip := { (s.chip.onGroup 2 fun g => { g with s := SMap.put 0 (SMap.put 0 g.s 2 (cfgNum 0 0 0x13)) 3 (BitVec.ofNat 64 (job * 2 ^ 48)) }) with
                     arenaPages := pages } }
theorem attaching_pages (job : Nat) (ps : List ArenaPage) : (attaching job ps).chip.arenaPages = ps := rfl
/-- Its page and job are good. -/
def attachable (s : State) (x : Issue) : Bool :=
  rules s (fun c _ => c.jobOk 0 6) x && match ((x.chip0 s).release x.core .sys).walkRoot 0 0 with | .ok en => en.size == 65536 | .error _ => false
theorem witness_PrivilegedInstructions_arena : Meets [(attaching 6 [], .sysCfgwr eY, attachable (attaching 6 [])), (attaching 7 [], .sysCfgwr eY, rules (attaching 7 []) fun c _ => !c.jobOk 0 7),
    (attaching 6 (List.replicate (2 ^ 20) { ctx := 0, job := 6, page := 1 }), .sysCfgwr eY, attachable (attaching 6 (List.replicate (2 ^ 20) { ctx := 0, job := 6, page := 1 })))]
    ∧ ∀ s ∈ [attaching 6 (List.replicate (2 ^ 20) { ctx := 0, job := 6, page := 1 })], 2 ^ 20 ≤ s.chip.arenaPages.length ∧ ∀ p ∈ s.chip.arenaPages, p.page = 1 := by
  refine ⟨meets (by decide), fun s hs => ?_⟩
  obtain rfl := List.mem_singleton.mp hs
  rw [attaching_pages]
  exact ⟨by rw [List.length_replicate], fun p hp => by rw [(List.mem_replicate.mp hp).2]⟩

theorem witness_PrivilegedInstructions_resume : ((dev.chip.onGroup 2 fun g => { g with wait := some (.suspension 1 6) }).group? 2).any
    (fun g => g.wait == some (.suspension 1 6)) = true := by decide
theorem witness_Invariants : State.reset.Inv ∧ State.reset.MemoryCanonical :=
  ⟨⟨by decide, by decide, by decide, by decide⟩, by unfold State.MemoryCanonical; decide⟩


/-- The group of a state. -/
def onG (s : State) (f : Group → Group) : State := { s with chip := s.chip.onGroup 2 f }
/-- Lane 0 is parked at j7 for m4, in an episode of 10 cycles. -/
def timedJoin : State :=
  atCycle 100 { a := 2, b := 7 } (onG marked fun g => { g with
    episodes := [{ join := 7, t0 := 0, t := 10 }], lanes := g.lanes.set 0 { pc := 0, st := .parked 7 (some 4) } })
/-- A group asleep until 0x1000 or until its drain counter is 0. -/
def slept (n : Nat) (c : Nat) : State :=
  let t := (after (.sleepPrm { blank with a := 2, b := 2 }) (onG dev fun g => { g with counters := g.counters.set c .drain })).getD dev
  atCycle n { a := 2, b := (t.chip.groups.flatMap fun g => g.sleeps.map (·.id)).headD 0 } t
/-- The sleep that the event names ends for a reason. -/
def wakesFor (r : Nat) (s : State) : Bool :=
  (s.chip.group? s.event.a).any fun g => (g.sleeps.find? fun z => z.id == s.event.b).any fun z =>
    decide (z.from_ < s.chip.cyc) && ([1, 2].find? fun q => (q == 1 && decide (z.deadline.toNat ≤ s.chip.cyc))
      || (q == 2 && z.prm.any fun p => decide (g.counters.get p.1 ≤ p.2))) == some r
/-- A drain of one word accepted. -/
def draining (add : Bool) : State :=
  { dev with event := { a := 5 }
             chip := { dev.chip with drains := [{ id := 5, group := 2, core := 0, ctx := 0, add := if add then some true else none, base := 0x1000#64, pitch := 0x80#64
                                                  rows := [{ row := 31, words := [({ pa := 0x21000, cp := 0, cmp := 0 }, 7#32)] }] }] } }
/-- An atom sent. -/
def atomDue : State := { sent with event := { a := (sent.chip.atoms.map (·.id)).headD 0 } }
/-- An entry of core 0's quench buffer, opened at cycle 0. -/
def quenched : State :=
  atCycle 0x100 { a := 0, b := 0x108 } { dev with chip := { dev.chip with quench := [{ core := 0, block := 0x108, ctx := 0, opened := 0, bytes := [], owned := [] }] } }
/-- A word of the team's scratchpad is lost. -/
def lostPad (n : Nat) : State :=
  onTeam1 (atCycle n { a := 1 } pad) fun t => { t with lostWords := [{ word := none, val := 0x100#64, met := some 1, reported := false }] }
/-- In a handler, every lane of which waits at a join, the other lanes sleep until cycle 9. -/
def handlerWaits : State :=
  atCycle 9 { a := 2, b := 7 } (onG inHandler fun g => { g with
    hlanes := 1#64
    lanes := (List.range g.width).map fun l => if l = 0 then { pc := 0, st := .parked 3 none } else { pc := 0, st := .asleep 7 }
    sleeps := [{ id := 7, from_ := 0, deadline := 9#64, prm := none, mask := 0, happened := [], gated := false }] })
/-- A kv.new accepted. -/
def commandedKv : State := (after (.pushAttn eP) (commanded [0x0000000000FF0020#64])).getD dev
theorem witness_CoreAndMemoryEvents :
    ((timedJoin.chip.group? 2).any fun g => !g.inh && g.episodes.any fun ep => ep.join == 7 && ep.t != 0 && decide (ep.t0 + ep.t ≤ timedJoin.chip.cyc)) = true
    ∧ wakesFor 1 (slept 0x1000 0) = true ∧ wakesFor 1 (slept 0x1000 1) = true ∧ wakesFor 2 (slept 0xFFF 0) = true
    ∧ ((handlerWaits.chip.group? 2).any fun g => g.inh && (g.lanes.all fun y => !y.st.isRunning) && g.sleeps.any fun z => decide (z.from_ < 9 ∧ z.deadline.toNat ≤ 9)) = true
    ∧ (((onG marked fun g => { g with pendTraps := [{ cause := 0x04, val := 0, mask := 0 }] }).chip.group? 2).any fun g =>
        !g.pendTraps.isEmpty && g.issueAddress.isSome) = true
    ∧ ([false, true].all fun add => (draining add).chip.drains.any fun d => d.id == (draining add).event.a && (draining add).chip.rowFree d
        && d.rows.any fun r => decide (r.words.map (·.1.pa)).Nodup && r.words.all fun w => w.1.pa % 4 == 0) = true
    ∧ ((hashDue (.hopAcc .addS32 eH)).chip.teams.any fun m => m.steps.any fun st => st.group == 2 && (m.table? st.handle).isSome) = true
    ∧ ((atCycle 65536 {} dev).chip.hadEvents.contains 0 || (atCycle 65536 {} dev).chip.cyc % 65536 != 0) = false
    ∧ (quenched.chip.quench.any fun q => q.core == 0 && q.block == 0x108 && decide (q.opened + (quenched.chip.context q.ctx).wcbWait ≤ quenched.chip.cyc)) = true
    ∧ ((atomDue.chip.atoms.find? fun a => a.id == atomDue.event.a).any fun a => !(atomDue.chip.unitsHere a).isEmpty) = true
    ∧ ([2, 300].all fun n => ((lostPad n).chip.team? 1).any fun t => (t.lostWords.any fun l => l.met.isSome && !l.reported)
        && !((lostPad n).chip.groupsOf t.id).isEmpty && ((lostPad n).chip.launchOf t).isSome) = true
    ∧ (commandedKv.chip.ops.any fun o => commandedKv.chip.opDue o.id 0x20 == some o && o.cls == .attn && !o.dropped && passes (commandedKv.chip.resPlace o).2) = true
    ∧ (live.chip.regions.all fun r => r.ops.all fun o => o.progress.isNone) = true
    ∧ SMap.wf 0 [(0, 8)] = true := by decide

/-- One operation with a command stands first in its queue, and its step is due. -/
def running (cls : EngClass) (ws : List W64) (s : State) : State :=
  { s with event := { s.event with a := (filling.chip.ops.map (·.id)).headD 0 }
           chip := { s.chip with ops := filling.chip.ops.map fun o => { o with cls, cmd := (dwords ws ++ List.replicate 64 0#8).take 64 } } }
/-- The due operation of a code has a property. -/
def due (code : Nat) (p : EngOp → Bool) (s : State) : Bool :=
  s.chip.ops.any fun o => (s.chip.team? o.team).isSome && !o.dropped && s.chip.opDue s.event.a code == some o && p o
/-- Every byte of the copy passes, and no source is a destination. -/
def copies (s : State) (bs : List (W64 × (W64 ⊕ Byte))) (o : EngOp) : Bool :=
  let ms := (placesOf s.chip o bs).2.filterMap fun r => match r with | .ok m => some m | .error _ => none
  ms.length == bs.length && decide (ms.map (·.dst.key)).Nodup
    && ms.all fun m => match m.src with | .inl l => !(ms.map (·.dst.key)).contains l.key | .inr _ => true
/-- Every byte of a span has its place. -/
def placed (c : Chip) (o : EngOp) (acc : Access) (as : List W64) : Bool :=
  match (c.placeAll o acc false as).2 with | .ok ls => decide (ls.map Loc.key).Nodup && ls.all fun l => !c.locPoison o l | .error _ => false
/-- The index list at 0x100 of the scratchpad begins with a value. -/
def indexed (k : W32) : State := onTeam1 dev fun t => t.spPut 0x100 (leBytes 4 k.toNat)
/-- An index command of one unit: code, flags, base and what follows. -/
def oneUnit (code flags base : Nat) (rest : List W64) : List W64 :=
  [BitVec.ofNat 64 (2 ^ 32 + 0xFF0000 + 256 * flags + code), 0x8000000000000000#64, BitVec.ofNat 64 base, 0x8000000000000100#64] ++ rest
/-- The index of the one unit, whether it is out of bounds and its address aligned. -/
def unitIs (s : State) (bad aligned : Bool) (o : EngOp) : Bool :=
  (s.chip.unitIndex o 0).toOption.any fun k =>
    let row := cmdNat o.cmd 0 1 == 0x10
    let n := if row then cmdNat o.cmd 32 4 else cmdNat o.cmd 32 1
    let va := BitVec.ofNat 64 (cmdNat o.cmd 16 8) + BitVec.ofInt 64 k * (if row then BitVec.ofNat 64 (cmdNat o.cmd 40 8) else BitVec.ofNat 64 n)
    let store := cmdNat o.cmd 0 1 == 0x12
    decide (k < 0 ∨ (cmdNat o.cmd 36 4 ≠ 0 ∧ (cmdNat o.cmd 36 4 : Int) ≤ k)) == bad
      && (bad || (decide (va.toNat % (if row then 4 else n) = 0) == aligned
        && (!aligned || (placed s.chip o (if store then .write else .read) (span va n)
          && placed s.chip o (if store then .read else .write) (span (BitVec.ofNat 64 (cmdNat o.cmd 8 8)) n)))))
theorem witness_CopyOutsideScratchpad :
    due 0x03 (fun o => decide (((o.word 8).toNat / 2 ^ 21 % 2 ^ 42 ≠ 0 ∨ dev.chip.opSpace o ≤ (o.word 8).toNat % 2 ^ 21) ∧ (o.word 8).msb = true))
        (running .copy [0x0000000800FF0003#64, 0x8000000000004000#64, 0#64] dev) = true
    ∧ due 0x10 (fun o => o.indexSpace.any fun a => a.msb && decide (dev.chip.opSpace o ≤ a.toNat % 2 ^ 21))
        (running .index [0x0000000100FF0010#64, 0x8000000000004000#64, 0x1000#64, 0x8000000000000100#64, 4#64, 4#64] dev) = true := by decide
theorem witness_CopyAndIndexEvents :
    ([(0x01, [0x0000000400FF0001#64, 0x2000#64, 0x1000#64]), (0x02, [0x0000000400010202#64, 0x2000#64, 0x1000#64, 2#64, 16#64, 4#64]), (0x03, fill)].all fun p =>
      let s := running .copy p.2 dev
      due p.1 (fun o => (copyTable o).any fun q => q.2.1 == p.1 && copies s q.2.2 o) s) = true
    ∧ ([(0x10, [0x0000000000000004#64, 4#64, 4#64]), (0x11, [4#64]), (0x12, [4#64])].all fun p =>
      let at_ := fun k flags base rest => running .index (oneUnit p.1 flags base rest) (indexed k)
      due p.1 (unitIs (at_ 1#32 0 0x1000 p.2) false true) (at_ 1#32 0 0x1000 p.2)
        && due p.1 (unitIs (at_ 1#32 0 0x1002 p.2) false false) (at_ 1#32 0 0x1002 p.2)
        && due p.1 (unitIs (at_ 0xFFFFFFFF#32 0 0x1000 p.2) true true) (at_ 0xFFFFFFFF#32 0 0x1000 p.2)
        && due p.1 (fun o => unitIs (at_ 0xFFFFFFFF#32 4 0x1000 p.2) true true o && (at_ 0#32 4 0 []).chip.parked.isEmpty
          && !(at_ 0#32 4 0 []).chip.die0.fq.full) (at_ 0xFFFFFFFF#32 4 0x1000 p.2)) = true := by decide
/-- The word of home memory under a virtual address of the first page is lost. -/
def lostAt (a : Nat) (s : State) : State := { s with chip := { s.chip with poison := [(0x20000 + a) / 4] } }
/-- An index command of several units from list 0x100 and scratchpad 0x200. -/
def manyUnits (code : Nat) (ks : List W32) : State :=
  running .index ([BitVec.ofNat 64 (ks.length * 2 ^ 32 + 0x200 + code), 0x8000000000000200#64, 0x1000#64, 0x8000000000000100#64]
      ++ if code = 0x10 then [4#64, 16#64, 4#64] else [4#64]) (onTeam1 dev fun t => t.spPut 0x100 (ks.flatMap fun k => leBytes 4 k.toNat))
/-- The end of the first unit of an index command. -/
def unitEnd (s : State) (o : EngOp) : UnitEnd := (s.chip.runUnit o 0 none).2.1
/-- The index of the first unit can be read in the list. -/
def listed (s : State) (o : EngOp) : Bool := decide (cmdNat o.cmd 24 8 / 2 ^ 21 % 2 ^ 42 = 0) && (match s.chip.unitIndex o 0 with | .ok _ => true | .error _ => false)
theorem witness_UnitResults : ([(0x10, [0x0000000000000004#64, 4#64, 4#64]), (0x11, [4#64]), (0x12, [4#64])].all fun p =>
      let at_ := fun base => running .index (oneUnit p.1 0 base p.2) (indexed 1#32)
      let from_ := fun base sp => running .index ((oneUnit p.1 0 base p.2).set 1 sp) (indexed 1#32)
      due p.1 (fun o => listed (at_ 0x10000) o && unitEnd (at_ 0x10000) o == .parks 1) (at_ 0x10000)
        && due p.1 (fun o => listed (at_ 0xFFFFFFFFFFFF0000) o && unitEnd (at_ 0xFFFFFFFFFFFF0000) o == .failed 2) (at_ 0xFFFFFFFFFFFF0000)
        && due p.1 (fun o => listed (from_ 0x1000 0x10000#64) o && unitEnd (from_ 0x1000 0x10000#64) o == .failed 3) (from_ 0x1000 0x10000#64)
        && due p.1 (fun o => (lostWord 0x100 (at_ 0x1000)).chip.locPoison o (.sp 0x100)) (lostWord 0x100 (at_ 0x1000))) = true := by decide
theorem witness_UnitResults_lost : ([(0x10, lostAt 0x1004), (0x11, lostAt 0x1004), (0x12, lostWord 0)].all fun p =>
    let s := p.2 (running .index (oneUnit p.1 0 0x1000 (if p.1 = 0x10 then [0x0000000000000004#64, 4#64, 4#64] else [4#64])) (indexed 1#32))
    due p.1 (fun o => listed s o && unitEnd s o == .failed 6) s) = true := by decide
theorem witness_IndexUnits : ([0x10, 0x11, 0x12].all fun code => [[1#32, 2#32], [1#32, 0xFFFFFFFF#32], [0x10000#32, 1#32]].all fun ks =>
    due code (fun o => o.indexSpace.all (fun a => !a.msb || decide (a.toNat % 2 ^ 21 < (manyUnits code ks).chip.opSpace o ∧ a.toNat / 2 ^ 21 % 2 ^ 42 = 0))
      && !(BitVec.ofNat 8 (cmdNat o.cmd 1 1)).getLsbD 2 && (manyUnits code ks).chip.parked.isEmpty && (manyUnits code ks).chip.ops.length == 1
      && decide (cmdNat o.cmd 24 8 + 4 * cmdNat o.cmd 4 4 ≤ cmdNat o.cmd 8 8)) (manyUnits code ks)) = true := by decide
theorem witness_CoreAndMemoryEvents_link : ((manyUnits 0x10 [1#32]).chip.ops.any fun o =>
    (manyUnits 0x10 [1#32]).chip.opDue o.id (cmdNat o.cmd 0 1) == some o && o.cls == .index) = true := by decide
/-- A one-unit command without the page of its memory, parking or not, with room for its entry. -/
theorem witness_CopyAndIndexEvents_faults : ([0x10, 0x11, 0x12].all fun code => [0, 4].all fun flags =>
    let s := running .index (oneUnit code flags 0x10000 (if code = 0x10 then [0x0000000000000004#64, 4#64, 4#64] else [4#64])) (indexed 0#32)
    due code (fun o => listed s o && s.chip.parked.isEmpty && !s.chip.die0.fq.full && unitEnd s o == .parks 1) s) = true := by decide

/-- A set of n devices of the team's context in which this one has rank 0, with a timeout of 1 µs, and port 0 up, the route to device 0. -/
def setOf (n valid : Nat) : State :=
  { dev with chip := { dev.chip with
      devSets := [(0, BitVec.ofNat 64 (2 ^ 32 + n)), (2, BitVec.ofNat 64 valid)], routes := [(0, 0xFFFFFFFFFFFFFF00#64)]
      ports := [(0, { Port.reset with up := true })] } }
/-- The peers' data of a collective step. -/
def joinedBy (data : List (List Byte)) (s : State) : State := { s with event := { peers := { data, linkOk := true } } }
/-- Four bytes of op 2 from 0x1000 to 0x2000. -/
def collOf (code : Nat) : List W64 := [BitVec.ofNat 64 (4 * 2 ^ 32 + 0xFF0000 + code), 0x1000#64, 0x2000#64, 0x20000#64]
theorem portTo_isSome (c : Chip) (o : EngOp) (d : Nat) (h : (c.routePorts d).length = 1) : (c.portTo o d).isSome = true := by
  unfold Chip.portTo
  simp [h, Nat.mod_one]
theorem witness_CollectivesUnroutedOrUnjoined :
    due 0x32 (fun o => (dev.chip.destinations o).any fun d => (dev.chip.routePorts d).isEmpty) (running .coll (collOf 0x32) dev) = true
    ∧ due 0x33 (fun o => (joinedBy [leBytes 4 5] dev).event.peers.tag == cmdNat o.cmd 28 4) (running .coll (collOf 0x33) (joinedBy [leBytes 4 5] (setOf 2 1))) = true := by
  decide
theorem witness_CollectiveEvents :
    ([0x30, 0x31].all fun code =>
      due code (fun o => (setOf 2 0).chip.setWord o.ctx 0 2 == 0#64) (running .coll (collOf code) (setOf 2 0))
        && due code (fun o => (setOf 2 1).chip.setWord o.ctx 0 2 == 1#64) (running .coll (collOf code) (joinedBy [[]] (setOf 2 1)))
        && due code (fun o => ((setOf 2 1).chip.destinations o).all fun d => d == 0 && ((setOf 2 1).chip.routePorts d).length == 1)
          (running .coll (collOf code) (joinedBy [leBytes 4 5] (setOf 2 1)))
        && due code (fun o => placed dev.chip o .read (span 0x1000#64 4) && placed dev.chip o .write (span 0x2000#64 8)) (running .coll (collOf code) (setOf 2 1))) = true
    ∧ ([0x32, 0x33].all fun code => due code (fun o => (cmdNat o.cmd 4 4 != 0) && placed dev.chip o .read (span 0x1000#64 4) && placed dev.chip o .write (span 0x2000#64 4)
        && ((setOf 2 1).chip.destinations o).all fun d => ((setOf 2 1).chip.routePorts d).length == 1)
        (running .coll (collOf code) (joinedBy [leBytes 4 5] (setOf 2 1)))) = true
    ∧ ((atCycle 100000 {} (running .coll (collOf 0x30) (setOf 2 1))).chip.ops.any fun q => (atCycle 100000 {} (running .coll (collOf 0x30) (setOf 2 1))).chip.timedOut q) = true := by
  decide

/-- jobbed with a sequence 0 of one head of one layer. -/
def seqOf (f : Sequence → Sequence) (s : State) : State :=
  { s with chip := { s.chip with sequences := [f { num := 0, ctx := 0, die := 0, lg6 := false, nl := 1, nh := 1, job := 6, length := 0, parent := none, f := 0, spans := []
                                                   own0 := 0, live := true }] } }
/-- An attention command with RES 0x2000 or another. -/
def kvOf (code res : Nat) (rest : List W64) : List W64 := [BitVec.ofNat 64 (0xFF0000 + code), BitVec.ofNat 64 res] ++ rest
/-- Sequence 0 holds one token, in block 9. -/
def oneToken : State :=
  let s := seqOf (fun q => { q with length := 1 }) jobbed
  { s with chip := { s.chip with blocks := [{ die := 0, phys := 9, spill := false, owner := 0, lb := 0, ctx := 0, data := [], lost := false }] } }
/-- Sequence 0 has a child 1, and is live or held. -/
def family (live : Bool) : State :=
  let s := seqOf (fun q => { q with live }) jobbed
  { s with chip := { s.chip with sequences := s.chip.sequences ++ s.chip.sequences.map fun q => { q with num := 1, parent := some 0, live := true } } }
/-- kv.attn of L tokens of sequence 0: one query row at 0x1000 of the scratchpad, its output at 0x1200 and its statistics at 0x1100. -/
def attnOf (L : Nat) : List W64 :=
  [BitVec.ofNat 64 (L * 2 ^ 32 + 0xFF0025), 0x2000#64, 0x0100000000000000#64, 0x3F800000#64, 0x8000000000001000#64, 0x8000000000001200#64, 0x8000000000001100#64]
/-- kv.read of n tokens of sequence 0 to 0x1000 of the scratchpad. -/
def readOf (n : Nat) : List W64 := [BitVec.ofNat 64 (n * 2 ^ 32 + 0xFF0026), 0x2000#64, 0#64, 0#64, 0x8000000000001000#64]
theorem witness_AttentionEvents :
    ((List.range 7).all fun k => due (0x20 + k) (fun o => passes (jobbed.chip.resPlace o).2) (running .attn (kvOf (0x20 + k) 0x2000 []) jobbed)
      && due (0x20 + k) (fun o => !passes (jobbed.chip.resPlace o).2) (running .attn (kvOf (0x20 + k) 0x2008 []) jobbed)) = true
    ∧ due 0x20 (fun o => jobbed.chip.jobOk o.ctx (cmdNat o.cmd 20 2) && jobbed.chip.newSeq.isSome) (running .attn (kvOf 0x20 0x2000 [0x600000000#64]) jobbed) = true
    ∧ due 0x22 (fun o => let c := (seqOf (fun q => { q with length := 64 }) jobbed).chip
        (c.seq? o.ctx 0).any fun q => c.jobOk o.ctx (cmdNat o.cmd 24 2) && c.newSeq == some 1 && decide (cmdNat o.cmd 20 4 = 64) && q.own0 == 0 && q.spans.isEmpty
          && decide ((q.forkSpans 1).length ≤ 64)) (running .attn (kvOf 0x22 0x2000 [BitVec.ofNat 64 (64 * 2 ^ 32), 6#64]) jobbed) = true
    ∧ due 0x23 (fun o => let c := (seqOf (fun q => q) jobbed).chip
        (c.seq? o.ctx 0).any fun q => c.nchild q.num == 0 && (kvCompact o c).status == 0) (running .attn (kvOf 0x23 0x2000 [0#64]) jobbed) = true
    ∧ ((filling.chip.ops.map fun o => passes ((seqOf (fun q => q) jobbed).chip.serve o { seq := 0, n := 0, data := 0x1000, ret := 0x1000, scl := 0 }).2) == [true]) = true := by decide

theorem witness_AttentionEvents_fork :
    due 0x22 (fun o => let c := oneToken.chip
        (kvFork o c).status == 0 && cmdNat o.cmd 20 4 % 64 == 1 && c.blocks.all fun b => b.owner != (kvFork o c).a) (running .attn (kvOf 0x22 0x2000 [0x100000000#64, 6#64]) oneToken) = true := by decide
theorem witness_AttentionEvents_release :
    due 0x23 (fun o => (kids (family true).chip 0).length == 1 && (kids (family true).chip 1).isEmpty && cmdNat o.cmd 16 4 == 1
        && [true, false].all fun b => ((family b).chip.seq? o.ctx 1).any fun q => q.parent == some 0 && decide ((family b).chip.sequences.map (·.num)).Nodup)
      (running .attn (kvOf 0x23 0x2000 [1#64]) jobbed) = true := by decide
theorem witness_AttentionEvents_compact :
    due 0x24 (fun o => (oneToken.chip.seq? o.ctx 0).any fun q => q.own0 == 0 && q.length == 1 && q.p == 1 && (kids oneToken.chip 0).isEmpty
        && (oneToken.chip.blocks.all fun b => !b.lost && b.die == q.die && b.owner == q.ownerOf 0 && b.lb == 0)) (running .attn (kvOf 0x24 0x2000 [0#64]) oneToken) = true := by decide
/-- Every byte of a span has its place, and none is poisoned. -/
def reached (c : Chip) (o : EngOp) (acc : Access) (as : List W64) : Bool :=
  match (c.placeAll o acc false as).2 with | .ok ls => ls.all fun l => !c.locPoison o l | .error _ => false
theorem witness_AttentionEvents_attn :
    ([0, 1].all fun L => due 0x25 (fun o => (oneToken.chip.seq? o.ctx 0).any fun q => decide (cmdNat o.cmd 20 1 < q.nl ∧ cmdNat o.cmd 21 1 < q.nh ∧ cmdNat o.cmd 4 4 ≤ q.length)
        && cmdNat o.cmd 4 4 == L && cmdNat o.cmd 22 1 % 16 == 0 && cmdNat o.cmd 23 1 == 1 && [32, 40, 48].all (fun i => (o.word i).toNat % 16 == 0)
        && reached oneToken.chip o .read (span (o.word 32) 256) && reached oneToken.chip o .write (span (o.word 40) 512) && reached oneToken.chip o .write (span (o.word 48) 8))
      (running .attn (attnOf L) oneToken)) = true := by decide
theorem witness_AttentionEvents_read :
    ([0, 1].all fun n => due 0x26 (fun o => (oneToken.chip.seq? o.ctx 0).any fun q => decide (cmdNat o.cmd 24 4 + cmdNat o.cmd 4 4 ≤ q.length) && cmdNat o.cmd 4 4 == n
        && !q.lg6 && (o.word 32).toNat % 16 == 0 && reached oneToken.chip o .write (span (o.word 32) 513)) (running .attn (readOf n) oneToken)) = true := by decide

/-- Sequence 0, of one layer, holds `length` tokens; its unfilled block, if any, is block 10 on; the context may hold `quota`
blocks of die 0. -/
def grown (lg6 : Bool) (nh length quota : Nat) : State :=
  let s := inCtx (fun k => { k with kvquota0 := quota }) (seqOf (fun q => { q with lg6, nh, length }) jobbed)
  let p := if lg6 then nh / 2 else nh
  { s with chip := { s.chip with blocks := if length % 64 = 0 then [] else (List.range p).map fun k =>
      { die := 0, phys := 10 + k, spill := false, owner := 0, lb := length / 64 * p + k, ctx := 0, data := [], lost := false } } }
/-- kv.append with its list there. -/
def appending (list : Nat) : List W64 := [0x100FF0021#64, 0x2000#64, BitVec.ofNat 64 list]
/-- An entry: whether its data, its retention bytes and its scales are read, each after the one before. -/
def sources (c : Chip) (o : EngOp) (e : AppendEntry) (q : Sequence) : List Bool :=
  let spans := [span e.data (e.n * (q.nl * q.nh * if q.lg6 then 192 else 512)), span e.ret e.n,
    span e.scl (if q.lg6 && decide ((q.length + 63) / 64 < (q.length + e.n + 63) / 64) then 16 * q.p else 0)]
  (spans.foldl (fun (r : Chip × List Bool) as => ((r.1.placeAll o .read false as).1, r.2 ++ [reached r.1 o .read as])) (c, [])).2
/-- The entry of a state's sequence has these sources and this need of blocks, and they are free or not. -/
def entryOf (s : State) (e : AppendEntry) (good : List Bool) (need : Nat) (free : Bool) : Bool :=
  let s := running .attn (appending 0x3000) s
  s.chip.ops.any fun o => (s.chip.seq? o.ctx e.seq).any fun q => (sources s.chip o e q).take good.length == good && decide (q.own0 = 0 ∧ e.n ≤ 65536)
    && q.p * ((q.length + e.n + 63) / 64 - (q.length + 63) / 64) == need && decide (need ≤ freeBlocks s.chip q.ctx q.die) == free
    && decide ((s.chip.blocks.filter fun b => b.die == q.die && b.spill).length + need ≤ 65536)
    && (q.length % 64 == 0 || (List.range q.p).all fun k => s.chip.blocks.any fun b => b.die == q.die && b.owner == q.num && b.lb == q.length / 64 * q.p + k)
theorem witness_AttentionEvents_append :
    ([0x3000, 0x3010, 0x50000].all fun a => due 0x21 (fun o => passes (jobbed.chip.resPlace o).2 && (decide ((o.word 16).toNat % 32 = 0) == (a != 0x3010))
        && (a == 0x3010 || reached jobbed.chip o .read (span (o.word 16) (32 * cmdNat o.cmd 4 4)) == (a == 0x3000))) (running .attn (appending a) jobbed)) = true
    ∧ due 0x21 (fun o => !reached (lostAt 0x3004 jobbed).chip o .read (span (o.word 16) 32)) (running .attn (appending 0x3000) (lostAt 0x3004 jobbed)) = true
    ∧ (running .attn (appending 0x3000) jobbed).chip.ops.all (fun o => (jobbed.chip.seq? o.ctx 5).isNone) = true
    ∧ (running .attn (appending 0x3000) jobbed).chip.ops.all (fun o => ((seqOf (fun q => { q with length := 2 ^ 24 }) jobbed).chip.seq? o.ctx 0).any fun q => decide (2 ^ 24 < q.length + 1)) = true := by decide
theorem witness_AttentionEvents_append_two_blocks :
    entryOf (grown true 2 63 100) { seq := 0, n := 2, data := 0x3000, ret := 0x3400, scl := 0x3500 } [true, true, true] 1 true = true := by decide
theorem witness_AttentionEvents_append_new_block :
    entryOf (grown false 1 64 100) { seq := 0, n := 1, data := 0x3000, ret := 0x3400, scl := 0x50000 } [true, true, true] 1 true = true := by decide
theorem witness_AttentionEvents_append_no_tokens :
    entryOf (grown false 1 2 100) { seq := 0, n := 0, data := 0x50000, ret := 0x50000, scl := 0 } [true, true, true] 0 true = true := by decide
theorem witness_AttentionEvents_append_no_room :
    entryOf (grown true 2 64 0) { seq := 0, n := 1, data := 0x3000, ret := 0x3400, scl := 0x3500 } [true, true, true] 1 false = true := by decide
theorem witness_AttentionEvents_append_no_data :
    entryOf (grown true 2 64 100) { seq := 0, n := 1, data := 0x50000, ret := 0x3400, scl := 0x3500 } [false] 1 true = true := by decide
theorem witness_AttentionEvents_append_no_retention :
    entryOf (grown true 2 64 100) { seq := 0, n := 1, data := 0x3000, ret := 0x50000, scl := 0x3500 } [true, false] 1 true = true := by decide
theorem witness_AttentionEvents_append_no_scales :
    entryOf (grown true 2 64 100) { seq := 0, n := 1, data := 0x3000, ret := 0x3400, scl := 0x50000 } [true, true, false] 1 true = true := by decide
theorem witness_AttentionEvents_append_lost_data :
    entryOf (lostAt 0x3000 (grown false 1 64 100)) { seq := 0, n := 1, data := 0x3000, ret := 0x3400, scl := 0 } [false] 1 true = true := by decide

/-- The launch has teams left to place or none. -/
def launched (f : Launch → Launch) (s : State) : State := { s with chip := { s.chip with launches := s.chip.launches.map f } }
/-- A team's group has a fetch-work request. -/
def asked (n : Nat) : State :=
  launched (fun l => { l with desc := { l.desc with dxm1 := n } }) { (onG pad fun g => { g with fwOut := some 0x100 }) with event := { a := 2 } }
/-- A spawned launch of a higher priority has waited for room. -/
def spawned : State :=
  let t := (after (.spawn { eP with imm := 3 }) jobbed).getD jobbed
  atCycle 0x400000 {} (launched (fun l => if l.next = 0 then { l with desc := { l.desc with prio := 5 }, level := 5, waitFrom := some 0, agedFrom := some 0 } else l) t)
/-- Every lane of the team has exited. -/
def ended (next : List (Nat × W64)) : State :=
  onTeam1 { (onG pad fun g => { g with lanes := g.lanes.map fun y => { y with st := .exited } }) with event := { a := 1 } } fun t => { t with successor := next }
/-- The team was asked to leave at cycle 0. -/
def overdue : State := atCycle 800000 { a := 1 } (onTeam1 pad fun t => { t with request := some 0 })
theorem witness_SchedulingEvents :
    ([0, 3].all fun n => ((asked n).chip.group? 2).any fun g => g.fwOut.isSome && g.wait.isNone && ((asked n).chip.team? g.team).any fun t => ((asked n).chip.launchOf t).isSome) = true
    ∧ (spawned.chip.nextPlacement.any fun p => (slotsFor p.1.groups.length ((List.range 4).map fun n => spawned.chip.inSlot p.2 n)).isSome
        && !p.1.groups.isEmpty && spawned.chip.teams.all fun u => u.id != spawned.chip.nextId) = true
    ∧ ([[], [(0, 0x80#64)], [(1, 0x90#64), (0, 0x80#64)]].all fun next => (ended next).chip.teams.any fun t => ((ended next).chip.launchOf t).isSome && t.successor == next
        && (ended next).chip.groups.all fun g => (ended next).chip.drained g) = true
    ∧ (spawned.chip.launches.any fun l => spawned.chip.agingDue l) = true
    ∧ (spawned.chip.preemption.any fun p => spawned.chip.suspendees.isEmpty && !p.2.teams.isEmpty && decide (spawned.chip.teams.map (·.id)).Nodup) = true
    ∧ ((inCtx (fun k => { k with suspending := true }) dev).chip.suspendees.length == 1) = true
    ∧ ((onTeam1 pad fun t => { t with deciding := true }).chip.teams.any fun t => t.deciding && (onTeam1 pad fun t => { t with deciding := true }).chip.team? t.id == some t) = true
    ∧ (overdue.chip.teams.any fun t => overdue.chip.overrun t && !(overdue.chip.groupsOf t.id).isEmpty && (overdue.chip.launchOf t).isSome) = true
    ∧ (jobbed.chip.jobOk 0 6 && (match walk jobbed.chip.mem 0 0 walkLevels (jobbed.chip.context 0).ptroot with | .ok e => e.size == 65536 | .error _ => false)
        && jobbed.chip.arenaPages.isEmpty) = true := by decide

/-- An atom on a host page, sent. -/
def hostAtom : State := (after (.atom .addS32 { eAt with ty := .f16 }) hosted).getD hosted
theorem witness_HostEvents : (dev.chip.context 0).en = true ∧ (dev.chip.context 0).susp = false ∧ (dev.chip.context 0).suspending = false
    ∧ (dev.chip.teams.any fun t => dev.chip.ctxOf t == 0) = true ∧ dev.control.bootState = 3 ∧ dev.control.cfgWait = none ∧ State.reset.control.bootState ≠ 3
    ∧ ({ dev.control with cfgWait := some (1, true) }).cfgWait.isSome = true
    ∧ deviceByte (windowAt dev 0x20000 0) = true ∧ deviceByte (windowAt { dev with control := { dev.control with hwinbase := 0xF000000000000#64 } } 0 0) = false
    ∧ passes (dev.chip.cfgRead 3#64) = true ∧ passes (dev.chip.cfgRead 0x1F#64) = false
    ∧ dev.control.attstat ≠ 1 ∧ (∀ i ∈ [0, 703], populated (0x20000 + i) = true)
    ∧ (hostAtom.chip.atoms.any fun a => a.op == .addS32 && a.units.any fun u => u.phys.cp == 3 && u.lanes.length == 1 && u.phys.pa % 4 == 0) = true := by decide

/-- The window's word 0x1000 of device memory is poisoned, or the window lies outside device memory (R377). -/
def windowed (base : W64) (ev : EvArg) : State :=
  { dev with event := ev, chip := { dev.chip with poison := [0x400] }, control := { dev.control with hwinbase := base } }
theorem test_window_read_poisoned : (after .hostWindowRead (windowed 0#64 { a := 0xFFE, b := 3 })).map (·.replies)
    = some [{ bytes := [0xFF#8, 0xFF#8, 0xFF#8], unsupported := false, poisoned := true }] := by decide
theorem test_window_write_outside : (after .hostWindowWrite (windowed 0xF000000000000#64 { a := 8, bytes := [1#8] })).map
    (fun t => (t.control.hwinerr, t.chip.mem == dev.chip.mem)) = some (0xF000000000008#64, true) := by decide
theorem witness_HostEvents_window : deviceByte (windowAt (windowed 0#64 {}) 0xFFE 0) = true ∧ windowAt (windowed 0#64 {}) 0xFFE 2 / 4 ∈ (windowed 0#64 {}).chip.poison
    ∧ deviceByte (windowAt (windowed 0x7730000000#64 {}) 0x593FFFF 0) = true ∧ deviceByte (windowAt (windowed 0x7730000000#64 {}) 0x593FFFF 1) = false := by decide

/-- A flit without payload. -/
def bareFlit (seq : BitVec 12) : Flit := { seq, cred := 0, payload := List.replicate 56 0#8 }
/-- Port 0 is up and keeps the flits sent with sequence numbers 5 and 6; a flit of a type arrives. -/
def linked (type : Nat) (n : BitVec 12) (tries : Nat) : State :=
  { dev with event := { a := 0, bytes := flitBytes type (bareFlit n) }
             chip := { dev.chip with ports := [(0, { Port.reset with up := true, rxLast := 4, kept := [bareFlit 5, bareFlit 6], tries, again := 5 })] } }
/-- CRC-32C of its check string. -/
theorem test_crc32c : crc32c [0x31#8, 0x32#8, 0x33#8, 0x34#8, 0x35#8, 0x36#8, 0x37#8, 0x38#8, 0x39#8] = 0xE3069283#32 := by decide
theorem witness_LinkAndPowerEvents :
    ([(1, 5#12, 0), (1, 7#12, 0), (1, 3#12, 1), (2, 5#12, 0), (3, 4#12, 16), (3, 6#12, 0), (4, 0#12, 0), (0, 0#12, 0)].all fun p =>
      let s := linked p.1 p.2.1 p.2.2
      (s.chip.port 0).up && flitOf s.event.bytes == some (p.1, bareFlit p.2.1)) = true
    ∧ (5#12 : BitVec 12) = ((linked 1 5 0).chip.port 0).rxLast + 1 ∧ before 4 7 = true ∧ before 4 3 = false
    ∧ ((linked 3 4 16).chip.port 0).kept.filter (fun k => !before k.seq 4) = [bareFlit 5, bareFlit 6] ∧ ((linked 3 4 16).chip.port 0).tries = 16
    ∧ ((linked 3 6 0).chip.port 0).kept.filter (fun k => !before k.seq 6) = [] ∧ (dev.chip.port 1).up = false ∧ flitOf [] = none
    ∧ (atCycle 4000 {} dev).chip.cyc % 4000 = 0 ∧ 2 ∉ (atCycle 4000 {} dev).chip.hadEvents ∧ dev.control.thermal = false := by decide

end Sys2Proof.Tests
end

section
/-! SUPPORT. Lane masks read bit by bit, the active lanes of an issue, and a lane moved by a mask. -/
namespace Sys2Proof.Machine
open Sys2Proof.Expect

variable {s : State} {i : Instr} {x : Issue}

/-! ## Lane masks -/

theorem getLsbD_bit (n k : Nat) (hk : k < 64) : (bit n).getLsbD k = decide (k = n) := by
  rw [bit, BitVec.getLsbD_shiftLeft, BitVec.getLsbD_one]
  rcases lt_trichotomy k n with h | h | h
  · simp [h, h.ne]
  · simp [h, h ▸ hk]
  · simp [h.ne', h.not_gt, Nat.sub_ne_zero_of_lt h]

theorem getLsbD_maskOf (ls : List Nat) (k : Nat) (hk : k < 64) : (maskOf ls).getLsbD k = decide (k ∈ ls) := by
  have acc : ∀ m : W64, (ls.foldl (fun m l => m ||| bit l) m).getLsbD k = (m.getLsbD k || decide (k ∈ ls)) := by
    induction ls with
    | nil => intro m; simp
    | cons n ls ih =>
      intro m
      rw [List.foldl_cons, ih, BitVec.getLsbD_or, getLsbD_bit n k hk, Bool.or_assoc]
      simp
  rw [maskOf, acc]
  simp

theorem getLsbD_maskWhere (w : Nat) (p : Nat → Bool) (k : Nat) (hk : k < 64) :
    (maskWhere w p).getLsbD k = (decide (k < w) && p k) := by
  rw [maskWhere, getLsbD_maskOf _ _ hk]
  simp

/-- A mask formed over a group's lane records names lanes of the group only. -/
theorem Group.lt_width_of_maskBy {g : Group} {p : Lane → Bool} {k : Nat} (h : (g.maskBy p).getLsbD k = true) :
    k < g.width := by
  rw [Group.maskBy, getLsbD_maskWhere _ _ _ (BitVec.lt_of_getLsbD h), Bool.and_eq_true, decide_eq_true_iff] at h
  exact h.1

/-! ## The active lanes of an issue -/

theorem Issue.mem_lanes {l : Nat} : l ∈ x.lanes ↔ l < x.g.width ∧ x.act.getLsbD l = true := by
  simp [Issue.lanes, lanesOf]

/-- The active lanes are some of the running lanes at the issue address, and the issue leaves the group's width (R8, R43). -/
theorem Chip.issueAt_act {c : Chip} {gid : Nat} (h : c.issueAt gid i = some x) :
    (∃ m, x.act = x.g0.at_ x.ia &&& m) ∧ x.g.width = x.g0.width := by
  unfold Chip.issueAt at h
  split at h
  · cases h
  · split at h
    · split at h
      · cases h
      · obtain rfl := Option.some.inj h
        exact ⟨⟨_, rfl⟩, by simp⟩
    · cases h

theorem Issues.issueAt (h : Issues s i x) : ∃ gid, s.chip.issueAt gid i = some x := by
  obtain ⟨gid, -, hx⟩ := Option.bind_eq_some_iff.1 h.group
  exact ⟨gid, hx⟩

/-- The active lanes are lanes of the group (R8). -/
theorem Issues.lt_width (h : Issues s i x) {l : Nat} (hl : x.act.getLsbD l = true) : l < x.g.width := by
  obtain ⟨gid, hx⟩ := h.issueAt
  obtain ⟨⟨m, hm⟩, hw⟩ := Chip.issueAt_act hx
  rw [hm, BitVec.getLsbD_and, Bool.and_eq_true] at hl
  rw [hw]
  exact Group.lt_width_of_maskBy hl.1

theorem Issues.mem_lanes (h : Issues s i x) {l : Nat} : l ∈ x.lanes ↔ x.act.getLsbD l = true :=
  Issue.mem_lanes.trans ⟨And.right, fun hl => ⟨h.lt_width hl, hl⟩⟩

theorem Issue.lanes_pairwise_lt (x : Issue) : x.lanes.Pairwise (· < ·) := List.pairwise_lt_range.filter _

theorem Issue.getLsbD_laneMask (x : Issue) (p : Nat → Bool) (l : Nat) (hl : l < 64) :
    (x.laneMask p).getLsbD l = (decide (l ∈ x.lanes) && p l) := by
  rw [Issue.laneMask, getLsbD_maskOf _ _ hl]
  simp [List.mem_filter]

/-! ## Results of one register, of a pair, and of a mask -/

theorem laneEffect_put (h : Issues s i x) {d : BitVec 8} {f : Nat → W32} {F : Issue → Group}
    (he : exec i s = issueOk i s F) (hF : F x = x.put x.g d f) : LaneEffect s i x d 1 fun _ => f :=
  laneEffect_putN h d 1 _ F he (hF.trans (Issue.put_eq ..))

theorem laneEffect_put2 (h : Issues s i x) {d : BitVec 8} {f : Nat → W64} {F : Issue → Group}
    (he : exec i s = issueOk i s F) (hF : F x = x.put2 x.g d f) : LaneEffect s i x d 2 (pairWord f) :=
  laneEffect_putN h d 2 _ F he (hF.trans (Issue.put2_eq ..))

/-- A lane mask put into a scalar destination is given bit by bit: the active lanes that the test names. -/
theorem maskEffect_laneMask (h : Issues s i x) {d : BitVec 8} {p : Nat → Bool} {F : Issue → Group}
    (he : exec i s = issueOk i s F) (hF : F x = x.putS x.g d (x.laneMask p)) :
    MaskEffect s i x d fun l => decide (l ∈ x.lanes) && p l :=
  ⟨x.laneMask p, scalarEffect_putS h d _ F he hF, x.getLsbD_laneMask p⟩

/-! ## Lanes of a mask changed -/

/-- The model changes a list by the number of each element by running through the numbers. -/
theorem filterMap_range_getElem? {α β : Type} (ls : List α) (f : Nat → α → β) :
    ((List.range ls.length).filterMap fun l => (ls[l]?).map (f l)) = ls.mapIdx f := by
  induction ls using List.reverseRecOn with
  | nil => rfl
  | append_singleton ls a ih =>
    have below : ∀ l ∈ List.range ls.length, ((ls ++ [a])[l]?).map (f l) = (ls[l]?).map (f l) := fun l hl => by
      rw [List.getElem?_append_left (List.mem_range.1 hl)]
    rw [List.length_append, List.length_singleton, List.range_succ, List.filterMap_append,
      List.filterMap_congr below, ih, List.mapIdx_concat]
    simp

theorem Group.getElem?_onLanes (g : Group) (m : W64) (f : Lane → Lane) (l : Nat) :
    (g.onLanes m f).lanes[l]? = (g.lanes[l]?).map fun y => if m.getLsbD l then f y else y := by
  simp only [Group.onLanes, filterMap_range_getElem?, List.getElem?_mapIdx, cond_eq_ite]

/-- The lanes of a mask sent to an address (R48). -/
theorem Group.onLanes_movedTo (g : Group) (m t : W64) : MovedTo (g.onLanes m fun y => { y with pc := t }) g m t :=
  ⟨rfl, g.getElem?_onLanes m _⟩

end Sys2Proof.Machine
end

section
/-! The instructions that vote, match, rank and elect over the active lanes of a segment (R60, R62 to R66, R70). -/
namespace Sys2Proof.Machine
open Sys2Proof.Expect

variable {s : State} {i : Instr} {x : Issue} {e : Enc}

/-! ## The active lanes of a segment -/

theorem mem_peers {l k : Nat} : k ∈ peers x l ↔ k ∈ x.lanes ∧ k / x.g.seg = l / x.g.seg := by
  simp [peers]

theorem peers_pairwise_lt (x : Issue) (l : Nat) : (peers x l).Pairwise (· < ·) := x.lanes_pairwise_lt.filter _

theorem Group.mem_segLanes {g : Group} (hg : 0 < g.seg) {l k : Nat} :
    k ∈ g.segLanes (g.segBase l) ↔ k / g.seg = l / g.seg := by
  simp only [Group.segLanes, Group.segBase, List.mem_map, List.mem_range]
  constructor
  · rintro ⟨o, ho, rfl⟩
    rw [Nat.mul_add_div hg, Nat.div_eq_of_lt ho, Nat.add_zero]
  · intro h
    exact ⟨k % g.seg, Nat.mod_lt _ hg, h ▸ Nat.div_add_mod k g.seg⟩

theorem Group.segLanes_pairwise_lt (g : Group) (b : Nat) : (g.segLanes b).Pairwise (· < ·) :=
  List.pairwise_lt_range.map _ fun _ _ h => Nat.add_lt_add_left h b

/-- The model walks a segment from its base; the statements filter the active lanes of the group. Both lists rise and have
the same members. -/
theorem Issues.segActive_eq_peers (h : Issues s i x) (hg : 0 < x.g.seg) (l : Nat) : x.segActive l = peers x l :=
  ((x.g.segLanes_pairwise_lt _).filter _).eq_of_mem_iff (peers_pairwise_lt x l) fun k => by
    rw [List.mem_filter, Group.mem_segLanes hg, mem_peers, h.mem_lanes]
    exact and_comm

/-- The first element of a rising list is its least. -/
theorem head?_beq_of_pairwise_lt {ls : List Nat} (hs : ls.Pairwise (· < ·)) {l : Nat} (hl : l ∈ ls) :
    (ls.head? == some l) = ls.all fun k => decide (l ≤ k) := by
  cases ls with
  | nil => cases hl
  | cons n ns =>
    obtain ⟨hn, -⟩ := List.pairwise_cons.1 hs
    rw [Bool.eq_iff_iff]
    simp only [List.head?_cons, beq_iff_eq, Option.some.injEq, List.all_eq_true, decide_eq_true_iff]
    constructor
    · rintro rfl k hk
      rcases List.mem_cons.1 hk with rfl | hk
      · exact le_rfl
      · exact (hn k hk).le
    · intro hall
      rcases List.mem_cons.1 hl with rfl | hl
      · rfl
      · exact absurd (hall n List.mem_cons_self) (hn l hl).not_ge

/-- The mask that match gives a lane, of the lanes of a list (R66). -/
def sameMask (v : Nat → W64) (l : Nat) (ls : List Nat) : W64 := maskOf (ls.filter fun k => v k == v l)

theorem getLsbD_sameMask (v : Nat → W64) (l k : Nat) (ls : List Nat) (hk : k < 64) :
    (sameMask v l ls).getLsbD k = (decide (k ∈ ls) && v k == v l) := by
  rw [sameMask, getLsbD_maskOf _ _ hk]
  simp only [List.mem_filter, Bool.decide_and, Bool.decide_coe]

/-! ## The instructions -/

section
variable (hg : 0 < x.g.seg)
include hg

theorem voteAny_effect (h : Issues s (.voteAny e) x) :
    LaneEffect s (.voteAny e) x e.d 1 fun _ l => if ∃ k ∈ peers x l, votePred x e k = true then 1#32 else 0#32 :=
  laneEffect_put h rfl (by simp only [h.segActive_eq_peers hg, List.any_eq_true])

theorem voteAll_effect (h : Issues s (.voteAll e) x) :
    LaneEffect s (.voteAll e) x e.d 1 fun _ l => if ∀ k ∈ peers x l, votePred x e k = true then 1#32 else 0#32 :=
  laneEffect_put h rfl (by simp only [h.segActive_eq_peers hg, List.all_eq_true])

theorem voteCount_effect (h : Issues s (.voteCount e) x) :
    LaneEffect s (.voteCount e) x e.d 1 fun _ l => BitVec.ofNat 32 ((peers x l).filter (votePred x e)).length :=
  laneEffect_put h rfl (by simp only [h.segActive_eq_peers hg])

theorem rank_effect (h : Issues s (.rank e) x) :
    LaneEffect s (.rank e) x e.d 1 fun _ l => BitVec.ofNat 32 ((peers x l).filter fun k => decide (k < l)).length :=
  laneEffect_put h rfl (by simp only [h.segActive_eq_peers hg])

/-- match: the mask of a lane holds the active lanes of its segment with the lane's value (R66). -/
theorem matchLanes_effect {sz : MatchSize} (h : Issues s (.matchLanes sz e) x) :
    let v := fun l => match sz with | .s32 => (x.g.vec e e.a l).setWidth 64 | .s64 => x.g.vec2 e e.a l
    Bits64 s (.matchLanes sz e) x e.d fun l k => decide (k ∈ peers x l) && v k == v l := by
  intro v
  have masks : (fun l => sameMask v l (x.segActive l)) = fun l => sameMask v l (peers x l) :=
    funext fun l => congrArg (sameMask v l) (h.segActive_eq_peers hg l)
  exact ⟨_, laneEffect_put2 h rfl (congrArg (x.put2 x.g e.d) masks), fun l k hk => getLsbD_sameMask v l k _ hk⟩

/-- elect: the lowest active lane of each segment (R70). -/
theorem elect_effect (h : Issues s (.elect e) x) :
    MaskEffect s (.elect e) x e.d fun l => decide (l ∈ x.lanes) && (peers x l).all fun k => decide (l ≤ k) := by
  refine maskEffect_laneMask h rfl ?_
  have lowest : ∀ l ∈ x.lanes, ((x.segActive l).head? == some l) = (peers x l).all fun k => decide (l ≤ k) := by
    intro l hl
    rw [h.segActive_eq_peers hg]
    exact head?_beq_of_pairwise_lt (peers_pairwise_lt x l) (mem_peers.2 ⟨hl, rfl⟩)
  simp only [Issue.laneMask, List.filter_congr lowest]

end

theorem voteBallot_effect (h : Issues s (.voteBallot e) x) :
    MaskEffect s (.voteBallot e) x e.d fun l => decide (l ∈ x.lanes) && votePred x e l :=
  maskEffect_laneMask h rfl rfl

/-- Settles O8: the active lanes of a segment as the model walks them are those of the statement, so each instruction's
result is the one stated. -/
theorem voteMatchRankResults : Obligations.VoteMatchRankResults := by
  intro s x e sz hg
  exact ⟨voteAny_effect hg, voteAll_effect hg, voteCount_effect hg, voteBallot_effect, matchLanes_effect hg,
    rank_effect hg, elect_effect hg⟩

end Sys2Proof.Machine
end

section
/-! Control transfers (R47, R48, R138): where the lanes go, the link register of call, and the misaligned trap. -/
namespace Sys2Proof.Machine
open Sys2Proof.Expect

variable {s : State} {i : Instr} {x : Issue} {e : Enc}

/-! ## An effect within the group that comes about or traps -/

/-- A precise trap in place of an effect (R359). -/
theorem issueG_trap (h : Issues s i x) {f : Issue → Eff Group} {cause : BitVec 8} {val mask : W64}
    (hf : f x = .trap cause val mask) : issueG i s f = .next (trapAt s x cause val mask) := by
  rw [issueG, issueC_of h, hf]
  rfl

theorem Issue.transfer_ok {t : W64} (ht : x.act = 0#64 ∨ t.toNat % 4 = 0) (g : Group) :
    x.transfer g t = .ok (g.onLanes x.act fun y => { y with pc := t }) :=
  if_neg fun ⟨ha, hm⟩ => ht.elim ha hm

theorem Issue.transfer_trap {t : W64} (ha : x.act ≠ 0#64) (ht : t.toNat % 4 ≠ 0) (g : Group) :
    x.transfer g t = .trap 0x09 t x.act :=
  if_pos ⟨ha, ht⟩

/-! ## br, jmp, ret and call -/

/-- An instruction that is a transfer and no more moves its active lanes or takes the misaligned trap. -/
theorem transfers_of_transfer (h : Issues s i x) {t : W64} {f : Issue → Eff Group} (he : exec i s = issueG i s f)
    (hf : f x = x.transfer x.g t) : Transfers s i x t ∧ TransferTraps s i x t :=
  ⟨fun ht => ⟨_, he.trans (issueG_ok h f _ (hf.trans (Issue.transfer_ok ht x.g))), x.g.onLanes_movedTo x.act t⟩,
    fun ha ht => he.trans (issueG_trap h (hf.trans (Issue.transfer_trap ha ht x.g)))⟩

theorem call_traps (h : Issues s (.call e) x) : TransferTraps s (.call e) x (x.jumpTarget e) := fun ha ht =>
  issueG_trap h (by rw [Issue.transfer_trap ha ht, Eff.map])

/-- call moves its active lanes, then writes the address behind it, which no active lane need do (R48). -/
theorem call_links (h : Issues s (.call e) x) (ht : x.act = 0#64 ∨ (x.jumpTarget e).toNat % 4 = 0)
    (hs : x.g.allSettled (sregs e.d)) :
    ∃ g g1, exec (.call e) s = .next { s with chip := (x.chip0 s).setGroup g } ∧ MovedTo g1 x.g x.act (x.jumpTarget e)
      ∧ g.FrameOf g1 (sregs e.d) false ∧ ScalarResult g e.d (BitVec.ofNat 64 (x.ia + x.len)) := by
  obtain ⟨frame, link⟩ := Issue.putS_spec x (x.g.onLanes x.act fun y => { y with pc := x.jumpTarget e }) e.d
    (BitVec.ofNat 64 (x.ia + x.len)) hs
  exact ⟨_, _, issueG_ok h _ _ (by rw [Issue.transfer_ok ht, Eff.map]), x.g.onLanes_movedTo _ _, frame, link⟩

/-! ## sbr -/

/-- The uniform branch at every value `c` of its condition: every running lane at its address moves, or none (R138). -/
theorem runSbr_spec (h : Issues s i x) {cond : W64 → Bool} {c : Bool} (he : exec i s = runSbr i e cond s)
    (hc : cond (x.g.scalarA e) = c) :
    (c = false → exec i s = .next { s with chip := (x.chip0 s).setGroup x.g })
    ∧ (c = true → (x.relative e).toNat % 4 = 0 →
      ∃ g, exec i s = .next { s with chip := (x.chip0 s).setGroup g } ∧ MovedTo g x.g x.here (x.relative e))
    ∧ (c = true → (x.relative e).toNat % 4 ≠ 0 → exec i s = .next (trapState s x 0x09 (x.relative e))) := by
  subst hc
  have stays : cond (x.g.scalarA e) = false → (!cond (x.g.scalarA e)) = true := fun hc => by rw [hc, Bool.not_false]
  have goes : cond (x.g.scalarA e) = true → ¬ (!cond (x.g.scalarA e)) = true := fun hc => by simp [hc]
  refine ⟨fun hc => ?_, fun hc ht => ⟨_, ?_, x.g.onLanes_movedTo x.here (x.relative e)⟩, fun hc ht => ?_⟩
  · exact he.trans (issueG_ok h _ _ (if_pos (stays hc)))
  · exact he.trans (issueG_ok h _ _ ((if_neg (goes hc)).trans (if_neg (not_not.2 ht))))
  · exact he.trans (issueG_trap h ((if_neg (goes hc)).trans (if_pos ht)))

theorem exec_sbrNz (e : Enc) (s : State) : exec (.sbrNz e) s = runSbr (.sbrNz e) e (· != 0#64) s := rfl

theorem exec_sbrZ (e : Enc) (s : State) : exec (.sbrZ e) s = runSbr (.sbrZ e) e (· == 0#64) s := rfl

/-- Settles O13: nop ends with its issue; br, jmp and ret are a transfer and no more; call is one with a link; the two sbr
are one branch at two conditions. -/
theorem controlTransfers : Obligations.ControlTransfers := by
  intro s x e b rel jump a
  refine ⟨fun h => issueOk_of h _, fun h => issueOk_of h _, ?_, call_traps, call_links, ?_⟩
  · intro p hp
    simp only [List.mem_cons, List.not_mem_nil, or_false] at hp
    rcases hp with rfl | rfl | rfl | rfl <;> exact fun h => transfers_of_transfer h rfl rfl
  · intro p hp
    simp only [List.mem_cons, List.not_mem_nil, or_false] at hp
    have nonzero : (a != 0#64) = decide (a ≠ 0#64) := Bool.eq_iff_iff.2 (by simp only [bne_iff_ne, decide_eq_true_iff])
    have zero : (a == 0#64) = decide (a = 0#64) := Bool.beq_eq_decide_eq a 0#64
    rcases hp with rfl | rfl
    · exact fun h => runSbr_spec h (exec_sbrNz e s) nonzero
    · exact fun h => runSbr_spec h (exec_sbrZ e s) zero

end Sys2Proof.Machine
end

section
/-! Words read as fields, bytes and bits: what the field, permute and counting instructions compute from one lane's words
(R118, R119). -/
namespace Sys2Proof.Machine
open Sys2Proof.Expect

/-! ## Fields -/

/-- The low word of a shifted double word (R119). -/
theorem setWidth_append_ushiftRight (a b : W32) (k : Nat) :
    ((a ++ b : W64) >>> k).setWidth 32 = BitVec.ofNat 32 ((a.toNat * 2 ^ 32 + b.toNat) / 2 ^ k) := by
  apply BitVec.eq_of_toNat_eq
  rw [BitVec.toNat_setWidth, BitVec.toNat_ushiftRight, BitVec.toNat_append, BitVec.toNat_ofNat,
    ← Nat.shiftLeft_add_eq_or_of_lt b.isLt, Nat.shiftLeft_eq, Nat.shiftRight_eq_div_pow]

theorem fieldPlace_eq (c imm : W32) : fieldPlace c imm = (fieldP c imm, fieldW c imm) := rfl

theorem fieldW_le (c imm : W32) : fieldW c imm ≤ 32 := by
  unfold fieldW
  split <;> omega

/-- A number less than 2^32 stands for the number 2^32 below it. -/
theorem ofNat_add_sub_two_pow {v w : Nat} (hw : w ≤ 32) :
    BitVec.ofNat 32 (v + 2 ^ 32 - 2 ^ w) = BitVec.ofInt 32 ((v : Int) - 2 ^ w) := by
  have le : 2 ^ w ≤ 2 ^ 32 := Nat.pow_le_pow_right (by decide) hw
  have cast : ((v + 2 ^ 32 - 2 ^ w : Nat) : Int) = (v : Int) - 2 ^ w + 2 ^ 32 := by
    rw [Nat.cast_sub (by omega)]
    push_cast
    ring
  rw [← BitVec.ofInt_natCast, cast, BitVec.ofInt_add]
  exact BitVec.add_zero _

theorem bfxOf_eq (signed : Bool) (a c imm : W32) :
    let p := fieldP c imm
    let w := fieldW c imm
    let v : Nat := a.toNat / 2 ^ p % 2 ^ w
    bfxOf signed a c imm = BitVec.ofInt 32 (if signed ∧ w ≠ 0 ∧ 2 ^ (w - 1) ≤ v then (v : Int) - 2 ^ w else v) := by
  intro p w v
  rw [apply_ite (BitVec.ofInt 32), BitVec.ofInt_natCast, ← ofNat_add_sub_two_pow (fieldW_le c imm)]
  rfl

/-- bfi takes the bits of the field from its second word (R119). -/
theorem getLsbD_bfiOf (a b c imm : W32) {k : Nat} (hk : k < 32) :
    (bfiOf a b c imm).getLsbD k =
      if fieldP c imm ≤ k ∧ k < fieldP c imm + fieldW c imm then b.getLsbD (k - fieldP c imm) else a.getLsbD k := by
  simp only [bfiOf, fieldPlace_eq]
  generalize fieldP c imm = p
  generalize fieldW c imm = w
  have mask : (BitVec.ofNat 32 ((2 ^ w - 1) * 2 ^ p)).getLsbD k = decide (p ≤ k ∧ k < p + w) := by
    rw [BitVec.getLsbD_ofNat, Nat.testBit_mul_two_pow, Nat.testBit_two_pow_sub_one]
    simp only [hk, decide_true, Bool.true_and, ← Bool.decide_and, decide_eq_decide]
    omega
  rw [BitVec.getLsbD_or, BitVec.getLsbD_and, BitVec.getLsbD_and, BitVec.getLsbD_not, BitVec.getLsbD_shiftLeft, mask]
  by_cases inside : p ≤ k ∧ k < p + w <;> simp [inside, hk]

/-! ## Bytes -/

theorem getElem?_bytesOfNat (n w i : Nat) :
    (bytesOfNat n w)[i]? = if i < n then some (BitVec.ofNat 8 (w / 256 ^ i)) else none := by
  induction n generalizing w i with
  | zero => rfl
  | succ n ih =>
    cases i with
    | zero => simp [bytesOfNat]
    | succ i => simp [bytesOfNat, ih, Nat.div_div_eq_div_mul, Nat.pow_succ']

theorem length_bytesOfNat (n w : Nat) : (bytesOfNat n w).length = n := by
  induction n generalizing w with
  | zero => rfl
  | succ n ih => rw [bytesOfNat, List.length_cons, ih]

/-- Byte i of a word. -/
theorem extractLsb'_byte (a : W32) (i : Nat) : a.extractLsb' (8 * i) 8 = BitVec.ofNat 8 (a.toNat / 256 ^ i) := by
  apply BitVec.eq_of_toNat_eq
  rw [BitVec.extractLsb'_toNat, BitVec.toNat_ofNat, Nat.shiftRight_eq_div_pow, Nat.pow_mul]

/-- Four bytes as a number are the word that they form. -/
theorem ofNat_leNat_four (b0 b1 b2 b3 : Byte) : BitVec.ofNat 32 (leNat [b0, b1, b2, b3]) = b3 ++ b2 ++ b1 ++ b0 := by
  apply BitVec.eq_of_toNat_eq
  simp only [leNat, BitVec.toNat_append, BitVec.toNat_ofNat]
  rw [← Nat.shiftLeft_add_eq_or_of_lt b0.isLt, ← Nat.shiftLeft_add_eq_or_of_lt b1.isLt,
    ← Nat.shiftLeft_add_eq_or_of_lt b2.isLt]
  omega

/-- The eight source bytes of perm (R119). -/
def permSource (a b : W32) (i : Nat) : Byte :=
  if i < 4 then a.extractLsb' (8 * i) 8 else b.extractLsb' (8 * (i - 4)) 8

theorem getD_leBytes_append (a b : W32) {i : Nat} (hi : i < 8) :
    (leBytes 4 a.toNat ++ leBytes 4 b.toNat)[i]?.getD 0#8 = permSource a b i := by
  rw [permSource, List.getElem?_append, length_bytesOfNat, getElem?_bytesOfNat, getElem?_bytesOfNat,
    extractLsb'_byte, extractLsb'_byte]
  split
  · rfl
  · rw [if_pos (show i - 4 < 4 by omega)]; rfl

/-- The byte that perm puts out after those it has put out: a source byte, or the sign of the byte before (R119). -/
def permNext (src : List Byte) (sel : Nat) (out : List Byte) (j : Nat) : Byte :=
  if sel / 2 ^ (12 + j) % 2 = 0 then src[sel / 8 ^ j % 8]?.getD 0#8
  else match out.getLast? with
    | none => 0#8
    | some p => if p.msb then 0xFF#8 else 0#8

theorem permOf_eq (a b : W32) (sel : Nat) :
    permOf a b sel = BitVec.ofNat 32 (leNat ((List.range 4).foldl (fun out j =>
      out ++ [permNext (leBytes 4 a.toNat ++ leBytes 4 b.toNat) sel out j]) [])) := rfl

/-- The selector's fields lie in its low 16 bits (R119). -/
theorem selector_field_mod {sel j : Nat} (hj : j < 4) : sel % 65536 / 8 ^ j % 8 = sel / 2 ^ (3 * j) % 8 := by
  interval_cases j <;> omega

theorem selector_sign_mod {sel j : Nat} (hj : j < 4) :
    sel % 65536 / 2 ^ (12 + j) % 2 = 0 ↔ sel.testBit (12 + j) = false := by
  rw [Nat.testBit_eq_decide_div_mod_eq, decide_eq_false_iff_not]
  interval_cases j <;> omega

/-- The bytes put out so far are the stated ones. -/
theorem foldl_permNext (a b : W32) (sel : Nat) {n : Nat} (hn : n ≤ 4) :
    (List.range n).foldl (fun out j =>
        out ++ [permNext (leBytes 4 a.toNat ++ leBytes 4 b.toNat) (sel % 65536) out j]) []
      = (List.range n).map (permByte (permSource a b) sel) := by
  induction n with
  | zero => rfl
  | succ n ih =>
    rw [List.range_succ, List.foldl_append, ih (by omega), List.map_append, List.foldl_cons, List.foldl_nil,
      List.map_singleton, permNext, getD_leBytes_append a b (Nat.mod_lt _ (by decide)),
      selector_field_mod (by omega), if_congr (selector_sign_mod (by omega)) rfl rfl]
    congr 2
    cases n with
    | zero => cases hs : sel.testBit 12 <;> simp [permByte, hs]
    | succ n => cases hs : sel.testBit (12 + (n + 1)) <;> simp [permByte, hs, List.range_succ, BitVec.msb_eq_getLsbD_last]

theorem permOf_mod_eq (a b : W32) (sel : Nat) :
    let out := permByte (permSource a b) sel
    permOf a b (sel % 65536) = out 3 ++ out 2 ++ out 1 ++ out 0 := by
  rw [permOf_eq, foldl_permNext a b sel le_rfl]
  exact ofNat_leNat_four _ _ _ _

theorem sadOf_eq (a b : W32) :
    let d := fun i => Int.natAbs ((a.extractLsb' (8 * i) 8).toNat - (b.extractLsb' (8 * i) 8).toNat : Int)
    sadOf a b = d 0 + d 1 + d 2 + d 3 := by
  have dist : ∀ p q : Nat, max p q - min p q = Int.natAbs ((p : Int) - q) := fun p q => by omega
  simp only [sadOf, dist, extractLsb'_byte, BitVec.toNat_ofNat]
  simp [List.range_succ, Nat.add_assoc]

/-- A sum that is not negative, narrowed to an unsigned word (R118). -/
theorem narrow_natCast (sat : Bool) (v : Nat) :
    narrow 32 false sat v = BitVec.ofNat 32 (if sat then min v (2 ^ 32 - 1) else v) := by
  rw [← BitVec.ofInt_natCast]
  cases sat
  · rfl
  · have least : satZ v 32 = ((min v (2 ^ 32 - 1) : Nat) : Int) := by unfold satZ; omega
    exact congrArg (BitVec.ofInt 32) least

/-! ## Bits -/

/-- Leading zeros: the run of zero bits from the top down (R118). -/
theorem clzOf_eq {n : Nat} (a : BitVec n) :
    clzOf a = ((List.range n).takeWhile fun i => !a.getLsbD (n - 1 - i)).length := by
  unfold clzOf
  split
  · next zero =>
    have all : (List.range n).takeWhile (fun i => !a.getLsbD (n - 1 - i)) = List.range n := by
      rw [List.takeWhile_eq_self_iff]
      intro i _
      simp [BitVec.getLsbD, zero]
    rw [all, List.length_range]
  · next nonzero =>
    have top : a.toNat.log2 < n := (Nat.log2_lt nonzero).2 a.isLt
    have first : (List.range n).findIdx (fun i => !!a.getLsbD (n - 1 - i)) = n - 1 - a.toNat.log2 := by
      rw [List.findIdx_eq (by rw [List.length_range]; omega)]
      simp only [List.getElem_range, Bool.not_not]
      constructor
      · rw [show n - 1 - (n - 1 - a.toNat.log2) = a.toNat.log2 by omega]
        exact Nat.testBit_log2 nonzero
      · intro j hj
        exact Nat.testBit_lt_two_pow ((Nat.log2_lt nonzero).1 (by omega))
    rw [List.takeWhile_eq_take_findIdx_not, first, List.length_take, List.length_range]
    omega

theorem getLsbD_brevOf (n : Nat) (a : BitVec n) {k : Nat} (hk : k < n) :
    (brevOf n a).getLsbD k = a.getLsbD (n - 1 - k) := by
  have upto : ∀ m ≤ n,
      ((List.range m).foldl (fun r i => if a.getLsbD i then r ||| (1#n <<< (n - 1 - i)) else r) 0#n).getLsbD k
        = (decide (n - 1 - k < m) && a.getLsbD (n - 1 - k)) := by
    intro m hm
    induction m with
    | zero => simp
    | succ m ih =>
      have one : (1#n <<< (n - 1 - m)).getLsbD k = decide (n - 1 - k = m) := by
        rw [← BitVec.twoPow, BitVec.getLsbD_twoPow, ← Bool.decide_and, decide_eq_decide]
        omega
      have grown : decide (n - 1 - k < m + 1) = (decide (n - 1 - k < m) || decide (n - 1 - k = m)) := by
        rw [← Bool.decide_or, decide_eq_decide]
        omega
      rw [List.range_succ, List.foldl_append, List.foldl_cons, List.foldl_nil, grown, Bool.and_or_distrib_right,
        ← ih (by omega)]
      split
      · next isSet =>
        rw [BitVec.getLsbD_or, one]
        by_cases here : n - 1 - k = m <;> simp [here, isSet]
      · next isClear =>
        by_cases here : n - 1 - k = m <;> simp [here, isClear]
  rw [brevOf, upto n le_rfl, decide_eq_true (by omega), Bool.true_and]

end Sys2Proof.Machine
end

section
/-! The field, permute and counting instructions, the integer compares, sel and lea (R118 to R120). -/
namespace Sys2Proof.Machine
open Sys2Proof.Expect

variable {s : State} {i : Instr} {x : Issue} {e : Enc} {rel : Rel}

/-! ## Results at the width of a type, and bit by bit -/

/-- A result whose type fixes the width: a pair, or one register (R114). -/
theorem laneEffect_putTy (h : Issues s i x) {f32 : Nat → W32} {f64 : Nat → W64} {F : Issue → Group}
    (he : exec i s = issueOk i s F) (hF : F x = x.putTy x.g e f32 f64) :
    if e.ty.is64 then LaneEffect s i x e.d 2 (pairWord f64) else LaneEffect s i x e.d 1 fun _ => f32 := by
  unfold Issue.putTy at hF
  split
  · next wide => exact laneEffect_put2 h he (hF.trans (if_pos wide))
  · next single => exact laneEffect_put h he (hF.trans (if_neg single))

/-- A 32-bit result is given by the bits that each lane's word holds. -/
theorem bits32_put (h : Issues s i x) {d : BitVec 8} {f : Nat → W32} {F : Issue → Group} {p : Nat → Nat → Bool}
    (he : exec i s = issueOk i s F) (hF : F x = x.put x.g d f) (hp : ∀ l k, k < 32 → (f l).getLsbD k = p l k) :
    Bits32 s i x d p :=
  ⟨f, laneEffect_put h he hF, hp⟩

/-- A word's value as the model and the statements read it (R97). -/
theorem intOf_eq_asInt {n : Nat} (e : Enc) (a : BitVec n) : intOf e.ty.signed a = asInt e a := Bool.cond_eq_ite ..

/-! ## The instructions -/

theorem fsh_effect (h : Issues s (.fsh e) x) : LaneEffect s (.fsh e) x e.d 1 fun _ l =>
    BitVec.ofNat 32 (((x.g.opA e l).toNat * 2 ^ 32 + (x.g.opB e l).toNat)
      / 2 ^ (((x.g.opC e l).toNat + e.imm.toNat) % 2 ^ 32 % 32)) :=
  laneEffect_put h rfl (congrArg (x.put x.g e.d) (funext fun l => by
    rw [setWidth_append_ushiftRight, BitVec.toNat_add]))

theorem bfx_effect (h : Issues s (.bfx e) x) : LaneEffect s (.bfx e) x e.d 1 fun _ l =>
    let p := fieldP (x.g.opC e l) e.imm
    let w := fieldW (x.g.opC e l) e.imm
    let v : Nat := (x.g.opA e l).toNat / 2 ^ p % 2 ^ w
    BitVec.ofInt 32 (if e.ty.signed ∧ w ≠ 0 ∧ 2 ^ (w - 1) ≤ v then (v : Int) - 2 ^ w else v) :=
  laneEffect_put h rfl (congrArg (x.put x.g e.d) (funext fun _ => bfxOf_eq ..))

theorem bfi_effect (h : Issues s (.bfi e) x) : Bits32 s (.bfi e) x e.d fun l k =>
    let p := fieldP (x.g.opC e l) e.imm
    let w := fieldW (x.g.opC e l) e.imm
    if p ≤ k ∧ k < p + w then (x.g.opB e l).getLsbD (k - p) else (x.g.opA e l).getLsbD k :=
  bits32_put h rfl rfl fun _ _ => getLsbD_bfiOf _ _ _ _

theorem perm_effect (h : Issues s (.perm e) x) : LaneEffect s (.perm e) x e.d 1 fun _ l =>
    let sel := (if e.c = 0xFF#8 then e.imm else x.g.opC e l).toNat
    let out := permByte (permSource (x.g.opA e l) (x.g.opB e l)) sel
    out 3 ++ out 2 ++ out 1 ++ out 0 :=
  laneEffect_put h rfl (congrArg (x.put x.g e.d) (funext fun _ => permOf_mod_eq ..))

theorem popc_effect (h : Issues s (.popc e) x) : LaneEffect s (.popc e) x e.d 1 fun _ l =>
    BitVec.ofNat 32 (if e.ty.is64 then ((List.range 64).filter (x.g.opA64 e l).getLsbD).length
      else ((List.range 32).filter (x.g.opA e l).getLsbD).length) :=
  laneEffect_put h rfl rfl

theorem clz_effect (h : Issues s (.clz e) x) : Typed s (.clz e) x e fun n _ a _ _ =>
    BitVec.ofNat n ((List.range n).takeWhile fun i => !a.getLsbD (n - 1 - i)).length := by
  simp only [Typed, ← clzOf_eq]
  exact laneEffect_putTy h rfl rfl

theorem brev_effect (h : Issues s (.brev e) x) :
    if e.ty.is64 then Bits64 s (.brev e) x e.d fun l k => (x.g.opA64 e l).getLsbD (63 - k)
    else Bits32 s (.brev e) x e.d fun l k => (x.g.opA e l).getLsbD (31 - k) := by
  have effect := laneEffect_putTy (F := fun x => fxBrev x e x.g) h rfl rfl
  split
  · next wide => exact ⟨_, (if_pos wide).mp effect, fun l _ hk => getLsbD_brevOf 64 _ hk⟩
  · next single => exact ⟨_, (if_neg single).mp effect, fun l _ hk => getLsbD_brevOf 32 _ hk⟩

theorem sad_effect (h : Issues s (.sad e) x) : LaneEffect s (.sad e) x e.d 1 fun _ l =>
    let d := fun i =>
      Int.natAbs (((x.g.opA e l).extractLsb' (8 * i) 8).toNat - ((x.g.opB e l).extractLsb' (8 * i) 8).toNat : Int)
    let v := (x.g.opC e l).toNat + (d 0 + d 1 + d 2 + d 3)
    BitVec.ofNat 32 (if e.sat then min v (2 ^ 32 - 1) else v) :=
  laneEffect_put h rfl (congrArg (x.put x.g e.d) (funext fun l => by
    simp only [← sadOf_eq, ← narrow_natCast, Nat.cast_add]))

theorem cmp_effect (h : Issues s (.cmp rel e) x) : MaskEffect s (.cmp rel e) x e.d fun l =>
    decide (l ∈ x.lanes) && Rel.holds rel
      (if e.ty.is64 then asInt e (x.g.opA64 e l) else asInt e (x.g.opA e l))
      (if e.ty.is64 then asInt e (x.g.opB64 e l) else asInt e (x.g.opB e l)) := by
  refine maskEffect_laneMask h rfl (congrArg (fun p => x.putS x.g e.d (x.laneMask p)) (funext fun l => ?_))
  simp only [intOf_eq_asInt]
  split <;> rfl

theorem sel_effect (h : Issues s (.sel e) x) :
    let m := x.g.mreg (e.c.toNat - 0x40)
    if e.ty.is64 then
      LaneEffect s (.sel e) x e.d 2 (pairWord fun l => if m.getLsbD l then x.g.opA64 e l else x.g.opB64 e l)
    else LaneEffect s (.sel e) x e.d 1 fun _ l => if m.getLsbD l then x.g.opA e l else x.g.opB e l :=
  laneEffect_putTy h rfl rfl

theorem lea_effect (h : Issues s (.lea e) x) : LaneEffect s (.lea e) x e.d 2 (pairWord fun l =>
    let index := if e.ty.signed then (x.g.opB e l).signExtend 64 else (x.g.opB e l).setWidth 64
    x.g.opA64 e l + index * BitVec.ofNat 64 (2 ^ (e.c.toNat % 8)) + Enc.imm64 e) :=
  laneEffect_put2 h rfl rfl

/-- Settles O2: what the model computes from the words of a lane is the field, the byte, the count or the bit that the
statement names; the compares name the active lanes whose relation holds. -/
theorem integerFieldAndCompareResults : Obligations.IntegerFieldAndCompareResults :=
  ⟨fun _ _ _ => ⟨fsh_effect, bfx_effect, bfi_effect, perm_effect, popc_effect, clz_effect, brev_effect, sad_effect⟩,
    fun _ _ _ _ => ⟨cmp_effect, sel_effect, lea_effect⟩⟩

end Sys2Proof.Machine
end

section
/-! Floating-point instructions on lanes (R121 to R127): each is one function of the operands of a lane, whose result and
flags the model's formats give. -/
namespace Sys2Proof.Machine
open Sys2Proof.Expect

variable {s : State} {i : Instr} {x : Issue} {e : Enc}

/-! ## Operands and results of a lane -/

/-- The operands as the model reads them and as R114 gives them. -/
theorem fpOf_eq_fpBits : fpOf = fpBits := by
  funext ty w
  have whole : w.toNat % 2 ^ 32 = w.toNat := Nat.mod_eq_of_lt w.isLt
  cases ty
  case f16 | bf16 => rfl
  all_goals exact whole

/-- What a floating-point operation gives a lane, with its operands read by `rd`. -/
def laneFloat (rd : Ty → W32 → Nat) (op : Fmt → Rnd → Nat → Nat → Nat → Nat × Flags) (x : Issue) (e : Enc) (l : Nat) :
    Nat × Flags :=
  op (Fmt.ofTy e.ty) e.rnd (rd e.ty (x.g.opA e l)) (rd e.ty (x.g.opB e l)) (rd e.ty (x.g.opC e l))

/-- A lane result of one register with the flags of the active lanes. -/
theorem flagEffect_putF (h : Issues s i x) {d : BitVec 8} {r : Nat → W32 × Flags} {F : Issue → Group}
    (he : exec i s = issueOk i s F) (hF : F x = x.putF x.g d r) :
    FlagEffect s i x d 1 (fun _ l => (r l).1) fun l => (r l).2 :=
  flagEffect_putN h d 1 _ _ F he (by rw [hF, Issue.putF, Issue.put_eq])

/-- An instruction that puts the results of an operation has those of every operation equal to it. -/
theorem floatEffect (h : Issues s i x) {op op' : Fmt → Rnd → Nat → Nat → Nat → Nat × Flags}
    (hop : ∀ f r a b c, op f r a b c = op' f r a b c)
    (he : exec i s = issueOk i s fun x => x.putF x.g e.d fun l =>
      (BitVec.ofNat 32 (laneFloat fpOf op x e l).1, (laneFloat fpOf op x e l).2)) :
    FlagEffect s i x e.d 1 (fun _ l => BitVec.ofNat 32 (laneFloat fpBits op' x e l).1)
      fun l => (laneFloat fpBits op' x e l).2 := by
  have same : op = op' := by funext f r a b c; exact hop f r a b c
  rw [← same, ← fpOf_eq_fpBits]
  exact flagEffect_putF h he rfl

/-! ## The operations -/

/-- The sign bit is the top bit of the format (R94). -/
theorem Fmt.signBit_true (f : Fmt) : f.signBit true = 2 ^ (f.bits - 1) := by
  have top : f.bits - 1 = f.eb + f.mb := by rw [Fmt.bits]; omega
  rw [Fmt.signBit, top, Bool.toNat_true, Nat.one_mul]

/-- fmin and fmax: an operand that is no NaN stands before a NaN; of two, the order of the format decides (R123). -/
theorem Fmt.minMax_eq (f : Fmt) (isMax : Bool) (a b : Nat) :
    f.minMax isMax a b =
      (if (f.decode a).isNaN then (if (f.decode b).isNaN then f.nan else b)
        else if (f.decode b).isNaN then a
        else bif isMax then (if f.key a ≤ f.key b then b else a) else if f.key a ≤ f.key b then a else b,
        flagIf ((f.decode a).isSig || (f.decode b).isSig) flagNV) := by
  cases ha : (f.decode a).isNaN <;> cases hb : (f.decode b).isNaN
  case false.false =>
    by_cases hk : f.key a ≤ f.key b <;> cases isMax <;> simp [Fmt.minMax, ha, hb, hk]
  all_goals simp [Fmt.minMax, ha, hb]

/-- Settles O3: an E form and its B form are one operation on the operands of a lane, and each operation is the one that
the statement gives. -/
theorem floatResults : Obligations.FloatResults := by
  intro s x e b p hp
  simp only [floating, List.mem_cons, List.not_mem_nil, or_false] at hp
  have add : ∀ f r a b (_ : Nat), Fmt.add f r a b = f.sum r [f.decode a, f.decode b] := fun _ _ _ _ _ => rfl
  have sub : ∀ f r a b (_ : Nat), Fmt.sub f r a b = f.sum r [f.decode a, (f.decode b).neg] := fun _ _ _ _ _ => rfl
  rcases hp with rfl | rfl | rfl | rfl | rfl | rfl | rfl | rfl | rfl | rfl | rfl | rfl | rfl | rfl | rfl | rfl
  -- fadd, fsub and fmul
  iterate 2 exact fun h => floatEffect h add rfl
  iterate 2 exact fun h => floatEffect h sub rfl
  iterate 2 exact fun h => floatEffect h (op := fun f r a b _ => f.product r a b) (fun _ _ _ _ _ => rfl) rfl
  -- fma
  · exact fun h => floatEffect h (op := Fmt.fma) (fun _ _ _ _ _ => rfl) rfl
  -- fmin and fmax
  iterate 2 exact fun h => floatEffect h (fun f _ a b _ => f.minMax_eq false a b) rfl
  iterate 2 exact fun h => floatEffect h (fun f _ a b _ => f.minMax_eq true a b) rfl
  -- fneg, fabs and fcopysign
  · exact fun h => floatEffect h (op := fun f _ a _ _ => (a ^^^ f.signBit true, 0#5))
      (fun f _ _ _ _ => by rw [f.signBit_true]) rfl
  · exact fun h => floatEffect h (op := fun f _ a _ _ => (a % f.signBit true, 0#5))
      (fun f _ _ _ _ => by rw [f.signBit_true]) rfl
  · exact fun h => floatEffect h (op := fun f _ a b _ => (a % f.signBit true + b / f.signBit true * f.signBit true, 0#5))
      (fun f _ _ _ _ => by rw [f.signBit_true]) rfl
  -- fclass
  · refine fun h => floatEffect h (op := fun f _ a _ _ => (2 ^ f.classOf a, 0#5)) (fun f _ a _ _ => ?_) rfl
    simp only [Fmt.classOf]
    rcases f.decode a with (_ | _) | _ | _ <;> rfl
  -- frnd
  · exact fun h => floatEffect h (op := fun f r a _ _ => f.integral r a) (fun _ _ _ _ _ => rfl) rfl

end Sys2Proof.Machine
end

section
/-! What every instruction of the matrix array checks before it acts (R144, R152), and the kset instructions (R159). -/
namespace Sys2Proof.Machine
open Sys2Proof.Expect

variable {s : State} {i : Instr} {x : Issue} {e : Enc}

/-! ## The matrix mask and the tile predicate -/

/-- A precise trap in place of an effect on the chip (R359). -/
theorem issueC_trap (h : Issues s i x) {f : Issue → Chip → Eff Chip} {cause : BitVec 8} {val mask : W64}
    (hf : f x (x.chip0 s) = .trap cause val mask) : issueC i s f = .next (trapAt s x cause val mask) := by
  rw [issueC_of h, hf]
  rfl

theorem Issue.matrixMask_of_narrow (hw : x.g.width ≠ 64) (k : Eff Chip) :
    x.matrixMask k = .trap 0x0A (BitVec.ofNat 64 x.g.width) 0#64 :=
  if_pos hw

theorem Issue.matrixMask_of_missing (hw : x.g.width = 64) (hm : ~~~x.g0.exited &&& ~~~x.act ≠ 0#64) (k : Eff Chip) :
    x.matrixMask k = .trap 0x0A x.act (~~~x.g0.exited &&& ~~~x.act) :=
  (if_neg (not_not.2 hw)).trans (if_pos hm)

theorem Issue.matrixMask_of_whole (hw : x.g.width = 64) (hm : ~~~x.g0.exited &&& ~~~x.act = 0#64) (k : Eff Chip) :
    x.matrixMask k = k :=
  (if_neg (not_not.2 hw)).trans (if_neg (not_not.2 hm))

/-- The two matrix-mask traps, and the issue that a predicate bit of 0 leaves without effect (R144, R152). -/
def MatrixChecks (s : State) (i : Instr) (x : Issue) (e : Enc) : Prop :=
  (x.g.width ≠ 64 → exec i s = .next (trapAt s x 0x0A (BitVec.ofNat 64 x.g.width) 0#64))
  ∧ (x.g.width = 64 → ~~~x.g0.exited &&& ~~~x.act ≠ 0#64 →
    exec i s = .next (trapAt s x 0x0A x.act (~~~x.g0.exited &&& ~~~x.act)))
  ∧ (x.g.width = 64 → ~~~x.g0.exited &&& ~~~x.act = 0#64 → predicated x e = false → Acts s i (x.chip0 s))

/-- An effect behind the matrix-mask check that is none where the predicate bit is 0. -/
theorem matrixChecks_of_matrixMask (h : Issues s i x) {f : Issue → Chip → Eff Chip} {k : Eff Chip}
    (he : exec i s = issueC i s f) (hf : f x (x.chip0 s) = x.matrixMask k)
    (hk : predicated x e = false → k = .ok (x.chip0 s)) : MatrixChecks s i x e :=
  ⟨fun hw => he.trans (issueC_trap h (hf.trans (Issue.matrixMask_of_narrow hw k))),
    fun hw hm => he.trans (issueC_trap h (hf.trans (Issue.matrixMask_of_missing hw hm k))),
    fun hw hm hp => he.trans (issueC_ok h f _ (hf.trans ((Issue.matrixMask_of_whole hw hm k).trans (hk hp))))⟩

/-- mma and the tile instructions other than the drains. -/
theorem matrixChecks_of_issueMx (h : Issues s i x) {reads : Issue → PoolWord → Bool} {f : Issue → Chip → Eff Chip}
    (he : exec i s = issueMx i e s reads f) : MatrixChecks s i x e :=
  matrixChecks_of_matrixMask h he rfl fun hp => if_neg (Bool.eq_false_iff.1 hp)

theorem matrixChecks_of_runMma (h : Issues s i x) {m : MmaKind} (he : exec i s = runMma i e m s) :
    MatrixChecks s i x e :=
  matrixChecks_of_issueMx h he

theorem matrixChecks_of_runTileStore (h : Issues s i x) {n : Nat} {conv : W32 → Nat × Flags}
    (he : exec i s = runTileStore i e n conv s) : MatrixChecks s i x e :=
  matrixChecks_of_issueMx h he

/-- A drain that the array can take: fewer than 63 are outstanding (R155). That a tdrain.add whose bit
is 0 leaves its team's region open is the model's choice (log 131). -/
theorem matrixChecks_of_runDrain (h : Issues s i x) (hd : x.g.counters.drain < 63) {add : Option Bool}
    (he : exec i s = runDrain i e add s) : MatrixChecks s i x e :=
  matrixChecks_of_matrixMask h he (if_neg hd.not_ge) fun hp => if_pos ((Bool.not_eq_true' _).mpr hp)

/-! ## The instructions -/

theorem exec_mmaBf16 (e : Enc) (s : State) : exec (.mmaBf16 e) s = runMma (.mmaBf16 e) e .bf16 s := rfl
theorem exec_mmaF16 (e : Enc) (s : State) : exec (.mmaF16 e) s = runMma (.mmaF16 e) e .f16 s := rfl
theorem exec_mmaS8 (e : Enc) (s : State) : exec (.mmaS8 e) s = runMma (.mmaS8 e) e .s8 s := rfl
theorem exec_mmaZ8 (e : Enc) (s : State) : exec (.mmaZ8 e) s = runMma (.mmaZ8 e) e .z8 s := rfl
theorem exec_mmaLg6 (e : Enc) (s : State) : exec (.mmaLg6 e) s = runMma (.mmaLg6 e) e .lg6 s := rfl
theorem exec_tzero (e : Enc) (s : State) : exec (.tzero e) s = execTzero e s := rfl
theorem exec_tld (e : Enc) (s : State) : exec (.tld e) s = execTld e s := rfl
theorem exec_tst (e : Enc) (s : State) :
    exec (.tst e) s = runTileStore (.tst e) e 4 (fun w => (w.toNat, 0#5)) s := rfl
theorem exec_tcvt (e : Enc) (s : State) :
    exec (.tcvt e) s = runTileStore (.tcvt e) e (match e.ty with | .bf16 | .f16 => 2 | _ => 4) (tcvtOf e) s := rfl
theorem exec_tadd (e : Enc) (s : State) : exec (.tadd e) s = execTadd e s := rfl
theorem exec_tdrain (e : Enc) (s : State) : exec (.tdrain e) s = runDrain (.tdrain e) e none s := rfl
theorem exec_tdrainAdd (e : Enc) (s : State) :
    exec (.tdrainAdd e) s = runDrain (.tdrainAdd e) e (some (e.ty == .f32)) s := rfl

/-! ## kset -/

theorem Issue.meets_of_nothing_lost (hl : x.team.lostWords = []) (c : Chip) (reads : PoolWord → Bool) (k : Eff Chip) :
    x.meets c reads k = k := by
  have none : x.team.loses reads = false := by rw [Team.loses, hl, List.any_nil]
  cases k with
  | ok a => rw [Issue.meets, none]; rfl
  | _ => rfl

/-- A walk through the elements of an m × n array, row after row. -/
theorem any_range_mul (p : Nat → Nat → Bool) (m n : Nat) (hn : 0 < n) :
    ((List.range (m * n)).any fun k => p (k / n) (k % n)) = (List.range m).any fun i => (List.range n).any (p i) := by
  rw [Bool.eq_iff_iff]
  simp only [List.any_eq_true, List.mem_range]
  constructor
  · rintro ⟨k, hk, h⟩
    exact ⟨k / n, Nat.div_lt_of_lt_mul (Nat.mul_comm m n ▸ hk), k % n, Nat.mod_lt k hn, h⟩
  · rintro ⟨i, hi, j, hj, h⟩
    refine ⟨j + n * i, ?_, ?_⟩
    · calc j + n * i < n * (i + 1) := by rw [Nat.mul_succ]; omega
        _ ≤ m * n := Nat.mul_comm m n ▸ Nat.mul_le_mul_left n hi
    · rwa [Nat.add_mul_div_left _ _ hn, Nat.div_eq_of_lt hj, Nat.zero_add, Nat.add_mul_mod_self_left, Nat.mod_eq_of_lt hj]

/-- A bit of a word set or cleared; the others stay. -/
theorem getLsbD_setOrClear (old : W64) (b : Bool) (n k : Nat) (hk : k < 64) :
    (if b then old ||| bit n else old &&& ~~~bit n).getLsbD k = if k = n then b else old.getLsbD k := by
  cases b
  · rw [if_neg Bool.false_ne_true, BitVec.getLsbD_and, BitVec.getLsbD_not, getLsbD_bit n k hk]
    by_cases hn : k = n <;> simp [hn, hk]
  · rw [if_pos rfl, BitVec.getLsbD_or, getLsbD_bit n k hk]
    by_cases hn : k = n <;> simp [hn]

/-- Whether some element of the tile that kset.nonzero names counts as nonzero, its elements walked in one run. -/
def someNonzero (x : Issue) (e : Enc) : Bool :=
  (List.range 1024).any fun k => tileNonzero e.ty (x.team.tile (tileOf e.a) (k / 32) (k % 32))

/-- What kset.nonzero puts into its destination. -/
def ksetNonzeroWord (x : Issue) (e : Enc) : W64 :=
  if someNonzero x e then x.g.scalar e.d.toNat ||| bit (tileOf e.a) else x.g.scalar e.d.toNat &&& ~~~bit (tileOf e.a)

theorem exec_ksetNonzero (e : Enc) (s : State) :
    exec (.ksetNonzero e) s = issueC (.ksetNonzero e) s fun x c =>
      x.meets c (tileReads (tileOf e.a)) (.ok (c.setGroup (x.putS x.g e.d (ksetNonzeroWord x e)))) := rfl

theorem someNonzero_eq (x : Issue) (e : Enc) :
    someNonzero x e = (List.range 32).any fun i => (List.range 32).any fun j =>
      if e.ty = .f32 then (x.team.tile (e.a.toNat - 0x80) i j).toNat % 2 ^ 31 != 0
      else (x.team.tile (e.a.toNat - 0x80) i j) != 0#32 :=
  any_range_mul (fun i j => tileNonzero e.ty (x.team.tile (tileOf e.a) i j)) 32 32 (by decide)

/-- Where no word of the team is lost, kset.nonzero is one result put at group scope. -/
theorem ksetNonzero_effect (h : Issues s (.ksetNonzero e) x) (hl : x.team.lostWords = []) :
    ScalarEffect s (.ksetNonzero e) x e.d (ksetNonzeroWord x e) :=
  scalarEffect_putS h e.d _ (fun x => x.putS x.g e.d (ksetNonzeroWord x e))
    ((exec_ksetNonzero e s).trans ((issueC_ok h _ _ (Issue.meets_of_nothing_lost hl ..)).trans (issueOk_of h _).symm)) rfl

/-- Settles O19: every instruction of the array has its effect behind the matrix-mask check and the predicate; a kset of
registers is one result put at group scope, and kset.nonzero writes one bit. -/
theorem matrixMaskAndTilePredicates : Obligations.MatrixMaskAndTilePredicates := by
  refine ⟨fun s x e i hi h hd => ?_, fun s x e => ⟨fun p hp h => ?_, fun h hl _ => ?_⟩⟩
  · simp only [List.mem_cons, List.not_mem_nil, or_false] at hi
    rcases hi with rfl | rfl | rfl | rfl | rfl | rfl | rfl | rfl | rfl | rfl | rfl | rfl
    -- mma
    · exact matrixChecks_of_runMma h (exec_mmaBf16 e s)
    · exact matrixChecks_of_runMma h (exec_mmaF16 e s)
    · exact matrixChecks_of_runMma h (exec_mmaS8 e s)
    · exact matrixChecks_of_runMma h (exec_mmaZ8 e s)
    · exact matrixChecks_of_runMma h (exec_mmaLg6 e s)
    -- the tile instructions
    · exact matrixChecks_of_issueMx h (exec_tzero e s)
    · exact matrixChecks_of_issueMx h (exec_tld e s)
    · exact matrixChecks_of_runTileStore h (exec_tst e s)
    · exact matrixChecks_of_runTileStore h (exec_tcvt e s)
    · exact matrixChecks_of_issueMx h (exec_tadd e s)
    -- the drains
    · exact matrixChecks_of_runDrain h hd (exec_tdrain e s)
    · exact matrixChecks_of_runDrain h hd (exec_tdrainAdd e s)
  · simp only [List.mem_cons, List.not_mem_nil, or_false] at hp
    rcases hp with rfl | rfl | rfl | rfl <;> exact scalarEffect_putS h e.d _ _ rfl rfl
  · refine ⟨ksetNonzeroWord x e, ksetNonzero_effect h hl, fun k hk => ?_⟩
    rw [ksetNonzeroWord, getLsbD_setOrClear _ _ _ k hk, someNonzero_eq]
    rfl

end Sys2Proof.Machine
end

section
/-! The instructions that trap by themselves and the return from a trap (R31, R362, R363). -/
namespace Sys2Proof.Machine
open Sys2Proof.Expect

variable {s : State} {i : Instr} {x : Issue} {e : Enc}

/-! ## The issuing group on the chip -/

/-- An issue is one of the group that it names, and the bookkeeping of the issue leaves the group's number. -/
theorem Chip.issueAt_group? {c : Chip} {gid : Nat} (h : c.issueAt gid i = some x) :
    ∃ g, c.group? gid = some g ∧ x.g.id = g.id := by
  unfold Chip.issueAt at h
  split at h
  · cases h
  · next g hg =>
    split at h
    · split at h
      · cases h
      · obtain rfl := Option.some.inj h
        exact ⟨g, hg, by simp⟩
    · cases h

theorem Chip.id_of_group? {c : Chip} {n : Nat} {g : Group} (h : c.group? n = some g) : g.id = n :=
  beq_iff_eq.1 (List.find?_some (p := fun x : Group => x.id == n) h)

/-- The chip on which an effect acts has the issuing group, as the issue leaves it (R43). -/
theorem Issues.group?_chip0 (h : Issues s i x) : (x.chip0 s).group? x.g.id = some x.g := by
  obtain ⟨gid, hx⟩ := h.issueAt
  obtain ⟨g, hg, hid⟩ := Chip.issueAt_group? hx
  rw [← Chip.id_of_group? hg, ← hid] at hg
  refine Chip.group?_setGroup _ x.g g ?_
  split
  · exact hg
  · rw [Chip.acquire_eq]
    exact hg

/-! ## Traps after the issue -/

/-- A trap taken once the instruction has had its effect on its group: the group, as the effect leaves it, takes the trap
at the next address (R362). -/
theorem acts_after (h : Issues s i x) {f : Issue → Eff Group} {g : Group} {cause : BitVec 8} {val mask : W64}
    (he : exec i s = issueG i s f) (hf : f x = .after g cause val mask) (hid : g.id = x.g.id) :
    Acts s i (((x.chip0 s).setGroup g).takeTrap g { cause, pc := BitVec.ofNat 64 (x.ia + x.len), val, mask }) := by
  have resident : ((x.chip0 s).setGroup g).group? x.g.id = some g :=
    hid ▸ Chip.group?_setGroup _ g x.g (hid ▸ h.group?_chip0)
  rw [Acts, he, issueG, issueC_of h, hf]
  simp only [Eff.map, Chip.settle, resident]

/-- trap and brk: the trap comes after the issue where a lane is active; where none is, only the issue happens (R362). -/
theorem trap_after_issue (h : Issues s i x) {cause : BitVec 8} {val : W64}
    (he : exec i s = issueG i s fun x => if x.act = 0#64 then .ok x.g else .after x.g cause val x.act) :
    (x.act = 0#64 → Acts s i ((x.chip0 s).setGroup x.g))
    ∧ (x.act ≠ 0#64 → Acts s i (((x.chip0 s).setGroup x.g).takeTrap x.g
        { cause, pc := BitVec.ofNat 64 (x.ia + x.len), val, mask := x.act })) :=
  ⟨fun ha => he.trans (issueG_ok h _ _ (if_pos ha)), fun ha => acts_after h he (if_neg ha) rfl⟩

/-! ## The return from a trap -/

/-- The lanes after the return: the running ones stand at xpc, and the held ones run again (R363). -/
theorem Group.getElem?_returnFromTrap (g : Group) (l : Nat) :
    g.returnFromTrap.lanes[l]? = (g.lanes[l]?).map fun y =>
      if y.st = .running then { y with pc := g.xpc } else if y.st = .held then { y with st := .running } else y := by
  rw [Group.returnFromTrap, List.getElem?_map]
  congr 1
  funext y
  cases y.st <;> simp

/-- The return changes the lanes and what says that a handler runs, and nothing else of the group. -/
theorem Group.returnFromTrap_rest (g : Group) :
    { g.returnFromTrap with inh := g.inh, hlanes := g.hlanes, lanes := g.lanes } = g := rfl

/-- rft outside a handler (R363). -/
theorem rft_outside_handler (h : Issues s (.rft e) x) (hi : x.g.inh = false) :
    exec (.rft e) s = .next (trapState s x 0x01 (xvalWords (.rft e))) :=
  issueG_trap h (if_pos (by rw [hi, Bool.not_false]))

/-- In a handler rft is the misaligned trap of its target, or the return (R363). -/
theorem rft_in_handler (h : Issues s (.rft e) x) (hi : x.g.inh = true) :
    (x.g.xpc.toNat % 4 ≠ 0 → exec (.rft e) s = .next (trapState s x 0x09 x.g.xpc))
    ∧ (x.g.xpc.toNat % 4 = 0 → Acts s (.rft e) ((x.chip0 s).setGroup x.g.returnFromTrap)) := by
  have inHandler : ¬ (!x.g.inh) = true := by simp [hi]
  exact ⟨fun ht => issueG_trap h ((if_neg inHandler).trans (if_pos ht)),
    fun ht => issueG_ok h _ _ ((if_neg inHandler).trans (if_neg (not_not.2 ht)))⟩

/-- Settles O33: illegal is its precise trap, trap and brk are one trap after the issue at two causes, and rft is a trap or
the return, whose lanes and frame are given by themselves. -/
theorem trapInstructions : Obligations.TrapInstructions := by
  intro s x e ws
  refine ⟨fun h => issueG_trap h rfl, fun p hp h => ?_, rft_outside_handler, fun h hi => (rft_in_handler h hi).1,
    fun h hi ht =>
      ⟨x.g.returnFromTrap, (rft_in_handler h hi).2 ht, rfl, x.g.returnFromTrap_rest, x.g.getElem?_returnFromTrap⟩⟩
  simp only [List.mem_cons, List.not_mem_nil, or_false] at hp
  rcases hp with rfl | rfl <;> exact trap_after_issue h rfl

end Sys2Proof.Machine
end
